-- ==== Sys2Proof/Word.lean ====
section
/-! DEFINITION. Machine words: bytes, 64-bit words, digests, and the plainest helpers on them (spec R4, R5, R9). -/

namespace Sys2Proof

/-- One byte of memory. -/
abbrev Byte := BitVec 8

/-- A 64-bit register value, record word or instruction word (R69, R182). -/
abbrev Word := BitVec 64

/-- A 256-bit digest, key or nonce (R102, R103, R106). -/
abbrev Digest := BitVec 256

/-- `bits(x, lo + n - 1, lo)` of R9 on a natural number. -/
def nbits (x lo n : Nat) : Nat := x / 2 ^ lo % 2 ^ n

/-- One bit of a natural number, as a Bool. -/
def nbit (x k : Nat) : Bool := x / 2 ^ k % 2 == 1

/-- 1 for true and 0 for false. -/
def b2n (b : Bool) : Nat := if b then 1 else 0

/-- Little-endian value of a list of bytes: the first byte holds bits 7 to 0 (R5). -/
def leNat : List Byte → Nat
  | [] => 0
  | b :: bs => b.toNat + 256 * leNat bs

/-- The `n` little-endian bytes of a natural number (R5). -/
def leBytes : Nat → Nat → List Byte
  | 0, _ => []
  | n + 1, x => BitVec.ofNat 8 x :: leBytes n (x / 256)

/-- Little-endian bytes of a list of 64-bit words. -/
def wordsBytes : List Word → List Byte
  | [] => []
  | w :: ws => leBytes 8 w.toNat ++ wordsBytes ws

end Sys2Proof
end

