-- ==== Sys2Proof/Syntax.lean ====
section
/-! DEFINITION. The instruction syntax: one constructor of `Instr` for each row of spec/opcode_table.json.
Rows that a 64-bit word encodes (spec/04) carry that word's fields; the other rows are steps of the Landing,
the engines, the RSC, the host and the links, and carry the parameters their rules name. -/

namespace Sys2Proof

/-- A scalar register field, s0 to s63 (R73). -/
abbrev Reg := Fin 64
/-- A predicate index, p0 to p7 (R71). -/
abbrev Pred := Fin 8
/-- A package hall number, 0 to 47 (R16). -/
abbrev HallId := Fin 48
/-- A facet number, 0 to 47 (R17). -/
abbrev FacetId := Fin 48
/-- A column of a hall's grid (R17). -/
abbrev Col := Fin 10
/-- A row of a hall's grid (R17). -/
abbrev Row := Fin 8
/-- A channel i0 to i3 or o0 to o3 (R10). -/
abbrev Chan := Fin 4

/-- A guard field GA or GB (R71). -/
structure Guard where
  neg : Bool
  pix : Pred
  deriving DecidableEq, Repr

/-- Stream mark MK (R73): compute, address, both. -/
inductive Mark | c | a | b
  deriving DecidableEq, Repr

/-- Cache hint CH (R76). -/
inductive Hint | dflt | stream | keep | noL2 | lastUse | memSide
  deriving DecidableEq, Repr

/-- The fields every S, SI and SL word shares (R73). -/
structure SHdr where
  ga : Guard
  gb : Guard
  mark : Mark
  ch : Hint
  y  : Bool
  w  : Fin 4
  deriving DecidableEq, Repr

/-- Scopes in increasing order of extent (R1, R80). -/
inductive Scope | facet | hall | gallery | die | package | pod
  deriving DecidableEq, Repr

/-- Ordering qualifier ORD (R80). -/
inductive Ord | relaxed | acq | rel | ar
  deriving DecidableEq, Repr

/-- Access size SZ (R79). -/
inductive Sz | b | h | w | d
  deriving DecidableEq, Repr

/-- SZ, ORD and SCP of an atomic (R80); `dbl` is SZ = 11. -/
structure Sync where
  dbl : Bool
  ord : Ord
  scp : Scope
  deriving DecidableEq, Repr

/-- Conditions of CMP and ICMP (R194). -/
inductive Cond | eq | ne | lt | ge | le | gt | ltu | geu | leu | gtu
  deriving DecidableEq, Repr

/-- How CMP combines its outcome with the predicate (R194). -/
inductive Combine | set | and | or
  deriving DecidableEq, Repr

/-- Operations of RED (R364). -/
inductive RedOp | add | fadd | and | or | xor | min | max
  deriving DecidableEq, Repr

/-- The system registers of R419, R387, R204 and R324. -/
inductive SysReg
  | hallId | hallSplit | ctxId | kdCur | ctxPtroot | ctxStarve | ctxFpol
  | trapCause | trapInfo | trapPc | trapVec | trapAct | trapK0 | trapK1
  | wdogPeriod | wdogCount
  | ctxEvbase | ctxEvsize | ctxEvhead | ctxEvtail | ctxEvlost
  | ctxSpillbase | ctxSpillslots | ctxVc
  | ctxMode | ctxLogbase | ctxLogsize | ctxLoghead | ctxLogtail | ctxRacectl
  | seqLc | seqLs | seqLe | seqRestarts | facetSeed | ctxArctl
  | mxFlags | mxElog0 | mxElog1 | mxElog2 | l2Waymask
  deriving DecidableEq, Repr

/-- Element formats by their codes (R38, R44, R45). -/
inductive Fmt
  | int8 | int32 | fp64 | fp32 | fp16 | bf16 | e5m2 | e4m3 | e3m2 | e2m3 | e2m1 | e8m0
  | bfp2 | bfp3 | bfp4 | bfp5 | bfp6 | bfp7 | bfp8
  deriving DecidableEq, Repr

/-- The four formats FN[1:0] names in the floating-point F words (R225). -/
inductive FFmt | f32 | f16 | bf16 | f64
  deriving DecidableEq, Repr

/-- Rounding modes (R9, R50). -/
inductive RMode | rn | rz | ru | rd | rs
  deriving DecidableEq, Repr

/-- Facet operand codes (R82). -/
inductive Opnd
  | e (k : Fin 8)       -- element register
  | deq (k : Chan)      -- dequeue the head token of ik
  | peek (k : Chan)     -- peek at the head token of ik
  | push (k : Chan)     -- push a token on ok
  | areg (k : Fin 4)    -- bank address register
  | bank (k : Fin 4)    -- bank word at ak
  | imm                 -- immediate from FN
  | zero                -- zero as a source, discard as a destination
  | ones                -- all ones
  deriving DecidableEq, Repr

/-- The fields every F word shares (R81); `tag` is some (TC, TV) when TE = 1. -/
structure FHdr where
  ga   : Guard
  gb   : Guard
  ins  : BitVec 4
  tag  : Option (Chan × Fin 4)
  outs : BitVec 4
  pi   : Pred
  po   : Fin 4
  deriving DecidableEq, Repr

/-- FSGN's sign selector (R228). -/
inductive SgnOp | cpy | neg | xor | abs
  deriving DecidableEq, Repr

/-- FCMP's conditions (R229). -/
inductive FCond | eq | ne | lt | le | gt | ge | un | ord
  deriving DecidableEq, Repr

/-- Token kinds (R210). -/
inductive TKind | data | stop | scale | done
  deriving DecidableEq, Repr

/-- FAMO operations (R245). -/
inductive AmoOp | add | and | or | xor | min | max | swp | fadd
  deriving DecidableEq, Repr

/-- PSET tests (R247). -/
inductive PTest | data | stop | scale | done | lot | lvl | nz | true
  deriving DecidableEq, Repr

/-- Trigger selector of CTR and MPORT (R337). -/
inductive Trig | once | ci0 | ci1
  deriving DecidableEq, Repr

/-- How a configuration fetch ended (R173, R174). -/
inductive FetchEnd | ok | poisoned
  deriving DecidableEq, Repr

/-- One kernel of a context's library: its image as 64-bit words and its manifest digest (R34, R118). -/
structure LibImage where
  words  : List Word
  digest : Digest
  deriving DecidableEq, Repr

/-- The body of a CTX_CREATE request (R434, R119, R130, R440). -/
structure CreateBody where
  vf : Nat
  slot : Fin 16
  halls : BitVec 48
  library : List LibImage
  dispIdx : Nat
  quota0 : Nat
  quota1 : Nat
  fpol : Word
  ptroot : Word
  spillBase : Word
  spillSlots : Nat
  evSize : Nat
  peers : List (Nat × Word)
  deriving DecidableEq, Repr

/-- A message that arrives over a pod link (R443): the fields of the sender's slot and its data. -/
structure PodMsg where
  fromPkg : Fin 64
  fromHall : HallId
  fromCtx : Word
  kind : Fin 4
  hall : HallId
  doff : Nat
  data : List Byte
  poff : Nat
  pval : BitVec 32
  deriving DecidableEq, Repr

/-- Which component's signature check fails in a boot (R102, R446); `none` when all verify. -/
abbrev BootFail := Option (Fin 8)

/-- One constructor for each row of spec/opcode_table.json. -/
inductive Instr
  -- integer instructions (R190 to R194)
  | add (h : SHdr) (a b c : Reg)
  | sub (h : SHdr) (a b c : Reg)
  | mul (h : SHdr) (a b c : Reg)
  | mulh (h : SHdr) (a b c : Reg) (u : Bool)
  | div (h : SHdr) (a b c : Reg) (u : Bool)
  | rem (h : SHdr) (a b c : Reg) (u : Bool)
  | and (h : SHdr) (a b c : Reg)
  | or (h : SHdr) (a b c : Reg)
  | xor (h : SHdr) (a b c : Reg)
  | andn (h : SHdr) (a b c : Reg)
  | shl (h : SHdr) (a b c : Reg)
  | shr (h : SHdr) (a b c : Reg)
  | sra (h : SHdr) (a b c : Reg)
  | min (h : SHdr) (a b c : Reg) (u : Bool)
  | max (h : SHdr) (a b c : Reg) (u : Bool)
  | clz (h : SHdr) (a b : Reg)
  | popc (h : SHdr) (a b : Reg)
  | bfx (h : SHdr) (a b c : Reg) (sx : Bool)
  | bfi (h : SHdr) (a b c d : Reg)
  | sel (h : SHdr) (a b c : Reg) (p : Pred)
  | cmp (h : SHdr) (p : Pred) (b c : Reg) (k : Combine) (cond : Cond)
  | mad (h : SHdr) (a b c d : Reg)
  | lea (h : SHdr) (a b c : Reg) (x32 : Bool) (sh : Fin 8)
  -- immediate forms (R195)
  | addi (h : SHdr) (a b : Reg) (imm : BitVec 28)
  | muli (h : SHdr) (a b : Reg) (imm : BitVec 28)
  | andi (h : SHdr) (a b : Reg) (imm : BitVec 28)
  | ori (h : SHdr) (a b : Reg) (imm : BitVec 28)
  | xori (h : SHdr) (a b : Reg) (imm : BitVec 28)
  | shli (h : SHdr) (a b : Reg) (n : Fin 64)
  | shri (h : SHdr) (a b : Reg) (n : Fin 64)
  | srai (h : SHdr) (a b : Reg) (n : Fin 64)
  | cmpi (h : SHdr) (a b : Reg) (imm : BitVec 28)
  | movi (h : SHdr) (a : Reg) (imm : BitVec 34)
  | movhi (h : SHdr) (a : Reg) (imm : BitVec 30)
  -- system registers (R202 to R204, R419)
  | sysr (h : SHdr) (a c : Reg) (r : SysReg)
  | sysw (h : SHdr) (b c : Reg) (r : SysReg)
  | syswSeqLc (h : SHdr) (b c : Reg)
  | syswFacetSeed (h : SHdr) (b c : Reg)
  | syswL2Waymask (h : SHdr) (b c : Reg)
  | syswEvBase (h : SHdr) (b c : Reg)
  | syswEvSize (h : SHdr) (b c : Reg)
  | syswEvTail (h : SHdr) (b c : Reg)
  | syswEvLost (h : SHdr) (b c : Reg)
  | syswLogTail (h : SHdr) (b c : Reg)
  | syswLogHead (h : SHdr) (b c : Reg)
  | syswRacectl (h : SHdr) (b c : Reg)
  | syswMxFlags (h : SHdr) (b c : Reg)
  -- control (R196 to R201, R155, R402)
  | nop (h : SHdr)
  | br (h : SHdr) (imm : BitVec 34)
  | jmp (h : SHdr) (b c : Reg)
  | call (h : SHdr) (a : Reg) (imm : BitVec 34)
  | ret (h : SHdr) (b : Reg)
  | loop (h : SHdr) (a : Reg) (imm : BitVec 28)
  | yield (h : SHdr)
  | exit (h : SHdr)
  | trap (h : SHdr) (code : BitVec 8)
  -- loads and stores (R271)
  | ld (h : SHdr) (a b : Reg) (sz : Sz) (sx : Bool) (off : BitVec 25)
  | st (h : SHdr) (a b : Reg) (sz : Sz) (off : BitVec 25)
  | ldx (h : SHdr) (a b c : Reg) (sz : Sz) (sx : Bool) (sh : Fin 8)
  | stx (h : SHdr) (a b c : Reg) (sz : Sz) (sh : Fin 8)
  -- full/empty accesses (R355 to R358)
  | ldf (h : SHdr) (a b : Reg) (dbl : Bool) (off : BitVec 25)
  | lde (h : SHdr) (a b : Reg) (dbl : Bool) (off : BitVec 25)
  | ste (h : SHdr) (a b : Reg) (dbl : Bool) (off : BitVec 25)
  | stf (h : SHdr) (a b : Reg) (dbl : Bool) (off : BitVec 25)
  | festF (h : SHdr) (b c : Reg)
  | festE (h : SHdr) (b c : Reg)
  | feWaitServe (hall : HallId) (word : Nat)
  -- prefetch and L1 maintenance (R272, R273)
  | pfx (h : SHdr) (b c : Reg) (l2 : Bool) (lines : Fin 256)
  | flush (h : SHdr) (b c : Reg)
  | inval (h : SHdr) (b c : Reg) (wb : Bool)
  -- atomics (R361 to R364)
  | amadd (h : SHdr) (a b c : Reg) (y : Sync)
  | amand (h : SHdr) (a b c : Reg) (y : Sync)
  | amor (h : SHdr) (a b c : Reg) (y : Sync)
  | amxor (h : SHdr) (a b c : Reg) (y : Sync)
  | ammin (h : SHdr) (a b c : Reg) (y : Sync) (u : Bool)
  | ammax (h : SHdr) (a b c : Reg) (y : Sync) (u : Bool)
  | amswp (h : SHdr) (a b c : Reg) (y : Sync)
  | amcas (h : SHdr) (a b c d : Reg) (p : Pred) (y : Sync)
  | amincw (h : SHdr) (a b c : Reg) (y : Sync)
  | amfab (h : SHdr) (a b c d : Reg) (p : Pred) (y : Sync)
  | red (h : SHdr) (b c : Reg) (y : Sync) (op : RedOp)
  | redPerform (hall : HallId)
  | amfadd (h : SHdr) (a b c : Reg) (y : Sync)
  -- ordering (R367 to R372)
  | fence (h : SHdr) (ord : Ord) (scp : Scope)
  | bar (h : SHdr) (fab : Bool)
  | gbar (h : SHdr) (a : Reg)
  | gbarGenerationComplete (gal : Fin 8) (unit : Fin 3)
  -- launch (R132 to R155)
  | trig (h : SHdr)
  | triggerWalk (die : Fin 2)
  | mark (h : SHdr) (b : Reg)
  | beat (h : SHdr)
  | spawn (h : SHdr) (b : Reg) (xd : Bool)
  | cfgld (h : SHdr) (a b : Reg)
  | cfgrel (h : SHdr) (b : Reg)
  -- tokens (R205 to R207)
  | pusht (h : SHdr) (a b c d e : Reg) (ch : Chan)
  | popt (h : SHdr) (a b c d e : Reg) (ch : Chan) (k : Bool)
  | ctltSend (h : SHdr) (line : Fin 2)
  | ctltConsume (h : SHdr) (line : Fin 2)
  -- copies (R280 to R293)
  | cpy (h : SHdr) (a b c d : Reg)
  | cpyT (h : SHdr) (a b c : Reg)
  | copyComplete (hall : HallId) (id : Nat)
  | copyFaultPark (hall : HallId) (id : Nat)
  | cpyc (h : SHdr) (a b : Reg) (ch : Fin 8)
  | chainRecord (hall : HallId) (ch : Fin 8)
  | cpym (h : SHdr) (a b c d : Reg) (g : Fin 64)
  | cpyqCount (h : SHdr) (a : Reg)
  | cpyqChain (h : SHdr) (a : Reg) (ch : Fin 8)
  | cpyqGq (h : SHdr) (a b : Reg)
  | cpyqGset (h : SHdr) (a b : Reg)
  | cpyqGres (h : SHdr) (a b : Reg)
  -- in-array operations, migration, tensor table (R297, R274, R305)
  | acpy (h : SHdr) (a b c d : Reg)
  | afill (h : SHdr) (a b c d : Reg)
  | aand (h : SHdr) (a b c d e : Reg)
  | aor (h : SHdr) (a b c d e : Reg)
  | axor (h : SHdr) (a b c d e : Reg)
  | anot (h : SHdr) (a b c d : Reg)
  | arrayOpComplete (hall : HallId) (id : Nat)
  | pmov (h : SHdr) (a b : Reg) (far : Bool)
  | pmovComplete (hall : HallId) (id : Nat)
  | tdef (h : SHdr) (a b c d e : Reg)
  | tdrop (h : SHdr) (a : Reg)
  -- matrix control words (R313)
  | mma (acc : Fin 16) (accum tr al bl : Bool) (tida tidb ks : BitVec 8) (ta ct : Bool)
  | mmag (acc : Fin 16) (accum tr bl : Bool) (tida tidb ks : BitVec 8) (ct : Bool)
  | mxz (acc : Fin 16) (all ct : Bool)
  | mxrd (acc : Fin 16) (tidc epi : BitVec 8) (ct : Bool)
  | mxld (acc : Fin 16) (tidc : BitVec 8) (ct : Bool)
  | mxepi (acc : Fin 16) (tidc epi : BitVec 8) (ct : Bool)
  -- facets (R218 to R248)
  | facetCycle (hall : HallId) (n : FacetId)
  | starvationUrgent (hall : HallId) (n : FacetId) (slot : Fin 16)
  | fadd (f : FHdr) (d x y : Opnd) (fmt : FFmt)
  | fsub (f : FHdr) (d x y : Opnd) (fmt : FFmt)
  | fmul (f : FHdr) (d x y : Opnd) (fmt : FFmt)
  | ffma (f : FHdr) (d x y z : Opnd) (fmt : FFmt)
  | fmin (f : FHdr) (d x y : Opnd) (fmt : FFmt)
  | fmax (f : FHdr) (d x y : Opnd) (fmt : FFmt)
  | fsgn (f : FHdr) (d x y : Opnd) (op : SgnOp) (fmt : FFmt)
  | fcmp (f : FHdr) (d x y : Opnd) (cond : FCond) (all : Bool) (fmt : FFmt)
  | esel (f : FHdr) (d x y z : Opnd)
  | fexp2 (f : FHdr) (d x : Opnd) (fmt : FFmt)
  | flog2 (f : FHdr) (d x : Opnd) (fmt : FFmt)
  | frcp (f : FHdr) (d x : Opnd) (fmt : FFmt)
  | frsq (f : FHdr) (d x : Opnd) (fmt : FFmt)
  | fsqrt (f : FHdr) (d x : Opnd) (fmt : FFmt)
  | ftanh (f : FHdr) (d x : Opnd) (fmt : FFmt)
  | fsigm (f : FHdr) (d x : Opnd) (fmt : FFmt)
  | iadd (f : FHdr) (d x y : Opnd) (imm : BitVec 10)
  | isub (f : FHdr) (d x y : Opnd) (imm : BitVec 10)
  | imul (f : FHdr) (d x y : Opnd) (imm : BitVec 10)
  | imad (f : FHdr) (d x y z : Opnd) (imm : BitVec 10)
  | imin (f : FHdr) (d x y : Opnd) (u : Bool)
  | imax (f : FHdr) (d x y : Opnd) (u : Bool)
  | iand (f : FHdr) (d x y : Opnd) (imm : BitVec 10)
  | ior (f : FHdr) (d x y : Opnd) (imm : BitVec 10)
  | ixor (f : FHdr) (d x y : Opnd) (imm : BitVec 10)
  | ishl (f : FHdr) (d x y : Opnd) (imm : BitVec 10)
  | ishr (f : FHdr) (d x y : Opnd) (s : Bool)
  | icmp (f : FHdr) (d x y : Opnd) (cond : Cond) (all : Bool)
  | iclmp (f : FHdr) (d x y z : Opnd) (u : Bool)
  | cvt (f : FHdr) (d x y : Opnd) (mode : RMode) (fmt : Fmt) (dir sc : Bool)
  | merge (f : FHdr) (o i : Chan) (k : Fin 8)
  | split (f : FHdr) (o : Chan) (x y : Opnd) (imm : BitVec 10)
  | tsum (f : FHdr) (d x : Opnd) (fmt : FFmt) (int : Bool)
  | tmax (f : FHdr) (d x : Opnd) (fmt : FFmt) (int u : Bool)
  | tmin (f : FHdr) (d x : Opnd) (fmt : FFmt) (int u : Bool)
  | mov (f : FHdr) (d x : Opnd) (imm : BitVec 10)
  | drop (f : FHdr) (i : Chan)
  | hdr (f : FHdr) (d x : Opnd) (kind : TKind) (lvl : Fin 8) (lot : Bool) (tag : Fin 4) (kt bl : Bool)
  | scl (f : FHdr) (d x : Opnd) (fmt : Fmt)
  | iota (f : FHdr) (d x : Opnd) (imm : BitVec 10)
  | bcast (f : FHdr) (d x : Opnd) (j : Fin 8)
  | fld (f : FHdr) (d : Opnd) (ak : Fin 4) (inc : BitVec 5) (len : Fin 8) (wid : Fin 4)
  | fst (f : FHdr) (x : Opnd) (ak : Fin 4) (inc : BitVec 5) (sf : Bool)
  | fldf (f : FHdr) (d : Opnd) (ak : Fin 4) (inc : BitVec 5) (len : Fin 8) (wid : Fin 4)
  | flde (f : FHdr) (d : Opnd) (ak : Fin 4) (inc : BitVec 5) (len : Fin 8) (wid : Fin 4)
  | fste (f : FHdr) (x : Opnd) (ak : Fin 4) (inc : BitVec 5)
  | fldx (f : FHdr) (d : Opnd) (ak : Fin 4) (y : Opnd) (sh : Fin 8) (wid : Fin 4)
  | fstx (f : FHdr) (x : Opnd) (ak : Fin 4) (z : Opnd) (sh : Fin 8)
  | famo (f : FHdr) (d x : Opnd) (ak : Fin 4) (op : AmoOp) (u : Bool)
  | ainc (f : FHdr) (ak : Fin 4) (x y : Opnd) (imm : BitVec 10)
  | pset (f : FHdr) (x : Opnd) (test : PTest) (l : Fin 8)
  | send (f : FHdr) (line : Fin 2)
  | waitc (f : FHdr) (line : Fin 2)
  -- prism units, AG tiles, memory ports (R336, R337)
  | scan (ib0 ob0 : Chan) (tid seg : BitVec 8) (root : Bool)
  | scanb (ib0 ob0 : Chan) (tid : BitVec 8) (ext : BitVec 16) (root : Bool)
  | scand (ib0 ob0 : Chan) (ext : BitVec 16) (root : Bool)
  | isect (ib0 ib1 ob0 ob1 : Chan)
  | union (ib0 ib1 ob0 ob1 : Chan)
  | rept (ib0 ib1 ob0 : Chan)
  | rdce (ib0 ob0 : Chan) (lvl : Fin 8) (fmt : Fmt)
  | crdw (ib0 ob0 : Chan) (tid seg : BitVec 8) (cnt : Bool)
  | ctr (lvl : Fin 4) (n : BitVec 16) (trig : Trig) (fin : Bool)
  | agen (ib0 ob0 : Chan) (lvl : Fin 4) (tid : BitVec 8) (dir : Bool) (map : BitVec 8) (use : BitVec 4)
      (lotk : Fin 16) (ct : Bool)
  | mport (ib0 ob0 : Chan) (tid : BitVec 8) (dir : Bool) (lotk : Fin 16) (trig : Trig) (done ct : Bool)
  | gath (ib0 ob0 ob1 : Chan) (tid : BitVec 8) (any addr : Bool)
  | scat (ib0 ib1 : Chan) (tid : BitVec 8) (add addr ct : Bool)
  | unitFaultWithhold (hall : HallId) (x : Col) (y : Row)
  -- sessions (R110, R423 to R427, R127)
  | sdec (h : SHdr) (a b c d e : Reg)
  | sdecComplete (id : Nat)
  | senc (h : SHdr) (a b c d e : Reg)
  | sencComplete (id : Nat)
  | useinc (h : SHdr) (b c : Reg)
  | usesig (h : SHdr) (a b c d : Reg)
  | usesigComplete (id : Nat)
  | iwait (h : SHdr)
  | horizonReached (id : Nat)
  | integFail (id : Nat)
  -- traps and the system context (R401, R402, R418, R420 to R422)
  | eret (h : SHdr) (nx : Bool)
  | eretEsc (h : SHdr)
  | ctxsvTask (h : SHdr) (a b c : Reg)
  | ctxsvCtx (h : SHdr) (a b : Reg)
  | ctxldCtx (h : SHdr) (a b : Reg)
  | ctxldRes (h : SHdr) (a b c : Reg)
  | ctxldKill (h : SHdr) (a b : Reg)
  | logctlOff (h : SHdr) (a b c d : Reg)
  | logctlRec (h : SHdr) (a b c d : Reg)
  | logctlRep (h : SHdr) (a b c d : Reg)
  | logctlFlush (h : SHdr) (a : Reg)
  | tlbi (h : SHdr) (b c d : Reg) (all : Bool)
  | wait (h : SHdr) (a b c : Reg)
  | waitTimeout (hall : HallId)
  | bkpt (h : SHdr) (tag : BitVec 8)
  | halt (h : SHdr)
  -- the Landing, binding and pre-emption (R139 to R146, R411)
  | landingDecision (die : Fin 2)
  | reservationLapse (ctx task : Word)
  | bindingComplete (hall : HallId)
  | preempt (ctx task : Word)
  -- configuration and the mesh (R159, R166, R173)
  | configFetch (hall : HallId) (node : Nat)
  | configFetchComplete (hall : HallId) (node : Nat) (how : FetchEnd)
  | switchTokenPass (hall : HallId) (x : Col) (y : Row) (port : Fin 5) (track : Chan)
  | mergeChoice (hall : HallId) (x : Col) (y : Row) (port : Fin 5) (track : Chan)
  -- timers and failures (R396, R417, R409, R269, R266)
  | mrdivPlaceTimeout (ctx : Word) (node : BitVec 16)
  | mrdivTailTimeout (ctx : Word)
  | wdogExpiry (hall : HallId)
  | wdogSecondExpiry (hall : HallId)
  | islandFailure (island : Fin 128)
  | controlStateMemerr (hall : HallId) (saved : Bool)
  | rowRetire (row : Nat)
  | compressedWriteTimeout (id : Nat)
  -- host and pod (R122, R438 to R445)
  | hostProduce (vf : Nat) (slot : Fin 16) (off : Nat) (data : List Byte) (be : List Bool) (ide : Bool)
  | linkOutboxTake (hall : HallId) (slot : Fin 64)
  | podRemoteWrite (m : PodMsg)
  | linkSendComplete (hall : HallId) (slot : Fin 64) (remote : Bool)
  | linkdown (link : Fin 8)
  | dieLinkFailure
  | atsInvalidation (ha len : Nat)
  | priResponse (hall : HallId) (ok : Bool)
  -- TDISP (R435, R410, R437)
  | lockInterface (vf : Nat)
  | startInterface (vf : Nat)
  | stopInterface (vf : Nat)
  | vfFence (vf : Nat)
  | functionLevelReset (vf : Nat)
  -- management requests (R434); `tag` is the request's TAG
  | report (tag : Word) (buf : Nat) (ctx : Word) (nonce : Digest)
  | openSession (tag : Word) (ctx : Word) (ct : List Byte)
  | close (tag : Word) (buf : Nat) (sid : Word) (mac : BitVec 128)
  | bundle (tag : Word) (ctx : Word) (host : Nat) (base : Word)
  | finals (tag : Word) (buf : Nat)
  | ctxCreate (tag : Word) (body : CreateBody)
  | ctxDestroy (tag : Word) (ctx : Word)
  | halls (tag : Word) (vf : Nat) (mask : BitVec 48)
  | island (tag : Word) (isl : Fin 128) (level : Fin 16)
  | counters (tag : Word) (buf : Nat) (sel : Nat)
  | pod (tag : Word) (links : BitVec 8) (pkg : Fin 64)
  | recover (tag : Word) (image : List Byte)
  -- the package (R446, R449, R450)
  | islandThrottle (isl : Fin 128) (level : Fin 16)
  | packageReset (fail : BootFail)
  | powerLoss
  -- line fills and write-backs (R282, R258)
  | scratchLineFill (hall : HallId) (id : Nat)
  | l1WriteBack (hall : HallId) (line : Nat)
  deriving DecidableEq, Repr

end Sys2Proof
end

