-- ==== Sys2Proof/WellFormed.lean ====
section
/-! DEFINITION. Which instructions of the syntax are valid words (spec R71 to R89, R93, and the field tables of
the instruction chapters). `Instr.defect` names the first breach; a well-formed instruction has none. Rows that no
word encodes have no field to breach. -/

namespace Sys2Proof

/-- The breaches of R93 that a term of `Instr` can still hold. -/
inductive Defect
  | guard          -- guard encoding 0b1000 (R71)
  | mark           -- a mark the opcode does not allow (R75)
  | hint           -- a hint on an opcode that takes none (R76)
  | addressYW      -- Y or W set on an A-marked word (R73)
  | limit          -- an immediate outside its limit (R78)
  | reserved       -- a reserved sub-field value (R79, R80, R93)
  | unused         -- a field this form leaves unused is not 0 (R73, R82, R86, R88)
  | sysReg         -- SYSW of a register that is read-only for every context (R203)
  | tagBit         -- TE = 1 without IN bit TC (R81)
  | predUpdate     -- PO non-zero with PI = 0 (R81)
  | operand        -- an operand code in a position R82 or the opcode forbids
  | inBit          -- a dequeue or peek without its IN bit (R83)
  | outBit         -- a push without its OUT bit (R83)
  | twoBanks       -- more than one bank operand (R83)
  | immediate      -- code 28 misused, or FN non-zero without it (R83, R232)
  | binding        -- equal or odd bindings (R88, R336)
  deriving DecidableEq, Repr

/-- `none` when `b` holds, else the named defect. -/
def ensure (b : Bool) (d : Defect) : Option Defect := if b then none else some d

/-- R71: negated p0 is reserved. -/
def Guard.ok (g : Guard) : Bool := !(g.neg && g.pix == 0)

/-- The sets of marks of R75. -/
inductive Marks | cab | cb | ca | bOnly | cOnly
  deriving DecidableEq, Repr

def Marks.allows : Marks → Mark → Bool
  | .cab, _ => true
  | .cb, m => m != .a
  | .ca, m => m != .b
  | .bOnly, m => m == .b
  | .cOnly, m => m == .c

/-- R71, R73, R75 to R77 on the shared fields of a sequencer word. -/
def SHdr.defect (h : SHdr) (m : Marks) (hint : Bool) : Option Defect :=
  (ensure (h.ga.ok && h.gb.ok) .guard).or <|
  (ensure (m.allows h.mark) .mark).or <|
  (ensure (hint || h.ch == .dflt) .hint).or <|
  ensure (h.mark != .a || (!h.y && h.w == 0)) .addressYW

/-- SYSW to this register is legal in some context (R203, R419). -/
def SysReg.writable : SysReg → Bool
  | .hallId | .hallSplit | .ctxId | .kdCur | .trapCause | .trapInfo | .trapAct | .wdogCount | .ctxEvhead
  | .ctxVc | .ctxMode | .ctxLogbase | .ctxLogsize | .seqLs | .seqLe | .seqRestarts
  | .mxElog0 | .mxElog1 | .mxElog2 => false
  | _ => true

/-- The registers whose SYSW has a row of its own in the opcode table. -/
def SysReg.ownRow : SysReg → Bool
  | .seqLc | .facetSeed | .l2Waymask | .ctxEvbase | .ctxEvsize | .ctxEvtail | .ctxEvlost
  | .ctxLogtail | .ctxLoghead | .ctxRacectl | .mxFlags => true
  | _ => false

/-- R80: a relaxed atomic carries scope 0. -/
def Sync.ok (y : Sync) : Bool := y.ord != .relaxed || y.scp == .facet

def Sync.defect (y : Sync) : Option Defect := ensure y.ok .reserved

/-- R82, source positions. -/
def Opnd.asSrc : Opnd → Bool
  | .push _ => false
  | _ => true

/-- R82, destination position. -/
def Opnd.asDst : Opnd → Bool
  | .deq _ | .peek _ | .imm | .ones => false
  | _ => true

def Opnd.isDeq : Opnd → Bool | .deq _ => true | _ => false
def Opnd.isPush : Opnd → Bool | .push _ => true | _ => false
def Opnd.isBank : Opnd → Bool | .bank _ => true | _ => false
def Opnd.isImm : Opnd → Bool | .imm => true | _ => false
def Opnd.isAreg : Opnd → Bool | .areg _ => true | _ => false

/-- R83: a dequeue or peek needs its IN bit. -/
def Opnd.inOk (ins : BitVec 4) : Opnd → Bool
  | .deq k | .peek k => ins.getLsbD k.val
  | _ => true

/-- R83: a push needs its OUT bit. -/
def Opnd.outOk (outs : BitVec 4) : Opnd → Bool
  | .push k => outs.getLsbD k.val
  | _ => true

/-- R71, R81: guards, tag check and predicate update of an F word. -/
def FHdr.defect (f : FHdr) : Option Defect :=
  (ensure (f.ga.ok && f.gb.ok) .guard).or <|
  (ensure (match f.tag with | some (tc, _) => f.ins.getLsbD tc.val | none => true) .tagBit).or <|
  ensure (f.po == 0 || f.pi != 0) .predUpdate

/-- R82, R83 on the operands an F word uses; `im` is some FN where FN is an immediate. -/
def opndsDefect (f : FHdr) (d : Opnd) (srcs : List Opnd) (im : Option (BitVec 10)) : Option Defect :=
  (ensure (d.asDst && srcs.all Opnd.asSrc) .operand).or <|
  (ensure (srcs.all (Opnd.inOk f.ins)) .inBit).or <|
  (ensure (d.outOk f.outs) .outBit).or <|
  (ensure ((d :: srcs).countP Opnd.isBank ≤ 1) .twoBanks).or <|
  ensure (match im with
    | none => srcs.countP Opnd.isImm == 0
    | some fn => srcs.countP Opnd.isImm ≤ 1 && (srcs.countP Opnd.isImm == 1 || fn == 0)) .immediate

/-- An F word with a selector FN. -/
def fSel (f : FHdr) (d : Opnd) (srcs : List Opnd) : Option Defect := f.defect.or (opndsDefect f d srcs none)

/-- An F word with an immediate FN. -/
def fImm (f : FHdr) (d : Opnd) (srcs : List Opnd) (fn : BitVec 10) : Option Defect :=
  f.defect.or (opndsDefect f d srcs (some fn))

/-- R59: the MX element formats, codes 0x07 to 0x0B. -/
def Fmt.isMx : Fmt → Bool
  | .e5m2 | .e4m3 | .e3m2 | .e2m3 | .e2m1 => true
  | _ => false

/-- The block floating-point formats, codes 0x12 to 0x18. -/
def Fmt.isBfp : Fmt → Bool
  | .bfp2 | .bfp3 | .bfp4 | .bfp5 | .bfp6 | .bfp7 | .bfp8 => true
  | _ => false

/-- R337: the value formats of RDCE. -/
def Fmt.isRdce : Fmt → Bool
  | .int8 | .int32 | .fp64 | .fp32 | .fp16 | .bf16 => true
  | _ => false

/-- R233, R234 on the fields of CVT. -/
def cvtDefect (f : FHdr) (d x y : Opnd) (mode : RMode) (fmt : Fmt) (dir sc : Bool) : Option Defect :=
  (ensure (mode == .rn || fmt != .e8m0) .reserved).or <|
  (ensure (if sc then fmt.isMx || fmt.isBfp else !fmt.isBfp) .reserved).or <|
  (ensure (!(sc && dir) || x.isDeq) .operand).or <|
  (ensure ((sc && !dir) || y == .e 0) .unused).or <|
  fSel f d (if sc && !dir then [x, y] else [x])

/-- R240 on the fields of HDR. -/
def hdrDefect (f : FHdr) (d x : Opnd) (kind : TKind) (lvl : Fin 8) (lot : Bool) (tag : Fin 4) (kt bl : Bool) :
    Option Defect :=
  let noX := kind == .stop || kind == .done
  (ensure (lvl == 0 || kind == .stop) .reserved).or <|
  (ensure (!(lot && kind == .done)) .reserved).or <|
  (ensure (!(kt && (noX || tag != 0))) .reserved).or <|
  (ensure (!bl || kind == .scale) .reserved).or <|
  (ensure (!noX || x == .e 0) .unused).or <|
  fSel f d (if noX then [] else [x])

/-- R242 on a token load. -/
def loadDefect (f : FHdr) (d : Opnd) (ak : Fin 4) (len : Fin 8) (wid : Fin 4) : Option Defect :=
  (ensure (d != .areg ak) .operand).or <|
  (ensure (wid != 3 || len.val ≤ 3) .reserved).or <|
  fSel f d []

/-- R336: a stream binding names an even channel. -/
def evenChan (c : Chan) : Bool := c.val % 2 == 0

/-- The format allowed by R231: FP64 only for FRCP and FSQRT. -/
def spec3 (f : FHdr) (d x : Opnd) (fmt : FFmt) : Option Defect :=
  (ensure (fmt != .f64) .reserved).or (fSel f d [x])

/-- R236 on the fields of TMAX and TMIN. -/
def treeDefect (f : FHdr) (d x : Opnd) (fmt : FFmt) (int u : Bool) : Option Defect :=
  (ensure (!int || fmt == .f32) .reserved).or <|
  (ensure (!u || int) .reserved).or <|
  fSel f d [x]

/-- R246: the operands AINC reads. -/
def aincSrc : Opnd → Bool
  | .areg _ | .imm | .zero => true
  | _ => false

/-- R247: the operands PSET tests. -/
def psetSrc : Opnd → Bool
  | .e _ | .deq _ | .peek _ => true
  | _ => false

/-- R336: bindings of ISECT and UNION. -/
def jointDefect (ib0 ib1 ob0 ob1 : Chan) : Option Defect :=
  ensure (evenChan ib0 && evenChan ib1 && evenChan ob0 && ib0 != ib1 && ob1 != ob0 && ob1.val != ob0.val + 1)
    .binding

/-- R336: bindings of a level scanner. -/
def scanDefect (ib0 ob0 : Chan) (root : Bool) : Option Defect :=
  (ensure (evenChan ob0) .binding).or (ensure (!root || ib0 == 0) .unused)

/-- The first breach of R71 to R89 and the chapters' field tables, `none` for a valid word. -/
def Instr.defect : Instr → Option Defect
  | .add h _ _ _ | .sub h _ _ _ | .mul h _ _ _ | .mulh h _ _ _ _ | .div h _ _ _ _ | .rem h _ _ _ _
  | .and h _ _ _ | .or h _ _ _ | .xor h _ _ _ | .andn h _ _ _ | .shl h _ _ _ | .shr h _ _ _ | .sra h _ _ _
  | .min h _ _ _ _ | .max h _ _ _ _ | .clz h _ _ | .popc h _ _ | .bfx h _ _ _ _ | .bfi h _ _ _ _
  | .sel h _ _ _ _ | .cmp h _ _ _ _ _ | .mad h _ _ _ _ | .lea h _ _ _ _ _
  | .addi h _ _ _ | .muli h _ _ _ | .andi h _ _ _ | .ori h _ _ _ | .xori h _ _ _
  | .shli h _ _ _ | .shri h _ _ _ | .srai h _ _ _ | .cmpi h _ _ _ | .movi h _ _ | .movhi h _ _
  | .nop h => h.defect .cab false
  | .sysr h _ _ _ => h.defect .cb false
  | .sysw h _ _ r => (h.defect .cOnly false).or (ensure (r.writable && !r.ownRow) .sysReg)
  | .br h _ | .jmp h _ _ | .call h _ _ | .ret h _ => h.defect .bOnly false
  | .loop h _ imm => (h.defect .bOnly false).or (ensure (imm.toNat != 0 && imm.toNat < 2 ^ 27) .limit)
  | .ld h _ _ sz sx _ | .ldx h _ _ _ sz sx _ => (h.defect .ca true).or (ensure (!(sx && sz == .d)) .reserved)
  | .pfx h _ _ _ _ => h.defect .ca true
  | .st h _ _ _ _ | .stx h _ _ _ _ _ | .cpy h _ _ _ _ | .cpyT h _ _ _ | .cpym h _ _ _ _ _ => h.defect .cOnly true
  | .amadd h _ _ _ y | .amand h _ _ _ y | .amor h _ _ _ y | .amxor h _ _ _ y | .ammin h _ _ _ y _
  | .ammax h _ _ _ y _ | .amswp h _ _ _ y | .amcas h _ _ _ _ _ y | .amincw h _ _ _ y | .amfab h _ _ _ _ _ y
  | .amfadd h _ _ _ y => (h.defect .cOnly true).or y.defect
  | .red h _ _ y _ =>
    (h.defect .cOnly true).or (y.defect.or (ensure (y.ord == .relaxed || y.ord == .rel) .reserved))
  | .fence h ord _ => (h.defect .cOnly false).or (ensure (ord != .relaxed) .reserved)
  | .syswSeqLc h _ _ | .syswFacetSeed h _ _ | .syswL2Waymask h _ _ | .syswEvBase h _ _ | .syswEvSize h _ _
  | .syswEvTail h _ _ | .syswEvLost h _ _ | .syswLogTail h _ _ | .syswLogHead h _ _ | .syswRacectl h _ _
  | .syswMxFlags h _ _ | .yield h | .exit h | .trap h _ | .ldf h _ _ _ _ | .lde h _ _ _ _ | .ste h _ _ _ _
  | .stf h _ _ _ _ | .festF h _ _ | .festE h _ _ | .flush h _ _ | .inval h _ _ _ | .bar h _ | .gbar h _
  | .trig h | .mark h _ | .beat h | .spawn h _ _ | .cfgld h _ _ | .cfgrel h _ | .pusht h _ _ _ _ _ _
  | .popt h _ _ _ _ _ _ _ | .ctltSend h _ | .ctltConsume h _ | .cpyc h _ _ _ | .cpyqCount h _ | .cpyqChain h _ _
  | .cpyqGq h _ _ | .cpyqGset h _ _ | .cpyqGres h _ _ | .acpy h _ _ _ _ | .afill h _ _ _ _ | .aand h _ _ _ _ _
  | .aor h _ _ _ _ _ | .axor h _ _ _ _ _ | .anot h _ _ _ _ | .pmov h _ _ _ | .tdef h _ _ _ _ _ | .tdrop h _
  | .sdec h _ _ _ _ _ | .senc h _ _ _ _ _ | .useinc h _ _ | .usesig h _ _ _ _ | .iwait h | .eret h _ | .eretEsc h
  | .ctxsvTask h _ _ _ | .ctxsvCtx h _ _ | .ctxldCtx h _ _ | .ctxldRes h _ _ _ | .ctxldKill h _ _
  | .logctlOff h _ _ _ _ | .logctlRec h _ _ _ _ | .logctlRep h _ _ _ _ | .logctlFlush h _ | .tlbi h _ _ _ _
  | .wait h _ _ _ | .bkpt h _ | .halt h => h.defect .cOnly false
  | .mma _ _ _ _ _ _ _ ks _ _ | .mmag _ _ _ _ _ _ ks _ => ensure (ks != 0) .reserved
  | .mxz acc all _ => ensure (!all || acc == 0) .unused
  | .mxrd _ _ _ _ | .mxld _ _ _ | .mxepi _ _ _ _ => none
  | .fadd f d x y _ | .fsub f d x y _ | .fmul f d x y _ | .fmin f d x y _ | .fmax f d x y _
  | .fcmp f d x y _ _ _ | .imin f d x y _ | .imax f d x y _ | .ishr f d x y _ | .icmp f d x y _ _ => fSel f d [x, y]
  | .ffma f d x y z _ | .esel f d x y z | .iclmp f d x y z _ => fSel f d [x, y, z]
  | .fsgn f d x y op _ =>
    if op == .abs then (ensure (y == .e 0) .unused).or (fSel f d [x]) else fSel f d [x, y]
  | .fexp2 f d x fmt | .flog2 f d x fmt | .frsq f d x fmt | .ftanh f d x fmt | .fsigm f d x fmt => spec3 f d x fmt
  | .frcp f d x _ | .fsqrt f d x _ => fSel f d [x]
  | .iadd f d x y n | .isub f d x y n | .imul f d x y n | .iand f d x y n | .ior f d x y n | .ixor f d x y n
  | .ishl f d x y n => fImm f d [x, y] n
  | .imad f d x y z n => fImm f d [x, y, z] n
  | .cvt f d x y mode fmt dir sc => cvtDefect f d x y mode fmt dir sc
  | .merge f o i k => fSel f (.push o) [.deq i, .e k]
  | .split f o x y n => (ensure (y.isImm || y.isAreg) .operand).or (fImm f (.push o) [x, y] n)
  | .tsum f d x fmt int => treeDefect f d x fmt int false
  | .tmax f d x fmt int u | .tmin f d x fmt int u => treeDefect f d x fmt int u
  | .mov f d x n | .iota f d x n => fImm f d [x] n
  | .drop f i => fSel f .zero [.deq i]
  | .hdr f d x kind lvl lot tag kt bl => hdrDefect f d x kind lvl lot tag kt bl
  | .scl f d x fmt => (ensure (fmt.isMx || fmt.isBfp) .reserved).or (fSel f d [x])
  | .bcast f d x _ => fSel f d [x]
  | .fld f d ak _ len wid | .fldf f d ak _ len wid | .flde f d ak _ len wid => loadDefect f d ak len wid
  | .fst f x _ _ _ | .fste f x _ _ => fSel f .zero [x]
  | .fldx f d _ y _ _ => fSel f d [y]
  | .fstx f x _ z _ => fSel f .zero [x, z]
  | .famo f d x _ _ _ => fSel f d [x]
  | .ainc f ak x y n => (ensure (aincSrc x && aincSrc y) .operand).or (fImm f (.areg ak) [x, y] n)
  | .pset f x _ _ => (ensure (f.pi != 0) .reserved).or <| (ensure (psetSrc x) .operand).or (fSel f .zero [x])
  | .send f _ | .waitc f _ => fSel f .zero []
  | .scan ib0 ob0 _ _ root | .scanb ib0 ob0 _ _ root | .scand ib0 ob0 _ root => scanDefect ib0 ob0 root
  | .isect ib0 ib1 ob0 ob1 | .union ib0 ib1 ob0 ob1 => jointDefect ib0 ib1 ob0 ob1
  | .rept ib0 ib1 _ | .scat ib0 ib1 _ _ _ _ => ensure (ib0 != ib1) .binding
  | .rdce _ _ _ fmt => ensure fmt.isRdce .reserved
  | .crdw _ ob0 _ _ cnt => ensure (cnt || ob0 == 0) .unused
  | .ctr _ _ _ _ => none
  | .agen ib0 ob0 _ _ dir _ _ _ ct =>
    (ensure (if dir then ob0 == 0 else ib0 == 0) .unused).or (ensure (!ct || dir) .reserved)
  | .mport ib0 ob0 _ dir _ _ done ct =>
    (ensure (if dir then ob0 == 0 else ib0 == 0) .unused).or
      (ensure ((!done || !dir) && (!ct || dir)) .reserved)
  | .gath _ ob0 ob1 _ any _ => (ensure (any || ob1 == 0) .unused).or (ensure (!any || ob0 != ob1) .binding)
  -- rows that no word encodes
  | .feWaitServe _ _ | .redPerform _ | .gbarGenerationComplete _ _ | .triggerWalk _ | .copyComplete _ _
  | .copyFaultPark _ _ | .chainRecord _ _ | .arrayOpComplete _ _ | .pmovComplete _ _ | .facetCycle _ _
  | .starvationUrgent _ _ _ | .unitFaultWithhold _ _ _ | .sdecComplete _ | .sencComplete _ | .usesigComplete _
  | .horizonReached _ | .integFail _ | .waitTimeout _ | .landingDecision _ | .reservationLapse _ _
  | .bindingComplete _ | .preempt _ _ | .configFetch _ _ | .configFetchComplete _ _ _ | .switchTokenPass _ _ _ _ _
  | .mergeChoice _ _ _ _ _ | .mrdivPlaceTimeout _ _ | .mrdivTailTimeout _ | .wdogExpiry _ | .wdogSecondExpiry _
  | .islandFailure _ | .controlStateMemerr _ _ | .rowRetire _ | .compressedWriteTimeout _ | .hostProduce _ _ _ _ _ _
  | .linkOutboxTake _ _ | .podRemoteWrite _ | .linkSendComplete _ _ _ | .linkdown _ | .dieLinkFailure
  | .atsInvalidation _ _ | .priResponse _ _ | .lockInterface _ | .startInterface _ | .stopInterface _ | .vfFence _
  | .functionLevelReset _ | .report _ _ _ _ | .openSession _ _ _ | .close _ _ _ _ | .bundle _ _ _ _ | .finals _ _
  | .ctxCreate _ _ | .ctxDestroy _ _ | .halls _ _ _ | .island _ _ _ | .counters _ _ _ | .pod _ _ _ | .recover _ _
  | .islandThrottle _ _ | .packageReset _ | .powerLoss | .scratchLineFill _ _ | .l1WriteBack _ _ => none

/-- A well-formed instruction: no field breaches the spec's encoding rules. -/
def Instr.wf (i : Instr) : Bool := i.defect.isNone

end Sys2Proof
end

