-- ==== Sys2Proof/Decode.lean ====
section
/-! DEFINITION. Instruction words (spec R69 to R94): decoding any 64-bit word to an instruction or a named error, and
the encoder written from the same field tables. Which unit a word is valid for is `Instr.unit` (R69, R89). -/

namespace Sys2Proof

/-- Why a word is no instruction (R93). -/
inductive DecodeErr
  | unassigned        -- opcode 0x00 or a cell R90 leaves unassigned
  | unused            -- a register field, FN bit or immediate bit the opcode does not use is not 0
  | predField         -- the upper bits of a predicate field are not 0 (R73)
  | reserved          -- a reserved value of a sub-field
  | illFormed (d : Defect)
  | short             -- fewer than 8 bytes
  deriving DecidableEq, Repr

/-- The unit that executes a word (R69, R89, R91); `none` for rows that no word encodes. -/
inductive UnitKind | seq | facet | matrix | prism | ag | mp
  deriving DecidableEq, Repr

/-! ## Field codes -/

def Guard.code (g : Guard) : Nat := b2n g.neg * 8 + g.pix.val
def Guard.ofCode (n : Nat) : Guard := ⟨nbit n 3, Fin.ofNat 8 n⟩

def Mark.code : Mark → Nat | .c => 0 | .a => 1 | .b => 2
def Mark.ofCode (n : Nat) : Option Mark :=
  if n = 0 then some .c else if n = 1 then some .a else if n = 2 then some .b else none

def Hint.code : Hint → Nat | .dflt => 0 | .stream => 1 | .keep => 2 | .noL2 => 3 | .lastUse => 4 | .memSide => 5
def Hint.ofCode (n : Nat) : Option Hint :=
  if n = 0 then some .dflt else if n = 1 then some .stream else if n = 2 then some .keep
  else if n = 3 then some .noL2 else if n = 4 then some .lastUse else if n = 5 then some .memSide else none

def Scope.code : Scope → Nat | .facet => 0 | .hall => 1 | .gallery => 2 | .die => 3 | .package => 4 | .pod => 5
def Scope.ofCode (n : Nat) : Option Scope :=
  if n = 0 then some .facet else if n = 1 then some .hall else if n = 2 then some .gallery
  else if n = 3 then some .die else if n = 4 then some .package else if n = 5 then some .pod else none

def Ord.code : Ord → Nat | .relaxed => 0 | .acq => 1 | .rel => 2 | .ar => 3
def Ord.ofCode (n : Nat) : Ord := if n = 0 then .relaxed else if n = 1 then .acq else if n = 2 then .rel else .ar

def Sz.code : Sz → Nat | .b => 0 | .h => 1 | .w => 2 | .d => 3
def Sz.ofCode (n : Nat) : Sz := if n = 0 then .b else if n = 1 then .h else if n = 2 then .w else .d

/-- Condition codes of R194. -/
def Cond.code : Cond → Nat
  | .eq => 0 | .ne => 1 | .lt => 2 | .ge => 3 | .le => 4 | .gt => 5 | .ltu => 6 | .geu => 7 | .leu => 8 | .gtu => 9
def Cond.ofCode (n : Nat) : Option Cond :=
  if n = 0 then some .eq else if n = 1 then some .ne else if n = 2 then some .lt else if n = 3 then some .ge
  else if n = 4 then some .le else if n = 5 then some .gt else if n = 6 then some .ltu else if n = 7 then some .geu
  else if n = 8 then some .leu else if n = 9 then some .gtu else none

def Combine.code : Combine → Nat | .set => 0 | .and => 1 | .or => 2
def Combine.ofCode (n : Nat) : Option Combine :=
  if n = 0 then some .set else if n = 1 then some .and else if n = 2 then some .or else none

/-- OPX of RED (R364). -/
def RedOp.code : RedOp → Nat | .add => 0 | .fadd => 1 | .and => 2 | .or => 3 | .xor => 4 | .min => 5 | .max => 6
def RedOp.ofCode (n : Nat) : Option RedOp :=
  if n = 0 then some .add else if n = 1 then some .fadd else if n = 2 then some .and else if n = 3 then some .or
  else if n = 4 then some .xor else if n = 5 then some .min else if n = 6 then some .max else none

/-- System register numbers (R419, R387, R204, R324). -/
def SysReg.code : SysReg → Nat
  | .hallId => 0x000 | .hallSplit => 0x001 | .ctxId => 0x002 | .kdCur => 0x003 | .ctxPtroot => 0x004
  | .ctxStarve => 0x005 | .ctxFpol => 0x006 | .trapCause => 0x008 | .trapInfo => 0x009 | .trapPc => 0x00A
  | .trapVec => 0x00B | .trapAct => 0x00C | .trapK0 => 0x00D | .trapK1 => 0x00E | .wdogPeriod => 0x010
  | .wdogCount => 0x011 | .ctxEvbase => 0x018 | .ctxEvsize => 0x019 | .ctxEvhead => 0x01A | .ctxEvtail => 0x01B
  | .ctxEvlost => 0x01C | .ctxSpillbase => 0x020 | .ctxSpillslots => 0x021 | .ctxVc => 0x022 | .ctxMode => 0x030
  | .ctxLogbase => 0x031 | .ctxLogsize => 0x032 | .ctxLoghead => 0x033 | .ctxLogtail => 0x034
  | .ctxRacectl => 0x035 | .seqLc => 0x040 | .seqLs => 0x041 | .seqLe => 0x042 | .seqRestarts => 0x043
  | .facetSeed => 0x080 | .ctxArctl => 0x0C1 | .mxFlags => 0x0C4 | .mxElog0 => 0x0C8 | .mxElog1 => 0x0C9
  | .mxElog2 => 0x0CA | .l2Waymask => 0x0D0

/-- Every system register, in the order of their numbers. -/
def SysReg.all : List SysReg :=
  [.hallId, .hallSplit, .ctxId, .kdCur, .ctxPtroot, .ctxStarve, .ctxFpol, .trapCause, .trapInfo, .trapPc, .trapVec,
   .trapAct, .trapK0, .trapK1, .wdogPeriod, .wdogCount, .ctxEvbase, .ctxEvsize, .ctxEvhead, .ctxEvtail, .ctxEvlost]
  ++ [.ctxSpillbase, .ctxSpillslots, .ctxVc, .ctxMode, .ctxLogbase, .ctxLogsize, .ctxLoghead, .ctxLogtail,
   .ctxRacectl, .seqLc, .seqLs, .seqLe, .seqRestarts, .facetSeed, .ctxArctl, .mxFlags, .mxElog0, .mxElog1,
   .mxElog2, .l2Waymask]

/-- The register a number names; `none` for an unassigned number (R202). -/
def SysReg.ofCode (n : Nat) : Option SysReg := SysReg.all.find? (fun r => r.code == n)

/-- Format codes of R38. -/
def Fmt.code : Fmt → Nat
  | .int8 => 0x01 | .int32 => 0x02 | .fp64 => 0x03 | .fp32 => 0x04 | .fp16 => 0x05 | .bf16 => 0x06 | .e5m2 => 0x07
  | .e4m3 => 0x08 | .e3m2 => 0x09 | .e2m3 => 0x0A | .e2m1 => 0x0B | .e8m0 => 0x0C | .bfp2 => 0x12 | .bfp3 => 0x13
  | .bfp4 => 0x14 | .bfp5 => 0x15 | .bfp6 => 0x16 | .bfp7 => 0x17 | .bfp8 => 0x18

def Fmt.all : List Fmt :=
  [.int8, .int32, .fp64, .fp32, .fp16, .bf16, .e5m2, .e4m3, .e3m2, .e2m3, .e2m1, .e8m0, .bfp2, .bfp3, .bfp4, .bfp5,
   .bfp6, .bfp7, .bfp8]

def Fmt.ofCode (n : Nat) : Option Fmt := Fmt.all.find? (fun f => f.code == n)

def FFmt.code : FFmt → Nat | .f32 => 0 | .f16 => 1 | .bf16 => 2 | .f64 => 3
def FFmt.ofCode (n : Nat) : FFmt := if n = 0 then .f32 else if n = 1 then .f16 else if n = 2 then .bf16 else .f64

def RMode.code : RMode → Nat | .rn => 0 | .rz => 1 | .ru => 2 | .rd => 3 | .rs => 4
def RMode.ofCode (n : Nat) : Option RMode :=
  if n = 0 then some .rn else if n = 1 then some .rz else if n = 2 then some .ru else if n = 3 then some .rd
  else if n = 4 then some .rs else none

/-- Operand codes of R82. -/
def Opnd.code : Opnd → Nat
  | .e k => k.val | .deq k => 8 + k.val | .peek k => 12 + k.val | .push k => 16 + k.val | .areg k => 20 + k.val
  | .bank k => 24 + k.val | .imm => 28 | .zero => 29 | .ones => 30
def Opnd.ofCode (n : Nat) : Option Opnd :=
  if n < 8 then some (.e (Fin.ofNat 8 n)) else if n < 12 then some (.deq (Fin.ofNat 4 (n - 8)))
  else if n < 16 then some (.peek (Fin.ofNat 4 (n - 12))) else if n < 20 then some (.push (Fin.ofNat 4 (n - 16)))
  else if n < 24 then some (.areg (Fin.ofNat 4 (n - 20))) else if n < 28 then some (.bank (Fin.ofNat 4 (n - 24)))
  else if n = 28 then some .imm else if n = 29 then some .zero else if n = 30 then some .ones else none

def SgnOp.code : SgnOp → Nat | .cpy => 0 | .neg => 1 | .xor => 2 | .abs => 3
def SgnOp.ofCode (n : Nat) : SgnOp := if n = 0 then .cpy else if n = 1 then .neg else if n = 2 then .xor else .abs

def FCond.code : FCond → Nat
  | .eq => 0 | .ne => 1 | .lt => 2 | .le => 3 | .gt => 4 | .ge => 5 | .un => 6 | .ord => 7
def FCond.ofCode (n : Nat) : FCond :=
  if n = 0 then .eq else if n = 1 then .ne else if n = 2 then .lt else if n = 3 then .le else if n = 4 then .gt
  else if n = 5 then .ge else if n = 6 then .un else .ord

def TKind.code : TKind → Nat | .data => 0 | .stop => 1 | .scale => 2 | .done => 3
def TKind.ofCode (n : Nat) : TKind := if n = 0 then .data else if n = 1 then .stop else if n = 2 then .scale else .done

def AmoOp.code : AmoOp → Nat
  | .add => 0 | .and => 1 | .or => 2 | .xor => 3 | .min => 4 | .max => 5 | .swp => 6 | .fadd => 7
def AmoOp.ofCode (n : Nat) : AmoOp :=
  if n = 0 then .add else if n = 1 then .and else if n = 2 then .or else if n = 3 then .xor else if n = 4 then .min
  else if n = 5 then .max else if n = 6 then .swp else .fadd

def PTest.code : PTest → Nat
  | .data => 0 | .stop => 1 | .scale => 2 | .done => 3 | .lot => 4 | .lvl => 5 | .nz => 6 | .true => 7
def PTest.ofCode (n : Nat) : PTest :=
  if n = 0 then .data else if n = 1 then .stop else if n = 2 then .scale else if n = 3 then .done
  else if n = 4 then .lot else if n = 5 then .lvl else if n = 6 then .nz else .true

def Trig.code : Trig → Nat | .once => 0 | .ci0 => 1 | .ci1 => 2
def Trig.ofCode (n : Nat) : Option Trig :=
  if n = 0 then some .once else if n = 1 then some .ci0 else if n = 2 then some .ci1 else none

/-! ## Decoding the sequencer formats -/

abbrev Dec := Except DecodeErr Instr

/-- An optional field value, or the reserved-value error. -/
def orReserved {α : Type} (x : Option α) (k : α → Dec) : Dec :=
  match x with
  | some v => k v
  | none => .error .reserved

/-- The instruction when every listed field is 0, else the unused-field error. -/
def unusedZero (zs : List Nat) (i : Instr) : Dec := if zs.all (· == 0) then .ok i else .error .unused

/-- The fields of S, SI and SL words (R73, R74). -/
structure SFields where
  h : SHdr
  a : Reg
  b : Reg
  c : Reg
  d : Reg
  e : Reg
  fn : Nat
  imm28 : BitVec 28
  imm34 : BitVec 34
  deriving DecidableEq, Repr

/-- R73, R74: the fields of a word; `none` for a reserved mark or hint. -/
def SFields.ofNat (w : Nat) : Option SFields :=
  match Mark.ofCode (nbits w 46 2), Hint.ofCode (nbits w 43 3) with
  | some m, some ch =>
    some ⟨⟨Guard.ofCode (nbits w 52 4), Guard.ofCode (nbits w 48 4), m, ch, nbit w 42, Fin.ofNat 4 (nbits w 40 2)⟩,
      Fin.ofNat 64 (nbits w 34 6), Fin.ofNat 64 (nbits w 28 6), Fin.ofNat 64 (nbits w 22 6),
      Fin.ofNat 64 (nbits w 16 6), Fin.ofNat 64 (nbits w 10 6), nbits w 0 10,
      BitVec.ofNat 28 w, BitVec.ofNat 34 w⟩
  | _, _ => none

/-- A predicate held in a register field (R73). -/
def predField (r : Reg) (k : Pred → Dec) : Dec :=
  if r.val < 8 then k (Fin.ofNat 8 r.val) else .error .predField

def formABC (f : SFields) (k : SHdr → Reg → Reg → Reg → Instr) : Dec :=
  unusedZero [f.d.val, f.e.val, f.fn] (k f.h f.a f.b f.c)

def formABCu (f : SFields) (k : SHdr → Reg → Reg → Reg → Bool → Instr) : Dec :=
  unusedZero [f.d.val, f.e.val, f.fn / 2] (k f.h f.a f.b f.c (nbit f.fn 0))

def formABCD (f : SFields) (k : SHdr → Reg → Reg → Reg → Reg → Instr) : Dec :=
  unusedZero [f.e.val, f.fn] (k f.h f.a f.b f.c f.d)

def formABCDE (f : SFields) (k : SHdr → Reg → Reg → Reg → Reg → Reg → Instr) : Dec :=
  unusedZero [f.fn] (k f.h f.a f.b f.c f.d f.e)

def formAB (f : SFields) (k : SHdr → Reg → Reg → Instr) : Dec :=
  unusedZero [f.c.val, f.d.val, f.e.val, f.fn] (k f.h f.a f.b)

def formBC (f : SFields) (k : SHdr → Reg → Reg → Instr) : Dec :=
  unusedZero [f.a.val, f.d.val, f.e.val, f.fn] (k f.h f.b f.c)

def formB (f : SFields) (k : SHdr → Reg → Instr) : Dec :=
  unusedZero [f.a.val, f.c.val, f.d.val, f.e.val, f.fn] (k f.h f.b)

def formA (f : SFields) (k : SHdr → Reg → Instr) : Dec :=
  unusedZero [f.b.val, f.c.val, f.d.val, f.e.val, f.fn] (k f.h f.a)

def formNone (f : SFields) (k : SHdr → Instr) : Dec :=
  unusedZero [f.a.val, f.b.val, f.c.val, f.d.val, f.e.val, f.fn] (k f.h)

/-- Integer instructions 0x01 to 0x17 (R190). -/
def decodeInt (op : Nat) (f : SFields) : Dec :=
  if op = 0x01 then formABC f .add
  else if op = 0x02 then formABC f .sub
  else if op = 0x03 then formABC f .mul
  else if op = 0x04 then formABCu f .mulh
  else if op = 0x05 then formABCu f .div
  else if op = 0x06 then formABCu f .rem
  else if op = 0x07 then formABC f .and
  else if op = 0x08 then formABC f .or
  else if op = 0x09 then formABC f .xor
  else if op = 0x0A then formABC f .andn
  else if op = 0x0B then formABC f .shl
  else if op = 0x0C then formABC f .shr
  else if op = 0x0D then formABC f .sra
  else if op = 0x0E then formABCu f .min
  else if op = 0x0F then formABCu f .max
  else if op = 0x10 then formAB f .clz
  else if op = 0x11 then formAB f .popc
  else if op = 0x12 then formABCu f .bfx
  else if op = 0x13 then formABCD f .bfi
  else if op = 0x14 then predField f.d fun p => unusedZero [f.e.val, f.fn] (.sel f.h f.a f.b f.c p)
  else if op = 0x15 then
    predField f.a fun p => orReserved (Combine.ofCode (nbits f.fn 4 2)) fun k =>
      orReserved (Cond.ofCode (nbits f.fn 0 4)) fun c =>
        unusedZero [f.d.val, f.e.val, f.fn / 64] (.cmp f.h p f.b f.c k c)
  else if op = 0x16 then formABCD f .mad
  else if op = 0x17 then
    unusedZero [f.d.val, f.e.val, f.fn / 16] (.lea f.h f.a f.b f.c (nbit f.fn 3) (Fin.ofNat 8 f.fn))
  else .error .unassigned

def formSI (f : SFields) (k : SHdr → Reg → Reg → BitVec 28 → Instr) : Dec := .ok (k f.h f.a f.b f.imm28)

def formShift (f : SFields) (k : SHdr → Reg → Reg → Fin 64 → Instr) : Dec :=
  unusedZero [f.imm28.toNat / 64] (k f.h f.a f.b (Fin.ofNat 64 f.imm28.toNat))

/-- The SYSW row of a register (R203). -/
def syswOf (f : SFields) (r : SysReg) : Instr :=
  match r with
  | .seqLc => .syswSeqLc f.h f.b f.c
  | .facetSeed => .syswFacetSeed f.h f.b f.c
  | .l2Waymask => .syswL2Waymask f.h f.b f.c
  | .ctxEvbase => .syswEvBase f.h f.b f.c
  | .ctxEvsize => .syswEvSize f.h f.b f.c
  | .ctxEvtail => .syswEvTail f.h f.b f.c
  | .ctxEvlost => .syswEvLost f.h f.b f.c
  | .ctxLogtail => .syswLogTail f.h f.b f.c
  | .ctxLoghead => .syswLogHead f.h f.b f.c
  | .ctxRacectl => .syswRacectl f.h f.b f.c
  | .mxFlags => .syswMxFlags f.h f.b f.c
  | r => .sysw f.h f.b f.c r

/-- Immediate forms, system-register access and control, 0x18 to 0x2F (R195 to R203). -/
def decodeImm (op : Nat) (f : SFields) : Dec :=
  if op = 0x18 then formSI f .addi
  else if op = 0x19 then formSI f .muli
  else if op = 0x1A then formSI f .andi
  else if op = 0x1B then formSI f .ori
  else if op = 0x1C then formSI f .xori
  else if op = 0x1D then formShift f .shli
  else if op = 0x1E then formShift f .shri
  else if op = 0x1F then formShift f .srai
  else if op = 0x20 then formSI f .cmpi
  else if op = 0x21 then .ok (.movi f.h f.a f.imm34)
  else if op = 0x22 then unusedZero [f.imm34.toNat / 2 ^ 30] (.movhi f.h f.a (BitVec.ofNat 30 f.imm34.toNat))
  else if op = 0x23 then
    orReserved (SysReg.ofCode f.fn) fun r => unusedZero [f.b.val, f.d.val, f.e.val] (.sysr f.h f.a f.c r)
  else if op = 0x24 then
    orReserved (SysReg.ofCode f.fn) fun r => unusedZero [f.a.val, f.d.val, f.e.val] (syswOf f r)
  else if op = 0x27 then formNone f .nop
  else if op = 0x28 then unusedZero [f.a.val] (.br f.h f.imm34)
  else if op = 0x29 then formBC f .jmp
  else if op = 0x2A then .ok (.call f.h f.a f.imm34)
  else if op = 0x2B then formB f .ret
  else if op = 0x2C then unusedZero [f.b.val] (.loop f.h f.a f.imm28)
  else if op = 0x2D then formNone f .yield
  else if op = 0x2E then formNone f .exit
  else if op = 0x2F then
    unusedZero [f.a.val, f.b.val, f.imm28.toNat / 256] (.trap f.h (BitVec.ofNat 8 f.imm28.toNat))
  else .error .unassigned

/-- The SI memory layout (R79): size, sign, offset. -/
def siSz (f : SFields) : Sz := Sz.ofCode (nbits f.imm28.toNat 26 2)
def siSx (f : SFields) : Bool := nbit f.imm28.toNat 25
def siOff (f : SFields) : BitVec 25 := BitVec.ofNat 25 f.imm28.toNat

/-- A full/empty access: SZ 10 or 11, SX 0 (R355). -/
def formFe (f : SFields) (k : SHdr → Reg → Reg → Bool → BitVec 25 → Instr) : Dec :=
  if siSx f then .error .reserved
  else if siSz f = .w then .ok (k f.h f.a f.b false (siOff f))
  else if siSz f = .d then .ok (k f.h f.a f.b true (siOff f))
  else .error .reserved

/-- SZ, ORD and SCP of an atomic (R80). -/
def syncOf (fn : Nat) : Option Sync :=
  match Scope.ofCode (nbits fn 3 3) with
  | some scp => if nbit fn 9 then some ⟨nbit fn 8, Ord.ofCode (nbits fn 6 2), scp⟩ else none
  | none => none

def formAm (f : SFields) (k : SHdr → Reg → Reg → Reg → Sync → Instr) : Dec :=
  orReserved (syncOf f.fn) fun y => unusedZero [f.d.val, f.e.val, nbits f.fn 0 3] (k f.h f.a f.b f.c y)

def formAmU (f : SFields) (k : SHdr → Reg → Reg → Reg → Sync → Bool → Instr) : Dec :=
  orReserved (syncOf f.fn) fun y =>
    unusedZero [f.d.val, f.e.val, nbits f.fn 1 2] (k f.h f.a f.b f.c y (nbit f.fn 0))

def formAmP (f : SFields) (k : SHdr → Reg → Reg → Reg → Reg → Pred → Sync → Instr) : Dec :=
  predField f.e fun p => orReserved (syncOf f.fn) fun y =>
    unusedZero [nbits f.fn 0 3] (k f.h f.a f.b f.c f.d p y)

/-- Loads, stores, full/empty, prefetch, L1 maintenance and atomics, 0x30 to 0x4B (R271 to R273, R355, R358, R361, R364). -/
def decodeMem (op : Nat) (f : SFields) : Dec :=
  if op = 0x30 then .ok (.ld f.h f.a f.b (siSz f) (siSx f) (siOff f))
  else if op = 0x31 then unusedZero [b2n (siSx f)] (.st f.h f.a f.b (siSz f) (siOff f))
  else if op = 0x32 then
    unusedZero [f.d.val, f.e.val, nbits f.fn 0 4]
      (.ldx f.h f.a f.b f.c (Sz.ofCode (nbits f.fn 8 2)) (nbit f.fn 7) (Fin.ofNat 8 (nbits f.fn 4 3)))
  else if op = 0x33 then
    unusedZero [f.d.val, f.e.val, nbits f.fn 0 4, nbits f.fn 7 1]
      (.stx f.h f.a f.b f.c (Sz.ofCode (nbits f.fn 8 2)) (Fin.ofNat 8 (nbits f.fn 4 3)))
  else if op = 0x34 then formFe f .ldf
  else if op = 0x35 then formFe f .lde
  else if op = 0x36 then formFe f .ste
  else if op = 0x37 then formFe f .stf
  else if op = 0x38 then
    unusedZero [f.a.val, f.d.val, f.e.val, f.fn / 2]
      (if nbit f.fn 0 then .festF f.h f.b f.c else .festE f.h f.b f.c)
  else if op = 0x39 then
    unusedZero [f.a.val, f.d.val, f.e.val, nbits f.fn 9 1] (.pfx f.h f.b f.c (nbit f.fn 8) (Fin.ofNat 256 f.fn))
  else if op = 0x3A then formBC f .flush
  else if op = 0x3B then unusedZero [f.a.val, f.d.val, f.e.val, f.fn / 2] (.inval f.h f.b f.c (nbit f.fn 0))
  else if op = 0x40 then formAm f .amadd
  else if op = 0x41 then formAm f .amand
  else if op = 0x42 then formAm f .amor
  else if op = 0x43 then formAm f .amxor
  else if op = 0x44 then formAmU f .ammin
  else if op = 0x45 then formAmU f .ammax
  else if op = 0x46 then formAm f .amswp
  else if op = 0x47 then formAmP f .amcas
  else if op = 0x48 then formAm f .amincw
  else if op = 0x49 then formAmP f .amfab
  else if op = 0x4A then
    orReserved (syncOf f.fn) fun y => orReserved (RedOp.ofCode (nbits f.fn 0 3)) fun o =>
      unusedZero [f.a.val, f.d.val, f.e.val] (.red f.h f.b f.c y o)
  else if op = 0x4B then formAm f .amfadd
  else .error .unassigned

/-- Ordering, launch and token words, 0x50 to 0x5D (R367 to R372, R132, R149, R152, R153, R205 to R207). -/
def decodeSync (op : Nat) (f : SFields) : Dec :=
  if op = 0x50 then
    orReserved (Scope.ofCode (nbits f.fn 3 3)) fun scp =>
      unusedZero [f.a.val, f.b.val, f.c.val, f.d.val, f.e.val, nbits f.fn 8 2, nbits f.fn 0 3]
        (.fence f.h (Ord.ofCode (nbits f.fn 6 2)) scp)
  else if op = 0x51 then
    unusedZero [f.a.val, f.b.val, f.c.val, f.d.val, f.e.val, f.fn / 2] (.bar f.h (nbit f.fn 0))
  else if op = 0x52 then formA f .gbar
  else if op = 0x53 then formNone f .trig
  else if op = 0x54 then formB f .mark
  else if op = 0x55 then formNone f .beat
  else if op = 0x58 then
    unusedZero [f.a.val, f.c.val, f.d.val, f.e.val, f.fn / 2] (.spawn f.h f.b (nbit f.fn 0))
  else if op = 0x59 then formAB f .cfgld
  else if op = 0x5A then formB f .cfgrel
  else if op = 0x5B then unusedZero [f.fn / 4] (.pusht f.h f.a f.b f.c f.d f.e (Fin.ofNat 4 f.fn))
  else if op = 0x5C then unusedZero [f.fn / 8] (.popt f.h f.a f.b f.c f.d f.e (Fin.ofNat 4 f.fn) (nbit f.fn 2))
  else if op = 0x5D then
    unusedZero [f.a.val, f.b.val, f.c.val, f.d.val, f.e.val, f.fn / 4]
      (if nbit f.fn 1 then .ctltConsume f.h (Fin.ofNat 2 f.fn) else .ctltSend f.h (Fin.ofNat 2 f.fn))
  else .error .unassigned

/-- CPYQ by its operation FN[2:0] (R293). -/
def decodeCpyq (f : SFields) : Dec :=
  let z := [f.c.val, f.d.val, f.e.val, nbits f.fn 6 4]
  let o := nbits f.fn 0 3
  let ch := nbits f.fn 3 3
  if o = 0 then unusedZero (f.b.val :: ch :: z) (.cpyqCount f.h f.a)
  else if o = 1 then unusedZero (f.b.val :: z) (.cpyqChain f.h f.a (Fin.ofNat 8 ch))
  else if o = 2 then unusedZero (ch :: z) (.cpyqGq f.h f.a f.b)
  else if o = 3 then unusedZero (ch :: z) (.cpyqGset f.h f.a f.b)
  else if o = 4 then unusedZero (ch :: z) (.cpyqGres f.h f.a f.b)
  else .error .reserved

/-- Copies, array operations, migration and the tensor table, 0x60 to 0x6C (R280, R289, R292, R293, R297, R274, R305, R306). -/
def decodeCopy (op : Nat) (f : SFields) : Dec :=
  if op = 0x60 then
    if nbit f.fn 9 then unusedZero [f.d.val, f.e.val, nbits f.fn 0 9] (.cpyT f.h f.a f.b f.c)
    else unusedZero [f.e.val, f.fn] (.cpy f.h f.a f.b f.c f.d)
  else if op = 0x61 then
    unusedZero [f.c.val, f.d.val, f.e.val, f.fn / 8] (.cpyc f.h f.a f.b (Fin.ofNat 8 f.fn))
  else if op = 0x62 then unusedZero [f.e.val, f.fn / 64] (.cpym f.h f.a f.b f.c f.d (Fin.ofNat 64 f.fn))
  else if op = 0x63 then decodeCpyq f
  else if op = 0x64 then formABCD f .acpy
  else if op = 0x65 then formABCD f .afill
  else if op = 0x66 then formABCDE f .aand
  else if op = 0x67 then formABCDE f .aor
  else if op = 0x68 then formABCDE f .axor
  else if op = 0x69 then formABCD f .anot
  else if op = 0x6A then
    unusedZero [f.c.val, f.d.val, f.e.val, f.fn / 2] (.pmov f.h f.a f.b (nbit f.fn 0))
  else if op = 0x6B then formABCDE f .tdef
  else if op = 0x6C then formA f .tdrop
  else .error .unassigned

/-- Sessions and system words, 0xE0 to 0xF7 (R110, R423, R426, R427, R127, R401, R402, R418, R420 to R422). -/
def decodeSys (op : Nat) (f : SFields) : Dec :=
  if op = 0xE0 then formABCDE f .sdec
  else if op = 0xE1 then formABCDE f .senc
  else if op = 0xE2 then formBC f .useinc
  else if op = 0xE3 then formABCD f .usesig
  else if op = 0xE4 then formNone f .iwait
  else if op = 0xF0 then
    let z := [f.a.val, f.b.val, f.c.val, f.d.val, f.e.val, f.fn / 4]
    if nbit f.fn 1 then
      if nbit f.fn 0 then .error .reserved else unusedZero z (.eretEsc f.h)
    else unusedZero z (.eret f.h (nbit f.fn 0))
  else if op = 0xF1 then
    if nbit f.fn 0 then unusedZero [f.d.val, f.e.val, f.fn / 2] (.ctxsvTask f.h f.a f.b f.c)
    else unusedZero [f.c.val, f.d.val, f.e.val, f.fn / 2] (.ctxsvCtx f.h f.a f.b)
  else if op = 0xF2 then
    if f.fn = 0 then unusedZero [f.c.val, f.d.val, f.e.val] (.ctxldCtx f.h f.a f.b)
    else if f.fn = 1 then unusedZero [f.d.val, f.e.val] (.ctxldRes f.h f.a f.b f.c)
    else if f.fn = 2 then unusedZero [f.c.val, f.d.val, f.e.val] (.ctxldKill f.h f.a f.b)
    else .error .reserved
  else if op = 0xF3 then
    if f.fn = 0 then unusedZero [f.e.val] (.logctlOff f.h f.a f.b f.c f.d)
    else if f.fn = 1 then unusedZero [f.e.val] (.logctlRec f.h f.a f.b f.c f.d)
    else if f.fn = 2 then unusedZero [f.e.val] (.logctlRep f.h f.a f.b f.c f.d)
    else if f.fn = 3 then unusedZero [f.b.val, f.c.val, f.d.val, f.e.val] (.logctlFlush f.h f.a)
    else .error .reserved
  else if op = 0xF4 then unusedZero [f.a.val, f.e.val, f.fn / 2] (.tlbi f.h f.b f.c f.d (nbit f.fn 0))
  else if op = 0xF5 then formABC f .wait
  else if op = 0xF6 then
    unusedZero [f.a.val, f.b.val, f.c.val, f.d.val, f.e.val, f.fn / 256] (.bkpt f.h (BitVec.ofNat 8 f.fn))
  else if op = 0xF7 then formNone f .halt
  else .error .unassigned

/-! ## Decoding the matrix format (R86, R313) -/

def decodeM (op w : Nat) : Dec :=
  let acc : Fin 16 := Fin.ofNat 16 (nbits w 52 4)
  let accum := nbit w 51
  let tr := nbit w 50
  let al := nbit w 49
  let bl := nbit w 48
  let tida := BitVec.ofNat 8 (nbits w 40 8)
  let tidb := BitVec.ofNat 8 (nbits w 32 8)
  let tidc := BitVec.ofNat 8 (nbits w 24 8)
  let ks := BitVec.ofNat 8 (nbits w 16 8)
  let epi := BitVec.ofNat 8 (nbits w 8 8)
  let ct := nbit w 1
  let fl0 := nbits w 0 1
  let flz := nbits w 2 6
  if op = 0x70 then
    unusedZero [nbits w 24 8, nbits w 8 8, flz] (.mma acc accum tr al bl tida tidb ks (nbit w 0) ct)
  else if op = 0x71 then
    unusedZero [nbits w 49 1, nbits w 24 8, nbits w 8 8, fl0, flz] (.mmag acc accum tr bl tida tidb ks ct)
  else if op = 0x72 then unusedZero [nbits w 8 44, flz] (.mxz acc (nbit w 0) ct)
  else if op = 0x73 then unusedZero [nbits w 32 20, nbits w 16 8, fl0, flz] (.mxrd acc tidc epi ct)
  else if op = 0x74 then unusedZero [nbits w 32 20, nbits w 8 16, fl0, flz] (.mxld acc tidc ct)
  else if op = 0x75 then unusedZero [nbits w 32 20, nbits w 16 8, fl0, flz] (.mxepi acc tidc epi ct)
  else .error .unassigned

/-! ## Decoding the facet format (R81 to R83, R225 to R248) -/

/-- The fields of an F word (R81). -/
structure FFields where
  h : FHdr
  d : Nat
  x : Nat
  y : Nat
  z : Nat
  fn : Nat
  deriving DecidableEq, Repr

/-- R81: the fields of a word; `none` when TC or TV is non-zero with TE = 0. -/
def FFields.ofNat (w : Nat) : Option FFields :=
  let te := nbit w 39
  if !te && nbits w 40 4 != 0 then none
  else some ⟨⟨Guard.ofCode (nbits w 52 4), Guard.ofCode (nbits w 48 4), BitVec.ofNat 4 (nbits w 44 4),
      if te then some (Fin.ofNat 4 (nbits w 42 2), Fin.ofNat 4 (nbits w 40 2)) else none,
      BitVec.ofNat 4 (nbits w 35 4), Fin.ofNat 8 (nbits w 12 3), Fin.ofNat 4 (nbits w 10 2)⟩,
    nbits w 30 5, nbits w 25 5, nbits w 20 5, nbits w 15 5, nbits w 0 10⟩

def opnd (c : Nat) (k : Opnd → Dec) : Dec :=
  match Opnd.ofCode c with
  | some o => k o
  | none => .error .reserved

/-- An address-register code in a field (R242 to R246). -/
def aregField (c : Nat) (k : Fin 4 → Dec) : Dec :=
  if 20 ≤ c ∧ c < 24 then k (Fin.ofNat 4 (c - 20)) else .error .reserved

/-- D = 29 of an instruction with no element result (R98). -/
def noDest (f : FFields) (r : Dec) : Dec := if f.d = 29 then r else .error .unused

def formDX (f : FFields) (zs : List Nat) (k : FHdr → Opnd → Opnd → Instr) : Dec :=
  opnd f.d fun d => opnd f.x fun x => unusedZero (f.y :: f.z :: zs) (k f.h d x)

def formDXY (f : FFields) (zs : List Nat) (k : FHdr → Opnd → Opnd → Opnd → Instr) : Dec :=
  opnd f.d fun d => opnd f.x fun x => opnd f.y fun y => unusedZero (f.z :: zs) (k f.h d x y)

def formDXYZ (f : FFields) (zs : List Nat) (k : FHdr → Opnd → Opnd → Opnd → Opnd → Instr) : Dec :=
  opnd f.d fun d => opnd f.x fun x => opnd f.y fun y => opnd f.z fun z => unusedZero zs (k f.h d x y z)

def ffmtOf (f : FFields) : FFmt := FFmt.ofCode (nbits f.fn 0 2)
def imm10 (f : FFields) : BitVec 10 := BitVec.ofNat 10 f.fn

/-- Floating-point and special-function rules 0x80 to 0x8F (R225 to R231). -/
def decodeFFp (op : Nat) (f : FFields) : Dec :=
  let hi := nbits f.fn 2 8
  if op = 0x80 then formDXY f [hi] (fun h d x y => .fadd h d x y (ffmtOf f))
  else if op = 0x81 then formDXY f [hi] (fun h d x y => .fsub h d x y (ffmtOf f))
  else if op = 0x82 then formDXY f [hi] (fun h d x y => .fmul h d x y (ffmtOf f))
  else if op = 0x83 then formDXYZ f [hi] (fun h d x y z => .ffma h d x y z (ffmtOf f))
  else if op = 0x84 then formDXY f [hi] (fun h d x y => .fmin h d x y (ffmtOf f))
  else if op = 0x85 then formDXY f [hi] (fun h d x y => .fmax h d x y (ffmtOf f))
  else if op = 0x86 then
    formDXY f [nbits f.fn 4 6] (fun h d x y => .fsgn h d x y (SgnOp.ofCode (nbits f.fn 2 2)) (ffmtOf f))
  else if op = 0x87 then
    formDXY f [nbits f.fn 6 4]
      (fun h d x y => .fcmp h d x y (FCond.ofCode (nbits f.fn 2 3)) (nbit f.fn 5) (ffmtOf f))
  else if op = 0x88 then formDXYZ f [f.fn] .esel
  else if op = 0x89 then formDX f [hi] (fun h d x => .fexp2 h d x (ffmtOf f))
  else if op = 0x8A then formDX f [hi] (fun h d x => .flog2 h d x (ffmtOf f))
  else if op = 0x8B then formDX f [hi] (fun h d x => .frcp h d x (ffmtOf f))
  else if op = 0x8C then formDX f [hi] (fun h d x => .frsq h d x (ffmtOf f))
  else if op = 0x8D then formDX f [hi] (fun h d x => .fsqrt h d x (ffmtOf f))
  else if op = 0x8E then formDX f [hi] (fun h d x => .ftanh h d x (ffmtOf f))
  else if op = 0x8F then formDX f [hi] (fun h d x => .fsigm h d x (ffmtOf f))
  else .error .unassigned

/-- Integer rules 0x90 to 0x9C (R232). -/
def decodeFInt (op : Nat) (f : FFields) : Dec :=
  let hi := nbits f.fn 1 9
  if op = 0x90 then formDXY f [] (fun h d x y => .iadd h d x y (imm10 f))
  else if op = 0x91 then formDXY f [] (fun h d x y => .isub h d x y (imm10 f))
  else if op = 0x92 then formDXY f [] (fun h d x y => .imul h d x y (imm10 f))
  else if op = 0x93 then formDXYZ f [] (fun h d x y z => .imad h d x y z (imm10 f))
  else if op = 0x94 then formDXY f [hi] (fun h d x y => .imin h d x y (nbit f.fn 0))
  else if op = 0x95 then formDXY f [hi] (fun h d x y => .imax h d x y (nbit f.fn 0))
  else if op = 0x96 then formDXY f [] (fun h d x y => .iand h d x y (imm10 f))
  else if op = 0x97 then formDXY f [] (fun h d x y => .ior h d x y (imm10 f))
  else if op = 0x98 then formDXY f [] (fun h d x y => .ixor h d x y (imm10 f))
  else if op = 0x99 then formDXY f [] (fun h d x y => .ishl h d x y (imm10 f))
  else if op = 0x9A then formDXY f [hi] (fun h d x y => .ishr h d x y (nbit f.fn 0))
  else if op = 0x9B then
    orReserved (Cond.ofCode (nbits f.fn 0 4)) fun c =>
      formDXY f [nbits f.fn 5 5] (fun h d x y => .icmp h d x y c (nbit f.fn 4))
  else if op = 0x9C then formDXYZ f [hi] (fun h d x y z => .iclmp h d x y z (nbit f.fn 0))
  else .error .unassigned

/-- Conversion and token rules 0xA0 to 0xAB (R233 to R240). -/
def decodeFTok (op : Nat) (f : FFields) : Dec :=
  if op = 0xA0 then
    orReserved (RMode.ofCode (nbits f.fn 7 3)) fun m => orReserved (Fmt.ofCode (nbits f.fn 2 5)) fun g =>
      formDXY f [] (fun h d x y => .cvt h d x y m g (nbit f.fn 1) (nbit f.fn 0))
  else if op = 0xA1 then
    if 16 ≤ f.d ∧ f.d < 20 ∧ 8 ≤ f.x ∧ f.x < 12 ∧ f.y < 8 then
      unusedZero [f.z, f.fn] (.merge f.h (Fin.ofNat 4 (f.d - 16)) (Fin.ofNat 4 (f.x - 8)) (Fin.ofNat 8 f.y))
    else .error .reserved
  else if op = 0xA2 then
    if 16 ≤ f.d ∧ f.d < 20 then
      opnd f.x fun x => opnd f.y fun y =>
        unusedZero [f.z] (.split f.h (Fin.ofNat 4 (f.d - 16)) x y (imm10 f))
    else .error .reserved
  else if op = 0xA3 then
    formDX f [nbits f.fn 3 7] (fun h d x => .tsum h d x (ffmtOf f) (nbit f.fn 2))
  else if op = 0xA4 then
    formDX f [nbits f.fn 4 6] (fun h d x => .tmax h d x (ffmtOf f) (nbit f.fn 2) (nbit f.fn 3))
  else if op = 0xA5 then
    formDX f [nbits f.fn 4 6] (fun h d x => .tmin h d x (ffmtOf f) (nbit f.fn 2) (nbit f.fn 3))
  else if op = 0xA6 then formDX f [] (fun h d x => .mov h d x (imm10 f))
  else if op = 0xA7 then
    if 8 ≤ f.x ∧ f.x < 12 then
      noDest f (unusedZero [f.y, f.z, f.fn] (.drop f.h (Fin.ofNat 4 (f.x - 8))))
    else .error .reserved
  else if op = 0xA8 then
    formDX f [] (fun h d x => .hdr h d x (TKind.ofCode (nbits f.fn 8 2)) (Fin.ofNat 8 (nbits f.fn 5 3)) (nbit f.fn 4)
      (Fin.ofNat 4 (nbits f.fn 2 2)) (nbit f.fn 1) (nbit f.fn 0))
  else if op = 0xA9 then
    orReserved (Fmt.ofCode (nbits f.fn 2 5)) fun g =>
      formDX f [nbits f.fn 7 3, nbits f.fn 0 2] (fun h d x => .scl h d x g)
  else if op = 0xAA then formDX f [] (fun h d x => .iota h d x (imm10 f))
  else if op = 0xAB then formDX f [nbits f.fn 3 7] (fun h d x => .bcast h d x (Fin.ofNat 8 f.fn))
  else .error .unassigned

/-- A token load from the bank (R242). -/
def formLoad (f : FFields) (k : FHdr → Opnd → Fin 4 → BitVec 5 → Fin 8 → Fin 4 → Instr) : Dec :=
  opnd f.d fun d => aregField f.x fun a =>
    unusedZero [f.y, f.z]
      (k f.h d a (BitVec.ofNat 5 (nbits f.fn 5 5)) (Fin.ofNat 8 (nbits f.fn 2 3)) (Fin.ofNat 4 (nbits f.fn 0 2)))

/-- Bank-port, predicate and control-net rules 0xB0 to 0xBB (R241 to R248). -/
def decodeFBank (op : Nat) (f : FFields) : Dec :=
  if op = 0xB0 then formLoad f .fld
  else if op = 0xB1 then
    noDest f (opnd f.x fun x => aregField f.y fun a =>
      unusedZero [f.z, nbits f.fn 1 4] (.fst f.h x a (BitVec.ofNat 5 (nbits f.fn 5 5)) (nbit f.fn 0)))
  else if op = 0xB2 then formLoad f .fldf
  else if op = 0xB3 then formLoad f .flde
  else if op = 0xB4 then
    noDest f (opnd f.x fun x => aregField f.y fun a =>
      unusedZero [f.z, nbits f.fn 0 5] (.fste f.h x a (BitVec.ofNat 5 (nbits f.fn 5 5))))
  else if op = 0xB5 then
    opnd f.d fun d => aregField f.x fun a => opnd f.y fun y =>
      unusedZero [f.z, nbits f.fn 5 5]
        (.fldx f.h d a y (Fin.ofNat 8 (nbits f.fn 2 3)) (Fin.ofNat 4 (nbits f.fn 0 2)))
  else if op = 0xB6 then
    noDest f (opnd f.x fun x => aregField f.y fun a => opnd f.z fun z =>
      unusedZero [nbits f.fn 5 5, nbits f.fn 0 2] (.fstx f.h x a z (Fin.ofNat 8 (nbits f.fn 2 3))))
  else if op = 0xB7 then
    opnd f.d fun d => opnd f.x fun x => aregField f.y fun a =>
      unusedZero [f.z, nbits f.fn 4 6] (.famo f.h d x a (AmoOp.ofCode (nbits f.fn 0 3)) (nbit f.fn 3))
  else if op = 0xB8 then
    aregField f.d fun a => opnd f.x fun x => opnd f.y fun y => unusedZero [f.z] (.ainc f.h a x y (imm10 f))
  else if op = 0xB9 then
    noDest f (opnd f.x fun x =>
      unusedZero [f.y, f.z, nbits f.fn 6 4]
        (.pset f.h x (PTest.ofCode (nbits f.fn 0 3)) (Fin.ofNat 8 (nbits f.fn 3 3))))
  else if op = 0xBA then
    noDest f (unusedZero [f.x, f.y, f.z, nbits f.fn 1 9] (.send f.h (Fin.ofNat 2 f.fn)))
  else if op = 0xBB then
    noDest f (unusedZero [f.x, f.y, f.z, nbits f.fn 1 9] (.waitc f.h (Fin.ofNat 2 f.fn)))
  else .error .unassigned

def decodeF (op w : Nat) : Dec :=
  match FFields.ofNat w with
  | none => .error .unused
  | some f =>
    if op < 0x90 then decodeFFp op f
    else if op < 0xA0 then decodeFInt op f
    else if op < 0xB0 then decodeFTok op f
    else decodeFBank op f

/-! ## Decoding the P format (R88, R336, R337) -/

def decodeP (op w : Nat) : Dec :=
  let ib0 : Chan := Fin.ofNat 4 (nbits w 54 2)
  let ib1 : Chan := Fin.ofNat 4 (nbits w 52 2)
  let ob0 : Chan := Fin.ofNat 4 (nbits w 50 2)
  let ob1 : Chan := Fin.ofNat 4 (nbits w 48 2)
  let lvl := nbits w 44 4
  let tidN := nbits w 36 8
  let tid := BitVec.ofNat 8 tidN
  let seg := BitVec.ofNat 8 (nbits w 28 8)
  let ext := BitVec.ofNat 16 (nbits w 20 16)
  if op = 0xC0 then unusedZero [ib1.val, ob1.val, lvl, nbits w 0 27] (.scan ib0 ob0 tid seg (nbit w 27))
  else if op = 0xC1 then unusedZero [ib1.val, ob1.val, lvl, nbits w 0 19] (.scanb ib0 ob0 tid ext (nbit w 19))
  else if op = 0xC2 then unusedZero [ib1.val, ob1.val, lvl, tidN, nbits w 0 19] (.scand ib0 ob0 ext (nbit w 19))
  else if op = 0xC3 then unusedZero [lvl, tidN, nbits w 0 36] (.isect ib0 ib1 ob0 ob1)
  else if op = 0xC4 then unusedZero [lvl, tidN, nbits w 0 36] (.union ib0 ib1 ob0 ob1)
  else if op = 0xC5 then unusedZero [ob1.val, lvl, tidN, nbits w 0 36] (.rept ib0 ib1 ob0)
  else if op = 0xC6 then
    orReserved (Fmt.ofCode (nbits w 31 5)) fun g =>
      if lvl < 8 then unusedZero [ib1.val, ob1.val, tidN, nbits w 0 31] (.rdce ib0 ob0 (Fin.ofNat 8 lvl) g)
      else .error .reserved
  else if op = 0xC7 then unusedZero [ib1.val, ob1.val, lvl, nbits w 0 27] (.crdw ib0 ob0 tid seg (nbit w 27))
  else if op = 0xC8 then
    orReserved (Trig.ofCode (nbits w 18 2)) fun t =>
      if lvl < 4 then
        unusedZero [ib0.val, ib1.val, ob0.val, ob1.val, tidN, nbits w 0 17] (.ctr (Fin.ofNat 4 lvl) ext t (nbit w 17))
      else .error .reserved
  else if op = 0xC9 then
    if lvl < 4 then
      unusedZero [ib1.val, ob1.val, nbits w 0 18]
        (.agen ib0 ob0 (Fin.ofNat 4 lvl) tid (nbit w 35) (BitVec.ofNat 8 (nbits w 27 8)) (BitVec.ofNat 4 (nbits w 23 4))
          (Fin.ofNat 16 (nbits w 19 4)) (nbit w 18))
    else .error .reserved
  else if op = 0xCA then
    orReserved (Trig.ofCode (nbits w 29 2)) fun t =>
      unusedZero [ib1.val, ob1.val, lvl, nbits w 0 27]
        (.mport ib0 ob0 tid (nbit w 35) (Fin.ofNat 16 (nbits w 31 4)) t (nbit w 28) (nbit w 27))
  else if op = 0xCB then
    unusedZero [ib1.val, lvl, nbits w 0 34] (.gath ib0 ob0 ob1 tid (nbit w 35) (nbit w 34))
  else if op = 0xCC then
    unusedZero [ob0.val, ob1.val, lvl, nbits w 35 1, nbits w 0 32]
      (.scat ib0 ib1 tid (nbit w 34) (nbit w 33) (nbit w 32))
  else .error .unassigned

/-! ## The whole decoder -/

/-- The instruction a word's fields name, before the consistency checks of `Instr.defect`. -/
def parse (w : Nat) : Dec :=
  let op := nbits w 56 8
  if 0x70 ≤ op ∧ op < 0x80 then decodeM op w
  else if 0x80 ≤ op ∧ op < 0xC0 then decodeF op w
  else if 0xC0 ≤ op ∧ op < 0xD0 then decodeP op w
  else
    match SFields.ofNat w with
    | none => .error .reserved
    | some f =>
      if op < 0x18 then decodeInt op f
      else if op < 0x30 then decodeImm op f
      else if op < 0x50 then decodeMem op f
      else if op < 0x60 then decodeSync op f
      else if op < 0x70 then decodeCopy op f
      else decodeSys op f

/-- The instruction of the word with value `w` (R93 gives every refusal). -/
def decode (w : Nat) : Dec :=
  match parse w with
  | .ok i =>
    match i.defect with
    | none => .ok i
    | some d => .error (.illFormed d)
  | .error e => .error e

/-- The instruction in the first eight bytes, little-endian (R69), and the bytes that follow it. -/
def decodeBytes : List Byte → Except DecodeErr (Instr × List Byte)
  | b0 :: b1 :: b2 :: b3 :: b4 :: b5 :: b6 :: b7 :: rest =>
    match decode (leNat [b0, b1, b2, b3, b4, b5, b6, b7]) with
    | .ok i => .ok (i, rest)
    | .error e => .error e
  | _ => .error .short

/-- The decoder on an instruction whose bits, numbered from the first word's least significant, are `w`. Every word of
this hardware has 64 bits (R69). -/
def decodeTableWord (nbits w : Nat) : Option Instr :=
  if nbits ≤ 64 ∧ w < 2 ^ 64 then
    match decodeBytes (leBytes 8 w) with
    | .ok (i, _) => some i
    | .error _ => none
  else none

/-! ## Encoding -/

/-- Bits [63:40] of a sequencer word (R73). -/
def encHdr (op : Nat) (h : SHdr) : Nat :=
  op * 2 ^ 56 + h.ga.code * 2 ^ 52 + h.gb.code * 2 ^ 48 + h.mark.code * 2 ^ 46 + h.ch.code * 2 ^ 43 +
    b2n h.y * 2 ^ 42 + h.w.val * 2 ^ 40

/-- Format S (R73). -/
def encS (op : Nat) (h : SHdr) (a b c d e fn : Nat) : Nat :=
  encHdr op h + a * 2 ^ 34 + b * 2 ^ 28 + c * 2 ^ 22 + d * 2 ^ 16 + e * 2 ^ 10 + fn

/-- Format SI (R74). -/
def encSI (op : Nat) (h : SHdr) (a b imm : Nat) : Nat := encHdr op h + a * 2 ^ 34 + b * 2 ^ 28 + imm

/-- Format SL (R74). -/
def encSL (op : Nat) (h : SHdr) (a imm : Nat) : Nat := encHdr op h + a * 2 ^ 34 + imm

/-- IMM of the SI memory words (R79). -/
def encMemImm (sz : Sz) (sx : Bool) (off : BitVec 25) : Nat := sz.code * 2 ^ 26 + b2n sx * 2 ^ 25 + off.toNat

/-- FN[9:3] of an atomic (R80). -/
def encSync (y : Sync) : Nat := 2 ^ 9 + b2n y.dbl * 2 ^ 8 + y.ord.code * 2 ^ 6 + y.scp.code * 2 ^ 3

/-- Format F (R81). -/
def encF (op : Nat) (f : FHdr) (d x y z fn : Nat) : Nat :=
  op * 2 ^ 56 + f.ga.code * 2 ^ 52 + f.gb.code * 2 ^ 48 + f.ins.toNat * 2 ^ 44 +
    (match f.tag with
     | some (tc, tv) => tc.val * 2 ^ 42 + tv.val * 2 ^ 40 + 2 ^ 39
     | none => 0) +
    f.outs.toNat * 2 ^ 35 + d * 2 ^ 30 + x * 2 ^ 25 + y * 2 ^ 20 + z * 2 ^ 15 + f.pi.val * 2 ^ 12 + f.po.val * 2 ^ 10 + fn

/-- Format M (R86). -/
def encM (op acc accum tr al bl tida tidb tidc ks epi flags : Nat) : Nat :=
  op * 2 ^ 56 + acc * 2 ^ 52 + accum * 2 ^ 51 + tr * 2 ^ 50 + al * 2 ^ 49 + bl * 2 ^ 48 + tida * 2 ^ 40 + tidb * 2 ^ 32 +
    tidc * 2 ^ 24 + ks * 2 ^ 16 + epi * 2 ^ 8 + flags

/-- Format P (R88). -/
def encP (op ib0 ib1 ob0 ob1 lvl tid parm : Nat) : Nat :=
  op * 2 ^ 56 + ib0 * 2 ^ 54 + ib1 * 2 ^ 52 + ob0 * 2 ^ 50 + ob1 * 2 ^ 48 + lvl * 2 ^ 44 + tid * 2 ^ 36 + parm

/-- FN of a token load (R242). -/
def encLoadFn (inc : BitVec 5) (len : Fin 8) (wid : Fin 4) : Nat := inc.toNat * 32 + len.val * 4 + wid.val

/-- The word of an instruction; `none` for the rows that no word encodes. -/
def encode : Instr → Option Nat
  | .add h a b c => some (encS 0x01 h a b c 0 0 0)
  | .sub h a b c => some (encS 0x02 h a b c 0 0 0)
  | .mul h a b c => some (encS 0x03 h a b c 0 0 0)
  | .mulh h a b c u => some (encS 0x04 h a b c 0 0 (b2n u))
  | .div h a b c u => some (encS 0x05 h a b c 0 0 (b2n u))
  | .rem h a b c u => some (encS 0x06 h a b c 0 0 (b2n u))
  | .and h a b c => some (encS 0x07 h a b c 0 0 0)
  | .or h a b c => some (encS 0x08 h a b c 0 0 0)
  | .xor h a b c => some (encS 0x09 h a b c 0 0 0)
  | .andn h a b c => some (encS 0x0A h a b c 0 0 0)
  | .shl h a b c => some (encS 0x0B h a b c 0 0 0)
  | .shr h a b c => some (encS 0x0C h a b c 0 0 0)
  | .sra h a b c => some (encS 0x0D h a b c 0 0 0)
  | .min h a b c u => some (encS 0x0E h a b c 0 0 (b2n u))
  | .max h a b c u => some (encS 0x0F h a b c 0 0 (b2n u))
  | .clz h a b => some (encS 0x10 h a b 0 0 0 0)
  | .popc h a b => some (encS 0x11 h a b 0 0 0 0)
  | .bfx h a b c sx => some (encS 0x12 h a b c 0 0 (b2n sx))
  | .bfi h a b c d => some (encS 0x13 h a b c d 0 0)
  | .sel h a b c p => some (encS 0x14 h a b c p.val 0 0)
  | .cmp h p b c k cond => some (encS 0x15 h p.val b c 0 0 (k.code * 16 + cond.code))
  | .mad h a b c d => some (encS 0x16 h a b c d 0 0)
  | .lea h a b c x32 sh => some (encS 0x17 h a b c 0 0 (b2n x32 * 8 + sh.val))
  | .addi h a b imm => some (encSI 0x18 h a b imm.toNat)
  | .muli h a b imm => some (encSI 0x19 h a b imm.toNat)
  | .andi h a b imm => some (encSI 0x1A h a b imm.toNat)
  | .ori h a b imm => some (encSI 0x1B h a b imm.toNat)
  | .xori h a b imm => some (encSI 0x1C h a b imm.toNat)
  | .shli h a b n => some (encSI 0x1D h a b n.val)
  | .shri h a b n => some (encSI 0x1E h a b n.val)
  | .srai h a b n => some (encSI 0x1F h a b n.val)
  | .cmpi h a b imm => some (encSI 0x20 h a b imm.toNat)
  | .movi h a imm => some (encSL 0x21 h a imm.toNat)
  | .movhi h a imm => some (encSL 0x22 h a imm.toNat)
  | .sysr h a c r => some (encS 0x23 h a 0 c 0 0 r.code)
  | .sysw h b c r => some (encS 0x24 h 0 b c 0 0 r.code)
  | .syswSeqLc h b c => some (encS 0x24 h 0 b c 0 0 SysReg.seqLc.code)
  | .syswFacetSeed h b c => some (encS 0x24 h 0 b c 0 0 SysReg.facetSeed.code)
  | .syswL2Waymask h b c => some (encS 0x24 h 0 b c 0 0 SysReg.l2Waymask.code)
  | .syswEvBase h b c => some (encS 0x24 h 0 b c 0 0 SysReg.ctxEvbase.code)
  | .syswEvSize h b c => some (encS 0x24 h 0 b c 0 0 SysReg.ctxEvsize.code)
  | .syswEvTail h b c => some (encS 0x24 h 0 b c 0 0 SysReg.ctxEvtail.code)
  | .syswEvLost h b c => some (encS 0x24 h 0 b c 0 0 SysReg.ctxEvlost.code)
  | .syswLogTail h b c => some (encS 0x24 h 0 b c 0 0 SysReg.ctxLogtail.code)
  | .syswLogHead h b c => some (encS 0x24 h 0 b c 0 0 SysReg.ctxLoghead.code)
  | .syswRacectl h b c => some (encS 0x24 h 0 b c 0 0 SysReg.ctxRacectl.code)
  | .syswMxFlags h b c => some (encS 0x24 h 0 b c 0 0 SysReg.mxFlags.code)
  | .nop h => some (encS 0x27 h 0 0 0 0 0 0)
  | .br h imm => some (encSL 0x28 h 0 imm.toNat)
  | .jmp h b c => some (encS 0x29 h 0 b c 0 0 0)
  | .call h a imm => some (encSL 0x2A h a imm.toNat)
  | .ret h b => some (encS 0x2B h 0 b 0 0 0 0)
  | .loop h a imm => some (encSI 0x2C h a 0 imm.toNat)
  | .yield h => some (encS 0x2D h 0 0 0 0 0 0)
  | .exit h => some (encS 0x2E h 0 0 0 0 0 0)
  | .trap h code => some (encSI 0x2F h 0 0 code.toNat)
  | .ld h a b sz sx off => some (encSI 0x30 h a b (encMemImm sz sx off))
  | .st h a b sz off => some (encSI 0x31 h a b (encMemImm sz false off))
  | .ldx h a b c sz sx sh => some (encS 0x32 h a b c 0 0 (sz.code * 256 + b2n sx * 128 + sh.val * 16))
  | .stx h a b c sz sh => some (encS 0x33 h a b c 0 0 (sz.code * 256 + sh.val * 16))
  | .ldf h a b dbl off => some (encSI 0x34 h a b (encMemImm (if dbl then .d else .w) false off))
  | .lde h a b dbl off => some (encSI 0x35 h a b (encMemImm (if dbl then .d else .w) false off))
  | .ste h a b dbl off => some (encSI 0x36 h a b (encMemImm (if dbl then .d else .w) false off))
  | .stf h a b dbl off => some (encSI 0x37 h a b (encMemImm (if dbl then .d else .w) false off))
  | .festF h b c => some (encS 0x38 h 0 b c 0 0 1)
  | .festE h b c => some (encS 0x38 h 0 b c 0 0 0)
  | .pfx h b c l2 lines => some (encS 0x39 h 0 b c 0 0 (b2n l2 * 256 + lines.val))
  | .flush h b c => some (encS 0x3A h 0 b c 0 0 0)
  | .inval h b c wb => some (encS 0x3B h 0 b c 0 0 (b2n wb))
  | .amadd h a b c y => some (encS 0x40 h a b c 0 0 (encSync y))
  | .amand h a b c y => some (encS 0x41 h a b c 0 0 (encSync y))
  | .amor h a b c y => some (encS 0x42 h a b c 0 0 (encSync y))
  | .amxor h a b c y => some (encS 0x43 h a b c 0 0 (encSync y))
  | .ammin h a b c y u => some (encS 0x44 h a b c 0 0 (encSync y + b2n u))
  | .ammax h a b c y u => some (encS 0x45 h a b c 0 0 (encSync y + b2n u))
  | .amswp h a b c y => some (encS 0x46 h a b c 0 0 (encSync y))
  | .amcas h a b c d p y => some (encS 0x47 h a b c d p.val (encSync y))
  | .amincw h a b c y => some (encS 0x48 h a b c 0 0 (encSync y))
  | .amfab h a b c d p y => some (encS 0x49 h a b c d p.val (encSync y))
  | .red h b c y o => some (encS 0x4A h 0 b c 0 0 (encSync y + o.code))
  | .amfadd h a b c y => some (encS 0x4B h a b c 0 0 (encSync y))
  | .fence h ord scp => some (encS 0x50 h 0 0 0 0 0 (ord.code * 64 + scp.code * 8))
  | .bar h fab => some (encS 0x51 h 0 0 0 0 0 (b2n fab))
  | .gbar h a => some (encS 0x52 h a 0 0 0 0 0)
  | .trig h => some (encS 0x53 h 0 0 0 0 0 0)
  | .mark h b => some (encS 0x54 h 0 b 0 0 0 0)
  | .beat h => some (encS 0x55 h 0 0 0 0 0 0)
  | .spawn h b xd => some (encS 0x58 h 0 b 0 0 0 (b2n xd))
  | .cfgld h a b => some (encS 0x59 h a b 0 0 0 0)
  | .cfgrel h b => some (encS 0x5A h 0 b 0 0 0 0)
  | .pusht h a b c d e ch => some (encS 0x5B h a b c d e ch.val)
  | .popt h a b c d e ch k => some (encS 0x5C h a b c d e (b2n k * 4 + ch.val))
  | .ctltSend h line => some (encS 0x5D h 0 0 0 0 0 line.val)
  | .ctltConsume h line => some (encS 0x5D h 0 0 0 0 0 (2 + line.val))
  | .cpy h a b c d => some (encS 0x60 h a b c d 0 0)
  | .cpyT h a b c => some (encS 0x60 h a b c 0 0 512)
  | .cpyc h a b ch => some (encS 0x61 h a b 0 0 0 ch.val)
  | .cpym h a b c d g => some (encS 0x62 h a b c d 0 g.val)
  | .cpyqCount h a => some (encS 0x63 h a 0 0 0 0 0)
  | .cpyqChain h a ch => some (encS 0x63 h a 0 0 0 0 (ch.val * 8 + 1))
  | .cpyqGq h a b => some (encS 0x63 h a b 0 0 0 2)
  | .cpyqGset h a b => some (encS 0x63 h a b 0 0 0 3)
  | .cpyqGres h a b => some (encS 0x63 h a b 0 0 0 4)
  | .acpy h a b c d => some (encS 0x64 h a b c d 0 0)
  | .afill h a b c d => some (encS 0x65 h a b c d 0 0)
  | .aand h a b c d e => some (encS 0x66 h a b c d e 0)
  | .aor h a b c d e => some (encS 0x67 h a b c d e 0)
  | .axor h a b c d e => some (encS 0x68 h a b c d e 0)
  | .anot h a b c d => some (encS 0x69 h a b c d 0 0)
  | .pmov h a b far => some (encS 0x6A h a b 0 0 0 (b2n far))
  | .tdef h a b c d e => some (encS 0x6B h a b c d e 0)
  | .tdrop h a => some (encS 0x6C h a 0 0 0 0 0)
  | .mma acc accum tr al bl tida tidb ks ta ct =>
    some (encM 0x70 acc (b2n accum) (b2n tr) (b2n al) (b2n bl) tida.toNat tidb.toNat 0 ks.toNat 0 (b2n ct * 2 + b2n ta))
  | .mmag acc accum tr bl tida tidb ks ct =>
    some (encM 0x71 acc (b2n accum) (b2n tr) 0 (b2n bl) tida.toNat tidb.toNat 0 ks.toNat 0 (b2n ct * 2))
  | .mxz acc all ct => some (encM 0x72 acc 0 0 0 0 0 0 0 0 0 (b2n ct * 2 + b2n all))
  | .mxrd acc tidc epi ct => some (encM 0x73 acc 0 0 0 0 0 0 tidc.toNat 0 epi.toNat (b2n ct * 2))
  | .mxld acc tidc ct => some (encM 0x74 acc 0 0 0 0 0 0 tidc.toNat 0 0 (b2n ct * 2))
  | .mxepi acc tidc epi ct => some (encM 0x75 acc 0 0 0 0 0 0 tidc.toNat 0 epi.toNat (b2n ct * 2))
  | .fadd f d x y m => some (encF 0x80 f d.code x.code y.code 0 m.code)
  | .fsub f d x y m => some (encF 0x81 f d.code x.code y.code 0 m.code)
  | .fmul f d x y m => some (encF 0x82 f d.code x.code y.code 0 m.code)
  | .ffma f d x y z m => some (encF 0x83 f d.code x.code y.code z.code m.code)
  | .fmin f d x y m => some (encF 0x84 f d.code x.code y.code 0 m.code)
  | .fmax f d x y m => some (encF 0x85 f d.code x.code y.code 0 m.code)
  | .fsgn f d x y o m => some (encF 0x86 f d.code x.code y.code 0 (o.code * 4 + m.code))
  | .fcmp f d x y c all m => some (encF 0x87 f d.code x.code y.code 0 (b2n all * 32 + c.code * 4 + m.code))
  | .esel f d x y z => some (encF 0x88 f d.code x.code y.code z.code 0)
  | .fexp2 f d x m => some (encF 0x89 f d.code x.code 0 0 m.code)
  | .flog2 f d x m => some (encF 0x8A f d.code x.code 0 0 m.code)
  | .frcp f d x m => some (encF 0x8B f d.code x.code 0 0 m.code)
  | .frsq f d x m => some (encF 0x8C f d.code x.code 0 0 m.code)
  | .fsqrt f d x m => some (encF 0x8D f d.code x.code 0 0 m.code)
  | .ftanh f d x m => some (encF 0x8E f d.code x.code 0 0 m.code)
  | .fsigm f d x m => some (encF 0x8F f d.code x.code 0 0 m.code)
  | .iadd f d x y n => some (encF 0x90 f d.code x.code y.code 0 n.toNat)
  | .isub f d x y n => some (encF 0x91 f d.code x.code y.code 0 n.toNat)
  | .imul f d x y n => some (encF 0x92 f d.code x.code y.code 0 n.toNat)
  | .imad f d x y z n => some (encF 0x93 f d.code x.code y.code z.code n.toNat)
  | .imin f d x y u => some (encF 0x94 f d.code x.code y.code 0 (b2n u))
  | .imax f d x y u => some (encF 0x95 f d.code x.code y.code 0 (b2n u))
  | .iand f d x y n => some (encF 0x96 f d.code x.code y.code 0 n.toNat)
  | .ior f d x y n => some (encF 0x97 f d.code x.code y.code 0 n.toNat)
  | .ixor f d x y n => some (encF 0x98 f d.code x.code y.code 0 n.toNat)
  | .ishl f d x y n => some (encF 0x99 f d.code x.code y.code 0 n.toNat)
  | .ishr f d x y s => some (encF 0x9A f d.code x.code y.code 0 (b2n s))
  | .icmp f d x y c all => some (encF 0x9B f d.code x.code y.code 0 (b2n all * 16 + c.code))
  | .iclmp f d x y z u => some (encF 0x9C f d.code x.code y.code z.code (b2n u))
  | .cvt f d x y m g dir sc =>
    some (encF 0xA0 f d.code x.code y.code 0 (m.code * 128 + g.code * 4 + b2n dir * 2 + b2n sc))
  | .merge f o i k => some (encF 0xA1 f (16 + o.val) (8 + i.val) k.val 0 0)
  | .split f o x y n => some (encF 0xA2 f (16 + o.val) x.code y.code 0 n.toNat)
  | .tsum f d x m int => some (encF 0xA3 f d.code x.code 0 0 (b2n int * 4 + m.code))
  | .tmax f d x m int u => some (encF 0xA4 f d.code x.code 0 0 (b2n u * 8 + b2n int * 4 + m.code))
  | .tmin f d x m int u => some (encF 0xA5 f d.code x.code 0 0 (b2n u * 8 + b2n int * 4 + m.code))
  | .mov f d x n => some (encF 0xA6 f d.code x.code 0 0 n.toNat)
  | .drop f i => some (encF 0xA7 f 29 (8 + i.val) 0 0 0)
  | .hdr f d x kind lvl lot tag kt bl =>
    some (encF 0xA8 f d.code x.code 0 0
      (kind.code * 256 + lvl.val * 32 + b2n lot * 16 + tag.val * 4 + b2n kt * 2 + b2n bl))
  | .scl f d x g => some (encF 0xA9 f d.code x.code 0 0 (g.code * 4))
  | .iota f d x n => some (encF 0xAA f d.code x.code 0 0 n.toNat)
  | .bcast f d x j => some (encF 0xAB f d.code x.code 0 0 j.val)
  | .fld f d ak inc len wid => some (encF 0xB0 f d.code (20 + ak.val) 0 0 (encLoadFn inc len wid))
  | .fst f x ak inc sf => some (encF 0xB1 f 29 x.code (20 + ak.val) 0 (inc.toNat * 32 + b2n sf))
  | .fldf f d ak inc len wid => some (encF 0xB2 f d.code (20 + ak.val) 0 0 (encLoadFn inc len wid))
  | .flde f d ak inc len wid => some (encF 0xB3 f d.code (20 + ak.val) 0 0 (encLoadFn inc len wid))
  | .fste f x ak inc => some (encF 0xB4 f 29 x.code (20 + ak.val) 0 (inc.toNat * 32))
  | .fldx f d ak y sh wid => some (encF 0xB5 f d.code (20 + ak.val) y.code 0 (sh.val * 4 + wid.val))
  | .fstx f x ak z sh => some (encF 0xB6 f 29 x.code (20 + ak.val) z.code (sh.val * 4))
  | .famo f d x ak o u => some (encF 0xB7 f d.code x.code (20 + ak.val) 0 (b2n u * 8 + o.code))
  | .ainc f ak x y n => some (encF 0xB8 f (20 + ak.val) x.code y.code 0 n.toNat)
  | .pset f x t l => some (encF 0xB9 f 29 x.code 0 0 (l.val * 8 + t.code))
  | .send f line => some (encF 0xBA f 29 0 0 0 line.val)
  | .waitc f line => some (encF 0xBB f 29 0 0 0 line.val)
  | .scan ib0 ob0 tid seg root =>
    some (encP 0xC0 ib0 0 ob0 0 0 tid.toNat (seg.toNat * 2 ^ 28 + b2n root * 2 ^ 27))
  | .scanb ib0 ob0 tid ext root =>
    some (encP 0xC1 ib0 0 ob0 0 0 tid.toNat (ext.toNat * 2 ^ 20 + b2n root * 2 ^ 19))
  | .scand ib0 ob0 ext root => some (encP 0xC2 ib0 0 ob0 0 0 0 (ext.toNat * 2 ^ 20 + b2n root * 2 ^ 19))
  | .isect ib0 ib1 ob0 ob1 => some (encP 0xC3 ib0 ib1 ob0 ob1 0 0 0)
  | .union ib0 ib1 ob0 ob1 => some (encP 0xC4 ib0 ib1 ob0 ob1 0 0 0)
  | .rept ib0 ib1 ob0 => some (encP 0xC5 ib0 ib1 ob0 0 0 0 0)
  | .rdce ib0 ob0 lvl g => some (encP 0xC6 ib0 0 ob0 0 lvl.val 0 (g.code * 2 ^ 31))
  | .crdw ib0 ob0 tid seg cnt =>
    some (encP 0xC7 ib0 0 ob0 0 0 tid.toNat (seg.toNat * 2 ^ 28 + b2n cnt * 2 ^ 27))
  | .ctr lvl n trig fin =>
    some (encP 0xC8 0 0 0 0 lvl.val 0 (n.toNat * 2 ^ 20 + trig.code * 2 ^ 18 + b2n fin * 2 ^ 17))
  | .agen ib0 ob0 lvl tid dir map use lotk ct =>
    some (encP 0xC9 ib0 0 ob0 0 lvl.val tid.toNat (b2n dir * 2 ^ 35 + map.toNat * 2 ^ 27 + use.toNat * 2 ^ 23 +
      lotk.val * 2 ^ 19 + b2n ct * 2 ^ 18))
  | .mport ib0 ob0 tid dir lotk trig done ct =>
    some (encP 0xCA ib0 0 ob0 0 0 tid.toNat (b2n dir * 2 ^ 35 + lotk.val * 2 ^ 31 + trig.code * 2 ^ 29 +
      b2n done * 2 ^ 28 + b2n ct * 2 ^ 27))
  | .gath ib0 ob0 ob1 tid any addr =>
    some (encP 0xCB ib0 0 ob0 ob1 0 tid.toNat (b2n any * 2 ^ 35 + b2n addr * 2 ^ 34))
  | .scat ib0 ib1 tid add addr ct =>
    some (encP 0xCC ib0 ib1 0 0 0 tid.toNat (b2n add * 2 ^ 34 + b2n addr * 2 ^ 33 + b2n ct * 2 ^ 32))
  | .sdec h a b c d e => some (encS 0xE0 h a b c d e 0)
  | .senc h a b c d e => some (encS 0xE1 h a b c d e 0)
  | .useinc h b c => some (encS 0xE2 h 0 b c 0 0 0)
  | .usesig h a b c d => some (encS 0xE3 h a b c d 0 0)
  | .iwait h => some (encS 0xE4 h 0 0 0 0 0 0)
  | .eret h nx => some (encS 0xF0 h 0 0 0 0 0 (b2n nx))
  | .eretEsc h => some (encS 0xF0 h 0 0 0 0 0 2)
  | .ctxsvTask h a b c => some (encS 0xF1 h a b c 0 0 1)
  | .ctxsvCtx h a b => some (encS 0xF1 h a b 0 0 0 0)
  | .ctxldCtx h a b => some (encS 0xF2 h a b 0 0 0 0)
  | .ctxldRes h a b c => some (encS 0xF2 h a b c 0 0 1)
  | .ctxldKill h a b => some (encS 0xF2 h a b 0 0 0 2)
  | .logctlOff h a b c d => some (encS 0xF3 h a b c d 0 0)
  | .logctlRec h a b c d => some (encS 0xF3 h a b c d 0 1)
  | .logctlRep h a b c d => some (encS 0xF3 h a b c d 0 2)
  | .logctlFlush h a => some (encS 0xF3 h a 0 0 0 0 3)
  | .tlbi h b c d all => some (encS 0xF4 h 0 b c d 0 (b2n all))
  | .wait h a b c => some (encS 0xF5 h a b c 0 0 0)
  | .bkpt h tag => some (encS 0xF6 h 0 0 0 0 0 tag.toNat)
  | .halt h => some (encS 0xF7 h 0 0 0 0 0 0)
  | .feWaitServe _ _ | .redPerform _ | .gbarGenerationComplete _ _ | .triggerWalk _ | .copyComplete _ _
  | .copyFaultPark _ _ | .chainRecord _ _ | .arrayOpComplete _ _ | .pmovComplete _ _ | .facetCycle _ _
  | .starvationUrgent _ _ _ | .unitFaultWithhold _ _ _ | .sdecComplete _ | .sencComplete _ | .usesigComplete _
  | .horizonReached _ | .integFail _ | .waitTimeout _ | .landingDecision _ | .reservationLapse _ _
  | .bindingComplete _ | .preempt _ _ | .configFetch _ _ | .configFetchComplete _ _ _ | .switchTokenPass _ _ _ _ _
  | .mergeChoice _ _ _ _ _ | .mrdivPlaceTimeout _ _ | .mrdivTailTimeout _ | .wdogExpiry _ | .wdogSecondExpiry _
  | .islandFailure _ | .controlStateMemerr _ _ | .rowRetire _ | .compressedWriteTimeout _ | .hostProduce _ _ _ _ _ _
  | .linkOutboxTake _ _ | .podRemoteWrite _ | .linkSendComplete _ _ _ | .linkdown _ | .dieLinkFailure
  | .atsInvalidation _ _ | .priResponse _ _ | .lockInterface _ | .startInterface _ | .stopInterface _ | .vfFence _
  | .functionLevelReset _ | .report _ _ _ _ | .openSession _ _ _ | .close _ _ _ _ | .bundle _ _ _ _ | .finals _ _
  | .ctxCreate _ _ | .ctxDestroy _ _ | .halls _ _ _ | .island _ _ _ | .counters _ _ _ | .pod _ _ _ | .recover _ _
  | .islandThrottle _ _ | .packageReset _ | .powerLoss | .scratchLineFill _ _ | .l1WriteBack _ _ => none

/-- The bytes of an instruction, as the hardware stores them (R69). -/
def encodeBytes (i : Instr) : Option (List Byte) := (encode i).map (leBytes 8)

/-- The kind of unit that executes an opcode (R69, R89). -/
def unitOfOp (op : Nat) : UnitKind :=
  if op < 0x70 then .seq else if op < 0x80 then .matrix else if op < 0xC0 then .facet
  else if op < 0xC8 then .prism else if op < 0xCA then .ag else if op < 0xD0 then .mp else .seq

/-- The kind of unit that executes an instruction; `none` for the rows that no word encodes. -/
def Instr.unit (i : Instr) : Option UnitKind := (encode i).map (fun w => unitOfOp (nbits w 56 8))

end Sys2Proof
end

