-- ==== Sys2Proof/Machine/Number.lean ====
section
/-! DEFINITION. Number formats and exact arithmetic (spec/03 R44 to R60, R67, R227 to R231): values as exact dyadic
numbers, decoding, rounding to a format, and the special functions. -/

namespace Sys2Proof

/-- An exact value: a NaN, an infinity, or (−1)^neg · m · 2^e. A zero keeps its sign (R49). -/
inductive FVal
  | nan
  | inf (neg : Bool)
  | fin (neg : Bool) (m : Nat) (e : Int)
  deriving DecidableEq, Repr

/-- Parameters of a floating-point format (R44, R48, R51, R52). -/
structure FloatFmt where
  ebits : Nat
  mbits : Nat
  bias : Int
  hasInf : Bool
  nanAll : Bool        -- NaN encodings are e = all ones, f ≠ 0
  nanTop : Bool        -- the one NaN of E4M3: e and f all ones
  nan : Nat            -- the result written for a NaN
  flush : Bool         -- results are never subnormal (R51)
  deriving DecidableEq, Repr

/-- The table of R44 with the NaN results of R48 and R52; `none` for integer, BFP and E8M0 formats. -/
def Fmt.float : Fmt → Option FloatFmt
  | .fp64 => some ⟨11, 52, 1023, true, true, false, 0x7FF8000000000000, false⟩
  | .fp32 => some ⟨8, 23, 127, true, true, false, 0x7FC00000, false⟩
  | .fp16 => some ⟨5, 10, 15, true, true, false, 0x7E00, false⟩
  | .bf16 => some ⟨8, 7, 127, true, true, false, 0x7FC0, false⟩
  | .e5m2 => some ⟨5, 2, 15, true, true, false, 0x7E, true⟩
  | .e4m3 => some ⟨4, 3, 7, false, false, true, 0x7F, true⟩
  | .e3m2 => some ⟨3, 2, 3, false, false, false, 0x1F, true⟩
  | .e2m3 => some ⟨2, 3, 1, false, false, false, 0x1F, true⟩
  | .e2m1 => some ⟨2, 1, 1, false, false, false, 0x7, true⟩
  | _ => none

/-- Element width in bits (R38). -/
def Fmt.bits : Fmt → Nat
  | .int8 => 8 | .int32 => 32 | .fp64 => 64 | .fp32 => 32 | .fp16 => 16 | .bf16 => 16 | .e5m2 => 8 | .e4m3 => 8
  | .e3m2 => 6 | .e2m3 => 6 | .e2m1 => 4 | .e8m0 => 8
  | .bfp2 => 2 | .bfp3 => 3 | .bfp4 => 4 | .bfp5 => 5 | .bfp6 => 6 | .bfp7 => 7 | .bfp8 => 8

/-- Slot width in a token (R47). -/
def Fmt.slot (f : Fmt) : Nat := if f.bits < 8 then 8 else f.bits

/-- The format of the floating-point F words (R225). -/
def FFmt.fmt : FFmt → Fmt | .f32 => .fp32 | .f16 => .fp16 | .bf16 => .bf16 | .f64 => .fp64

/-- Two's-complement value of the low `n` bits (R9 sext). -/
def sextNat (x n : Nat) : Int :=
  let v := x % 2 ^ n
  if n ≠ 0 ∧ 2 ^ (n - 1) ≤ v then (v : Int) - 2 ^ n else v

/-- The low `n` bits of an integer. -/
def wrapInt (x : Int) (n : Nat) : Nat := (x % (2 ^ n : Int)).toNat

/-- An exact integer as a value. -/
def FVal.ofInt (x : Int) : FVal := .fin (x < 0) x.natAbs 0

/-- R44 on a floating-point encoding. -/
def FloatFmt.decode (f : FloatFmt) (x : Nat) : FVal :=
  let fr := nbits x 0 f.mbits
  let ex := nbits x f.mbits f.ebits
  let neg := nbit x (f.mbits + f.ebits)
  let top := 2 ^ f.ebits - 1
  if f.nanAll && ex == top && fr != 0 then .nan
  else if f.nanTop && ex == top && fr == 2 ^ f.mbits - 1 then .nan
  else if f.hasInf && ex == top then .inf neg
  else if ex = 0 then .fin neg fr (1 - f.bias - f.mbits)
  else .fin neg (2 ^ f.mbits + fr) (ex - f.bias - f.mbits)

/-- R44, R45: the value of an element; a BFP element is its mantissa before scaling (R60). -/
def Fmt.decode (g : Fmt) (x : Nat) : FVal :=
  match g.float with
  | some f => f.decode x
  | none =>
    if g == .e8m0 then (if nbits x 0 8 = 255 then .nan else .fin false 1 ((nbits x 0 8 : Int) - 127))
    else .ofInt (sextNat x g.bits)

/-- ⌊log2⌋ of a non-zero magnitude m · 2^e. -/
def flog (m : Nat) (e : Int) : Int := e + Nat.log2 m

/-- A magnitude cut to a multiple of 2^q: the lower neighbour in units of 2^q, and the rest as a fraction. -/
def cutAt (m : Nat) (e q : Int) : Nat × Nat × Nat :=
  if q ≤ e then (m * 2 ^ (e - q).toNat, 0, 1)
  else (m / 2 ^ (q - e).toNat, m % 2 ^ (q - e).toNat, 2 ^ (q - e).toNat)

/-- R50, R56: whether the upper neighbour is taken, for the fraction rem / den above `lo`. -/
def takeUp (mode : RMode) (r : Nat) (neg : Bool) (lo rem den : Nat) : Bool :=
  match mode with
  | .rn => den < 2 * rem || (2 * rem == den && lo % 2 == 1)
  | .rz => false
  | .ru => rem != 0 && !neg
  | .rd => rem != 0 && neg
  | .rs => 2 ^ 32 ≤ rem * 2 ^ 32 / den + r

/-- The largest finite magnitude of a format as an encoding without sign (R44). -/
def FloatFmt.maxCode (f : FloatFmt) : Nat :=
  if f.hasInf then (2 ^ f.ebits - 1) * 2 ^ f.mbits - 1
  else if f.nanTop then 2 ^ (f.ebits + f.mbits) - 2
  else 2 ^ (f.ebits + f.mbits) - 1

/-- The encoding of infinity without sign. -/
def FloatFmt.infCode (f : FloatFmt) : Nat := (2 ^ f.ebits - 1) * 2 ^ f.mbits

/-- R52, the finite-overflow column. -/
def FloatFmt.overflow (f : FloatFmt) (mode : RMode) (neg : Bool) : Nat :=
  if f.flush then f.maxCode
  else match mode with
    | .rn => f.infCode
    | .rz | .rs => f.maxCode
    | .ru => if neg then f.maxCode else f.infCode
    | .rd => if neg then f.infCode else f.maxCode

/-- R50 to R52: the encoding without sign of a non-zero magnitude m · 2^e. -/
def FloatFmt.roundMag (f : FloatFmt) (mode : RMode) (r : Nat) (neg : Bool) (m : Nat) (e : Int) : Nat :=
  let emin : Int := 1 - f.bias
  let el := flog m e
  if f.flush && el < emin then
    -- R51: only zero and the smallest normal value are candidates; a tie goes to zero
    let (lo, rem, den) := cutAt m e emin
    if takeUp mode r neg (lo * 2) rem den then 2 ^ f.mbits else 0
  else
    let q := max el emin - f.mbits
    let (lo, rem, den) := cutAt m e q
    let up := takeUp mode r neg lo rem den
    let v := if up then lo + 1 else lo
    -- encoding of v · 2^q: biased exponent counted from the quantum
    let code := if el < emin then v else v + (el - emin).toNat * 2 ^ f.mbits
    if f.maxCode < code ∨ (mode == .rs ∧ f.maxCode ≤ (if el < emin then lo else lo + (el - emin).toNat * 2 ^ f.mbits) ∧ rem ≠ 0)
    then f.overflow mode neg else code

/-- R50 to R52 on a value. -/
def FloatFmt.encode (f : FloatFmt) (mode : RMode) (r : Nat) (x : FVal) : Nat :=
  let sgn (neg : Bool) := b2n neg * 2 ^ (f.ebits + f.mbits)
  match x with
  | .nan => f.nan
  | .inf neg => sgn neg + (if f.hasInf then f.infCode else f.maxCode)
  | .fin neg m e => sgn neg + (if m = 0 then 0 else f.roundMag mode r neg m e)

/-- R53: rounding to an integer, before clamping. -/
def roundInt (mode : RMode) (r : Nat) (neg : Bool) (m : Nat) (e : Int) : Int :=
  if m = 0 then 0 else
  let (lo, rem, den) := cutAt m e 0
  let v : Int := if takeUp mode r neg lo rem den then lo + 1 else lo
  if neg then -v else v

def clampInt (x lo hi : Int) : Int := if x < lo then lo else if hi < x then hi else x

/-- R52, R53: a value as a two's-complement integer of `n` bits, clamped; a NaN gives 0. -/
def intEncode (n : Nat) (mode : RMode) (r : Nat) (x : FVal) : Int :=
  let lo : Int := -(2 ^ (n - 1))
  let hi : Int := 2 ^ (n - 1) - 1
  match x with
  | .nan => 0
  | .inf neg => if neg then lo else hi
  | .fin neg m e =>
    -- beyond 2^n the clamp decides whatever the rounding
    if m ≠ 0 ∧ (n : Int) < flog m e then (if neg then lo else hi)
    else clampInt (roundInt mode r neg m e) lo hi

/-- R54: conversion to E8M0. -/
def e8m0Encode (x : FVal) : Nat :=
  match x with
  | .nan | .inf _ => 0xFF
  | .fin _ m e =>
    if m = 0 then 0 else
    let l := flog m e
    if l < -126 then 0 else (min 254 (l + 127)).toNat

/-- `round(x, fmt, mode)` as slot bits (R47, R50 to R54); `r` is the stepped seed in RS. For a BFP format, the
mantissa of R234. -/
def Fmt.encode (g : Fmt) (mode : RMode) (r : Nat) (x : FVal) : Nat :=
  match g.float with
  | some f => f.encode mode r x
  | none =>
    if g == .e8m0 then e8m0Encode x
    else wrapInt (intEncode g.bits mode r x) g.slot

/-- Multiplication by a power of two. -/
def FVal.scale (x : FVal) (k : Int) : FVal :=
  match x with
  | .fin neg m e => .fin neg m (e + k)
  | y => y

def FVal.neg : FVal → FVal
  | .nan => .nan
  | .inf s => .inf (!s)
  | .fin s m e => .fin (!s) m e

/-- Signed integer of a finite value in units of 2^q, for q ≤ e. -/
def scaledInt (neg : Bool) (m : Nat) (e q : Int) : Int :=
  let v : Int := m * 2 ^ (e - q).toNat
  if neg then -v else v

/-- Exact sum, zero signs as IEEE 754 under round to nearest (R49, R63). -/
def FVal.add : FVal → FVal → FVal
  | .nan, _ => .nan
  | _, .nan => .nan
  | .inf a, .inf b => if a == b then .inf a else .nan
  | .inf a, _ => .inf a
  | _, .inf b => .inf b
  | .fin s1 m1 e1, .fin s2 m2 e2 =>
    if m1 = 0 ∧ m2 = 0 then .fin (s1 && s2) 0 0
    else
      let q := min e1 e2
      let v := scaledInt s1 m1 e1 q + scaledInt s2 m2 e2 q
      if v = 0 then .fin false 0 0 else .fin (v < 0) v.natAbs q

def FVal.sub (x y : FVal) : FVal := x.add y.neg

/-- Exact product (R49). -/
def FVal.mul : FVal → FVal → FVal
  | .nan, _ => .nan
  | _, .nan => .nan
  | .inf a, .inf b => .inf (a != b)
  | .inf a, .fin b m _ => if m = 0 then .nan else .inf (a != b)
  | .fin a m _, .inf b => if m = 0 then .nan else .inf (a != b)
  | .fin s1 m1 e1, .fin s2 m2 e2 => .fin (s1 != s2) (m1 * m2) (e1 + e2)

/-- The order of two values; `none` when either is a NaN. −0 equals +0. -/
def FVal.cmp : FVal → FVal → Option Ordering
  | .nan, _ => none
  | _, .nan => none
  | .inf a, .inf b => some (if a == b then .eq else if a then .lt else .gt)
  | .inf a, _ => some (if a then .lt else .gt)
  | _, .inf b => some (if b then .gt else .lt)
  | .fin s1 m1 e1, .fin s2 m2 e2 =>
    let q := min e1 e2
    some (compare (scaledInt s1 m1 e1 q) (scaledInt s2 m2 e2 q))

def FVal.isNan : FVal → Bool | .nan => true | _ => false
def FVal.signBit : FVal → Bool | .nan => false | .inf s => s | .fin s _ _ => s

/-- FMIN and FMAX on encodings (R227): the chosen operand's bits are kept, −0 is less than +0. -/
def fminmax (g : Fmt) (max : Bool) (x y : Nat) : Nat :=
  let a := g.decode x
  let b := g.decode y
  match a.cmp b with
  | none => if a.isNan && b.isNan then g.encode .rn 0 .nan else if a.isNan then y else x
  | some .lt => if max then y else x
  | some .gt => if max then x else y
  | some .eq => if a.signBit == b.signBit then x else if a.signBit == max then y else x

/-! ## Exact quotients and square roots -/

/-- A positive quotient n / d with a sticky bit below 2^−k: enough for one correct rounding. -/
def quotSticky (n d k : Nat) : Nat := 2 * (n * 2 ^ k / d) + (if n * 2 ^ k % d = 0 then 0 else 1)

/-- ⌊√n⌋ by bits from 2^b down. -/
def isqrtFrom : Nat → Nat → Nat → Nat
  | 0, n, acc => if (acc + 1) * (acc + 1) ≤ n then acc + 1 else acc
  | b + 1, n, acc =>
    let t := acc + 2 ^ (b + 1)
    isqrtFrom b n (if t * t ≤ n then t else acc)

def isqrt (n : Nat) : Nat := isqrtFrom (Nat.log2 n / 2 + 1) n 0

/-- 1 / x (R231 FRCP). -/
def FVal.recip : FVal → FVal
  | .nan => .nan
  | .inf s => .fin s 0 0
  | .fin s m e =>
    if m = 0 then .inf s
    else
      let k := Nat.log2 m + 80
      .fin s (quotSticky 1 m k) (-(k : Int) - 1 - e)

/-- √x (R231 FSQRT). -/
def FVal.sqrt : FVal → FVal
  | .nan => .nan
  | .inf s => if s then .nan else .inf false
  | .fin s m e =>
    if m = 0 then .fin s 0 0
    else if s then .nan
    else
      -- make the exponent even, then add 2·80 bits below the point
      let m' := if e % 2 = 0 then m else 2 * m
      let e' := if e % 2 = 0 then e else e - 1
      let n := m' * 2 ^ 160
      let r := isqrt n
      .fin false (2 * r + (if r * r = n then 0 else 1)) (e' / 2 - 81)

/-- 1 / √x (R231 FRSQ). -/
def FVal.rsqrt : FVal → FVal
  | .nan => .nan
  | .inf s => if s then .nan else .fin false 0 0
  | .fin s m e =>
    if m = 0 then .inf s
    else if s then .nan
    else
      -- 1/√(m·2^e) = √(2^k / m) · 2^(-(k+e)/2) with k + e even
      let k0 := 2 * Nat.log2 m + 160
      let k := if ((k0 : Int) + e) % 2 = 0 then k0 else k0 + 1
      let n := 2 ^ k / m
      let r := isqrt n
      let exact := 2 ^ k % m = 0 ∧ r * r = n
      .fin false (2 * r + (if exact then 0 else 1)) (-(((k : Int) + e) / 2) - 1)

/-! ## Special functions in 256-bit fixed point

Only round to nearest applies (R231), so a sticky bit far below the format decides every inexact case. -/

/-- One in the fixed point of this section. -/
def fxOne : Nat := 2 ^ 256

/-- ⌊ln 2 · 2^256⌋. -/
def ln2Fx : Nat := 80260960185991308862233904206310070533990667611589946606122867505419956976171

/-- Σ z^k / k! for k < n, Horner form, in fixed point. -/
def expHorner : Nat → Nat → Nat → Nat
  | 0, _, acc => acc
  | k + 1, z, acc => expHorner k z (fxOne + z * acc / fxOne / (k + 1))

/-- 2^(f / 2^256) for f < 2^256, as fixed point in [1, 2). -/
def exp2Frac (f : Nat) : Nat := expHorner 70 (f * ln2Fx / fxOne) fxOne

/-- Σ z^(2k) / (2k + 1) for k < n, in fixed point, from the last term down. -/
def atanhHorner : Nat → Nat → Nat → Nat
  | 0, _, acc => acc
  | k + 1, z2, acc => atanhHorner k z2 (fxOne / (2 * k + 1) + z2 * acc / fxOne)

/-- ln (m / 2^k) for 2^k ≤ m < 2^(k+1), in fixed point. -/
def lnFx (m k : Nat) : Nat :=
  let z := (m - 2 ^ k) * fxOne / (m + 2 ^ k)
  2 * (z * atanhHorner 90 (z * z / fxOne) 0 / fxOne)

/-- m · 2^e in fixed point, rounded down. -/
def toFx (m : Nat) (e : Int) : Nat := (cutAt m e (-256)).1

/-- e^(−y) for y ≥ 0 in fixed point, as (mantissa in [1, 2) fixed point, k) with value mantissa · 2^(−k). -/
def expNeg (y : Nat) : Nat × Nat :=
  let t := y * fxOne / ln2Fx
  let k := t / fxOne + 1
  (exp2Frac (k * fxOne - t - (if k * fxOne - t = fxOne then 1 else 0)), k)

/-- 2^x (R231 FEXP2). -/
def FVal.exp2 : FVal → FVal
  | .nan => .nan
  | .inf s => if s then .fin false 0 0 else .inf false
  | .fin s m e =>
    if m = 0 then .fin false 1 0
    else if 12 ≤ flog m e then .fin false 1 (if s then -5000 else 5000)
    else if (cutAt m e 0).2.1 = 0 then .fin false 1 (if s then -((cutAt m e 0).1 : Int) else (cutAt m e 0).1)
    else if flog m e < -250 then .fin false (if s then 2 ^ 200 - 1 else 2 ^ 200 + 1) (-200)
    else
      let x := toFx m e
      let i : Int := x / fxOne
      let f := x % fxOne
      let (i', f') := if s then (-i - 1, fxOne - f) else (i, f)
      .fin false (2 * exp2Frac f' + 1) (i' - 257)

/-- log2 x (R231 FLOG2). -/
def FVal.log2 : FVal → FVal
  | .nan => .nan
  | .inf s => if s then .nan else .inf false
  | .fin s m e =>
    if m = 0 then .inf true
    else if s then .nan
    else
      let k := Nat.log2 m
      let l := flog m e
      if m = 2 ^ k then .ofInt l
      else
        let f := lnFx m k * fxOne / ln2Fx
        let v : Int := l * (fxOne : Int) + f
        .fin (v < 0) (2 * v.natAbs + 1) (-257)

/-- tanh x (R231 FTANH). -/
def FVal.tanh : FVal → FVal
  | .nan => .nan
  | .inf s => .fin s 1 0
  | .fin s m e =>
    if m = 0 then .fin s 0 0
    else if flog m e < -40 then .fin s m e          -- x − x³/3 rounds to x
    else if 6 ≤ flog m e then .fin s 1 0            -- 1 − 2·e^(−2x) rounds to 1
    else
      let (f, k) := expNeg (2 * toFx m e)
      let den := fxOne * 2 ^ k
      .fin s (quotSticky (den - f) (den + f) 200) (-201)

/-- 1 / (1 + e^(−x)) (R231 FSIGM). -/
def FVal.sigm : FVal → FVal
  | .nan => .nan
  | .inf s => if s then .fin false 0 0 else .fin false 1 0
  | .fin s m e =>
    if m = 0 then .fin false 1 (-1)
    else if 10 ≤ flog m e then (if s then .fin false 1 (-5000) else .fin false 1 0)
    else
      let (f, k) := expNeg (toFx m e)
      let den := fxOne * 2 ^ k
      if s then .fin false (quotSticky f (den + f) (k + 200)) (-(k : Int) - 201)
      else .fin false (quotSticky den (den + f) 200) (-201)

/-! ## Stochastic rounding (R55 to R58) -/

/-- One step of facet.seed (R55). -/
def lfsrStep (s : BitVec 32) : BitVec 32 :=
  let t := s >>> 1
  if s.getLsbD 0 then t ^^^ 0x80200003#32 else t

/-- facet.seed of facet n at BINDING of a fresh instance (R58). -/
def seedAtBinding (n : Nat) : BitVec 32 := 0x9E3779B9#32 ^^^ BitVec.ofNat 32 n

/-! ## Element-wise helpers -/

/-- An operation on encodings of one format, rounded once by RN (R225). -/
def fop2 (g : Fmt) (op : FVal → FVal → FVal) (x y : Nat) : Nat := g.encode .rn 0 (op (g.decode x) (g.decode y))

def fop1 (g : Fmt) (op : FVal → FVal) (x : Nat) : Nat := g.encode .rn 0 (op (g.decode x))

/-- Fused multiply-add with one rounding (R226). -/
def ffma (g : Fmt) (x y z : Nat) : Nat := g.encode .rn 0 (((g.decode x).mul (g.decode y)).add (g.decode z))

/-- The conditions of R229. -/
def FCond.holds (c : FCond) (x y : FVal) : Bool :=
  match c, x.cmp y with
  | .eq, some .eq => true
  | .ne, some .eq => false
  | .ne, _ => true
  | .lt, some .lt => true
  | .le, some .lt | .le, some .eq => true
  | .gt, some .gt => true
  | .ge, some .gt | .ge, some .eq => true
  | .un, none => true
  | .ord, some _ => true
  | _, _ => false

/-- The conditions of R194 on `w`-bit operands. -/
def Cond.holds (c : Cond) (w x y : Nat) : Bool :=
  match c with
  | .eq => x == y
  | .ne => x != y
  | .lt => sextNat x w < sextNat y w
  | .ge => sextNat y w ≤ sextNat x w
  | .le => sextNat x w ≤ sextNat y w
  | .gt => sextNat y w < sextNat x w
  | .ltu => x < y
  | .geu => y ≤ x
  | .leu => x ≤ y
  | .gtu => y < x

/-- The exponent adjustment emax of R235. -/
def Fmt.emax : Fmt → Nat | .e5m2 => 15 | .e4m3 => 8 | .e3m2 => 4 | .e2m3 => 2 | .e2m1 => 2 | _ => 0

/-- SCL on one FP32 element (R235). -/
def sclElem (g : Fmt) (x : Nat) : Nat :=
  let e := e8m0Encode (Fmt.fp32.decode x)
  if e = 0xFF then 0xFF
  else if g.isBfp then min 254 (e + 1)
  else e - g.emax

/-- The value of a scaled element with block scale X (R59, R60). -/
def scaledValue (g : Fmt) (x scale : Nat) : FVal :=
  if scale = 255 then .nan
  else if g.isBfp then (g.decode x).scale ((scale : Int) - 127 - (g.bits - 1))
  else (g.decode x).scale ((scale : Int) - 127)

/-- CVT with SC = 1, DIR = 0 on one element (R234). -/
def scaledEncode (g : Fmt) (mode : RMode) (r x scale : Nat) : Nat :=
  if scale = 255 then 0
  else if g.isBfp then g.encode mode r ((Fmt.fp32.decode x).scale (-((scale : Int) - 127 - (g.bits - 1))))
  else g.encode mode r ((Fmt.fp32.decode x).scale (-((scale : Int) - 127)))

/-- The reduction tree of R67 on the elements of a token. -/
def treeReduce (f : Nat → Nat → Nat) (xs : List Nat) : Nat :=
  let at2 (a b : Option Nat) : Option Nat :=
    match a, b with
    | some x, some y => some (f x y)
    | some x, none => some x
    | none, some y => some y
    | none, none => none
  let p (i : Nat) := xs[i]?
  ((at2 (at2 (at2 (p 0) (p 1)) (at2 (p 2) (p 3))) (at2 (at2 (p 4) (p 5)) (at2 (p 6) (p 7)))).getD 0)

end Sys2Proof
end

