-- ==== Sys2Proof/Machine/Types.lean ====
section
/-! DEFINITION. The parts of the machine's state as plain data: tokens, facets, tasks, sessions, contexts
(spec/02, spec/05, spec/06, spec/09). Widths and start values are those of the rules cited. -/

namespace Sys2Proof.Machine

/-- The cause codes of R399. -/
inductive Cause
  | ill | priv | xlat | memerr | integ | lens | mmx | mrdiv | logfull | wdog | cfg | kadmit | stream | align | access
  | session | trap | bkpt | fenced | terminated | linkdown
  deriving DecidableEq, Repr, Inhabited

/-- What breaks a stream (R62, R216, R331): the case that a STREAM freeze names. -/
inductive StreamCase
  | missing | unused | cut | width          -- R62
  | header | shape | kind | empty           -- R216: the token itself
  | framing                                 -- R311: a tile's last token
  | order | pairing | closure | level | stop  -- R331
  deriving DecidableEq, Repr, Inhabited

/-- A sparse table keyed by number: keys strictly rising, no key holding the default value. -/
abbrev Map (α : Type) := List (Nat × α)

/-! ## Tokens and facets (spec/09) -/

/-- A token (R210): header image, payload, lens mark (R217), and the CTAG and CVER it travels with (R175). -/
structure Token where
  hdr : BitVec 16
  pay : BitVec 256
  lens : Bool
  tag : BitVec 16
  fromSeq : Bool             -- pushed by the sequencer (R155, R369)
  deriving DecidableEq, Repr, Inhabited

/-- An element register (R209): header image, payload and lens mark. -/
structure EReg where
  hdr : BitVec 16
  pay : BitVec 256
  lens : Bool
  deriving DecidableEq, Repr, Inhabited

/-- A scale latch (R61, R62): the scales left, elements left in the current block, BL and last-of-tile. -/
structure Latch where
  scales : List (BitVec 8)
  used : Nat               -- elements of the first scale's block already taken
  bl : Bool
  lot : Bool
  spent : Bool             -- a burst with last-of-tile = 1 is used up
  lens : Bool              -- it came in a lens-marked token (R217)
  deriving DecidableEq, Repr, Inhabited

/-- A facet rule's full/empty access that has arrived at the bank port (R357): its stamp of arrival, whether it needs full
words, the words, and whether it has waited for them. -/
structure FacetWait where
  stamp : Nat
  full : Bool
  words : List Nat
  waited : Bool
  deriving DecidableEq, Repr, Inhabited

/-- A scratch-mode facet's state (R209). -/
structure Facet where
  pool : List Word           -- 16 rule slots, installed from the configuration entry
  conf : List (BitVec 16)    -- conflict matrix
  installed : Bool           -- the configuration entry has been fetched and installed (R94, R173)
  e : List EReg
  a : List (BitVec 16)
  p : BitVec 8
  ins : List (List Token)
  outs : List (List Token)
  ci : List Nat
  latch : List (Option Latch)
  seed : BitVec 32
  starve : List Nat
  urgent : BitVec 16
  reached : BitVec 16        -- slots whose counter has reached 1024, which is not yet counted (R223)
  arrive : List (Option FacetWait)  -- of each slot: its full/empty access that has arrived and not fired (R357)
  aluBusy : Nat
  bankBusy : Nat
  moveBusy : Nat
  delivered : List Nat       -- tokens each input channel has delivered since BINDING (R216)
  deriving DecidableEq, Repr, Inhabited

/-! ## Tasks and the Landing (spec/06) -/

/-- What names a task: its context and its record's virtual address (R24, R119). -/
structure TaskId where
  ctx : Word
  va : Nat
  deriving DecidableEq, Repr, Inhabited

/-- The task states of R131 that the device holds; CREATED and WAITING tasks hold no Landing entry. -/
inductive TaskState | waiting | queued | reserving | dispatched | running | triggered | frozen
  deriving DecidableEq, Repr, Inhabited

/-- A gallery-barrier unit (R141, R370). -/
structure BarUnit where
  task : Option TaskId
  gen : BitVec 32
  arrived : List (Nat × Nat × Bool)  -- arrivals at the current generation: instance, register, freeze point
  clock : List Nat           -- maximum over the arrivals (R383)
  deriving DecidableEq, Repr, Inhabited

/-- A spawned task (R29, R131, R136, R137). -/
structure Task where
  id : TaskId
  kidx : Nat
  halls : Nat
  prio : Nat
  etrig : Bool
  nsucc : Nat
  succ : Nat
  opds : List (BitVec 16)
  args : List Word
  die : Nat                  -- the Landing that holds its entry
  state : TaskState
  entry : Nat                -- entry time in ticks
  order : Nat                -- the order in which tasks became READY
  granted : List Nat         -- halls in instance order
  trig : List Bool           -- inst.trig of each instance
  retired : List Bool
  triggered : Bool           -- the successor walk has been started
  dispatchSeq : Nat          -- dispatch order, for R146
  resHalls : List Nat        -- halls held by a reservation or a pre-emption
  resGallery : Nat
  resStart : Nat             -- tick of the reservation
  lapsed : Option Nat        -- dispatch order at which a lapsed reservation stopped (R142)
  held : Bool                -- frozen and held for resolution (R405, R406)
  saved : Bool               -- its instances are spilled
  unit : Option Nat          -- gallery-barrier unit (R141)
  preempting : Bool          -- chosen by the Landing as a victim, and not yet stopped (R146)
  freezePt : Bool            -- it stops at its next freeze point only (R145)
  notify : List (Nat × Nat × TaskId × Bool)  -- CTXSVs that wait for its save: hall, register, issuer, whole context
  fencing : Option Nat         -- the hall fenced once its save completes (R409)
  bar : Option BarUnit       -- the barrier count and arrivals saved with it (R370)
  acq : List Nat             -- clock of the writes its instances acquire at start (R134, R154)
  rel : List Nat             -- maximum of the clocks that its instances' triggers released, for its successors (R154)
  exits : List Nat           -- maximum of the clocks that its EXITs released, for DN (R30)
  deriving DecidableEq, Repr, Inhabited

/-- A successor walk in progress (R32, R153). -/
structure Walk where
  task : TaskId
  die : Nat
  succ : Nat
  nsucc : Nat
  next : Nat
  firstBad : Option Nat
  firstDrop : Option Nat
  bad : Nat
  drop : Nat
  acq : List Nat
  deriving DecidableEq, Repr, Inhabited

/-! ## Sessions and contexts (spec/05) -/

/-- An open session (R106, R427). -/
structure Session where
  handle : Nat
  key : Digest
  sid : Word
  nrq : Nat
  rc : Nat
  skd : Nat
  count : Nat
  rseq : Nat
  closing : Bool
  closer : Option (Word × Nat)  -- the CLOSE under way: its TAG and buffer (R431, R433)
  deriving DecidableEq, Repr, Inhabited

/-- What a key domain is for (R116, R255, R263). -/
inductive DomKind | plain | session | lens | adapter
  deriving DecidableEq, Repr, Inhabited

/-- A key domain owned by a context, with what R116's policy says of it: NOACPY, ADAPT, and ADAPTMAX where ADAPT is set. -/
structure Domain where
  kd : Nat
  kind : DomKind
  noacpy : Bool
  adapt : Bool
  adaptMax : Nat
  deriving DecidableEq, Repr, Inhabited

/-- Mirror modes (R387). -/
inductive MirrorMode | off | record | replay
  deriving DecidableEq, Repr, Inhabited

/-! ## The sequencer (spec/08) -/

/-- One view of the scalar registers and predicates (R182). s0 and p0 are read through accessors. -/
structure View where
  regs : Vector Word 64
  preds : BitVec 8
  deriving DecidableEq, Repr, Inhabited

/-- How a load-queue entry stands (R186, R188). -/
inductive Fill
  | pending
  | value (v : Word)
  | fault (cause : Cause) (info : Word)
  | noEffect
  deriving DecidableEq, Repr, Inhabited

/-- A load-queue entry: the access and how it stands. -/
structure LoadEntry where
  dst : Nat
  addr : Nat
  size : Nat
  sx : Bool
  place : Nat                -- where its bytes lie (`placeKey`), so that a write by another address is met too
  ch : Hint
  fill : Fill
  deriving DecidableEq, Repr

/-- A word the address unit has passed and the compute unit has not (R185). -/
structure Ahead where
  off : Nat
  next : Nat                 -- the offset the address unit went on to
  loopBack : Bool
  taken : Option Nat         -- where a control word was predicted to go, if taken (R187)
  trip : Option Word         -- for a LOOP it took: the count it predicted (R187)
  load : Option LoadEntry
  deriving DecidableEq, Repr, Inhabited

/-- The address unit: its working copy, its place and its load queue (R183 to R188). None of it is architectural. -/
structure AddrUnit where
  pc : Nat
  view : View
  poison : BitVec 64
  lc : Word
  ls : Nat
  le : Nat
  queue : List Ahead
  deriving DecidableEq, Repr, Inhabited

/-- What a sequencer is waiting for, where the wait is part of the machine's state. -/
inductive SeqWait
  | none
  | fe                                        -- entered among the waiters of a bank port (R357, R418)
  | gbar                                      -- arrived at the gallery barrier (R370)
  deriving DecidableEq, Repr, Inhabited

/-! ## The fabric and its configuration (spec/07) -/

/-- A switch-box route (R162). Ports: 0 N, 1 E, 2 S, 3 W, 4 node. -/
structure Route where
  inst : Nat                 -- the section's instance mask
  x : Nat
  y : Nat
  ipA : Nat
  itA : Nat
  op : Nat
  otr : Nat
  mrg : Bool
  ipB : Nat
  itB : Nat
  swm : BitVec 8
  arb : Nat
  fib : Bool
  lns : Bool
  deriving DecidableEq, Repr, Inhabited

/-- A control-net route (R170). -/
structure CtlRoute where
  inst : Nat
  x : Nat
  y : Nat
  ipA : Nat
  ilA : Nat
  op : Nat
  oln : Nat
  mrg : Bool
  ipB : Nat
  ilB : Nat
  deriving DecidableEq, Repr, Inhabited

/-- A merge switch's state (R166, R167): LS (true: A), the FIB lock, and the unwritten choice run. -/
structure MergeSt where
  ls : Bool
  lock : Option Bool         -- FIB = 1: the input kept until its fibre ends (true: A)
  next : Option Bool         -- FIB = 0: the input chosen for the next token
  run : List Bool            -- choices not yet written (RECORD)
  owed : Bool                -- a run kept from a freeze or a save, written before the next choice (R394)
  replay : List Bool         -- choices read from the ring and not yet made (REPLAY)
  index : Word               -- the record they came from
  unserved : Bool            -- that record is not consumed yet (R395)
  deriving DecidableEq, Repr, Inhabited

/-- One section of a kernel image (R35): its type, instance mask, node byte and contents. -/
structure Section where
  type : Nat
  inst : Nat
  node : Nat
  body : List Word
  deriving DecidableEq, Repr, Inhabited

/-- An admitted kernel image: header fields and sections (R34, R35). -/
structure Kernel where
  lp : Bool
  idle : Bool
  frz : Bool
  split : Nat
  hmin : Nat
  hmax : Nat
  size : Nat
  sections : List Section
  routes : List Route        -- the switch-box routes of all instances, read at admission
  ctl : List CtlRoute
  deriving DecidableEq, Repr, Inhabited

/-- An entry of a gallery's configuration cache (R150). -/
structure KConf where
  ctx : Word
  kidx : Nat
  tag : BitVec 16            -- CTAG in [15:8], CVER in [7:0]
  kernel : Kernel
  released : Bool
  used : Nat                 -- use order, for the eviction of R150 step 7
  deriving DecidableEq, Repr, Inhabited

/-- An entry of a node's configuration store, or its 4 KiB block of code (R172, R174). -/
structure StoreEntry where
  tag : BitVec 16
  poisoned : Bool
  deriving DecidableEq, Repr, Inhabited

/-- Residency states of a hall (R143). -/
inductive Residency | idle | binding | running | saving | fenced
  deriving DecidableEq, Repr, Inhabited

/-! ## Memory (spec/10) -/

/-- A line of a hall's L1 (R258): the 128-byte line index, whether it is a host line, its bytes, its dirty bytes and
the key domain it came from. -/
structure L1Line where
  host : Bool
  line : Nat
  data : BitVec 1024
  dirty : BitVec 128         -- the bytes stored since the line was last clean
  kd : Nat
  valid : BitVec 128         -- the bytes it holds: after an acquire a dirty line keeps those stored alone (R258)
  epoch : Nat                -- of its latest store (R384)
  va : Nat                   -- virtual address of the line when it was filled
  cp : Bool                  -- of a compressed page (R265)
  ar : Bool                  -- of an array page (R294)
  hint : Hint                -- how it stands for eviction (R76)
  deriving DecidableEq, Repr

/-- A line resident in the L2 (R260, R261): physical line, owner domain, way, whether it was written since its fill
(R264), and how it stands for eviction (R76). -/
structure L2Line where
  line : Nat
  kd : Nat
  way : Nat
  dirty : Bool
  hint : Hint
  deriving DecidableEq, Repr

/-- Which buffer of a hall caches a translation (R257). -/
inductive TlbAgent | seq | ce | mport (node : Nat) | ag (node stream : Nat)
  deriving DecidableEq, Repr, Inhabited

/-- A cached translation (R257): the page's first VA, whether it is 2 MiB, and the leaf. -/
structure TlbEntry where
  agent : TlbAgent
  va : Nat
  big : Bool
  leaf : Word
  deriving DecidableEq, Repr, Inhabited

/-- The metadata of one 256-byte protection unit (R263): the domain that sealed it, whether its stored bytes carry an
uncorrectable error, and its version (0 in domain 0, which has none). -/
structure UnitMeta where
  kd : Nat
  ecc : Bool
  ver : BitVec 32
  deriving DecidableEq, Repr, Inhabited

/-- The translation entry of a 4 KiB block (R265). A block of a sealed page with CP = 0 has one too, for its tweak seed
(R263): it stays in class 8 at its own address (log 47). -/
structure BlockEntry where
  cls : Nat                  -- size class 0 to 8
  kd : Nat
  sec : BitVec 39            -- PA[47:9] of its first sector
  live : Bool
  seed : BitVec 32
  ver : BitVec 32            -- version of its first protection unit
  deriving DecidableEq, Repr, Inhabited

/-- A MAC check under way (R125, R264): the line that was read and the hall it was read for. -/
structure Check where
  id : Nat
  ctx : Word
  hall : Nat
  line : Nat
  epoch : Nat                -- of the hall at the read, to tell what happens before an egress (R125 item 3)
  since : Nat                -- its check ends within 2^12 ticks of this one
  deriving DecidableEq, Repr, Inhabited

/-- A page to be migrated: its first VA, its physical address, the fresh frame, and whether it is 2 MiB. -/
structure PmovPage where
  va : Nat
  src : Nat
  dst : Nat
  big : Bool
  deriving DecidableEq, Repr, Inhabited

/-- A migration (R270, R274): the page under way is the first of `pages`. -/
structure PmovJob where
  id : Nat
  hall : Nat
  reg : Nat
  va : Nat
  pages : List PmovPage
  dirty : BitVec 64          -- dirty filter of the page under way, a bit for each 32 KiB
  pass : Nat
  moved : Nat
  lost : BitVec 32           -- 64 KiB units of abandoned pages
  deriving DecidableEq, Repr, Inhabited

/-- A write of a compressed line that waits at its controller for sectors (R266). Memory holds what the write stores;
the rest holds the previous contents, to which the block returns when no sectors come: the unit, its metadata and the
block's entry as they stood. -/
structure Squeezed where
  id : Nat
  ctx : Word
  hall : Nat                 -- the writing hall; 48 for the RSC, a Landing or an engine
  line : Nat
  kd : Nat                   -- the writing domain
  seen : List Byte           -- the line's protection unit as that domain saw it
  body : List Byte           -- the same unit under the domain of `unit`
  unit : Option UnitMeta
  entry : Option BlockEntry
  mask : BitVec 128
  va : Nat
  since : Nat
  told : Bool                -- the event has gone to the system context
  deriving DecidableEq, Repr, Inhabited

/-! ## Copies, arrays and tensors (spec/11) -/

/-- A tensor identifier entry W0 to W3 (R38). -/
structure Tensor where
  w0 : Word
  w1 : Word
  w2 : Word
  w3 : Word
  deriving DecidableEq, Repr, Inhabited

/-- What a copy in flight moves (R282, R283, R290, R292). -/
inductive CopyKind
  | bytes
  | tensor (src dst : Tensor)
  | multicast (group : Nat) (members : List Nat)   -- member instances (R292)
  | quiesce (group : Nat) (jobs : List Nat)        -- CPYQ.gq: the CPYMs it waits for (R293)
  deriving DecidableEq, Repr, Inhabited

/-- A copy-engine instruction in flight, or the record a chain is on (R277, R286, R289). -/
structure CopyJob where
  id : Nat
  kind : CopyKind
  reg : Nat                  -- token register; 0 for none and for a chain's record
  chain : Option Nat         -- the channel whose record this is
  src : Nat
  dst : Nat
  len : Nat
  ch : Hint
  checks : List Nat          -- the checks its egress waits for: those at its issue and its own (R125, R285)
  done : Nat                 -- the progress counter, in copy order: bytes, or elements of a tensor copy
  parked : Bool
  left : List Nat            -- multicast: members that have not yet received the line in `buf`
  buf : List Byte
  orig : List Nat            -- tensor copy onto its own source: the source elements before the copy
  deriving DecidableEq, Repr

/-- A chain channel (R289, R290). -/
structure ChainCh where
  active : Bool
  ptr : Nat
  reg : Nat
  count : Nat
  next : Nat                 -- NEXT of the record being performed
  top : Nat                  -- bits [63:56] of its Q0
  job : Option Nat           -- the copy of the record being performed
  got : List Nat             -- Q0 to Q3 of a record read and not yet started: a record is read once (R290)
  deriving DecidableEq, Repr, Inhabited

/-- A multicast group of a task (R291). -/
structure McGroup where
  mask : BitVec 6
  quiesced : Bool
  deriving DecidableEq, Repr, Inhabited

/-- Array operations (R297). -/
inductive ArrOp | acpy | afill | aand | aor | axor | anot
  deriving DecidableEq, Repr, Inhabited

/-- A row-seed table entry (R295). -/
structure RowSeed where
  seed : BitVec 32
  ver : BitVec 32
  live : Bool
  deriving DecidableEq, Repr, Inhabited

/-- A source row unit as it stood when its operation was accepted (R302): its bytes, its LIVE bit, its row-seed entry, its
protection units, and what a checked read of it raises (R263). -/
structure SrcRow where
  data : List Byte
  live : Bool
  entry : RowSeed
  units : List (Option UnitMeta)
  fault : Option (Cause × Word)
  deriving DecidableEq, Repr, Inhabited

/-- An array operation in flight (R300). -/
structure ArrayJob where
  id : Nat
  hall : Nat
  op : ArrOp
  reg : Nat
  ctx : Word
  dst : Nat
  n : Nat
  srcs : List Nat            -- first bytes of the sources
  rows : List (List SrcRow)  -- the row units of each source at acceptance (R302)
  pat : Word
  deriving DecidableEq, Repr, Inhabited

/-! ## Matrix nodes (spec/12) -/

/-- The kind of an accumulator tile (R308). -/
inductive MxTileKind | none | f32 | f64 | pair | int | bfp
  deriving DecidableEq, Repr, Inhabited

/-- An accumulator tile (R308): cells by 64·i + j, an unlisted cell being 0. An F32 or F64 cell holds its encoding,
an INT cell a 48-bit integer, a BFP cell S in [47:0] and E in [57:48]. -/
structure MxTile where
  kind : MxTileKind
  lens : Bool
  cells : Map (BitVec 64)
  deriving DecidableEq, Repr, Inhabited

/-- Operand elements gathered for the K-step under way (R311): slot bits in arrival order, and for a scaled
stream the scale of each. -/
structure MxLatch where
  elems : List (BitVec 64)
  scales : List (BitVec 8)
  stream : Option Latch
  deriving DecidableEq, Repr, Inhabited

/-- The word a node is executing (R309, R315, R316, R319). -/
structure MxBusy where
  word : Instr
  index : Nat
  entA : Tensor
  entB : Tensor
  entC : Tensor
  step : Nat
  count : Nat                -- elements pushed by MXRD or MXEPI, or taken by MXLD
  idx : List Nat             -- the 64 row indices of MMAG
  seq : Bool                 -- pushed by the sequencer, for R155
  deriving DecidableEq, Repr

/-- A matrix node (R308, R310, R324). -/
structure MxNode where
  ins : List (List Token)
  outs : List (List Token)
  ci : List Nat
  tiles : List MxTile
  latA : MxLatch
  latB : MxLatch
  busy : Option MxBusy
  ahead : List MxBusy          -- result words accepted beside the word under way, oldest first (R322)
  accepted : Nat               -- words accepted since the configuration was loaded (R87)
  delivered : List Nat         -- tokens taken from each input since BINDING (R62)
  sat : Bool
  zro : Bool
  elog : Word
  badElem : List (Nat × Nat)   -- elements in error: side (0 A, 1 B, 2 tile) and position, set by an upset (R323)
  deriving DecidableEq, Repr, Inhabited

/-! ## Prism units, AG tiles and memory ports (spec/13) -/

/-- Output elements a unit holds for packing on one channel (R333, R346). -/
structure Pack where
  elems : List (BitVec 64)
  wid : Nat
  lens : Bool
  deriving DecidableEq, Repr, Inhabited

/-- A DRAM row as one access of GATH read it for a window of 32 request tokens (R349). -/
structure RowSnap where
  window : Nat
  upto : Nat                   -- it serves the tokens that had reached the unit by then: those below this index (R351)
  row : Nat
  data : List Byte
  deriving DecidableEq, Repr, Inhabited

/-- One outstanding element of a GATH in ANY mode (R349): its sequence number and index or address. -/
structure GathReq where
  seqno : Nat
  value : BitVec 64
  width : Nat
  tok : Nat                    -- index of its request token
  deriving DecidableEq, Repr, Inhabited

/-- The state of a prism unit, AG tile or memory-port node (R335, R346, R352). -/
structure PUnit where
  words : List Word            -- the installed P words
  installed : Bool
  ins : List (List Token)
  outs : List (List Token)
  ci : List Nat
  taken : List Nat             -- elements taken from the head token of each input
  delivered : List Nat         -- tokens taken from each input since BINDING
  emitted : List Nat           -- elements put into tokens of each output since BINDING
  pack : List Pack             -- packing of each output channel
  owed : Bool                  -- SCAN family: a closure is owed (R340)
  cur : Option Nat             -- SCAN: current parent reference; REPT: the reference being repeated
  pos : Nat                    -- SCAN: next position; CRDW: n
  fib : Nat                    -- CRDW: f; GATH: next sequence number
  last : List (Option Nat)     -- previous coordinate of each input (order checks)
  closed : List Bool           -- the previous token of each input was a stop, or the stream is at its start
  rootDone : Bool              -- ROOT = 1: the fibre has been emitted
  acc : Option (BitVec 64)     -- RDCE: the running sum
  accLens : Bool
  ents : List (Option Tensor)  -- entries read at the start of the stream or pass (R339), by word or role
  inPass : Bool                -- AG, MPORT: a pass is under way
  passes : Nat
  step : Nat                   -- AG: the counter chain step; MPORT: the element index
  ctrs : List Nat              -- AG: the counters of the chain
  grp : List Nat               -- elements emitted in the current LOTK group, per stream
  reqs : List GathReq          -- GATH in ANY mode: outstanding elements
  snaps : List RowSnap         -- GATH: the rows that its present windows have read (R349)
  startDone : Bool             -- TRIG 00: the pass of BINDING has been started
  deriving DecidableEq, Repr, Inhabited

/-! ## Synchronisation (spec/14) -/

/-- What a waiting full/empty request does when served (R356, R357, R418). -/
inductive FeOp | ldf | lde | ste | wait
  deriving DecidableEq, Repr, Inhabited

/-- A request waiting at a bank port, in arrival order (R357). -/
structure FeWaiter where
  hall : Nat                 -- the hall whose sequencer waits
  op : FeOp
  off : Nat                  -- scratch offset of the first word
  size : Nat                 -- 4 or 8
  value : Word               -- what STE stores
  reg : Nat                  -- what LDF, LDE or WAIT writes
  va : Nat
  gallery : Bool             -- through the gallery window: acquire or release at gallery scope
  clock : List Nat           -- what an STE's release carries
  since : Nat
  stamp : Nat                -- order of arrival (R357)
  limit : Nat                -- WAIT: ticks, 0 none
  y : Bool                   -- the word marks a freeze point
  deriving DecidableEq, Repr, Inhabited

/-- A posted RED (R364). -/
structure Posted where
  addr : Nat
  place : Nat                -- where its bytes lie (`placeKey`): another address of them is met too (R365)
  dbl : Bool
  op : RedOp
  value : Word
  off : Nat                  -- its code offset
  ch : Hint
  leaves : List (Scope × List Nat)  -- what it leaves at its location: its own release and the fences before it (R368)
  deriving DecidableEq, Repr

/-! ## Race detection and the Mirror (spec/15) -/

/-- An entry of an access record: a hall, its epoch at the access, and the bytes of the line (R378, R384; log 74). -/
structure AccSpan where
  hall : Nat
  epoch : Nat
  bytes : BitVec 64
  deriving DecidableEq, Repr, Inhabited

/-- An access record (R384): the 64-byte line, W with the bytes it wrote at each epoch, the entries of up to four reader
halls, the lost flag. -/
structure AccRec where
  line : Nat
  writes : List AccSpan      -- all of the last plain writer's hall
  readers : List AccSpan
  lost : Bool
  deriving DecidableEq, Repr, Inhabited

/-- A carried clock: what a release to a location leaves for an acquire that reads its value (R354, R383). A word keeps
what the write it holds carries: its own release and every fence before it (R368). -/
structure Carry where
  addr : Nat                 -- of the 4-byte word
  hall : Nat                 -- the releasing hall
  scp : Scope
  clock : List Nat
  deriving DecidableEq, Repr

/-- The Mirror of one context (R387 to R397, R463). -/
structure Mirror where
  mode : MirrorMode
  base : Word
  size : Word
  head : Word
  tail : Word
  seqs : Map Nat             -- next sequence number of each place, by NODE (R389)
  used : List Nat            -- consumed record indexes at or above tail (R395)
  stalled : List (Nat × Nat) -- places and ring slots whose stall on the ring's translation has been reported (R463)
  waits : Map (Nat × Nat)    -- REPLAY: tick since which a place has held an event, and the SRC of the event (R396)
  quiet : Nat                -- REPLAY: tick of the last consumption or progress (R396)
  deriving DecidableEq, Repr, Inhabited

/-! ## Contexts (spec/05, spec/16 R419) -/

/-- A context (R119, R419): what is per context in the system registers and what the RSC keeps for it. -/
structure Ctx where
  id : Word
  vf : Nat                   -- 0: the physical function, the system context
  slot : Nat
  halls : BitVec 48
  kd : Nat
  ptroot : Word
  starve : Word
  fpol : Word
  evbase : Word
  evsize : Word
  evhead : Word
  evtail : Word
  evlost : Word
  spillbase : Word
  spillslots : Word
  vc : Word
  racectl : Word
  arctl : Word
  mirror : Mirror
  clocks : Map (List Nat)    -- C_h of each hall, 48 entries (R383)
  tensors : Map Tensor       -- tensor identifier entries (R38, R305)
  library : List LibImage
  libdig : Digest
  policies : List Byte       -- sealing policies of the loaded bundles, in load order (R104, R117)
  domains : List Domain
  sessions : List Session
  quota : List Nat           -- Landing entries per die (R130)
  dispIdx : Nat
  parked : Bool              -- CTXSV.ctx (R420)
  terminating : Bool
  integ : Bool               -- an INTEG is pending (R126)
  tags : Map Nat             -- its CTAG in each gallery where it has one (R150)
  peers : List (Nat × Word)
  present : List (Nat × Word)  -- peers confirmed by the RSCs (R440)
  deriving DecidableEq, Repr, Inhabited

/-! ## Halls -/

/-- The trap registers of a hall (R400, R419). -/
structure TrapRegs where
  cause : Word
  info : Word
  pc : BitVec 17
  vec : BitVec 17
  act : Bool
  frz : Bool
  k0 : Word
  k1 : Word
  deriving DecidableEq, Repr, Inhabited

/-- The instance a hall is bound to (R143, R144, R175). -/
structure Binding where
  task : TaskId
  inst : Nat
  kidx : Nat
  tag : BitVec 16
  kernel : Kernel
  deriving DecidableEq, Repr, Inhabited

/-- A hall (R16 to R18) with everything in it. -/
structure Hall where
  res : Residency
  bind : Option Binding
  lastCtx : Word             -- the context of the last binding (R129)
  bound : Bool               -- BINDING has completed, and the task's other halls are awaited (R144)
  held : Bool                -- stopped and held (R403)
  atYield : Bool             -- the last word marked a freeze point (R77, R145, R201)
  pri : Option (Nat × Bool)  -- page request at the host, and whether it was refused (R436)
  exiting : Bool             -- stopped by HALT as by EXIT (R422)
  hold : Bool                -- fabric hold of a local WDOG trap (R417)
  pc : Nat
  c : View                   -- C view
  a : View                   -- committed A view (R183)
  lc : Word
  ls : BitVec 17
  le : BitVec 17
  pend : BitVec 64           -- pending marks (R182)
  fresh : BitVec 64          -- token registers completed and not yet read in the C view (R187, R377)
  restarts : BitVec 32
  au : AddrUnit
  wait : SeqWait
  trap : TrapRegs
  wdogPeriod : Word
  wdogCount : Word
  wdogFired : Bool           -- the period has expired once, with neither ERET nor resolution since (R417)
  split : Nat
  scratch : List Host.Cell   -- by scratch offset
  full : List Nat            -- full scratch words, rising
  bad : List Nat             -- scratch words that hold an uncorrectable error (R12 MEMERR)
  l1 : List L1Line
  tlb : List TlbEntry
  facets : Map Facet
  mx : Map MxNode
  units : Map PUnit          -- prism units, AG tiles and memory ports, by 8·x + y
  seqIns : List (List Token)
  seqOuts : List (List Token)
  seqCi : List Nat
  links : Map (List Token)   -- tokens waiting at a switch-box input: ((8·x + y)·5 + port)·4 + track
  merges : Map MergeSt       -- by ((8·x + y)·5 + port)·4 + track
  ctlOut : Map Nat           -- control tokens held at a control output, by 2·(8·x + y) + line (R170, R173)
  stores : Map (List StoreEntry)  -- configuration stores, least recently used entry first: of nodes by 8·x + y, of switch
                             -- boxes by 80 + 8·x + y, of later code blocks by 160 + block; 160: the sequencer's tags (R172)
  fetch : Map (BitVec 16 × Nat)  -- configuration fetch under way at a node: the tag, and the tick of its start (R173)
  copies : List CopyJob
  chains : Map ChainCh
  outq : List Nat            -- outbox slots whose w15 has filled, in that order (R441, R444)
  feq : List FeWaiter        -- requests waiting at this hall's bank ports, in arrival order
  posted : List Posted       -- REDs posted by this hall's sequencer (R364)
  fenceRel : List (Scope × List Nat)  -- FENCEs with release: their scopes and what they carry (R368)
  seen : List Carry          -- carries read by load-class accesses and not yet joined (R368)
  horizon : Option (List Nat)  -- the checks an IWAIT waits for, fixed at its issue (R125, R127)
  streamCase : Option StreamCase  -- the case of the STREAM freeze of this binding (R62, R332; log 48)
  deriving DecidableEq, Repr, Inhabited

/-- An outstanding spill (R411 to R413): the RSC's record, the image as written to its slot, and what the image seals. -/
structure Saved where
  ctx : Word
  slot : Nat
  task : TaskId
  inst : Nat
  ver : Word
  split : Nat
  image : List Byte
  hall : Hall
  carries : List Carry       -- what releases had left at its scratch words (R354)
  clock : List Nat           -- what the restored instance joins (log 12)
  deriving DecidableEq, Repr, Inhabited

/-! ## Engine requests in flight -/

/-- What a crypto engine or the RSC is still to store for a job, and the status that follows. -/
structure StoreWork where
  wrote : Nat                -- bytes stored, in rising order
  bytes : List Byte          -- the rest
  wipe : Bool                -- zeros over decrypted bytes (R113)
  cause : Nat
  info : Nat
  deriving DecidableEq, Repr, Inhabited

/-- A sealing or opening job of a crypto engine, or a usage report being signed (R112, R424, R427). -/
structure CryptoJob where
  id : Nat
  hall : Nat
  ctx : Word
  reg : Nat
  handle : Nat
  src : Nat
  dst : Nat
  len : Nat
  data : List Byte           -- SDEC: the header once read; SENC: the plaintext once read; USESIG: the nonce and the snapshot
  seqno : Nat                -- USESIG: the report number; SENC: 1 once its place is logged (R429)
  started : Bool             -- SDEC: it has its place in the session's order; else what it reads has been read
  gone : Bool                -- the instance that issued it has left its hall
  checks : List Nat          -- the checks that it waits for as an egress (R125)
  work : Option StoreWork
  deriving DecidableEq, Repr, Inhabited

/-- An egress that waits for the integrity horizon (R124 to R126). -/
structure Egress where
  id : Nat
  ctx : Word
  hall : Nat
  seq : Bool                 -- a store of the sequencer (R353, R369)
  job : Option Nat           -- the copy it belongs to: it leaves after all the copy's reads (R285)
  checks : List Nat          -- the checks it waits for
  host : Nat                 -- host address
  va : Nat                   -- its VA, for the XLAT of a page that the host refuses (R436)
  data : List Byte
  deriving DecidableEq, Repr, Inhabited

/-- A link send in flight (R443). -/
structure LinkSend where
  slot : Nat
  words : List (BitVec 32)
  data : List Byte
  link : Option Nat          -- the link it has begun on
  status : Nat               -- CAUSE of STATUS; 0 while it is to be sent
  ctx : Word
  gone : Bool                -- the instance whose outbox it came from has left its hall
  checks : List Nat          -- the checks that it waits for (R125)
  deriving DecidableEq, Repr, Inhabited

/-! ## Turns -/

/-- Who executes in a step. `env` stands for every agent that runs no word: the Landing, the RSC, an engine, the
host, a link. -/
inductive Agent
  | env
  | seq (h : Nat)
  | addr (h : Nat)
  | facet (h n slot : Nat)
  | mx (h m : Nat)
  | unit (h x y : Nat)
  deriving DecidableEq, Repr, Inhabited

/-- What the physical world does to stored data (R263, R323, R409). -/
inductive Upset
  | ecc (unit : Nat)                          -- an uncorrectable error in a 256-byte unit
  | scratch (h word : Nat)                    -- an uncorrectable error in a scratch word
  | matrix (h m side pos : Nat)               -- an uncorrectable error in an operand or cell
  | sectors (id : Nat)                        -- sectors are added for a waiting compressed write (R266)
  | hotRow (kd : Nat)                         -- a request of a domain waits at a hot row (R268)
  | bootFails (part : Fin 8)
  | linkTag (link : Nat)                      -- a run of a link fails its tag (R438)
  | dieTag                                    -- a run of the die-to-die link or of a base-die link fails its tag (R445)
  | dieRun                                    -- such a run verifies
  | fuseSvn (svn : BitVec 32)                 -- an update raises the fused minimum FWSVN (R446)
  deriving DecidableEq, Repr, Inhabited

/-- An AtomicOp that arrives over the host link (R366, R432). -/
inductive HostAtomic | fetchAdd | swap | cas
  deriving DecidableEq, Repr, Inhabited

/-- What the host and the operator do beside the rows of the opcode table (R431 to R435). -/
inductive HostAct
  | mailbox (off : Nat) (data : List Byte)    -- a write to BAR 0 of the physical function (R433)
  | atomic (vf slot off : Nat) (op : HostAtomic) (dbl : Bool) (a b : Nat) (ide : Bool)  -- to a mailbox slot (R121, R432)
  | interfaceReport (vf : Nat)                -- a report of a function's interface is asked for (R435)
  | closeSession (ctx : Word) (handle : Nat)  -- the operator closes a session (R431)
  deriving DecidableEq, Repr

/-- One turn of the schedule. -/
inductive Turn
  | tick                                      -- the reference counter advances (R2)
  | run (a : Agent)
  | event (i : Instr)
  | upset (u : Upset)
  | host (a : HostAct)
  deriving DecidableEq, Repr, Inhabited

/-! ## The package -/

/-- Where the package stands (R422, R445 to R447). -/
inductive Phase | boot | running | recovery | stopped | halted
  deriving DecidableEq, Repr, Inhabited

/-- TDISP states (R435). -/
inductive Tdi | unlocked | locked | run | error
  deriving DecidableEq, Repr, Inhabited

/-- A virtual function, or for number 0 the physical function (R128, R432, R435). -/
structure Vf where
  halls : BitVec 48
  tdi : Tdi
  fenced : Bool
  deriving DecidableEq, Repr, Inhabited

/-- A usage snapshot awaiting collection (R428, R431). -/
structure Final where
  ctx : Word
  sid : Word
  handle : Nat
  count : Nat
  rseq : Nat
  nrq : Nat
  rc : Nat
  peers : Nat                -- what a report says of its context (R104)
  libdig : Digest
  poldig : Digest
  deriving DecidableEq, Repr, Inhabited

/-- How a bundle load ends (R117). -/
inductive LoadResult | ok | badForm | badKey | badMeas | badLib | noSpace | badChunk
  deriving DecidableEq, Repr, Inhabited

/-- What the last response carries beside STATUS (R434). -/
inductive Answer
  | none
  | accept (sid : Word) (tag : List Byte)
  | refuse
  | result (r : LoadResult)
  | held (reports lost : Nat)
  | context (id : Word)
  deriving DecidableEq, Repr, Inhabited

/-- A produce or pod message that has arrived and waits for the Mirror (R359, R373). -/
inductive Arrival
  | host (ctx : Word) (vf word : Nat) (v : Nat)
  | notice (ctx : Word) (v : Nat)  -- a session notice for a dispatcher that is not resident (R107, log 57)
  | word (hall off v : Nat)       -- a word produced by the RSC or an engine, behind a request it must not pass (R357)
  | pod (ctx : Word) (m : PodMsg)
  deriving DecidableEq, Repr

/-- RSC state outside the contexts (R102, R103, R433). -/
structure Rsc where
  meas : List Digest         -- M0 to M7
  nonce : Digest             -- boot nonce
  kem : Option Digest        -- boot KEM key; none once destroyed
  ek : List Byte             -- boot KEM encapsulation key
  finals : List Final
  lost : Nat
  reply : BitVec 32          -- mailbox offset 0xFFFC: low TAG of the last response
  status : Nat               -- STATUS of the last response
  answer : Answer
  cert : List Byte           -- certificate returned with the last report (R103; log 56)
  code : Nat                 -- CODE of the request being processed (R433)
  area : List Host.Cell      -- request area of the mailbox, by offset (R433)
  response : List Byte       -- response area: the last response (R433)
  sids : List Word           -- every SID given since boot (R431)
  interfaces : List (Nat × Word)  -- what the last report of an interface named (R435)
  flash : List Byte          -- image stored by RECOVER
  deriving DecidableEq, Repr, Inhabited

end Sys2Proof.Machine
end

