-- ==== Sys2Proof/Config.lean ====
section
/-! DEFINITION. What the spec leaves to an implementation or does not state, as constants without a body: no proof can
see a value of them. Each is named in the assumption log. -/

namespace Sys2Proof.Config

open Sys2Proof.Machine

/-- Which turn comes when the list of turns is empty (log 1). -/
opaque freeTurn : Nat → Turn

/-- A value the spec leaves open, by draw number (log 7). -/
opaque freeWord : Nat → Word

/-- A choice between two outcomes the spec leaves open, by draw number (log 7). -/
opaque freeBool : Nat → Bool

/-- Whether a buffer of the mesh, or a channel whose capacity the spec does not give, that holds `n` tokens can hold one
more (R159, R161; log 8). An empty one can. -/
opaque moreRoom : Nat → Bool

/-- A 256-bit draw of the RSC's random generator (R103, R106, R413; log 6). -/
opaque random : Nat → Digest

/-- SHAKE256 with `n` bytes of output (R102, R105; log 5). -/
opaque shake (msg : List Byte) (n : Nat) : List Byte

/-- SHAKE256 with 256 bits of output. -/
def shake256 (msg : List Byte) : Digest := BitVec.ofNat 256 (leNat (shake msg 32))

/-- AES-256-GCM: ciphertext and 16-byte tag (R108, R413; log 5). -/
opaque gcmSeal (key : Digest) (nonce aad pt : List Byte) : List Byte × List Byte

/-- AES-256-GCM opening: the plaintext when the tag verifies (R112; log 5). -/
opaque gcmOpen (key : Digest) (nonce aad ct tag : List Byte) : Option (List Byte)

/-- A context's spill key in a boot, named by the boot nonce (R413; log 5). -/
opaque spillKey (boot : Digest) (ctx : Word) : Digest

/-- What a read in domain `reader` sees, at byte address `addr`, of a 64-byte granule sealed under domain `owner` with
this tweak seed: no plaintext of the owner's (R19, R263; log 5). -/
opaque foreignByte (reader owner : Nat) (seed : BitVec 32) (addr : Nat) (plain : List Byte) : Byte

/-- An element under the key of its lens key domain, as the readout chain carries it (R179; log 5): named by the boot
nonce and the lens key domains that the context owns, for a mark does not tell which of them (R217). -/
opaque lensElem (boot : Digest) (domains : List Nat) : BitVec 256 → BitVec 256

/-- The body of a spill image: how a hall's saved state is laid out (R412 gives no layout; log 5). -/
opaque spillBody : Hall → List Byte

/-- ML-KEM-1024 encapsulation key of a decapsulation key (R103; log 5). -/
opaque kemPublic (dk : Digest) : List Byte

/-- ML-KEM-1024 decapsulation (R105; log 5). -/
opaque kemDecaps (dk : Digest) (ct : List Byte) : Option Digest

/-- SLH-DSA signature of the package's identity key (R104; log 5). -/
opaque sign (seed : Digest) (msg : List Byte) : List Byte

/-- The identity seed in the fuses (R446; log 5). -/
opaque identitySeed : Digest

/-- The identity public key (R103; log 5). -/
opaque identityKey : List Byte

/-- Birgan's certificate of the identity public key (R103, R439; log 56). -/
opaque certificate : List Byte

/-- Whether the package's lifecycle state is debug (R104). -/
opaque lifeDebug : Bool

/-- The firmware security version number of the firmware in flash (R102, R104, R446; log 5). -/
opaque fwsvn (flash : List Byte) : BitVec 32

/-- The fused minimum FWSVN at the first reset (R446). -/
opaque fusedSvn : BitVec 32

/-- The fused digest of Birgan's firmware public key, and the key an image in flash is signed under (R446; log 5). -/
opaque fusedKeyDigest : Digest
opaque firmwareKey (flash : List Byte) : List Byte

/-- The body of a response (R433, R434 give no layout; log 5). -/
opaque answerBody : Answer → List Byte

/-- The body of a CTX_CREATE request (R434 gives no layout; log 5); none where it is malformed. -/
opaque createBody : List Byte → Option CreateBody

/-- The tag at the far end of a link that its SPDM session gives (R439; log 7): its identity, its LIFE, and its M0 to
M5, by draw number. -/
opaque peerIdentity : Nat → Word
opaque peerLife : Nat → Word
opaque peerMeasures : Nat → List Digest

/-- Whether the certificate chain of the far end ends in Birgan's root, by draw number (R439; log 7). -/
opaque peerChain : Nat → Bool

/-- The component that extends a measurement slot at boot, given the image in flash (R102, R447; log 5). -/
opaque component (flash : List Byte) (slot : Nat) : List Byte

/-- Lifecycle state and debug-fuse state as one word (R102). -/
opaque lifecycle : Word

/-- Digest of a kernel-library manifest that lists these image digests (R104, R118; log 5). -/
opaque manifestDigest : List Digest → Digest

/-- AAD of the tag of a CLOSE message (R431 names none; log 5). -/
opaque closeAad (sid ctx : Word) : List Byte

/-- How COUNTERS lays out what it reports: the selector, the lines of each domain by slice, the throttle waits of each domain,
the retired rows, the fences and the level changes (R434 gives no layout; log 5). -/
opaque counterBytes (sel : Nat) (lines waits : List (Nat × Nat)) (retired fences : Nat) (lowered : List (Nat × Nat)) :
    List Byte

end Sys2Proof.Config
end

