-- ==== Sys2Proof/Machine/State.lean ====
section
/-! DEFINITION. The state of the package as plain data, and the state after reset. INVENTORY.md lists every piece with
its rule and reset value. -/

namespace Sys2Proof.Machine

/-- The whole package. -/
structure State where
  -- the model's own: where the package stands in its life, who moves, and how much free choice has been used
  phase : Phase
  cur : Agent
  turns : List Turn
  firing : List (Nat × Nat × Nat)      -- rules chosen by FACET_CYCLE and not yet fired: hall, facet, slot
  free : Nat                           -- draws made from the constants of Config (the model's own)
  ids : Nat                            -- names given to engine requests (the model's own)
  tick : Nat                           -- reference counter (R2)
  -- compute
  halls : Map Hall
  caches : Map (List KConf)            -- configuration cache of each gallery, by 4·die + gallery (R150)
  bars : Map BarUnit                   -- by 3·(4·die + gallery) + unit
  groups : List (TaskId × Nat × McGroup)
  saves : List Saved                   -- outstanding spills (R413)
  -- tasks
  tasks : List Task
  walks : List Walk
  orders : Nat                         -- tasks made READY so far
  dispatches : Nat                     -- grants made so far
  -- contexts and functions
  ctxs : Map Ctx                       -- by CTXID
  ctxids : Nat                         -- CTXIDs given so far
  vfs : Map Vf
  -- memory
  mem : List Host.Cell                 -- device physical memory (R262)
  hostMem : List Host.Cell             -- host memory, reached through ATS (R436)
  ats : List Nat                       -- host pages of 64 KiB the device holds translations for (R436)
  prot : Map UnitMeta                  -- metadata of each 256-byte protection unit; unlisted: unwritten (R263, R430)
  blocks : Map BlockEntry              -- translation entries of 4 KiB blocks, by PA div 4096 (R265)
  l2 : List L2Line                     -- lines resident in L2, oldest first (R260)
  masks : Map Nat                      -- way mask of each domain (R261)
  maskLast : Nat                       -- the domain l2.waymask was last written for (R261)
  rows : Map RowSeed                   -- row-seed table (R295)
  retired : List Nat                   -- retired rows, by PA div 2048 (R269)
  retiring : List Nat                  -- rows whose array page is still to be moved, by PA div 2048 (R269)
  throttled : Map Nat                  -- throttle-wait counter of each domain (R268)
  leftFlight : List Nat                -- array pages that have left their flight, by PA (R269, R294)
  recs : List AccRec                   -- access records (R384)
  carries : List Carry                 -- what releases have left at locations (R354, R383)
  checks : List Check                  -- MAC checks under way (R264)
  egress : List Egress
  squeezed : List Squeezed             -- compressed writes waiting for sectors (R266)
  -- engine requests in flight
  sdecs : List CryptoJob
  sencs : List CryptoJob
  sigs : List CryptoJob
  pmovs : List PmovJob
  arrays : List ArrayJob
  sends : List (Nat × LinkSend)        -- by sending hall
  -- the rest of the package
  rsc : Rsc
  islands : Map Nat                    -- level of each island (R449)
  links : Map (Nat × Word)             -- admitted link ↦ package number and identity at its far end (R439)
  arrivals : List (Nat × Arrival)      -- produces and pod messages that wait, each with its stamp of arrival (R357, R359)
  lowered : List (Nat × Nat)           -- level changes by the management firmware (R449)
  pkg : Nat                            -- package number given by POD
  linkRuns : Map (Nat × Nat)           -- of each admitted link: run counter, and failures of the run under way (R438)
  dieFails : Nat                       -- failures of the run under way inside the package (R445)
  fuseSvn : BitVec 32                  -- fused minimum FWSVN (R446)
  lastTlp : Option (Nat × Option Nat)  -- last write to host memory: its function, and the selective IDE stream (R435)
  fences : Nat                         -- fences since reset (R434 COUNTERS)
  deriving DecidableEq, Repr, Inhabited

/-- Why the machine stops with a fault. Every fault and trap of the spec is a next state; this is not one of them. -/
inductive Fault
  /-- Raised by `step` when a turn names a hall, facet, node or position the package does not have (R15, R17).
  Safe: no package has that unit, so no behaviour of the hardware is lost. -/
  | noUnit
  deriving DecidableEq, Repr

/-- Why the machine gives no meaning. -/
inductive Refusal
  /-- Raised by `exec` for an instruction the model has no meaning for. Safe: nothing can be proved of its effect. -/
  | notModelled (mnemonic : String)
  /-- Raised by `step` when an event turn names an instruction that a word encodes: words are run by agents only.
  Safe: no such turn exists on the hardware. -/
  | notAnEvent
  deriving DecidableEq, Repr

/-- The view of scalar registers and predicates at reset: log 4. -/
def View.reset : View := ⟨Vector.replicate 64 0, 0⟩

def AddrUnit.reset : AddrUnit := ⟨0, View.reset, 0, 0, 0, 0, []⟩

/-- The trap registers' reset values (R419). -/
def TrapRegs.reset : TrapRegs := ⟨0, 0, 0, 0, false, false, 0, 0⟩

/-- A facet before its hall is bound: log 4 for what R209 gives only at BINDING. -/
def Facet.reset (n : Nat) : Facet where
  pool := []
  conf := []
  installed := false
  e := List.replicate 8 ⟨0, 0, false⟩
  a := List.replicate 4 0
  p := 0
  ins := List.replicate 4 []
  outs := List.replicate 4 []
  ci := [0, 0]
  latch := List.replicate 4 none
  seed := seedAtBinding n
  starve := List.replicate 16 0
  urgent := 0
  reached := 0
  arrive := List.replicate 16 none
  aluBusy := 0
  bankBusy := 0
  moveBusy := 0
  delivered := List.replicate 4 0

/-- A matrix node with every tile empty and every accumulator zero (R308). -/
def MxNode.reset : MxNode where
  ins := List.replicate 4 []
  outs := List.replicate 4 []
  ci := [0, 0]
  tiles := List.replicate 16 ⟨.none, false, []⟩
  latA := ⟨[], [], none⟩
  latB := ⟨[], [], none⟩
  busy := none
  ahead := []
  accepted := 0
  delivered := List.replicate 4 0
  sat := false
  zro := false
  elog := 0
  badElem := []

/-- A prism unit, AG tile or port with no words installed. -/
def PUnit.reset : PUnit where
  words := []
  installed := false
  ins := List.replicate 4 []
  outs := List.replicate 4 []
  ci := [0, 0]
  taken := List.replicate 4 0
  delivered := List.replicate 4 0
  emitted := List.replicate 4 0
  pack := List.replicate 4 ⟨[], 0, false⟩
  owed := false
  cur := none
  pos := 0
  fib := 0
  last := List.replicate 4 none
  closed := List.replicate 4 true
  rootDone := false
  acc := none
  accLens := false
  ents := List.replicate 16 none
  inPass := false
  passes := 0
  step := 0
  ctrs := List.replicate 4 0
  grp := List.replicate 4 0
  reqs := []
  snaps := []
  startDone := false

/-- A hall after package reset: IDLE, unbound, split 8 (R419), every register at the value of the table of R419 or
of log 4, scratch zero and empty, configuration stores empty (R449). -/
def Hall.reset : Hall where
  res := .idle
  bind := none
  lastCtx := 0
  bound := false
  held := false
  atYield := false
  pri := none
  exiting := false
  hold := false
  pc := 0
  c := View.reset
  a := View.reset
  lc := 0
  ls := 0
  le := 0
  pend := 0
  fresh := 0
  restarts := 0
  au := AddrUnit.reset
  wait := .none
  trap := TrapRegs.reset
  wdogPeriod := 0x1000000
  wdogCount := 0
  wdogFired := false
  split := 8
  scratch := []
  full := []
  bad := []
  l1 := []
  tlb := []
  facets := []
  mx := []
  units := []
  seqIns := List.replicate 4 []
  seqOuts := List.replicate 4 []
  seqCi := [0, 0]
  links := []
  merges := []
  ctlOut := []
  stores := []
  fetch := []
  copies := []
  chains := []
  outq := []
  feq := []
  posted := []
  fenceRel := []
  seen := []
  horizon := none
  streamCase := none

/-- The RSC before the boot ROM has run: nothing measured, no keys. -/
def Rsc.reset : Rsc where
  meas := List.replicate 8 0
  nonce := 0
  kem := none
  ek := []
  finals := []
  lost := 0
  reply := 0
  status := 0
  answer := .none
  cert := []
  code := 0
  area := []
  response := []
  sids := []
  interfaces := []
  flash := []

/-- The package right after reset: the boot ROM of D0 has not run yet (R446), no context, no function holds a hall. -/
def State.reset : State where
  phase := .boot
  cur := .env
  turns := []
  firing := []
  free := 0
  ids := 0
  tick := 0
  halls := []
  caches := []
  bars := []
  groups := []
  saves := []
  tasks := []
  walks := []
  orders := 0
  dispatches := 0
  ctxs := []
  ctxids := 0
  vfs := []
  mem := []
  hostMem := []
  ats := []
  prot := []
  blocks := []
  l2 := []
  masks := []
  maskLast := 0
  rows := []
  retired := []
  retiring := []
  throttled := []
  leftFlight := []
  recs := []
  carries := []
  checks := []
  egress := []
  squeezed := []
  sdecs := []
  sencs := []
  sigs := []
  pmovs := []
  arrays := []
  sends := []
  rsc := Rsc.reset
  islands := []
  links := []
  arrivals := []
  lowered := []
  pkg := 0
  linkRuns := []
  dieFails := 0
  fuseSvn := Config.fusedSvn
  lastTlp := none
  fences := 0

end Sys2Proof.Machine
end

