-- ==== Sys2Proof/Machine/Map.lean ====
section
/-! DEFINITION. Sparse tables, byte memories in canonical form, and the small accessors of State. -/

namespace Sys2Proof.Machine

/-! ## Sparse tables -/

/-- The value at a key, or `d`. -/
def mget {α : Type} : Map α → Nat → α → α
  | [], _, d => d
  | (k', v) :: m, k, d => if k = k' then v else mget m k d

/-- Put a value at a key, keys kept rising. -/
def mset {α : Type} : Map α → Nat → α → Map α
  | [], k, v => [(k, v)]
  | (k', v') :: m, k, v =>
    if k = k' then (k, v) :: m
    else if k < k' then (k, v) :: (k', v') :: m
    else (k', v') :: mset m k v

/-- Remove a key. -/
def mdel {α : Type} : Map α → Nat → Map α
  | [], _ => []
  | (k', v') :: m, k => if k = k' then m else (k', v') :: mdel m k

/-- Whether a key is listed, and its value. -/
def mfind {α : Type} : Map α → Nat → Option α
  | [], _ => none
  | (k', v) :: m, k => if k = k' then some v else mfind m k

/-- Element of a list, or a default. -/
def lget {α : Type} [Inhabited α] (l : List α) (n : Nat) : α := l.getD n default

/-! ## Byte memories: addresses strictly rising, no listed zero (an unlisted byte reads 0: log 3) -/

abbrev Cells := List Host.Cell

/-- The byte at an address. -/
def cget : Cells → Nat → Byte
  | [], _ => 0
  | (a', b) :: m, a => if a = a' then b else cget m a

/-- Remove the byte at an address. -/
def cdel : Cells → Nat → Cells
  | [], _ => []
  | (a', b) :: m, a => if a = a' then m else if a < a' then (a', b) :: m else (a', b) :: cdel m a

/-- Insert a byte at an address. -/
def cins : Cells → Nat → Byte → Cells
  | [], a, b => [(a, b)]
  | (a', b') :: m, a, b =>
    if a = a' then (a, b) :: m
    else if a < a' then (a, b) :: (a', b') :: m
    else (a', b') :: cins m a b

/-- Store a byte; storing what an unlisted address reads as removes the entry. -/
def cset (m : Cells) (a : Nat) (b : Byte) : Cells := if b = 0 then cdel m a else cins m a b

/-- `n` bytes from an address up. -/
def cread (m : Cells) : Nat → Nat → List Byte
  | _, 0 => []
  | a, n + 1 => cget m a :: cread m (a + 1) n

/-- Store bytes from an address up. -/
def cwrite : Cells → Nat → List Byte → Cells
  | m, _, [] => m
  | m, a, b :: bs => cwrite (cset m a b) (a + 1) bs

/-- Every address of the list lies above `lo`, in rising order, and no byte is the default. -/
def cellsFrom : Nat → Cells → Bool
  | _, [] => true
  | lo, (a, b) :: m => decide (lo ≤ a) && b != 0 && cellsFrom (a + 1) m

/-- The canonical form of a byte memory. -/
def Memory.wf (m : Cells) : Bool := cellsFrom 0 m

/-- Little-endian value of `n` bytes (R5, R9). -/
def cval (m : Cells) (a n : Nat) : Nat := leNat (cread m a n)

/-- Remove every byte in [lo, lo + n). -/
def cclear (m : Cells) (lo n : Nat) : Cells := m.filter (fun c => c.1 < lo || lo + n ≤ c.1)

/-- The first `n` bytes of a list that is filled up with zeros. -/
def fitBytes (n : Nat) (l : List Byte) : List Byte := (l ++ List.replicate n 0).take n

/-! ## Sets of numbers in rising order: the full scratch words of a hall -/

def sins : List Nat → Nat → List Nat
  | [], x => [x]
  | y :: l, x => if x = y then y :: l else if x < y then x :: y :: l else y :: sins l x

def sdel : List Nat → Nat → List Nat
  | [], _ => []
  | y :: l, x => if x = y then l else y :: sdel l x

/-! ## Accessors of State -/

def State.hall (s : State) (h : Nat) : Hall := mget s.halls h Hall.reset

def State.setHall (s : State) (h : Nat) (x : Hall) : State := { s with halls := mset s.halls h x }

def State.updHall (s : State) (h : Nat) (f : Hall → Hall) : State := s.setHall h (f (s.hall h))

def State.ctx? (s : State) (id : Word) : Option Ctx := mfind s.ctxs id.toNat

def State.setCtx (s : State) (c : Ctx) : State := { s with ctxs := mset s.ctxs c.id.toNat c }

def State.updCtx (s : State) (id : Word) (f : Ctx → Ctx) : State :=
  match s.ctx? id with
  | some c => s.setCtx (f c)
  | none => s

/-- A function's record: no halls, CONFIG_UNLOCKED. -/
def Vf.reset : Vf := ⟨0, .unlocked, false⟩

def State.vf (s : State) (n : Nat) : Vf := mget s.vfs n Vf.reset

def State.setVf (s : State) (n : Nat) (v : Vf) : State := { s with vfs := mset s.vfs n v }

def Hall.facet (x : Hall) (n : Nat) : Facet := mget x.facets n (Facet.reset n)
def Hall.setFacet (x : Hall) (n : Nat) (f : Facet) : Hall := { x with facets := mset x.facets n f }
def Hall.node (x : Hall) (m : Nat) : MxNode := mget x.mx m MxNode.reset
def Hall.setNode (x : Hall) (m : Nat) (n : MxNode) : Hall := { x with mx := mset x.mx m n }
def Hall.unit (x : Hall) (p : Nat) : PUnit := mget x.units p PUnit.reset
def Hall.setUnit (x : Hall) (p : Nat) (u : PUnit) : Hall := { x with units := mset x.units p u }

/-- A fresh name for an engine request. -/
def State.newId (s : State) : Nat × State := (s.ids, { s with ids := s.ids + 1 })

/-- The number of the next draw from an open constant. -/
def State.draw (s : State) : Nat × State := (s.free, { s with free := s.free + 1 })

/-- Scratch size of a hall in bytes (R18). -/
def Hall.size (x : Hall) : Nat := (48 - x.split) * 65536

/-- The routes of the bound instance (R35, R162). -/
def Binding.routes (b : Binding) : List Route := b.kernel.routes.filter (fun r => nbit r.inst b.inst)

def Binding.ctl (b : Binding) : List CtlRoute := b.kernel.ctl.filter (fun r => nbit r.inst b.inst)

/-- The facet at a position of columns 1 to 6 (R17). -/
def facetAt (x y : Nat) : Option Nat := if 1 ≤ x ∧ x ≤ 6 then some ((x - 1) * 8 + y) else none

/-- Facets with the lens-mode mark: those at the end of a route with LNS = 1 (R168). -/
def Binding.lens (b : Binding) : List Nat :=
  b.routes.filterMap (fun r => if r.lns && r.op == 4 then facetAt r.x r.y else none)

def Hall.lens (x : Hall) : List Nat := (x.bind.map Binding.lens).getD []

/-- The context a hall is bound to. -/
def Hall.ctx? (x : Hall) : Option Word := x.bind.map (fun b => b.task.ctx)

/-- The context of a hall; 0 (no context bears it) when unbound. -/
def State.ctxOf (s : State) (h : Nat) : Word := (s.hall h).ctx?.getD 0

/-- Gallery of a package hall, 0 to 7, and its position there (R16). -/
def galleryOf (h : Nat) : Nat := h / 6
def posOf (h : Nat) : Nat := h % 6
def dieOf (h : Nat) : Nat := h / 24

/-- The system context is the one made for the physical function. -/
def State.isSystem (s : State) (id : Word) : Bool :=
  match s.ctx? id with
  | some c => c.vf == 0
  | none => false

end Sys2Proof.Machine
end

