-- ==== Sys2Proof/Machine/Flags.lean ====
section
/-! DEFINITION. Scalar registers and predicates of a view, guards, and what CMP computes (R10, R71, R182, R194). -/

namespace Sys2Proof.Machine

/-- A scalar register; s0 reads 0 (R10). -/
def View.reg (v : View) (r : Reg) : Word := if r = 0 then 0 else v.regs[r]

/-- Write a scalar register; a write to s0 is discarded (R10). -/
def View.setReg (v : View) (r : Reg) (w : Word) : View := if r = 0 then v else { v with regs := v.regs.set r w }

/-- A predicate; p0 reads true (R10). -/
def View.pred (v : View) (p : Pred) : Bool := p == 0 || v.preds.getLsbD p

/-- Write a predicate; a write to p0 is discarded (R182). -/
def View.setPred (v : View) (p : Pred) (b : Bool) : View :=
  if p = 0 then v
  else { v with preds := if b then v.preds ||| BitVec.ofNat 8 (2 ^ p.val) else v.preds &&& ~~~ BitVec.ofNat 8 (2 ^ p.val) }

/-- R71 on given predicates. -/
def guardHolds (pred : Pred → Bool) (g : Guard) : Bool := pred g.pix != g.neg

/-- Both guards of a sequencer word hold in a view (R71, R184). -/
def holds (h : SHdr) (v : View) : Bool := guardHolds v.pred h.ga && guardHolds v.pred h.gb

/-- The predicate `CMP` writes (R194). -/
def combine (k : Combine) (old c : Bool) : Bool :=
  match k with
  | .set => c
  | .and => old && c
  | .or => old || c

/-- The 17-bit register value of an offset. -/
def off17 (n : Nat) : BitVec 17 := BitVec.ofNat 17 n

end Sys2Proof.Machine
end

