-- ==== Sys2Proof/Machine/Memory.lean ====
section
/-! DEFINITION. Memory as programs see it (spec/10): address spaces, translation, the hall L1, the L2, protection
units, race detection on plain accesses (spec/15 R383 to R385), and scratch words with their F bits. -/

namespace Sys2Proof.Machine

/-- The cause codes of R399. -/
def Cause.code : Cause → Nat
  | .ill => 0x01 | .priv => 0x02 | .xlat => 0x03 | .memerr => 0x04 | .integ => 0x05 | .lens => 0x06 | .mmx => 0x07
  | .mrdiv => 0x08 | .logfull => 0x09 | .wdog => 0x0A | .cfg => 0x0B | .kadmit => 0x0C | .stream => 0x0D
  | .align => 0x0E | .access => 0x0F | .session => 0x10 | .trap => 0x20 | .bkpt => 0x21 | .fenced => 0x30
  | .terminated => 0x31 | .linkdown => 0x32

/-- What part of an instruction's work comes to: a value and the next state; a fault of a cause; a freeze of the
hall; or a wait, with the state in which it waits. -/
inductive Res (α : Type) where
  | ok (a : α) (s : State)
  | trap (c : Cause) (info : Word) (s : State)
  | freeze (c : Cause) (info : Word) (s : State)   -- a fault of an agent other than the instruction itself
  | wait (s : State)

/-- Go on with the value. -/
def Res.andThen {α β : Type} (r : Res α) (f : α → State → Res β) : Res β :=
  match r with
  | .ok a s => f a s
  | .trap c i s => .trap c i s
  | .freeze c i s => .freeze c i s
  | .wait s => .wait s

/-- A fault inside becomes one that freezes the hall: an L1 write-back is no event of the instruction (R385). -/
def Res.frozen {α : Type} (r : Res α) : Res α :=
  match r with
  | .trap c i s => .freeze c i s
  | r => r

/-- Stop with a fault unless a check holds. -/
def check {α : Type} (b : Bool) (c : Cause) (info : Word) (s : State) (k : Res α) : Res α :=
  if b then k else .trap c info s

def addrWord (a : Nat) : Word := BitVec.ofNat 64 a

/-! ## Address spaces (R250 to R252, R262) -/

def ownBase : Nat := 0x00FE000000000000
def galBase : Nat := 0x00FE000100000000
def slotBytes : Nat := 0x280000
/-- The first address of tier F, and the end of populated physical memory (R262). -/
def tierF : Nat := 0x006000000000
def physEnd : Nat := 0x016000000000

/-- Where an address leads: a scratch offset of a hall, a device physical address with its leaf, or a host address. -/
inductive Place
  | scratch (hall off : Nat)
  | dev (pa : Nat) (leaf : Word)
  | host (ha : Nat) (leaf : Word)
  deriving DecidableEq, Repr, Inhabited

/-! ## Keys of places: what a synchronisation, an own write or a posted RED names whatever address it uses -/

/-- The key of a scratch byte. -/
def keyOfScratch (h off : Nat) : Nat := 2 ^ 60 + h * 2 ^ 24 + off

/-- The key of a host byte. -/
def keyOfHost (ha : Nat) : Nat := 2 ^ 62 + ha

/-- The key of a place's first byte. -/
def placeKey : Place → Nat
  | .scratch t off => keyOfScratch t off
  | .dev pa _ => pa
  | .host ha _ => keyOfHost ha

/-! ## Page-table entries (R255) -/

def pteV (w : Word) : Bool := w.getLsbD 63
def pteLeaf (w : Word) : Bool := w.getLsbD 62
def pteLN (w : Word) : Bool := w.getLsbD 61
def pteWR (w : Word) : Bool := w.getLsbD 60
def pteMS (w : Word) : Bool := w.getLsbD 59
def pteHO (w : Word) : Bool := w.getLsbD 58
def pteAR (w : Word) : Bool := w.getLsbD 57
def pteCP (w : Word) : Bool := w.getLsbD 56
def pteKD (w : Word) : Nat := nbits w.toNat 44 12
/-- PA[47:16] of a leaf, as an address. -/
def ptePA (w : Word) : Nat := nbits w.toNat 12 32 * 65536
def pteNext (w : Word) : Nat := nbits w.toNat 8 40 * 256

def pageBytes (big : Bool) : Nat := if big then 0x200000 else 0x10000

/-- The kind of a key domain among those the RSC records for a context (R255); `none` when the context does not own
it. -/
def Ctx.domKind (c : Ctx) (kd : Nat) : Option DomKind :=
  if kd = c.kd then some .plain else (c.domains.find? (fun d => d.kd == kd)).map (·.kind)

def Ctx.domain? (c : Ctx) (kd : Nat) : Option Domain := c.domains.find? (fun d => d.kd == kd)

/-- Whether some protection unit of a physical range is sealed under a domain other than 0. -/
def sealedIn (s : State) (pa n : Nat) : Bool :=
  s.prot.any (fun u => pa / 256 ≤ u.1 && u.1 < (pa + n) / 256 && u.2.kd != 0)

/-- Addresses of the entries of a table with V set. -/
def validEntries (s : State) (t size : Nat) : List Nat :=
  (s.mem.filter (fun c => t ≤ c.1 && c.1 < t + size && c.1 % 8 == 7 && 128 ≤ c.2.toNat)).map (fun c => c.1 - 7)

def entryAt (s : State) (a : Nat) : Word := BitVec.ofNat 64 (cval s.mem a 8)

/-- The leaf entries of a context's tables: the address and the size of the page. -/
def tableLeaves (s : State) (c : Ctx) : List (Nat × Nat) :=
  let sub (size : Nat) (a : Nat) : List Nat :=
    let w := entryAt s a
    if pteLeaf w then [] else validEntries s (pteNext w) size
  let l0 := validEntries s (nbits c.ptroot.toNat 0 48) 65536
  let l2 := (l0.flatMap (sub 65536)).flatMap (sub 4096)
  let leaves (n : Nat) (l : List Nat) : List (Nat × Nat) := (l.filter (fun a => pteLeaf (entryAt s a))).map (·, n)
  leaves 0x200000 l2 ++ leaves 0x10000 (l2.flatMap (sub 256))

/-- ADAPTMAX of a context: the largest of its bundles that allow adapters (R116, R328; log 44). -/
def Ctx.adaptCap (c : Ctx) : Nat := (c.domains.filter (·.adapt)).foldl (fun m d => max m d.adaptMax) 0

/-- A leaf's page is among the first pages of its domain that the cap of R328 leaves room for, in table order (log 44). -/
def withinCap (s : State) (c : Ctx) (w : Word) (big : Bool) : Bool :=
  let mine := (tableLeaves s c).filter (fun p => pteKD (entryAt s p.1) == pteKD w)
  let pages := (mine.map (fun p => (ptePA (entryAt s p.1), p.2))).eraseDups
  let n := pageBytes big
  ((pages.takeWhile (· != (ptePA w, n))).map (·.2)).sum + n ≤ c.adaptCap

/-- The conditions of R255 on a leaf, and R328's on a page of an adapter domain. -/
def leafOk (s : State) (c : Ctx) (w : Word) (big : Bool) : Bool :=
  nbits w.toNat 0 12 == 0
  && (!big || ptePA w % 0x200000 == 0)
  && (!pteHO w || (pteKD w == 0 && !pteLN w && !pteAR w && !pteCP w && !pteMS w))
  && (!pteMS w || ptePA w < tierF)
  && (!pteAR w || (big && ptePA w < tierF && !pteCP w))
  && (pteKD w == 0 || (c.domKind (pteKD w)).isSome)
  && pteLN w == (pteKD w != 0 && c.domKind (pteKD w) == some .lens)
  && (pteHO w || ptePA w + pageBytes big ≤ physEnd)
  && (pteHO w || pteKD w != 0 || !sealedIn s (ptePA w) (pageBytes big))
  && (pteKD w == 0 || c.domKind (pteKD w) != some .adapter || withinCap s c w big)

/-- A pointer entry's conditions (R255) for a next table of `size` bytes. -/
def pointerOk (w : Word) (size : Nat) : Bool :=
  pteV w && !pteLeaf w && nbits w.toNat 48 14 == 0 && nbits w.toNat 0 8 == 0 && pteNext w % size == 0
  && pteNext w + size ≤ physEnd

/-- The entry at index `i` of the table at `t`. -/
def pte (s : State) (t i : Nat) : Word := BitVec.ofNat 64 (cval s.mem (t + 8 * i) 8)

/-- The walk of R254: the leaf for an address and whether it maps 2 MiB. -/
def walk (s : State) (c : Ctx) (va : Nat) : Option (Word × Bool) :=
  let root := nbits c.ptroot.toNat 0 48
  if root % 65536 ≠ 0 ∨ physEnd < root + 65536 then none else
  let w0 := pte s root (nbits va 43 13)
  if !pointerOk w0 65536 then none else
  let w1 := pte s (pteNext w0) (nbits va 30 13)
  if !pointerOk w1 4096 then none else
  let w2 := pte s (pteNext w1) (nbits va 21 9)
  if pteV w2 && pteLeaf w2 then (if leafOk s c w2 true then some (w2, true) else none)
  else if !pointerOk w2 256 then none else
  let w3 := pte s (pteNext w2) (nbits va 16 5)
  if pteV w3 && pteLeaf w3 && leafOk s c w3 false then some (w3, false) else none

/-- Entries a translation buffer holds (R257). -/
def TlbAgent.capacity : TlbAgent → Nat
  | .seq | .ce => 64
  | .mport _ => 16
  | .ag _ _ => 1

/-- A translation by a buffer of a hall, refilled by the walker on a miss (R257); the oldest entry leaves a full
buffer (log 9). -/
def translate (s : State) (h : Nat) (ag : TlbAgent) (va : Nat) : Res (Word × Bool) :=
  let x := s.hall h
  match x.tlb.find? (fun e => e.agent == ag && e.va ≤ va && va < e.va + pageBytes e.big) with
  | some e => .ok (e.leaf, e.big) s
  | none =>
    match s.ctx? (s.ctxOf h) with
    | none => .trap .xlat (addrWord va) s
    | some c =>
      match walk s c va with
      | none => .trap .xlat (addrWord va) s
      | some (leaf, big) =>
        let entry : TlbEntry := ⟨ag, va - va % pageBytes big, big, leaf⟩
        let mine := x.tlb.filter (fun e => e.agent == ag)
        let kept := if mine.length < ag.capacity then x.tlb else
          match mine with
          | [] => x.tlb
          | old :: _ => x.tlb.erase old
        .ok (leaf, big) (s.setHall h { x with tlb := kept ++ [entry] })

/-- A host page is reached through ATS (R436): with no translation the hall asks the host by a Page Request and waits;
a refused request raises XLAT. -/
def hostReach (s : State) (h ha va : Nat) (leaf : Word) : Res Place :=
  if s.ats.contains (ha / 65536) then .ok (.host ha leaf) s
  else
    let x := s.hall h
    if x.pri = some (ha / 65536, true) then .trap .xlat (addrWord va) (s.setHall h { x with pri := none })
    else .wait (s.setHall h { x with pri := some (ha / 65536, false) })

/-- The hall at a gallery position of `h`'s gallery. -/
def galleryHall (h k : Nat) : Nat := h / 6 * 6 + k

/-- A scratch offset that the accessing agent may name (R251, R217). -/
def scratchOk (x : Hall) (off n : Nat) : Bool :=
  off + n ≤ x.size && !x.lens.contains (x.split + off / 65536)

/-- R250 to R252, R254: where an access of `n` bytes (not crossing a page) leads, before a host page is asked for. -/
def locate (s : State) (h : Nat) (ag : TlbAgent) (va n : Nat) : Res Place :=
  if 0x100000000000000 ≤ va then .trap .access (addrWord va) s
  else if va < ownBase then
    (translate s h ag va).andThen fun l s =>
      let a := ptePA l.1 + va % pageBytes l.2
      .ok (if pteHO l.1 then .host a l.1 else .dev a l.1) s
  else if va < galBase then
    let off := va - ownBase
    if scratchOk (s.hall h) off n then .ok (.scratch h off) s else .trap .access (addrWord va) s
  else if va < galBase + 6 * slotBytes then
    let o := va - galBase
    let t := galleryHall h (o / slotBytes)
    let y := s.hall t
    if scratchOk y (o % slotBytes) n && y.ctx? == (s.hall h).ctx? && y.bind.isSome
        && y.res != .fenced && y.res != .saving
    then .ok (.scratch t (o % slotBytes)) s else .trap .access (addrWord va) s
  else .trap .access (addrWord va) s

/-- Where an access of `n` bytes leads. -/
def resolve (s : State) (h : Nat) (ag : TlbAgent) (va n : Nat) : Res Place :=
  (locate s h ag va n).andThen fun p s =>
    match p with
    | .host ha leaf => hostReach s h ha va leaf
    | p => .ok p s

/-- Whether an address lies in a scratch window (R250). -/
def inScratch (va : Nat) : Bool := ownBase ≤ va && va < galBase + 6 * slotBytes

/-- Records owned by a Landing: a store to T0 of a spawned task raises ACCESS (R29). -/
def ownsT0 (s : State) (ctx : Word) (va n : Nat) : Bool :=
  s.tasks.any (fun t => t.id.ctx == ctx && t.id.va < va + n && va < t.id.va + 8)

/-- The same by physical address: a store through another address of the record's page meets it too. -/
def ownsT0At (s : State) (ctx : Word) (pa n : Nat) : Bool :=
  s.tasks.any (fun t => t.id.ctx == ctx && t.id.va % 65536 < pa % 65536 + n && pa % 65536 < t.id.va % 65536 + 8
    && (match s.ctx? ctx with
        | some c =>
          match walk s c t.id.va with
          | some (leaf, big) => !pteHO leaf && ptePA leaf + t.id.va % pageBytes big < pa + n
              && pa < ptePA leaf + t.id.va % pageBytes big + 8
          | none => false
        | none => false))

/-- The translation a use of a buffer makes now: the cached one, else the walk's (R257). -/
def leafAt (s : State) (h : Nat) (ag : TlbAgent) (va : Nat) : Option (Word × Bool) :=
  match (s.hall h).tlb.find? (fun e => e.agent == ag && e.va ≤ va && va < e.va + pageBytes e.big) with
  | some e => some (e.leaf, e.big)
  | none => (s.ctx? (s.ctxOf h)).bind fun c => walk s c va

/-- The uses that a check makes of an agent's buffer: a miss is refilled (R257). -/
def refill (s : State) (h : Nat) (ag : TlbAgent) (vas : List Nat) : State :=
  vas.foldl (fun s va =>
    if ownBase ≤ va then s
    else match translate s h ag va with
      | .ok _ s => s
      | _ => s) s

/-! ## Clock vectors and access records (R383, R384) -/

def zeroClock : List Nat := List.replicate 48 0

def clockMax : List Nat → List Nat → List Nat
  | a :: as, b :: bs => max a b :: clockMax as bs
  | [], bs => bs
  | as, [] => as

/-- The clock vector of a hall in a context. -/
def Ctx.clock (c : Ctx) (h : Nat) : List Nat := mget c.clocks h zeroClock

def State.clock (s : State) (ctx : Word) (h : Nat) : List Nat :=
  match s.ctx? ctx with
  | some c => c.clock h
  | none => zeroClock

/-- The epoch of a hall: its own entry. -/
def State.epoch (s : State) (ctx : Word) (h : Nat) : Nat := (s.clock ctx h).getD h 0

/-- The key of an access record: physical 64-byte lines, then the scratch lines of each hall. -/
def recOfPa (pa : Nat) : Nat := pa / 64
def recOfScratch (h off : Nat) : Nat := 2 ^ 48 + h * 65536 + off / 64

/-- The bytes of its 64-byte line that an access of `n` bytes touches. -/
def spanBytes (va n : Nat) : BitVec 64 := BitVec.ofNat 64 ((2 ^ n - 1) * 2 ^ (va % 64))

/-- An entry that an event of hall `h` races with (R384): of another hall, with a byte in common (R378; log 74), and not
ordered before the event. -/
def AccSpan.races (p : AccSpan) (clock : List Nat) (h : Nat) (bytes : BitVec 64) : Bool :=
  p.hall != h && p.bytes &&& bytes != 0 && decide (clock.getD p.hall 0 ≤ p.epoch)

/-- One check of a plain event against a record (R384): `some w` when an entry `w` (writer or not, hall) races. -/
def raceWith (clock : List Nat) (h : Nat) (r : AccRec) (bytes : BitVec 64) (writes : Bool) : Option (Bool × Nat) :=
  match r.writes.find? (·.races clock h bytes) with
  | some p => some (true, p.hall)
  | none => if writes then (r.readers.find? (·.races clock h bytes)).map (fun p => (false, p.hall)) else none

/-- The entries of hall `h` once it has accessed bytes at epoch `e`: the latest access stands at each byte. -/
def AccSpan.over (l : List AccSpan) (h e : Nat) (bytes : BitVec 64) : List AccSpan :=
  ⟨h, e, bytes⟩ :: ((l.map (fun p => { p with bytes := p.bytes &&& ~~~ bytes })).filter (·.bytes != 0))

/-- The record after the event has performed. -/
def AccRec.after (r : AccRec) (h e : Nat) (bytes : BitVec 64) (writes : Bool) : AccRec :=
  let mine (l : List AccSpan) : List AccSpan := AccSpan.over (l.filter (·.hall == h)) h e bytes
  let others := r.readers.filter (·.hall != h)
  if writes then { r with writes := mine r.writes, readers := [], lost := false }
  else if (others.map (·.hall)).dedup.length < 4 then { r with readers := others ++ mine r.readers }
  else { r with readers := [⟨h, e, bytes⟩], lost := true }

/-- A plain event by a hall at epoch `e` reaches its memory node (R384): MMX, or the record takes it. -/
def raceCheck (s : State) (ctx : Word) (h e key va : Nat) (bytes : BitVec 64) (writes : Bool) : Res Unit :=
  match s.ctx? ctx with
  | none => .ok () s
  | some c =>
    let r := (s.recs.find? (fun r => r.line == key)).getD ⟨key, [], [], false⟩
    match raceWith (c.clock h) h r bytes writes, c.racectl.getLsbD 0 with
    | some (w, g), true =>
      .trap .mmx (BitVec.ofNat 64 (va % 2 ^ 56 + b2n w * 2 ^ 57 + g * 2 ^ 58)) s
    | _, _ => .ok () { s with recs := r.after h e bytes writes :: s.recs.filter (fun r => r.line != key) }

/-! ## The L2 (R260, R261) and the protection units (R263, R264) -/

def sliceOf (pa : Nat) : Nat := pa / 128 % 384

/-- The way mask of a domain (R261). -/
def State.mask (s : State) (kd : Nat) : Nat := mget s.masks kd 0x3FFF

/-- What a hint lets an access allocate: L1, L2 (R76). -/
def hintAllocs : Hint → Bool × Bool
  | .dflt | .keep | .lastUse => (true, true)
  | .stream => (false, true)
  | .noL2 => (true, false)
  | .memSide => (false, false)

/-- The hint a line keeps for eviction: "keep" and "last use", else none (R76). -/
def hintKept : Hint → Hint
  | .keep => .keep
  | .lastUse => .lastUse
  | _ => .dflt

/-- The line to evict of a list, oldest first: a "last use" line, else one that is not "keep", else the oldest (R76;
log 9). -/
def victim {α : Type} (hint : α → Hint) (l : List α) : Option α :=
  ((l.find? (fun a => hint a == .lastUse)).orElse fun _ => l.find? (fun a => hint a != .keep)).orElse fun _ => l.head?

/-- An access with "keep" or "last use" marks the line it meets in the hall's L1 and in the L2; one without either leaves the
line's mark as it is: R76 does not say whether it ends an earlier mark (log 9). -/
def noteHint (s : State) (h : Nat) (host : Bool) (line : Nat) (ch : Hint) : State :=
  if hintKept ch = .dflt then s
  else
    { s.updHall h fun x => { x with
        l1 := x.l1.map (fun l => if l.host == host && l.line == line then { l with hint := ch } else l) } with
      l2 := s.l2.map (fun l => if !host && l.line == line then { l with hint := ch } else l) }

/-- Whether the MAC check of a line is under way: the line is unverified (R264). -/
def unverified (s : State) (line : Nat) : Bool := s.checks.any (fun c => c.line == line)

/-- A line leaves the L2; its access records' lifetime ends (R384). -/
def l2Drop (s : State) (line : Nat) : State :=
  { s with l2 := s.l2.filter (fun l => l.line != line), recs := s.recs.filter (fun r => r.line / 2 != line) }

/-- The first way of a mask with room: a way of a slice holds 256 lines (R260: 168 MiB over 384 slices and 14 ways). -/
def freeWay (used : List Nat) (mask : Nat) : Option Nat :=
  (List.range 14).find? (fun w => nbit mask w && decide (used.count w < 256))

/-- A line is evicted from the L2: one that was written while unverified waits for its check (R264). -/
def l2Evict (s : State) (l : L2Line) : Res Unit :=
  if l.dirty && unverified s l.line then .wait s else .ok () (l2Drop s l.line)

/-- Allocate a line in its slice among the ways its domain's mask names; a full choice evicts a line there (log 9). -/
def l2Alloc (s : State) (line kd : Nat) (ch : Hint) : Res Unit :=
  let mask := s.mask kd
  let inSlice := s.l2.filter (fun l => l.line % 384 == line % 384)
  let put (w : Nat) (s : State) : State := { s with l2 := s.l2 ++ [⟨line, kd, w, false, hintKept ch⟩] }
  match freeWay (inSlice.map (·.way)) mask with
  | some w => .ok () (put w s)
  | none =>
    match victim (·.hint) (inSlice.filter (fun l => nbit mask l.way)) with
    | some old => (l2Evict s old).andThen fun _ s => .ok () (put old.way s)
    | none => .ok () s

/-- Whether a line is resident for a domain. -/
def l2Hit (s : State) (line kd : Nat) : Bool := s.l2.any (fun l => l.line == line && l.kd == kd)

/-- A row of an array page that is not live reads as zeros with no DRAM access (R267, R295). -/
def rowDead (s : State) (pa : Nat) (ar : Bool) : Bool := ar && !(mget s.rows (pa / 2048) ⟨0, 0, false⟩).live

/-- No DRAM access is made for a line: its row is not live, or its block is of class 0 (R266, R295). -/
def noDram (s : State) (line : Nat) (ar : Bool) : Bool :=
  rowDead s (line * 128) ar || (match mfind s.blocks (line / 32) with | some b => b.cls == 0 | none => false)

/-- A line of another domain leaves the L2 before a fill (R261). -/
def l2Leave (s : State) (line kd : Nat) : Res Unit :=
  match s.l2.find? (fun l => l.line == line && l.kd != kd) with
  | some l => l2Evict s l
  | none => .ok () (l2Drop s line)

/-- A read that meets an unverified line in the L2 depends on the line's check as well (R125, R264). -/
def shareCheck (s : State) (ctx : Word) (h line : Nat) : State :=
  match s.checks.find? (fun c => c.line == line) with
  | some c =>
    if s.checks.any (fun c => c.line == line && c.ctx == ctx && c.hall == h && c.epoch == s.epoch ctx h) then s
    else { s with ids := s.ids + 1, checks := s.checks ++ [⟨s.ids, ctx, h, line, s.epoch ctx h, c.since⟩] }
  | none => s

/-- An engine's read of a line whose check is under way depends on it, from whatever copy it was served (R125 item 4,
R285). -/
def dependOn (s : State) (ctx : Word) (h line : Nat) : State :=
  match s.checks.find? (fun c => c.line == line) with
  | some c => { s with ids := s.ids + 1, checks := s.checks ++ [⟨s.ids, ctx, h, line, s.epoch ctx h, c.since⟩] }
  | none => s

/-- An access of domain `kd` brings a line to its slice (R261, R263): a miss reads DRAM, where ECC and then the MAC
are checked; the data may be used before the MAC check ends (R264). A unit sealed under another domain fails its
check (log 10); domain 0 has none. -/
def l2Fetch (s : State) (ctx : Word) (h line kd va : Nat) (ar : Bool) (ch : Hint) : Res Unit :=
  if s.squeezed.any (fun q => q.line == line) then .wait s
  else if l2Hit s line kd then .ok () (shareCheck s ctx h line)
  else
    (l2Leave s line kd).andThen fun _ s =>
    let alloc (s : State) : Res Unit := if (hintAllocs ch).2 then l2Alloc s line kd ch else .ok () s
    if noDram s line ar then alloc s else
    match mfind s.prot (line / 2) with
    | none => alloc s
    | some p =>
      if p.ecc then .trap .memerr (addrWord va) s
      else if kd = 0 then alloc s
      else if p.kd ≠ kd then .trap .integ (addrWord (line * 128)) s
      else (alloc s).andThen fun _ s =>
        .ok () { s with ids := s.ids + 1, checks := s.checks ++ [⟨s.ids, ctx, h, line, s.epoch ctx h, s.tick⟩] }

/-- The dirty filter of a page under migration takes every write (R270, R275). -/
def noteDirty (s : State) (pa : Nat) : State :=
  { s with pmovs := s.pmovs.map (fun j =>
      match j.pages with
      | p :: _ => if p.src ≤ pa && pa < p.src + pageBytes p.big
        then { j with dirty := j.dirty ||| BitVec.ofNat 64 (2 ^ ((pa - p.src) / 32768)) } else j
      | [] => j) }

/-! ## What is stored in DRAM (R263, R265, R295) -/

/-- The tweak seed of a stored byte: its row's, else its block's. -/
def seedOf (s : State) (a : Nat) : BitVec 32 :=
  match mfind s.rows (a / 2048), mfind s.blocks (a / 4096) with
  | some r, _ => r.seed
  | none, some b => b.seed
  | none, none => 0

/-- `n` bytes at `a` as a read in a domain sees them, [a, a + n) lying in one protection unit: the bytes last written;
zeros in a row that is not live; and in a unit sealed under another domain none of its plaintext. -/
def unitRead (s : State) (kd : Nat) (ar : Bool) (a n : Nat) : List Byte :=
  if rowDead s a ar then List.replicate n 0
  else
    match mfind s.prot (a / 256) with
    | some p =>
      if p.kd = kd then cread s.mem a n
      else (List.range n).map fun i =>
        Config.foreignByte kd p.kd (seedOf s a) (a + i) (cread s.mem ((a + i) / 64 * 64) 64)
    | none => cread s.mem a n

/-- The bytes of a line as a read in a domain sees them. -/
def lineRead (s : State) (kd : Nat) (ar : Bool) (line : Nat) : List Byte := unitRead s kd ar (line * 128) 128

/-- The entry of an array page's row at a write (R295): a row that is not live becomes so under a fresh seed, the rest
of it zero; VER is incremented, but in domain 0, where LIVE alone is kept. -/
def touchRow (s : State) (pa kd : Nat) : State :=
  let r := mget s.rows (pa / 2048) ⟨0, 0, false⟩
  if kd = 0 then
    if r.live then s
    else { s with mem := cclear s.mem (pa / 2048 * 2048) 2048, rows := mset s.rows (pa / 2048) ⟨0, 0, true⟩ }
  else if r.live then { s with rows := mset s.rows (pa / 2048) { r with ver := r.ver + 1 } }
  else { s with free := s.free + 1
                mem := cclear s.mem (pa / 2048 * 2048) 2048
                rows := mset s.rows (pa / 2048) ⟨(Config.random s.free).truncate 32, r.ver + 1, true⟩ }

/-- Sectors that touch a retired row (R269). -/
def sectorsRetired (s : State) (cls sec : Nat) : Bool := s.retired.any (fun r => sec < 4 * r + 4 && 4 * r < sec + cls)

/-- The sectors for a block from a place on: those of retired rows are out of the free lists (R269). A row keeps at most
one of two places 12 sectors apart from being used. -/
def soundSectors (s : State) (cls sec : Nat) : BitVec 39 :=
  BitVec.ofNat 39 (s.retired.length.repeat (fun c => if sectorsRetired s cls c then c + 12 else c) sec)

/-- The entry of a block at a write of its unit `u` (R265): fresh at its first write in the domain, `ver` the unit's new
version. -/
def touchBlock (s : State) (u kd : Nat) (ver : BitVec 32) : State :=
  let old := mget s.blocks (u / 16) ⟨0, 0, 0, false, 0, 0⟩
  let (e, s) :=
    if old.live && old.kd == kd then (old, s)
    else (⟨8, kd, soundSectors s 8 (u / 16 * 8), true, (Config.random s.free).truncate 32, 0⟩, { s with free := s.free + 1 })
  { s with blocks := mset s.blocks (u / 16) { e with ver := if u % 16 = 0 then ver else e.ver } }

/-- A unit is about to take bytes of a domain (R263): one sealed under another domain gives up its plaintext, its
version steps (domain 0 has none), and its row's or block's entry follows. -/
def sealUnit (s : State) (kd : Nat) (ar cp : Bool) (u : Nat) : State :=
  let p := mfind s.prot u
  let s := match p with
    | some p => if p.kd = kd then s else { s with mem := cwrite s.mem (256 * u) (unitRead s kd false (256 * u) 256) }
    | none => s
  let old : BitVec 32 := match p with
    | some p => if p.kd = kd then p.ver else 0
    | none => 0
  let ver := if kd = 0 then 0 else old + 1
  let s := if ar then touchRow s (256 * u) kd else if kd ≠ 0 || cp then touchBlock s u kd ver else s
  { s with prot := mset s.prot u ⟨kd, false, ver⟩ }

/-- The sectors a compressed block takes after a write: the zero block may be of class 0; which class it takes else, and
where, the spec leaves to the controller (R265, R266; log 47). -/
def classify (s : State) (b : Nat) : State :=
  match mfind s.blocks b with
  | none => s
  | some e =>
    let zero := s.mem.all (fun c => c.1 < 4096 * b || 4096 * b + 4096 ≤ c.1)
    let k := (Config.freeWord s.free).toNat % 9
    { s with free := s.free + 2
             blocks := mset s.blocks b { e with
               cls := if k = 0 && !zero then 8 else k
               sec := soundSectors s 8 ((Config.freeWord (s.free + 1)).toNat % 2 ^ 39) } }

/-- Ends what an earlier release left at the words that [key, key + n) touches: another value stands there (R354). -/
def endCarry (s : State) (key n : Nat) : State :=
  { s with carries := s.carries.filter (fun c => c.addr + 4 ≤ key || key + n ≤ c.addr) }

/-- A compressed write waits at its controller when it needs sectors and none are free, which the spec leaves to the
size classes (R266; log 22). -/
def squeeze (s : State) (ctx : Word) (h line kd va : Nat) (mask : BitVec 128) : State :=
  let (k, s) := s.draw
  if Config.freeBool k then
    { s with ids := s.ids + 1
             squeezed := s.squeezed ++ [{
               id := s.ids, ctx := ctx, hall := h, line := line
               kd := kd, seen := unitRead s kd false (line / 2 * 256) 256
               body := cread s.mem (line / 2 * 256) 256
               unit := mfind s.prot (line / 2), entry := mfind s.blocks (line / 32)
               mask := mask, va := va, since := s.tick, told := false }] }
  else s

/-- Bytes become the contents of physical memory under a leaf's domain. -/
def physWrite (s : State) (pa : Nat) (leaf : Word) (bs : List Byte) : State :=
  let kd := pteKD leaf
  let us := List.range' (pa / 256) ((pa + bs.length - 1) / 256 + 1 - pa / 256)
  let s := endCarry (us.foldl (sealUnit · kd (pteAR leaf) (pteCP leaf)) (noteDirty s pa)) pa bs.length
  let s := { s with
    mem := cwrite s.mem pa bs
    l2 := s.l2.map (fun l => if pa < l.line * 128 + 128 && l.line * 128 < pa + bs.length then { l with dirty := true } else l) }
  if pteCP leaf then (List.range' (pa / 4096) ((pa + bs.length - 1) / 4096 + 1 - pa / 4096)).foldl classify s else s

/-- A write by the RSC, a Landing or an engine for a context (hall 48) or by an atomic: lines of a compressed page may
wait (R266). -/
def leafWrite (s : State) (ctx : Word) (h pa : Nat) (leaf : Word) (va : Nat) (bs : List Byte) : State :=
  let s := if !pteCP leaf then s else
    (List.range' (pa / 128) ((pa + bs.length - 1) / 128 + 1 - pa / 128)).foldl (fun s line =>
      let lo := max pa (line * 128)
      squeeze s ctx h line (pteKD leaf) (va + (lo - pa))
        (BitVec.ofNat 128 ((2 ^ (min (pa + bs.length) (line * 128 + 128) - lo) - 1) * 2 ^ (lo - line * 128)))) s
  physWrite s pa leaf bs

/-! ## The hall L1 (R258) -/

def lineBits (bs : List Byte) : BitVec 1024 := BitVec.ofNat 1024 (leNat bs)

/-- Byte `i` of a line. -/
def lineByte (d : BitVec 1024) (i : Nat) : Byte := BitVec.ofNat 8 (d.toNat / 2 ^ (8 * i))

def lineGet (d : BitVec 1024) (i n : Nat) : Nat := nbits d.toNat (8 * i) (8 * n)

/-- Replace `n` bytes at `i`. -/
def linePut (d : BitVec 1024) (i n v : Nat) : BitVec 1024 :=
  BitVec.ofNat 1024 (d.toNat - lineGet d i n * 2 ^ (8 * i) + v % 2 ^ (8 * n) * 2 ^ (8 * i))

/-- The bytes `i` to `i + n − 1` of a line as a mask. -/
def byteMask (i n : Nat) : BitVec 128 := BitVec.ofNat 128 ((2 ^ n - 1) * 2 ^ i)

/-- Store the masked bytes of a line into memory. -/
def mergeLine (m : Cells) (pa : Nat) (d : BitVec 1024) (mask : BitVec 128) : Nat → Cells
  | 0 => m
  | i + 1 => mergeLine (if mask.getLsbD i then cset m (pa + i) (lineByte d i) else m) pa d mask i

/-- The masked bytes of an L1 line, or of a write that bypasses the L1, reach the memory side: the line's unit, row or
block takes them. -/
def ctlWrite (s : State) (ctx : Word) (h : Nat) (l : L1Line) : State :=
  let s := if l.cp then squeeze s ctx h l.line l.kd l.va l.dirty else s
  let s := sealUnit (noteDirty s (l.line * 128)) l.kd l.ar l.cp (l.line / 2)
  let s := { s with
    mem := mergeLine s.mem (l.line * 128) l.data l.dirty 128
    l2 := s.l2.map (fun k => if k.line == l.line then { k with dirty := true } else k)
    carries := s.carries.filter (fun c => c.addr / 128 != l.line || l.dirty &&& byteMask (c.addr % 128) 4 == 0) }
  if l.cp then classify s (l.line / 32) else s

/-- The dirty bytes of half `k` (0 or 1) of a line: of one access record. -/
def L1Line.half (l : L1Line) (k : Nat) : BitVec 64 := BitVec.ofNat 64 (l.dirty.toNat / 2 ^ (64 * k))

/-- Write a dirty line back (R258); it is checked as a write at the epoch of its latest store (R384), and waits while
the line is unverified (R264). A fault freezes the hall: it is no event of the instruction (R272, R273, R385). -/
def writeBackLine (s : State) (h : Nat) (l : L1Line) : Res Unit :=
  if l.dirty = 0 then .ok () s
  else if unverified s l.line then .wait s
  else
    let ctx := s.ctxOf h
    ((l2Fetch s ctx h l.line l.kd l.va l.ar l.hint).andThen fun _ s =>
    let first (k : State → Res Unit) (s : State) : Res Unit :=
      if l.dirty &&& byteMask 0 64 = 0 then k s
      else (raceCheck s ctx h l.epoch (recOfPa (l.line * 128)) l.va (l.half 0) true).andThen fun _ s => k s
    let second (s : State) : Res Unit :=
      if l.dirty &&& byteMask 64 64 = 0 then .ok () s
      else raceCheck s ctx h l.epoch (recOfPa (l.line * 128 + 64)) (l.va + 64) (l.half 1) true
    (first second s).andThen fun _ s => .ok () (ctlWrite s ctx h l)).frozen

/-- The hall's copy of a line is clean. -/
def Hall.cleanLine (x : Hall) (l : L1Line) : Hall :=
  { x with l1 := x.l1.map (fun k => if k.host == l.host && k.line == l.line then { k with dirty := 0 } else k) }

/-- Write back every dirty line of a list, in order: a line that has gone back stays clean where a later one must wait. -/
def writeBackAll (s : State) (h : Nat) : List L1Line → Res Unit
  | [] => .ok () s
  | l :: ls => (writeBackLine s h l).andThen fun _ s =>
      writeBackAll (if l.dirty = 0 then s else s.updHall h fun x => x.cleanLine l) h ls

def Hall.cleanL1 (x : Hall) : Hall := { x with l1 := x.l1.map (fun l => { l with dirty := 0 }) }

/-- Every dirty line of a hall goes back and stays clean. -/
def flushL1 (s : State) (h : Nat) : Res Unit := writeBackAll s h (s.hall h).l1

/-- Clean lines leave the L1 (an acquire at gallery scope or wider, R258), and so do the bytes of a dirty line that its
hall has not stored (R379 item 4, R380). -/
def Hall.dropClean (x : Hall) : Hall :=
  { x with l1 := (x.l1.filter (fun l => l.dirty != 0)).map (fun l => { l with valid := l.dirty }) }

/-- A line leaves the L1. -/
def Hall.dropLine (x : Hall) (host : Bool) (line : Nat) : Hall :=
  { x with l1 := x.l1.filter (fun k => !(k.host == host && k.line == line)) }

/-- Put a line into the L1; a full L1 loses a line, written back first (log 9). -/
def l1Insert (s : State) (h : Nat) (l : L1Line) : Res Unit :=
  let x := s.hall h
  if x.l1.length < x.split * 512 then .ok () (s.setHall h { x with l1 := x.l1 ++ [l] })
  else
    match victim (·.hint) x.l1 with
    | none => .ok () s
    | some old =>
      (writeBackLine s h old).andThen fun _ s =>
      .ok () (s.updHall h fun x => { x with l1 := (x.dropLine old.host old.line).l1 ++ [l] })

def l1Find (x : Hall) (host : Bool) (line : Nat) : Option L1Line :=
  x.l1.find? (fun l => l.host == host && l.line == line)

def l1Replace (x : Hall) (l : L1Line) : Hall :=
  { x with l1 := x.l1.map (fun k => if k.host == l.host && k.line == l.line then l else k) }

/-- The hall's copy of a device line when it is of the access's domain; one of another domain is a miss, and is written
back and invalidated before the fill, as R261 has it for the L2 (R23; log 10). -/
def l1Own (s : State) (h line kd : Nat) : Res (Option L1Line) :=
  match l1Find (s.hall h) false line with
  | none => .ok none s
  | some l =>
    if l.kd = kd then .ok (some l) s
    else (writeBackLine s h l).andThen fun _ s => .ok none (s.updHall h fun x => x.dropLine false line)

/-- A clean copy of a device line as the L1 fills it. -/
def fillLine (s : State) (line : Nat) (leaf : Word) (va : Nat) (ch : Hint) : L1Line :=
  ⟨false, line, lineBits (lineRead s (pteKD leaf) (pteAR leaf) line), 0, pteKD leaf, BitVec.allOnes 128, 0, va - va % 128,
    pteCP leaf, pteAR leaf, hintKept ch⟩

/-- A line that holds some of its bytes takes the rest from a fill: the stored ones stay. -/
def L1Line.merge (l fill : L1Line) : L1Line :=
  { l with data := lineBits ((List.range 128).map fun i => lineByte (if l.valid.getLsbD i then l.data else fill.data) i)
           valid := BitVec.allOnes 128 }

/-- A plain read that the L1 does not serve reaches the memory node (R384): the line as a fill has it. -/
def nodeRead (s : State) (h pa : Nat) (leaf : Word) (va n : Nat) (ch : Hint) : Res L1Line :=
  let line := pa / 128
  let ctx := s.ctxOf h
  (l2Fetch s ctx h line (pteKD leaf) va (pteAR leaf) ch).andThen fun _ s =>
  (if l2Hit s line (pteKD leaf) then raceCheck s ctx h (s.epoch ctx h) (recOfPa pa) va (spanBytes va n) false
   else .ok () s).andThen fun _ s =>
  let s := noteHint s h false line ch
  .ok (fillLine s line leaf va ch) s

/-- A plain read through the hall's L1 of `n` bytes of a device page inside one line. -/
def devRead (s : State) (h pa : Nat) (leaf : Word) (va n : Nat) (ch : Hint) : Res Nat :=
  let line := pa / 128
  (l1Own s h line (pteKD leaf)).andThen fun own s =>
  match own with
  | some l =>
    if l.valid &&& byteMask (pa % 128) n = byteMask (pa % 128) n then
      .ok (lineGet l.data (pa % 128) n) (noteHint s h false line ch)
    else
      (nodeRead s h pa leaf va n ch).andThen fun fill s =>
      .ok (lineGet (l.merge fill).data (pa % 128) n) (s.updHall h fun x => l1Replace x (l.merge fill))
  | none =>
    (nodeRead s h pa leaf va n ch).andThen fun l s =>
    let v := lineGet l.data (pa % 128) n
    if (hintAllocs ch).1 then (l1Insert s h l).andThen fun _ s => .ok v s
    else .ok v s

/-- A plain write through the hall's L1 of `n` bytes of a device page inside one line. A miss reaches the node. -/
def devWrite (s : State) (h pa : Nat) (leaf : Word) (va n v : Nat) (ch : Hint) : Res Unit :=
  let line := pa / 128
  let ctx := s.ctxOf h
  let kd := pteKD leaf
  let e := s.epoch ctx h
  let put (l : L1Line) : L1Line :=
    { l with data := linePut l.data (pa % 128) n v, dirty := l.dirty ||| byteMask (pa % 128) n
             valid := l.valid ||| byteMask (pa % 128) n, epoch := e }
  (l1Own (noteDirty s pa) h line kd).andThen fun own s =>
  match own with
  | some l => .ok () (noteHint (s.updHall h fun x => l1Replace x (put l)) h false line ch)
  | none =>
    (l2Fetch s ctx h line kd va (pteAR leaf) ch).andThen fun _ s =>
    (if l2Hit s line kd then raceCheck s ctx h e (recOfPa pa) va (spanBytes va n) true else .ok () s).andThen fun _ s =>
    let s := noteHint s h false line ch
    let l := put (fillLine s line leaf va ch)
    if (hintAllocs ch).1 then l1Insert s h l else .ok () (ctlWrite s ctx h l)

/-! ## Host pages (R258, R124 to R126) -/

/-- The reads an egress or IWAIT of a hall issued now depends on, whose checks are under way (R125 items 1 to 3): the
hall's own, and those of the context's other halls that happen before it (log 11). -/
def horizon (s : State) (h : Nat) : List Nat :=
  let ctx := s.ctxOf h
  (s.checks.filter (fun c => c.ctx == ctx && (c.hall == h || c.epoch < (s.clock ctx h).getD c.hall 0))).map (·.id)

/-- The checks of a list that are still under way. -/
def underWay (s : State) (ids : List Nat) : List Nat := ids.filter (fun i => s.checks.any (fun c => c.id == i))

def integPending (s : State) (ctx : Word) : Bool :=
  match s.ctx? ctx with
  | some c => c.integ
  | none => false

/-- The function of a context, and the selective IDE stream that its TLPs go under once the function runs (R435). -/
def streamOf (s : State) (ctx : Word) : Nat × Option Nat :=
  let vf := ((s.ctx? ctx).map (·.vf)).getD 0
  (vf, if vf ≠ 0 ∧ (s.vf vf).tdi = .run then some vf else none)

/-- Bytes reach host memory for a context. -/
def hostPut (s : State) (ctx : Word) (ha : Nat) (bs : List Byte) : State :=
  { endCarry s (keyOfHost ha) bs.length with hostMem := cwrite s.hostMem ha bs, lastTlp := some (streamOf s ctx) }

/-- Who writes to a host page: the sequencer, or another agent of the hall, at whose write the horizon is fixed; a copy,
whose data waits for the copy's own reads (R285); an engine that has waited for its horizon already (R424, R427). -/
inductive Writer
  | seq
  | unit
  | copy (id : Nat)
  | engine
  deriving DecidableEq, Repr

def Writer.job : Writer → Option Nat
  | .copy id => some id
  | _ => none

/-- Data leaves for host memory: at once when its horizon is reached, else it waits (R126). -/
def egressWrite (s : State) (h ha va : Nat) (bs : List Byte) (w : Writer) : State :=
  let ctx := s.ctxOf h
  let ids := if w = .seq ∨ w = .unit then horizon s h else []
  if integPending s ctx then s
  else if ids = [] ∧ w.job = none then hostPut s ctx ha bs
  else { s with ids := s.ids + 1, egress := s.egress ++ [⟨s.ids, ctx, h, w == .seq, w.job, ids, ha, va, bs⟩] }

/-- Host bytes that an own waiting write will still change. -/
def egressCovers (s : State) (ctx : Word) (ha n : Nat) : Bool :=
  s.egress.any (fun e => e.ctx == ctx && e.host < ha + n && ha < e.host + e.data.length)

/-- The hall's sequencer has a host store that has not performed: it performs when it leaves (R258, R353). -/
def hostPending (s : State) (h : Nat) : Bool := s.egress.any (fun e => e.hall == h && e.seq)

def hostRead (s : State) (h ha va n : Nat) (ch : Hint) : Res Nat :=
  match l1Find (s.hall h) true (ha / 128) with
  | some l => .ok (lineGet l.data (ha % 128) n) (noteHint s h true (ha / 128) ch)
  | none =>
    if egressCovers s (s.ctxOf h) ha n then .wait s
    else
      let s := { s with lastTlp := some (streamOf s (s.ctxOf h)) }
      let v := cval s.hostMem ha n
      if (hintAllocs ch).1 && !egressCovers s (s.ctxOf h) (ha / 128 * 128) 128 then
        (l1Insert s h ⟨true, ha / 128, lineBits (cread s.hostMem (ha / 128 * 128) 128), 0, 0, BitVec.allOnes 128, 0,
          va - va % 128, false, false, hintKept ch⟩).andThen fun _ s => .ok v s
      else .ok v s

/-- A store to a host page: an L1 copy is updated and stays clean (R258), with the hint's mark (R76). -/
def hostWrite (s : State) (h ha va n v : Nat) (ch : Hint) (w : Writer) : State :=
  let s := s.updHall h fun x =>
    match l1Find x true (ha / 128) with
    | some l => l1Replace x { l with data := linePut l.data (ha % 128) n v }
    | none => x
  egressWrite (noteHint s h true (ha / 128) ch) h ha va (leBytes n v) w

/-! ## Scratch words (R249, R251, R356) -/

/-- Every scratch word that [off, off + n) touches is full. -/
def Hall.fullAt (x : Hall) (off n : Nat) : Bool :=
  (List.range ((off + n - 1) / 4 + 1 - off / 4)).all (fun i => x.full.contains (off / 4 + i))

/-- Set or clear the F bits of the words [w, w + n). -/
def Hall.setFull (x : Hall) (w n : Nat) (f : Bool) : Hall :=
  { x with full := (List.range n).foldl (fun l i => if f then sins l (w + i) else sdel l (w + i)) x.full }

def Hall.badAt (x : Hall) (off n : Nat) : Bool := x.bad.any (fun w => off / 4 ≤ w && w ≤ (off + n - 1) / 4)

/-- Store bytes into scratch words, F bits unchanged. -/
def Hall.put (x : Hall) (off : Nat) (bs : List Byte) : Hall :=
  { x with scratch := cwrite x.scratch off bs
           bad := x.bad.filter (fun w => !(off / 4 ≤ w && w ≤ (off + bs.length - 1) / 4)) }

/-- Whether the state of the words meets a request (R356, R418). -/
def feReady (y : Hall) (op : FeOp) (off n : Nat) : Bool :=
  match op with
  | .ldf | .lde | .wait => y.fullAt off n
  | .ste => (List.range (n / 4)).all (fun i => !y.full.contains (off / 4 + i))

/-- The words of two requests meet. -/
def feTouches (w : FeWaiter) (off n : Nat) : Bool := w.off < off + n && off < w.off + w.size

/-- Whether a context's accesses are in the order of a recording (R395). -/
def replays (s : State) (ctx : Word) : Bool :=
  match s.ctx? ctx with
  | some c => c.mirror.mode == .replay
  | none => false

/-- A facet rule's request that arrived no later than a stamp, and whose words stand as it needs, goes first at its bank port
(R357); the rules of a hall that has stopped ask for nothing (R403, R417). -/
def facetFirst (x : Hall) (off len stamp : Nat) : Bool :=
  x.res == .running && !x.held && !x.hold && (x.facet (x.split + off / 65536)).arrive.any (fun a =>
    match a with
    | some w => decide (w.stamp ≤ stamp) && w.words.any (fun k => off / 4 ≤ k && k ≤ (off + len - 1) / 4)
        && w.words.all (fun k => x.full.contains k == w.full)
    | none => false)

/-- The scratch offset of a word of the mailbox of a dispatcher's hall (R120). -/
def mailboxOff (x : Hall) (word : Nat) : Nat := x.size - 4096 + 4 * word

/-- Where an arrival writes: hall, first byte, bytes. -/
def Arrival.places (s : State) (a : Arrival) : List (Nat × Nat × Nat) :=
  let mail (ctx : Word) (word : Nat) : List (Nat × Nat × Nat) :=
    ((s.halls.filter (fun p => p.2.bind.any (fun b => b.task == ⟨ctx, 0x00FFFFFFFFFFFFC0⟩))).map
      (fun p => (p.1, mailboxOff p.2 word, 4)))
  match a with
  | .word h off _ => [(h, off, 4)]
  | .host ctx _ w _ => mail ctx w
  | .notice ctx _ => mail ctx 1023
  | .pod _ m => (if m.kind = 3 then [] else [(m.hall.val, m.doff, max 4 m.data.length)])
      ++ (if m.kind = 1 ∨ m.kind = 3 then [(m.hall.val, m.poff, 4)] else [])

/-- A produce or message from outside that arrived before a stamp waits for these words: it goes first (R357, R359). -/
def arrivalFirst (s : State) (t off n stamp : Nat) : Bool :=
  s.arrivals.any (fun a => decide (a.1 < stamp) && (a.2.places s).any (fun p => p.1 == t && p.2.1 < off + n && off < p.2.1 + p.2.2))

/-- A request, of a sequencer, a facet rule or from outside, that has arrived at these words of hall `t` no later than a
stamp and can be served now: an access of that stamp comes after it (R357). In REPLAY the records give the order (R395). -/
def portBusyAt (s : State) (t off n stamp : Nat) : Bool :=
  let y := s.hall t
  (y.feq.any (fun w => feTouches w off n && decide (w.stamp ≤ stamp) && feReady y w.op w.off w.size) || facetFirst y off n stamp
    || arrivalFirst s t off n stamp) && !replays s (s.ctxOf t)

/-- The same for an access that arrives now. -/
def portBusy (s : State) (t off n : Nat) : Bool := portBusyAt s t off n s.ids

def scratchRead (s : State) (h t off va n : Nat) : Res Nat :=
  let y := s.hall t
  if !y.fullAt off n then .wait s
  else if y.badAt off n then .trap .memerr (addrWord va) s
  else
    let ctx := s.ctxOf h
    (raceCheck s ctx h (s.epoch ctx h) (recOfScratch t off) va (spanBytes off n) false).andThen fun _ s =>
    .ok (cval (s.hall t).scratch off n) s

def scratchWrite (s : State) (h t off va n v : Nat) : Res Unit :=
  if portBusy s t off n then .wait s else
  let ctx := s.ctxOf h
  (raceCheck s ctx h (s.epoch ctx h) (recOfScratch t off) va (spanBytes off n) true).andThen fun _ s =>
  .ok () ((endCarry s (keyOfScratch t off) n).updHall t fun y => y.put off (leBytes n v))

/-! ## Plain loads and stores of a sequencer (R271) -/

/-- The key of the place an access of the sequencer names; an address that leads nowhere has one of its own. -/
def placeOf (s : State) (h va n : Nat) : Nat :=
  match locate s h .seq va n with
  | .ok p _ => placeKey p
  | _ => 2 ^ 64 + va

/-- A RED the hall has posted and that touches the bytes of a place: accesses of the hall to them come after it, by
whatever address (R365). -/
def postedHits (x : Hall) (place n : Nat) : Bool :=
  x.posted.any (fun p => p.place < place + n && place < p.place + (if p.dbl then 8 else 4))

/-- The effect of a plain load at `ea`: its value, zero-extended. -/
def loadAt (s : State) (h ea n : Nat) (ch : Hint) : Res Nat :=
  if ea % n ≠ 0 then .trap .align (addrWord ea) s
  else (resolve s h .seq ea n).andThen fun p s =>
    if postedHits (s.hall h) (placeKey p) n then .wait s else
    match p with
    | .scratch t off => scratchRead s h t off ea n
    | .host ha _ => hostRead s h ha ea n ch
    | .dev pa leaf => if pteLN leaf then .trap .lens 0 s else devRead s h pa leaf ea n ch

/-- The effect of a plain store at `ea`. -/
def storeAt (s : State) (h ea n v : Nat) (ch : Hint) : Res Unit :=
  if ea % n ≠ 0 then .trap .align (addrWord ea) s
  else if ownsT0 s (s.ctxOf h) ea n then .trap .access (addrWord ea) s
  else (resolve s h .seq ea n).andThen fun p s =>
    if postedHits (s.hall h) (placeKey p) n then .wait s else
    match p with
    | .scratch t off => scratchWrite s h t off ea n v
    | .host ha leaf => if pteWR leaf then .ok () (hostWrite s h ha ea n v ch .seq) else .trap .xlat (addrWord ea) s
    | .dev pa leaf =>
      if ownsT0At s (s.ctxOf h) pa n then .trap .access (addrWord ea) s
      else if pteLN leaf && !s.isSystem (s.ctxOf h) then .trap .access (addrWord ea) s
      else if !pteWR leaf then .trap .xlat (addrWord ea) s
      else if pteLN leaf then .trap .lens 0 s
      else devWrite s h pa leaf ea n v ch

end Sys2Proof.Machine
end

