-- ==== Sys2Proof/Machine/Ops.lean ====
section
/-! DEFINITION. Operations that many meanings share: the Mirror (spec/15), releases and acquires (spec/14), event
records, taking an exception and returning from it, freezes, termination and fences (spec/16). -/

namespace Sys2Proof.Machine

/-- The address that names a dispatcher (R119). -/
def dispVA : Nat := 0x00FFFFFFFFFFFFC0

/-- The system context's record. -/
def State.systemCtx? (s : State) : Option Ctx := (s.ctxs.find? (fun p => p.2.vf == 0)).map (·.2)

def State.task? (s : State) (id : TaskId) : Option Task := s.tasks.find? (fun t => t.id == id)

def State.updTask (s : State) (id : TaskId) (f : Task → Task) : State :=
  { s with tasks := s.tasks.map (fun t => if t.id == id then f t else t) }

/-- The code section of the instance a hall runs (R35). -/
def Binding.code (b : Binding) : List Word :=
  match b.kernel.sections.find? (fun c => c.type == 1 && nbit c.inst b.inst) with
  | some c => c.body
  | none => []

def Hall.code (x : Hall) : List Word :=
  match x.bind with
  | some b => b.code
  | none => []

/-- LENGTH of the code section in bytes. -/
def Hall.length (x : Hall) : Nat := 8 * x.code.length

/-! ## Accesses the device makes for a context, through its page tables -/

/-- A device page's physical address for a VA, when the page is mapped and, for a write, writable. -/
def devicePage (s : State) (c : Ctx) (va : Nat) (wr : Bool) : Option (Nat × Word) :=
  match walk s c va with
  | some (leaf, big) =>
    if pteHO leaf || (wr && !pteWR leaf) then none else some (ptePA leaf + va % pageBytes big, leaf)
  | none => none

/-- Write bytes (within a page) at a context's VA; `none` when the page does not allow it. -/
def deviceWrite (s : State) (c : Ctx) (va : Nat) (bs : List Byte) : Option State :=
  (devicePage s c va true).map (fun p => leafWrite s c.id 48 p.1 p.2 va bs)

/-- `n` bytes of a page as its domain sees them, inside one protection unit. -/
def leafRead (s : State) (pa : Nat) (leaf : Word) (n : Nat) : Nat := leNat (unitRead s (pteKD leaf) (pteAR leaf) pa n)

/-- Read an 8-byte word at a context's VA. -/
def deviceRead (s : State) (c : Ctx) (va : Nat) : Option Nat :=
  (devicePage s c va false).map (fun p => leafRead s p.1 p.2 8)

/-! ## Scratch words produced by the device (R122, R359) -/

/-- Store a word and set it full in one step; what an earlier release left at it ends. -/
def produceNow (s : State) (h off : Nat) (v : Nat) : State :=
  (endCarry s (keyOfScratch h off) 4).updHall h fun x => (x.put off (leBytes 4 v)).setFull (off / 4) 1 true

/-- A produce or a message arrives (R359): it takes its stamp. -/
def State.arrive (s : State) (a : Arrival) : State := { s with ids := s.ids + 1, arrivals := s.arrivals ++ [(s.ids, a)] }

/-- A word produced from outside the hall takes its place at the bank port (R357, R359): behind a waiting request that
can be served now, it waits too. -/
def produce (s : State) (h off : Nat) (v : Nat) : State :=
  if portBusy s h off 4 then s.arrive (.word h off v) else produceNow s h off v

/-- The hall of a context's resident dispatcher. -/
def dispatcherHall (s : State) (ctx : Word) : Option Nat :=
  match s.task? ⟨ctx, dispVA⟩ with
  | some t => if t.state == .running || t.state == .triggered then t.granted.head? else none
  | none => none

/-- Produce a mailbox word of a context's dispatcher, when it is resident. -/
def produceMailbox (s : State) (ctx : Word) (word v : Nat) : State :=
  match dispatcherHall s ctx with
  | some h => produce s h (mailboxOff (s.hall h) word) v
  | none => s

/-! ## Event records (R404, R405) -/

/-- An event record before it is laid out. -/
structure Event where
  code : Nat
  kind : Nat
  hall : Nat
  x : Nat
  y : Nat
  slot : Nat
  chan : Nat
  tix : Nat
  info : Word
  loc : Word
  ctx : Word
  detail : List Word
  deriving DecidableEq, Repr, Inhabited

/-- E0 (R404). -/
def Event.e0 (e : Event) : Word :=
  BitVec.ofNat 64 (e.code * 2 ^ 56 + e.kind * 2 ^ 52 + e.hall * 2 ^ 46 + e.x * 2 ^ 42 + e.y * 2 ^ 38 + e.slot * 2 ^ 34
    + e.chan * 2 ^ 32 + e.tix % 2 ^ 32)

def Event.words (e : Event) : List Word :=
  [e.e0, e.info, e.loc, e.ctx, e.detail.getD 0 0, e.detail.getD 1 0, e.detail.getD 2 0, e.detail.getD 3 0]

/-- The reduced copy for the system ring (R405). -/
def Event.reduced (e : Event) : List Word :=
  [e.e0, if e.code == 3 || e.code == 4 || e.code == 5 then e.info else 0, e.loc, e.ctx, 0, 0, 0, 0]

/-- The device itself reaches a host page: through a translation it holds, or one that the host now gives or refuses
(R436; log 7). -/
def atsReach (s : State) (ha : Nat) : Bool × State :=
  if s.ats.contains (ha / 65536) then (true, s)
  else
    let (k, s) := s.draw
    if Config.freeBool k then (true, { s with ats := sins s.ats (ha / 65536) }) else (false, s)

/-- Every page of [a, a + n) of host memory is reached. -/
def atsSpan (s : State) (a n : Nat) : Bool × State :=
  (List.range ((a + n + 65535) / 65536 - a / 65536)).foldl
    (fun p i => if p.1 then atsReach p.2 (a + 65536 * i) else p) (true, s)

/-- A write of the device for a context to a writable page, device or host; false where it fails. -/
def pageWrite (s : State) (c : Ctx) (va : Nat) (bs : List Byte) : Bool × State :=
  match walk s c va with
  | some (leaf, big) =>
    let a := ptePA leaf + va % pageBytes big
    if !pteWR leaf then (false, s)
    else if pteHO leaf then
      match atsReach s a with
      | (true, s) => (true, hostPut s c.id a bs)
      | (false, s) => (false, s)
    else (true, leafWrite s c.id 48 a leaf va bs)
  | none => (false, s)

/-- Write one record to a context's ring and produce the new head (R405); a record that finds no slot is counted. -/
def ringWrite (s : State) (ctx : Word) (ws : List Word) : State :=
  match s.ctx? ctx with
  | none => s
  | some c =>
    let lose (s : State) : State := s.setCtx { c with evlost := c.evlost + 1 }
    if c.evsize = 0 ∨ c.evsize ≤ c.evhead - c.evtail then lose s
    else
      let va := c.evbase.toNat + 64 * (c.evhead.toNat % c.evsize.toNat)
      match pageWrite s c va (wordsBytes ws) with
      | (false, s) => lose s
      | (true, s) =>
        let s := s.setCtx { c with evhead := c.evhead + 1 }
        produceMailbox s ctx 1022 ((c.evhead + 1).toNat % 2 ^ 32)

/-- Which rings a record goes to (R405). -/
def writeEvent (s : State) (e : Event) : State :=
  let sys := s.systemCtx?
  if e.kind ≥ 3 then
    match sys with
    | some c => ringWrite s c.id e.words
    | none => s
  else
    let s := ringWrite s e.ctx e.words
    match sys with
    | some c => if e.kind ≤ 1 ∧ c.id ≠ e.ctx then ringWrite s c.id e.reduced else s
    | none => s

/-- An event of KIND 2 for a context's handler. -/
def notifyEvent (s : State) (ctx : Word) (c : Cause) (info loc : Word) (detail : List Word) : State :=
  writeEvent s ⟨c.code, 2, 63, 0, 0, 0, 0, 0, info, loc, ctx, detail⟩

/-- The causes that R399 lists. -/
def Cause.all : List Cause := [.ill, .priv, .xlat, .memerr, .integ, .lens, .mmx, .mrdiv, .logfull, .wdog, .cfg, .kadmit,
  .stream, .align, .access, .session, .trap, .bkpt, .fenced, .terminated, .linkdown]

/-- An event for the system context that the spec names without a cause or fields (R266, R269): of KIND 2, with a cause of
R399 and an INFO that are free (log 66). -/
def reportSystem (s : State) : State :=
  match s.systemCtx? with
  | none => s
  | some c =>
    let (k, s) := s.draw
    let (k', s) := s.draw
    notifyEvent s c.id (Cause.all.getD ((Config.freeWord k).toNat % 21) .ill) (Config.freeWord k') 0 []

/-! ## The Mirror (R389 to R397, R463) -/

/-- A logged event: its place, its source agent, and the fields of its record (R391, R392). -/
structure LogEv where
  node : Nat
  src : Nat
  type : Nat
  sub : Nat
  addr : Nat
  data : Word
  deriving DecidableEq, Repr, Inhabited

/-- How a logged event stands: it resolves now, it waits, or it diverges from the record of an index (MRDIV). -/
inductive LogOut
  | go (s : State)
  | stall (s : State)
  | diverge (index : Word) (s : State)

/-- SRC of a unit of a hall (R391). -/
def srcOf (h x y : Nat) : Nat := h * 1024 + x * 8 + y
def srcSeq (h : Nat) : Nat := srcOf h 8 7

def LogEv.words (e : LogEv) (index : Word) (seq : Nat) : List Word :=
  [index, BitVec.ofNat 64 (e.node * 2 ^ 48 + e.src * 2 ^ 32 + seq),
   BitVec.ofNat 64 (e.type * 2 ^ 60 + e.sub * 2 ^ 56 + e.addr % 2 ^ 56), e.data]

def Mirror.free (m : Mirror) : Word := m.size - (m.head - m.tail)
def Mirror.slotVA (m : Mirror) (i : Word) : Nat := m.base.toNat + 32 * (i.toNat % m.size.toNat)
def Mirror.seq (m : Mirror) (node : Nat) : Nat := mget m.seqs node 0
def Mirror.bump (m : Mirror) (node : Nat) : Mirror := { m with seqs := mset m.seqs node ((m.seq node + 1) % 2 ^ 32) }

def State.setMirror (s : State) (ctx : Word) (m : Mirror) : State := s.updCtx ctx fun c => { c with mirror := m }

/-- A ring slot that does not translate is reported once for each stall of a place on it (R463). -/
def reportRing (s : State) (ctx : Word) (node : Nat) (i : Word) : State :=
  match s.ctx? ctx with
  | none => s
  | some c =>
    if c.mirror.stalled.contains (node, i.toNat) then s
    else notifyEvent (s.setMirror ctx { c.mirror with stalled := (node, i.toNat) :: c.mirror.stalled }) ctx .xlat
      (addrWord (c.mirror.slotVA i)) 0 []

/-- The stalls of a place are over. -/
def Mirror.unstall (m : Mirror) (node : Nat) : List (Nat × Nat) := m.stalled.filter (fun p => p.1 != node)

/-- LOGFULL (R394, R397): `before` and `after` are the counts around a change. -/
def logfullCross (s : State) (ctx : Word) (before after : Word) : State :=
  if 64 ≤ before ∧ after < 64 then
    match s.ctx? ctx with
    | some c => notifyEvent s ctx .logfull (c.mirror.head - c.mirror.tail) 0 []
    | none => s
  else s

/-- Append an event's record (R393); `reserve` is the number of records kept back (64, or 0 for runs at a freeze). -/
def mirrorAppend (s : State) (c : Ctx) (e : LogEv) (reserve : Word) : LogOut :=
  let m := c.mirror
  if m.free ≤ reserve - 1 ∧ reserve ≠ 0 ∨ m.free = 0 then .stall s
  else
    match deviceWrite s c (m.slotVA m.head) (wordsBytes (e.words m.head (m.seq e.node))) with
    | none => .stall (reportRing s c.id e.node m.head)
    | some s =>
      let m' := { m.bump e.node with head := m.head + 1, stalled := m.unstall e.node }
      .go (logfullCross (s.setMirror c.id m') c.id m.free m'.free)

/-- The four words of the record at an index; `none` while the slot does not translate. -/
def ringRead (s : State) (c : Ctx) (i : Word) : Option (List Word) :=
  let va := c.mirror.slotVA i
  match devicePage s c va false with
  | some p => some ((List.range 4).map (fun k => BitVec.ofNat 64 (leafRead s (p.1 + 8 * k) p.2 8)))
  | none => none

/-- SUB values each TYPE defines (R392). -/
def subOk (type sub : Nat) : Bool :=
  match type with
  | 1 => sub ≤ 0xB
  | 2 => sub ≤ 0xF
  | 3 | 4 | 7 => sub == 0
  | 5 | 6 => sub ≤ 1
  | _ => false

/-- NODE names a place of the package (R391): a kind of the table with a number in its range (log 31). -/
def nodeUsable (node : Nat) : Bool :=
  let n := node % 4096
  match node / 4096 with
  | 1 => n < 384
  | 2 => n < 8
  | 3 => n < 2304
  | 4 => n < 24
  | 5 => n < 3840
  | 6 => n < 2
  | 7 => n < 256
  | 8 => n == 0
  | 9 => n < 48
  | _ => false

/-- A record's form (R391): index, NODE, TYPE and SUB. -/
def recordOk (i : Word) (r : List Word) : Bool :=
  let node := nbits (r.getD 1 0).toNat 48 16
  let l2 := (r.getD 2 0).toNat
  r.getD 0 0 == i && nodeUsable node && subOk (nbits l2 60 4) (nbits l2 56 4)

/-- What a search of the ring for a place's records finds: nothing yet, a record that is malformed, or the source's
own record with its index. -/
inductive Own
  | none
  | bad (i : Word)
  | own (i : Word) (r : List Word)

/-- The unconsumed slots among the next `n` from index `i` that do not translate: their records are not yet present
(R463). -/
def unmappedSlots (s : State) (c : Ctx) : Nat → Word → List Word
  | 0, _ => []
  | n + 1, i =>
    let l := unmappedSlots s c n (i + 1)
    if !c.mirror.used.contains i.toNat && (ringRead s c i).isNone then i :: l else l

/-- The earliest unconsumed record of a place and source among the next `n` from index `i` (R395). -/
def findOwn (s : State) (c : Ctx) (node src : Nat) : Nat → Word → Own
  | 0, _ => .none
  | n + 1, i =>
    if c.mirror.used.contains i.toNat then findOwn s c node src n (i + 1)
    else
      match ringRead s c i with
      | Option.none => findOwn s c node src n (i + 1)
      | some r =>
        let w := (r.getD 1 0).toNat
        if !recordOk i r then
          (if nbits w 48 16 == node || !nodeUsable (nbits w 48 16) then .bad i
           else findOwn s c node src n (i + 1))
        else if nbits w 48 16 == node && nbits w 32 16 == src then .own i r
        else findOwn s c node src n (i + 1)

/-- How many records REPLAY looks at (R395). -/
def Mirror.window (m : Mirror) : Nat := min (m.head - m.tail).toNat 4096

/-- The tail moves over consumed records. -/
def advanceTail : Nat → Word → List Nat → Word × List Nat
  | 0, t, used => (t, used)
  | n + 1, t, used => if used.contains t.toNat then advanceTail n (t + 1) (used.erase t.toNat) else (t, used)

/-- A record is consumed: the place's counter and the tail move (R395, R397). -/
def consumeRecord (s : State) (c : Ctx) (node : Nat) (i : Word) : State :=
  let m := c.mirror
  let used := i.toNat :: m.used
  let (t, used) := advanceTail used.length m.tail used
  let m' := { m.bump node with tail := t, used := used, waits := mdel m.waits node, quiet := s.tick,
                               stalled := m.unstall node }
  logfullCross (s.setMirror c.id m') c.id (m.head - m.tail) (m.head - t)

/-- A place holds an event from now on (R396). -/
def placeWaits (s : State) (c : Ctx) (node src : Nat) : State :=
  match mfind c.mirror.waits node with
  | some _ => s
  | none => s.setMirror c.id { c.mirror with waits := mset c.mirror.waits node (s.tick, src) }

/-- A place, or a switch of it by a timer of its own, waits for a record: from now on it holds an event (R396), and each
slot that does not translate is reported (R463). -/
def timerStalls (s : State) (c : Ctx) (timer node src : Nat) : State :=
  (unmappedSlots s c c.mirror.window c.mirror.tail).foldl (fun s i => reportRing s c.id node i) (placeWaits s c timer src)

def placeStalls (s : State) (c : Ctx) (node src : Nat) : State := timerStalls s c node node src

/-! ## Releases and acquires (R353, R258, R383) -/

def scopeWide (p : Scope) : Bool :=
  match p with
  | .facet | .hall => false
  | _ => true

def ordReleases : Ord → Bool | .rel | .ar => true | _ => false
def ordAcquires : Ord → Bool | .acq | .ar => true | _ => false

/-- A release by a hall: at gallery scope or wider it waits until the sequencer's host stores have left (R258, R353), its
dirty lines go back, its own clock entry steps, and it carries the stepped clock (log 21: with R384's comparison no other
reading spares ordered pairs, as R385 asks). The value is the carried clock, empty below gallery scope. -/
def release (s : State) (h : Nat) (wide : Bool) : Res (List Nat) :=
  if !wide then .ok [] s
  else if hostPending s h then .wait s
  else (flushL1 s h).andThen fun _ s =>
    let ctx := s.ctxOf h
    match s.ctx? ctx with
    | none => .ok [] s
    | some c =>
      let v := c.clock h
      let v' := v.set h ((v.getD h 0 + 1) % 2 ^ 32)
      .ok v' (s.setCtx { c with clocks := mset c.clocks h v' })

/-- The address unit follows the point of execution (R183, R187). -/
def Hall.syncAu (x : Hall) : Hall :=
  { x with au := ⟨x.pc, x.a, 0, x.lc, x.ls.toNat, x.le.toNat, []⟩ }

/-- Join a carried clock into a hall's. -/
def joinClock (s : State) (h : Nat) (clk : List Nat) : State :=
  if clk = [] then s
  else s.updCtx (s.ctxOf h) fun c => { c with clocks := mset c.clocks h (clockMax (c.clock h) clk) }

/-- An acquire by a hall's sequencer: load-queue entries of later words are discarded (R187); at gallery scope or wider
clean L1 lines leave; a clock carried by a release of gallery scope or wider is joined, in the second case of R354 too
(log 19). -/
def acquire (s : State) (h : Nat) (wide : Bool) (clk : List Nat) : State :=
  joinClock (s.updHall h fun x => Hall.syncAu (if wide then x.dropClean else x)) h clk

/-- Whether two halls lie in one instance of a scope (R354). -/
def sameScope (p : Scope) (g h : Nat) : Bool :=
  match p with
  | .facet | .hall => g == h
  | .gallery => g / 6 == h / 6
  | .die => g / 24 == h / 24
  | .package | .pod => true

/-- What releases have left at the words of [key, key + n). -/
def carriesAt (s : State) (key n : Nat) : List Carry := s.carries.filter (fun c => key < c.addr + 4 && c.addr < key + n)

/-- The join of the clocks of carries that meet a test. -/
def carryClock (cs : List Carry) (test : Carry → Bool) : List Nat :=
  cs.foldl (fun m c => if test c then clockMax m c.clock else m) []

/-- A carry pairs with an acquire of scope `p` by hall `h`: each lies in the other's scope instance (R354). -/
def Carry.pairs (c : Carry) (h : Nat) (p : Scope) : Bool := sameScope c.scp c.hall h && sameScope p h c.hall

/-- What the values at a location carry to an acquire of scope `p` by hall `h`. -/
def carried (s : State) (key n h : Nat) (p : Scope) : List Nat := carryClock (carriesAt s key n) (·.pairs h p)

/-- The second case of R354, for a full/empty word of hall `h` taken by that hall. -/
def carriedFe (s : State) (key n h : Nat) : List Nat :=
  carryClock (carriesAt s key n) (fun c => sameScope c.scp c.hall h)

/-- Releases leave at words what they carry (R354, R368). -/
def addCarry (s : State) (key n h : Nat) (leaves : List (Scope × List Nat)) : State :=
  { s with carries := (List.range ((n + 3) / 4)).flatMap (fun i =>
      (leaves.filter (·.2 != [])).map (fun l => ⟨key + 4 * i, h, l.1, l.2⟩)) ++ s.carries }

/-- A write ends what an earlier one left at its words, and leaves there what its releases carry. -/
def leaveCarry (s : State) (key n h : Nat) (leaves : List (Scope × List Nat)) : State :=
  addCarry (endCarry s key n) key n h leaves

/-- Scopes by extent. -/
def scopeRank : Scope → Nat
  | .facet => 0 | .hall => 1 | .gallery => 2 | .die => 3 | .package => 4 | .pod => 5

/-- What a store-class synchronising access of a hall leaves: its own release, and every FENCE with release before it
(R368). -/
def Hall.leaves (x : Hall) (scp : Scope) (clk : List Nat) : List (Scope × List Nat) := (scp, clk) :: x.fenceRel

/-! ## Key domains and the release of memory (R430, R431) -/

/-- Addresses of a context's leaf entries. -/
def leafEntries (s : State) (c : Ctx) : List Nat := (tableLeaves s c).map (·.1)

/-- The tables of a context: first physical address and size (R254). An empty one is a table too. -/
def tableSpans (s : State) (c : Ctx) : List (Nat × Nat) :=
  let next (size t : Nat) : List Nat :=
    ((validEntries s t size).filter (fun a => !pteLeaf (entryAt s a))).map (fun a => pteNext (entryAt s a))
  let root := nbits c.ptroot.toNat 0 48
  let l1 := next 65536 root
  let l2 := l1.flatMap (next 65536)
  let l3 := l2.flatMap (next 4096)
  (root :: l1).map (·, 65536) ++ l2.map (·, 4096) ++ l3.map (·, 256)

/-- Clear V in the leaves of a context that satisfy a test, and remove the cached translations. -/
def unmapLeaves (s : State) (c : Ctx) (test : Word → Bool) : State :=
  let es := (leafEntries s c).filter (fun a => test (entryAt s a))
  let m := es.foldl (fun m a => cset m (a + 7) (cget m (a + 7) &&& 0x7F)) s.mem
  { s with mem := m
           halls := s.halls.map (fun p => (p.1, if p.2.ctx?.getD p.2.lastCtx == c.id
             then { p.2 with tlb := p.2.tlb.filter (fun e => !test e.leaf) } else p.2)) }

/-- Protection units become unwritten: they read as zero, and nothing of them stays on chip (R430). -/
def releaseUnits (s : State) (units : List Nat) : State :=
  let gone (line : Nat) : Bool := units.contains (line / 2)
  { s with
      mem := units.foldl (fun m u => cclear m (u * 256) 256) s.mem
      prot := s.prot.filter (fun p => !units.contains p.1)
      l2 := s.l2.filter (fun l => !gone l.line)
      recs := s.recs.filter (fun r => 2 ^ 48 ≤ r.line || !gone (r.line / 2))
      rows := s.rows.filter (fun r => !units.any (fun u => u / 8 == r.1))
      blocks := s.blocks.filter (fun b => !units.any (fun u => u / 16 == b.1))
      squeezed := s.squeezed.filter (fun q => !gone q.line)
      carries := s.carries.filter (fun c => 2 ^ 48 ≤ c.addr || !gone (c.addr / 128))
      halls := s.halls.map (fun p => (p.1, { p.2 with l1 := p.2.l1.filter (fun l => l.host || !gone l.line) })) }

/-- A key domain's key is destroyed (R430). -/
def dropDomain (s : State) (kd : Nat) : State :=
  if kd = 0 then s else
  let s := releaseUnits s ((s.prot.filter (fun p => p.2.kd == kd)).map (·.1))
  { s with l2 := s.l2.filter (fun l => l.kd != kd)
           halls := s.halls.map (fun p => (p.1, { p.2 with l1 := p.2.l1.filter (fun l => l.host || l.kd != kd) })) }

/-- The pages a context's leaves map: first physical address and size. -/
def leafSpans (s : State) (c : Ctx) : List (Nat × Nat) :=
  (tableLeaves s c).filterMap (fun p =>
    let w := entryAt s p.1
    if pteHO w then none else some (ptePA w, p.2))

/-- The pages that cached translations reach: first physical address and size. -/
def cachedSpans (s : State) : List (Nat × Nat) :=
  (s.halls.flatMap (fun p => p.2.tlb)).map (fun e => (ptePA e.leaf, pageBytes e.big))

/-- Memory of a context's domains, and the clear array rows and compressed blocks, that no leaf and no cached translation maps
any more have left it (R257, R430). Other clear pages have no unit in the counter tree. -/
def releaseUnmapped (s : State) (c : Ctx) : State :=
  let spans := s.ctxs.flatMap (fun p => leafSpans s p.2) ++ s.pmovs.flatMap (fun j => j.pages.map (fun p => (p.dst, 0x200000)))
    ++ cachedSpans s
  let owned := c.kd :: c.domains.map (·.kd)
  let tracked (u : Nat) : Bool := s.rows.any (fun r => r.1 == u / 8) || s.blocks.any (fun b => b.1 == u / 16)
  releaseUnits s ((s.prot.filter (fun p => (if p.2.kd = 0 then tracked p.1 else owned.contains p.2.kd) &&
    !spans.any (fun q => q.1 ≤ 256 * p.1 && 256 * p.1 < q.1 + q.2))).map (·.1))

/-- Key domains in use by any context (R106). -/
def State.domainsInUse (s : State) : List Nat := s.ctxs.flatMap (fun p => p.2.kd :: p.2.domains.map (·.kd))

/-- Peer mask of a context (R440). -/
def Ctx.peerMask (c : Ctx) : Nat := ((List.range 64).map (fun p => if c.present.any (·.1 == p) then 2 ^ p else 0)).sum

/-- POLDIG (R104). -/
def Ctx.poldig (c : Ctx) : Digest := if c.policies = [] then 0 else Config.shake256 c.policies

/-- A session's final snapshot (R431 step 3). -/
def finalOf (c : Ctx) (x : Session) : Final :=
  ⟨c.id, x.sid, x.handle, x.count, x.rseq + 1, x.nrq, x.rc, c.peerMask, c.libdig, c.poldig⟩

/-- The session's final snapshot, and the end of its key domain (R431 steps 3 to 5). -/
def closeSession (s : State) (c : Ctx) (x : Session) (keep : Bool) : State :=
  let f := finalOf c x
  let r := s.rsc
  let full := 4096 ≤ r.finals.length
  let s := if keep then
      { s with rsc := { r with finals := (if full then r.finals.drop 1 else r.finals) ++ [f]
                               lost := if full then r.lost + 1 else r.lost } }
    else s
  let s := dropDomain (unmapLeaves s c (fun w => pteKD w == x.skd)) x.skd
  s.updCtx c.id fun c => { c with sessions := c.sessions.filter (fun y => y.handle != x.handle)
                                  domains := c.domains.filter (fun d => d.kd != x.skd) }

/-! ## The bound tag and the configuration stores (R172, R173) -/

/-- The tag of the binding that a token is produced under (R175). -/
def Hall.tag (x : Hall) : BitVec 16 := (x.bind.map (·.tag)).getD 0

/-- The bound tag's entry at a node is used: it is the most recently used one (R173). -/
def Hall.useStore (x : Hall) (node : Nat) : Hall :=
  let es := mget x.stores node []
  match es.find? (fun e => e.tag == x.tag) with
  | some e => if es.getLast? = some e then x else { x with stores := mset x.stores node (es.erase e ++ [e]) }
  | none => x

/-! ## The end of a binding, and scrubbing (R129, R327) -/

/-- Clear what a binding leaves: lens-mode banks become zero and empty, channels and rule state go, the accumulators
are cleared (R155, R327). Scratch outside lens-mode facets, its F bits, the sequencer's registers, the L1, the stores, the
split and the watchdog period stay. -/
def Hall.endBinding (x : Hall) : Hall :=
  let lens := x.lens
  let inLens (off : Nat) : Bool := lens.contains (x.split + off / 65536)
  { Hall.reset with
      lastCtx := x.ctx?.getD x.lastCtx
      split := x.split
      pc := x.pc
      c := x.c
      a := x.a
      lc := x.lc
      ls := x.ls
      le := x.le
      restarts := x.restarts
      scratch := x.scratch.filter (fun c => !inLens c.1)
      full := x.full.filter (fun w => !inLens (4 * w))
      bad := x.bad.filter (fun w => !inLens (4 * w))
      l1 := x.l1
      tlb := x.tlb
      stores := x.stores.map (fun p => (p.1, p.2.filter (fun e => !e.poisoned)))
      facets := x.facets.map (fun p => (p.1, { Facet.reset p.1 with
        e := p.2.e.map (fun e => if e.lens then ⟨0, 0, false⟩ else e), a := p.2.a, p := p.2.p, seed := p.2.seed }))
      wdogPeriod := x.wdogPeriod }

/-- The dirty lines of a hall that leaves a context, changes its split or stops reach memory (R129), each checked as a
write of the hall (R384). One that races does not perform: the record names the hall, as for any L1 write-back (R385), and a
task that still holds the hall stays held. -/
def spillL1 (s : State) (h : Nat) (ctx : Word) : State :=
  (s.hall h).l1.foldl (fun (s : State) (l : L1Line) =>
    if l.dirty = 0 then s
    else
      let half (k : Nat) (s : State) : Res Unit :=
        if l.half k = 0 ∨ !l2Hit s l.line l.kd then .ok () s
        else raceCheck s ctx h l.epoch (recOfPa (l.line * 128 + 64 * k)) (l.va + 64 * k) (l.half k) true
      match (half 0 s).andThen fun _ s => half 1 s with
      | .ok _ s | .wait s => ctlWrite s ctx h l
      | .trap c i s | .freeze c i s =>
        let s := writeEvent s ⟨c.code, 1, h, 8, 7, 0, 0, 0, i, addrWord (((s.hall h).bind.map (·.task.va)).getD 0), ctx, []⟩
        match (s.hall h).bind with
        | some b => s.updTask b.task fun t => { t with held := true }
        | none => s) s

/-- A dirty line of the hall is unverified: its write-back waits (R264). -/
def spillWaits (s : State) (h : Nat) : Bool := (s.hall h).l1.any (fun l => l.dirty != 0 && unverified s l.line)

/-- What a release left at a scratch word of a hall. -/
def Carry.inScratch (c : Carry) (h : Nat) : Bool := keyOfScratch h 0 ≤ c.addr && c.addr < keyOfScratch (h + 1) 0

/-- The scrub between contexts (R129). -/
def scrubHall (s : State) (h : Nat) : State :=
  let x := s.hall h
  let s := spillL1 s h (x.ctx?.getD x.lastCtx)
  { s.setHall h { Hall.reset with split := x.split, res := if x.res = .fenced then .fenced else .idle
                                  wdogPeriod := 0x1000000 } with
    recs := s.recs.filter (fun r => r.line < recOfScratch h 0 || recOfScratch h 0 + 65536 ≤ r.line)
    carries := s.carries.filter (fun c => !c.inScratch h) }

/-- The instance of a hall has gone: what engines and saves still owe it is written nowhere, and nothing of it reaches an
instance that comes after it (R112, R420, R443). -/
def leaveJobs (s : State) (h : Nat) : State :=
  let gone (l : List CryptoJob) : List CryptoJob := l.map (fun j => if j.hall == h then { j with gone := true } else j)
  { s with
    sdecs := gone s.sdecs
    sencs := gone s.sencs
    sigs := gone s.sigs
    sends := s.sends.map (fun p => if p.1 == h then (p.1, { p.2 with gone := true }) else p)
    tasks := s.tasks.map (fun t => { t with notify := t.notify.map (fun n => if n.1 == h then (48, n.2) else n) }) }

/-- Halls bound to a context. -/
def hallsOf (s : State) (ctx : Word) : List Nat := (s.halls.filter (fun p => p.2.ctx? == some ctx)).map (·.1)

/-! ## Token registers (R182) and statuses -/

/-- Registers as a set of bits. -/
def regBits : List Reg → BitVec 64
  | [] => 0
  | r :: rs => (if r = 0 then 0 else BitVec.ofNat 64 (2 ^ r.val)) ||| regBits rs

/-- An engine writes a token register of the C view (R182): a release at hall scope that the first read acquires. -/
def complete (s : State) (h a : Nat) (v : Word) : State :=
  let r : Reg := Fin.ofNat 64 a
  s.updHall h fun x => { x with c := x.c.setReg r v, pend := x.pend &&& ~~~ regBits [r], fresh := x.fresh ||| regBits [r] }

/-- A CTXSV receives its status, where the instance that issued it still has its hall (R420). -/
def statusOf (n : Nat × Nat × TaskId × Bool) (v : Word) (s : State) : State :=
  if n.1 < 48 ∧ (s.hall n.1).bind.isSome then complete s n.1 n.2.1 v else s

/-! ## Termination and fences (R407, R409) -/

/-- R407. `code` is the INFO of the TERMINATED record. -/
def terminate (s : State) (ctx : Word) (code : Nat) : State :=
  match s.ctx? ctx with
  | none => s
  | some c =>
    let waiting := (s.tasks.filter (fun t => t.id.ctx == ctx)).flatMap (·.notify)
    -- 1: halls stop; every egress that has not left is discarded
    let s := { s with
      egress := s.egress.filter (fun e => e.ctx != ctx)
      squeezed := s.squeezed.filter (fun e => e.ctx != ctx)
      checks := s.checks.filter (fun k => k.ctx != ctx)
      sdecs := s.sdecs.filter (fun j => j.ctx != ctx)
      sencs := s.sencs.filter (fun j => j.ctx != ctx)
      sigs := s.sigs.filter (fun j => j.ctx != ctx)
      pmovs := s.pmovs.filter (fun j => s.ctxOf j.hall != ctx)
      arrays := s.arrays.filter (fun j => j.ctx != ctx)
      sends := s.sends.filter (fun p => p.2.ctx != ctx)
      firing := s.firing.filter (fun p => s.ctxOf p.1 != ctx)
      -- 2: tasks retire without DN
      tasks := s.tasks.filter (fun t => t.id.ctx != ctx)
      walks := s.walks.filter (fun w => w.task.ctx != ctx)
      groups := s.groups.filter (fun g => g.1.ctx != ctx)
      saves := s.saves.filter (fun v => v.ctx != ctx)
      bars := s.bars.filter (fun b => b.2.task.all (fun t => t.ctx != ctx))
      caches := s.caches.map (fun g => (g.1, g.2.filter (fun k => k.ctx != ctx))) }
    -- 3: each hall is scrubbed
    let s := (hallsOf s ctx).foldl scrubHall s
    -- 4: sessions close, keys are destroyed, spills retire
    let s := c.sessions.foldl (fun s x => closeSession s c x true) s
    let s := (c.kd :: c.domains.map (·.kd)).foldl dropDomain s
    let s := { s with ctxs := mdel s.ctxs ctx.toNat }
    -- a CTXSV whose save is abandoned ends with FINAL (log 16)
    let s := waiting.foldl (fun s n => statusOf n 0x0500000000000000 s) s
    -- 5
    writeEvent s ⟨Cause.terminated.code, 3, 63, 0, 0, 0, 0, 0, BitVec.ofNat 64 code, 0, ctx, []⟩

/-- A hall is fenced (R409): out of service until reset, counted, and recorded. -/
def fenceHall (s : State) (h : Nat) (ctx : Word) (va : Nat) : State :=
  if (s.hall h).res = .fenced then s else
  let s := leaveJobs s h
  let s := { s.setHall h { Hall.reset with res := .fenced, split := (s.hall h).split } with
    fences := s.fences + 1
    pmovs := s.pmovs.filter (fun j => j.hall != h)
    sends := s.sends.filter (fun p => p.1 != h)
    firing := s.firing.filter (fun p => p.1 != h) }
  writeEvent s ⟨Cause.fenced.code, 4, h, 0, 0, 0, 0, 0, BitVec.ofNat 64 h, addrWord va, ctx, []⟩

/-- The halls of a task's instances that have not retired, with their instance numbers. -/
def Task.live (t : Task) : List (Nat × Nat) := t.granted.zipIdx.filter (fun p => !(t.retired.getD p.2 false))

/-- The halls that a task occupies. -/
def Task.onHalls (t : Task) : List Nat := t.live.map (·.1)

/-- Stopped and held on its halls (R403); a task held during BINDING stops as it starts (R131). -/
def Task.stopped (t : Task) : Bool := t.held && t.state == .frozen

/-- A waiting full/empty request of a hall is withdrawn; its word is issued again (R357). -/
def cancelWait (s : State) (h : Nat) : State :=
  if (s.hall h).wait = .fe then
    let s := { s with halls := s.halls.map (fun (p : Nat × Hall) => (p.1, { p.2 with feq := p.2.feq.filter (fun w => w.hall != h) })) }
    s.updHall h fun x => { x with wait := .none }
  else s.updHall h fun x => { x with horizon := none }

/-! ## Freezes, escalation and precise traps (R400 to R403) -/

/-- The bits of a merge run: bit k is choice k, 1 for B (R392). -/
def runBits : List Bool → Nat
  | [] => 0
  | a :: l => b2n (!a) + 2 * runBits l

/-- A merge switch's key in its hall: its box, output port and track. -/
def swKey (x y port track : Nat) : Nat := ((8 * x + y) * 5 + port) * 4 + track

/-- The record of a merge switch's run (R167, R392). -/
def runEvent (h key : Nat) (run : List Bool) : LogEv :=
  let box := key / 20
  ⟨0x5000 + 80 * h + box, srcOf h (box / 8) (box % 8), 4, 0,
    key / 4 % 5 * 1024 + key % 4 * 256 + run.length, BitVec.ofNat 64 (runBits run)⟩

/-- Write one partial merge run in RECORD, using the reserved records when `reserve` is 0 (R167, R394); a run that finds
no record stays. -/
def flushRun (reserve : Word) (h : Nat) (s : State) (key : Nat) : State :=
  let m := mget (s.hall h).merges key default
  match s.ctx? (s.ctxOf h) with
  | none => s
  | some c =>
    if m.run = [] ∨ c.mirror.mode ≠ .record then s
    else match mirrorAppend s c (runEvent h key m.run) reserve with
      | .go s => s.updHall h fun x => { x with merges := mset x.merges key { m with run := [], owed := false } }
      | .stall s => s.updHall h fun x => { x with merges := mset x.merges key { m with owed := true } }
      | .diverge _ s => s

/-- Write every partial merge run of a hall (R167). -/
def flushRuns (s : State) (h : Nat) : State :=
  ((s.hall h).merges.map (·.1)).foldl (flushRun 0 h) s

/-- No partial run is left. -/
def Hall.runsWritten (x : Hall) : Bool := x.merges.all (fun p => p.2.run == [])

/-- The instance's task stops with all its halls and is held (R403 steps 1 and 3). -/
def holdTask (s : State) (h : Nat) : State :=
  match (s.hall h).bind with
  | none => s
  | some b =>
    match s.task? b.task with
    | none => s.updHall h fun x => { x with held := true }
    | some t =>
      let s := s.updTask b.task fun t => { t with
        state := if t.state = .dispatched then .dispatched else .frozen
        held := true, preempting := t.preempting && t.notify != [] }
      (h :: t.granted).foldl (fun s g =>
        if (s.hall g).bind.map (·.task) == some b.task then
          (flushRuns (cancelWait s g) g).updHall g fun x => { x with held := true }
        else s) s

/-- Escalation (R403), with the record's KIND and unit fields. INTEG, and a cause named in `ctx.fpol`, terminate the
context. -/
def escalateEvent (s : State) (e : Event) (c : Cause) : State :=
  let fpol := match s.ctx? e.ctx with | some k => k.fpol | none => 0
  let s := writeEvent (holdTask s e.hall) e
  if c = .integ ∨ (1 ≤ c.code ∧ c.code ≤ 0x10 ∧ fpol.getLsbD c.code) then terminate s e.ctx c.code else s

/-- Escalation of a sequencer trap: KIND 0, WHERE = the trapped offset. -/
def escalate (s : State) (h : Nat) (c : Cause) (info : Word) (pc : Nat) : State :=
  escalateEvent s ⟨c.code, 0, h, 0, 0, 0, 0, 0, info, BitVec.ofNat 64 pc, s.ctxOf h, []⟩ c

/-- The record of a fault of the fabric: KIND 1, WHERE = the task record (R404). -/
def freezeEvent (s : State) (h x y slot chan tix : Nat) (c : Cause) (info : Word) (detail : List Word) : Event :=
  let va := match (s.hall h).bind with | some b => b.task.va | none => 0
  ⟨c.code, 1, h, x, y, slot, chan, tix, info, addrWord va, s.ctxOf h, detail⟩

/-- A fault of the fabric freezes its hall (R403). -/
def freeze (s : State) (h x y slot chan tix : Nat) (c : Cause) (info : Word) (detail : List Word) : State :=
  escalateEvent s (freezeEvent s h x y slot chan tix c info detail) c

/-- A STREAM freeze, with the case that breaks the stream (R62, R216, R332): the hall keeps it, for R404's record has no
field for it (log 48). -/
def streamFreeze (s : State) (h x y slot chan tix : Nat) (c : StreamCase) (detail : List Word) : State :=
  freeze (s.updHall h fun k => { k with streamCase := some c }) h x y slot chan tix .stream 0 detail

/-- Every hall of a context freezes (R396); one record names the first. -/
def freezeContext (s : State) (ctx : Word) (c : Cause) (info : Word) : State :=
  (hallsOf s ctx).foldl (fun s h => if (s.hall h).held then s else freeze s h 0 0 0 0 0 c info []) s

/-! ## Logged events under the Mirror (R373, R395, R396) -/

/-- A record whose NODE names no place (R391). -/
def badNode (s : State) (c : Ctx) (i : Word) : Bool :=
  (ringRead s c i).any (fun r => !nodeUsable (nbits (r.getD 1 0).toNat 48 16))

/-- The unit a place belongs to, as hall, column and row (R391): a bank port's facet, a merge switch's box, a mark node's
sequencer; a place that is no part of a hall acts through the source of the event it holds (log 31); none for a Landing. -/
def placeUnit (node src : Nat) : Option (Nat × Nat × Nat) :=
  let n := node % 4096
  match node / 4096 with
  | 3 => some (n / 48, 1 + n % 48 / 8, n % 8)
  | 5 => some (n / 80, n % 80 / 8, n % 8)
  | 6 => none
  | 9 => some (n, 8, 7)
  | _ => if src / 1024 < 48 then some (src / 1024, src / 8 % 16, src % 8) else none

/-- MRDIV at a place (R396): its hall freezes, or for a Landing every hall of the context. -/
def placeDiverges (s : State) (ctx : Word) (node src : Nat) (i : Word) : State :=
  match placeUnit node src with
  | some (h, x, y) => if (s.hall h).held then s else freeze s h x y 0 0 0 .mrdiv i []
  | none => freezeContext s ctx .mrdiv i

/-- REPLAY's rule for one event (R395). A malformed record freezes (R396): every hall where its NODE is unusable, else the
hall of the place that reads it. -/
def mirrorReplay (s : State) (c : Ctx) (e : LogEv) : LogOut :=
  match findOwn s c e.node e.src c.mirror.window c.mirror.tail with
  | .none => .stall (placeStalls s c e.node e.src)
  | .bad i =>
    if badNode s c i then .stall (freezeContext s c.id .mrdiv i) else .stall (placeDiverges s c.id e.node e.src i)
  | .own i r =>
    if r.getD 2 0 != (e.words i 0).getD 2 0 || r.getD 3 0 != e.data then .diverge i s
    else if nbits (r.getD 1 0).toNat 0 32 == c.mirror.seq e.node then .go (consumeRecord s c e.node i)
    else .stall (placeStalls s c e.node e.src)

/-- Resolve a logged event of a context under its Mirror mode. -/
def logEvent (s : State) (ctx : Word) (e : LogEv) : LogOut :=
  match s.ctx? ctx with
  | none => .go s
  | some c =>
    match c.mirror.mode with
    | .off => .go s
    | .record => mirrorAppend s c e 64
    | .replay => mirrorReplay s c e

/-- A logged event of a sequencer instruction: a stall waits, a divergence is MRDIV (R396). -/
def logged {α : Type} (s : State) (ctx : Word) (e : LogEv) (k : State → Res α) : Res α :=
  match logEvent s ctx e with
  | .go s => k s
  | .stall s => .wait s
  | .diverge i s => .trap .mrdiv i s

/-! ## Precise traps (R400) -/

/-- Handler offset of `trap.vec`. -/
def TrapRegs.handler (t : TrapRegs) : Nat := nbits t.vec.toNat 3 14 * 8

/-- A GBAR that traps while it waits is not performed (R417): its arrival is withdrawn. -/
def leaveBarrier (s : State) (h : Nat) : State :=
  match (s.hall h).wait, (s.hall h).bind with
  | .gbar, some b => { s with bars := s.bars.map (fun (u : Nat × BarUnit) =>
      if u.2.task = some b.task then (u.1, { u.2 with arrived := u.2.arrived.filter (fun a => a.1 != b.inst) }) else u) }
  | _, _ => s

/-- TAKING AN EXCEPTION (R400): a precise trap of cause `c` at offset `pc` of hall `h`. The local handler is entered,
or the trap escalates. -/
def raise (s : State) (h : Nat) (c : Cause) (info : Word) (pc : Nat) : State :=
  let s := cancelWait (leaveBarrier s h) h
  let x := s.hall h
  if c ≠ .integ ∧ x.trap.vec.getLsbD 0 ∧ x.trap.act = false ∧ x.trap.handler < x.length then
    s.setHall h (Hall.syncAu { x with
      trap := { x.trap with cause := BitVec.ofNat 64 c.code, info := info, pc := BitVec.ofNat 17 pc, act := true,
                            frz := c = .wdog }
      hold := x.hold || c = .wdog
      wait := .none
      pc := x.trap.handler })
  else escalate (s.setHall h (Hall.syncAu { x with wait := .none })) h c info pc

/-- THE RETURN FROM AN EXCEPTION (R401), once ACT has been checked: restart at `t`, the trap state cleared and the
fabric hold ended. A target that R197 forbids traps while ACT is still set, and so escalates. -/
def returnFrom (s : State) (h t : Nat) : State :=
  let x := s.hall h
  if t % 8 ≠ 0 then raise s h .align (addrWord 0) x.pc
  else if x.length ≤ t then raise s h .access 0 x.pc
  else
    s.setHall h (Hall.syncAu { x with trap := { x.trap with act := false, frz := false }, hold := false
                                      wdogFired := false, pc := t })

/-- `ERET.esc` (R401): the trap goes on to escalation with `trap.pc` as it stands; execution restarts at the word that
holds `trap.pc`, for the PC is always a multiple of 8 (R70; log 29). -/
def returnEscalate (s : State) (h : Nat) : State :=
  let x := s.hall h
  let pc := x.trap.pc.toNat
  let s := s.setHall h (Hall.syncAu { x with trap := { x.trap with act := false }, hold := false, pc := pc / 8 * 8 })
  let c := (Cause.all.find? (fun c => c.code == x.trap.cause.toNat)).getD .ill
  escalateEvent s ⟨x.trap.cause.toNat, 0, h, 0, 0, 0, 0, 0, x.trap.info, BitVec.ofNat 64 pc, s.ctxOf h, []⟩ c

/-! ## The end of a hall's binding -/

/-- Requests of other halls that wait at a hall's bank ports raise ACCESS when it leaves its binding (R252, R357). -/
def evictWaiters (s : State) (t : Nat) : State :=
  ((s.hall t).feq.filter (fun w => w.hall != t)).foldl
    (fun s w => raise s w.hall .access (addrWord w.va) (s.hall w.hall).pc) s

/-- A hall leaves its binding and becomes IDLE, or FENCED where it is (R143, R155, R327). -/
def unbindHall (s : State) (h : Nat) : State :=
  let s := leaveJobs (evictWaiters s h) h
  let x := s.hall h
  { s.setHall h { x.endBinding with res := if x.res = .fenced then .fenced else .idle } with
    firing := s.firing.filter (fun p => p.1 != h) }

end Sys2Proof.Machine
end

