-- ==== Sys2Proof/Machine/Admission.lean ====
section
/-! DEFINITION. Kernel images and their admission (spec/02 R34 to R37, spec/06 R149 to R152, spec/07 R161 to R170 and
R177, spec/11 R291, spec/12 R320, spec/13 R338). -/

namespace Sys2Proof.Machine

/-! ## The grid (R17) -/

inductive NodeKind
  | mp | ag | prism | seq | ce
  | facet (n : Nat)
  | mx (m : Nat) (main : Bool)
  deriving DecidableEq, Repr, Inhabited

def nodeAt (x y : Nat) : NodeKind :=
  if x = 0 then (if y % 2 = 0 then .mp else .ag)
  else if x ≤ 6 then .facet ((x - 1) * 8 + y)
  else if x = 7 then .prism
  else if y < 6 then .mx (y / 2) (x == 8 && y % 2 == 0)
  else if y = 6 then .ag
  else if x = 8 then .seq else .ce

/-- Input channels of a node from the mesh (R161). -/
def hasIn (split : Nat) (k : NodeKind) : Bool :=
  match k with
  | .facet n => split ≤ n
  | .ce => false
  | .mx _ main => main
  | _ => true

/-- Whether output channel `c` leaves a node. -/
def hasOut (split : Nat) (k : NodeKind) (c : Nat) : Bool :=
  match k with
  | .mx _ main => main && c == 0
  | k => hasIn split k

/-- The neighbour through a mesh port, and the port by which it is entered. Ports: 0 N, 1 E, 2 S, 3 W. -/
def neighbour (x y p : Nat) : Option (Nat × Nat × Nat) :=
  match p with
  | 0 => if y < 7 then some (x, y + 1, 2) else none
  | 1 => if x < 9 then some (x + 1, y, 3) else none
  | 2 => if 0 < y then some (x, y - 1, 0) else none
  | 3 => if 0 < x then some (x - 1, y, 1) else none
  | _ => none

/-! ## Reading an image -/

/-- Little-endian value of `n` bytes of an image at an offset; bytes beyond it read 0. -/
def imgVal (ws : List Word) (off : Nat) : Nat → Nat
  | 0 => 0
  | n + 1 => nbits (ws.getD (off / 8) 0).toNat (8 * (off % 8)) 8 + 256 * imgVal ws (off + 1) n

/-- A section-table entry before its checks. -/
structure SecEntry where
  type : Nat
  inst : Nat
  node : Nat
  res : Nat
  off : Nat
  len : Nat
  deriving DecidableEq, Repr

def secEntry (ws : List Word) (i : Nat) : SecEntry :=
  let o := 64 + 16 * i
  ⟨imgVal ws o 1, imgVal ws (o + 1) 1, imgVal ws (o + 2) 1, imgVal ws (o + 3) 1 + imgVal ws (o + 12) 4,
   imgVal ws (o + 4) 4, imgVal ws (o + 8) 4⟩

/-- The words of a section. -/
def secBody (ws : List Word) (e : SecEntry) : List Word := (ws.drop (e.off / 8)).take (e.len / 8)

/-- R34 (step 3 of R150). -/
def headerOk (ws : List Word) : Bool :=
  let size := imgVal ws 8 4
  let split := imgVal ws 0x10 1
  let hmin := imgVal ws 0x11 1
  let hmax := imgVal ws 0x12 1
  imgVal ws 0 4 == 0x454B3244 && imgVal ws 4 2 == 2 && 1 ≤ imgVal ws 6 2 && imgVal ws 6 2 ≤ 255
  && size % 64 == 0 && size ≤ 0x100000 && imgVal ws 0xC 4 < 8
  && (split == 0 || split == 8 || split == 12 || split == 16)
  && 1 ≤ hmin && hmin ≤ 6 && hmin ≤ hmax && hmax ≤ 6 && imgVal ws 0x13 13 == 0

/-- The image's bytes with DIGEST taken as zero. -/
def imgBytes (ws : List Word) : List Byte :=
  wordsBytes ((ws.take 4) ++ [0, 0, 0, 0] ++ ((ws.take (imgVal ws 8 4 / 8)).drop 8))

def imgDigest (ws : List Word) : Digest := BitVec.ofNat 256 (imgVal ws 0x20 32)

/-- Positions of a node byte. -/
def nodeX (n : Nat) : Nat := n / 16
def nodeY (n : Nat) : Nat := n % 16

/-- NODE and LENGTH rules of the section types (R35), under the split that applies. -/
def secTypeOk (split : Nat) (e : SecEntry) : Bool :=
  let k := nodeAt (nodeX e.node) (nodeY e.node)
  let onGrid := nodeX e.node ≤ 9 && nodeY e.node ≤ 7
  let scratchFacet := onGrid && (match k with | .facet n => decide (split ≤ n) | _ => false)
  let mult (n : Nat) : Bool := 1 ≤ e.len && e.len % n == 0
  match e.type with
  | 1 => onGrid && k == .seq && mult 8 && e.len ≤ 65536
  | 2 => scratchFacet && e.len == 128
  | 3 => scratchFacet && e.len == 32
  | 4 => e.node == 0xFF && mult 16
  | 5 => e.node == 0xFF && mult 8
  | 6 => onGrid && k == .ag && mult 8
  | 7 => onGrid && (k == .prism || k == .mp) && mult 8
  | 8 => onGrid && (match k with | .mx _ main => main | _ => false) && mult 8
  | 9 => e.node == 0xFF && mult 8
  | 10 => e.node == 0xFF && mult 16
  | 11 => e.node == 0xFF && mult 8 && 16 ≤ e.len
  | _ => false

/-- Two sections of a list clash (R35). -/
def secClash (ws : List Word) (a b : SecEntry) : Bool :=
  let share := a.inst &&& b.inst != 0
  (a.off < b.off + b.len && b.off < a.off + a.len)
  || (a.type == b.type && a.node == b.node && share && a.type != 11)
  || (a.type == 11 && b.type == 11 && share
      && (let oa := imgVal ws a.off 8
          let ob := imgVal ws b.off 8
          oa < ob + (b.len - 8) && ob < oa + (a.len - 8)))

def anyClash (ws : List Word) : List SecEntry → Bool
  | [] => false
  | e :: es => es.any (secClash ws e) || anyClash ws es

/-- R36: bit j of halfword i equals bit i of halfword j. -/
def symmetric (ws : List Word) (off : Nat) : Bool :=
  (List.range 16).all (fun i => (List.range 16).all (fun j =>
    nbit (imgVal ws (off + 2 * i) 2) j == nbit (imgVal ws (off + 2 * j) 2) i))

/-- The split under which CFGLD judges node kinds (R37). -/
def judgedSplit (ws : List Word) : Nat := if imgVal ws 0x10 1 = 0 then 8 else imgVal ws 0x10 1

/-- R35 to R37 (step 5 of R150). A scratch-data section stores words, so an offset that is no multiple of 4 is refused too
(log 52). -/
def sectionsOk (ws : List Word) (es : List SecEntry) : Bool :=
  let size := imgVal ws 8 4
  let hmax := imgVal ws 0x12 1
  let split := judgedSplit ws
  es.all (fun e => e.res == 0 && e.inst < 2 ^ hmax && e.off % 64 == 0 && secTypeOk split e && e.off + e.len ≤ size
    && 64 + 16 * es.length ≤ e.off
    && (e.type != 3 || symmetric ws e.off)
    && (e.type != 11 || (imgVal ws e.off 8 % 4 == 0 && imgVal ws e.off 8 + (e.len - 8) ≤ (48 - split) * 65536)))
  && !anyClash ws es

/-! ## Routes (R162, R163, R168, R170) -/

def routeOf (inst : Nat) (w : Word) : Route :=
  let n := w.toNat
  { inst := inst, x := nbits n 60 4, y := nbits n 56 4, ipA := nbits n 53 3, itA := nbits n 51 2, op := nbits n 48 3,
    otr := nbits n 46 2, mrg := nbit n 45, ipB := nbits n 42 3, itB := nbits n 40 2,
    swm := BitVec.ofNat 8 (nbits n 32 8), arb := nbits n 30 2, fib := nbit n 29, lns := nbit n 28 }

/-- Every second word of a section. -/
def evens : List Word → List Word
  | a :: _ :: l => a :: evens l
  | l => l

def odds : List Word → List Word
  | _ :: b :: l => b :: odds l
  | _ => []

def ctlOf (inst : Nat) (w : Word) : CtlRoute :=
  let n := w.toNat
  { inst := inst, x := nbits n 60 4, y := nbits n 56 4, ipA := nbits n 53 3, ilA := nbits n 52 1, op := nbits n 49 3,
    oln := nbits n 48 1, mrg := nbit n 47, ipB := nbits n 44 3, ilB := nbits n 43 1 }

/-- Field limits of a route word (R162). -/
def routeFields (w : Word) (r : Route) : Bool :=
  r.x ≤ 9 && r.y ≤ 7 && r.ipA ≤ 4 && r.op ≤ 4 && r.ipB ≤ 4 && r.arb ≤ 2 && nbits w.toNat 0 28 == 0
  && (r.mrg || (r.ipB == 0 && r.itB == 0 && r.arb == 0 && !r.fib))

def ctlFields (w : Word) (r : CtlRoute) : Bool :=
  r.x ≤ 9 && r.y ≤ 7 && r.ipA ≤ 4 && r.op ≤ 4 && r.ipB ≤ 4 && nbits w.toNat 0 43 == 0
  && (r.mrg || (r.ipB == 0 && r.ilB == 0))

/-- What the rules of R163 need of a route of either net: its box, its inputs, its output, the lens mark. -/
structure Seg where
  x : Nat
  y : Nat
  ins : List (Nat × Nat)
  op : Nat
  ot : Nat
  mrg : Bool
  lns : Bool
  deriving DecidableEq, Repr

def Route.seg (r : Route) : Seg :=
  ⟨r.x, r.y, (r.ipA, r.itA) :: (if r.mrg then [(r.ipB, r.itB)] else []), r.op, r.otr, r.mrg, r.lns⟩

def CtlRoute.seg (r : CtlRoute) : Seg :=
  ⟨r.x, r.y, (r.ipA, r.ilA) :: (if r.mrg then [(r.ipB, r.ilB)] else []), r.op, r.oln, r.mrg, false⟩

/-- The entries that take what a segment puts out. -/
def Seg.next (all : List Seg) (g : Seg) : List Seg :=
  match neighbour g.x g.y g.op with
  | some (x, y, p) => all.filter (fun k => k.x == x && k.y == y && k.ins.contains (p, g.ot))
  | none => []

/-- The entries that drive an input of a segment. -/
def Seg.prev (all : List Seg) (g : Seg) : List Seg := all.filter (fun k => (k.next all).contains g)

/-- Entries reachable in `n` hops. -/
def segReach (all : List Seg) : Nat → List Seg → List Seg
  | 0, gs => gs
  | n + 1, gs => segReach all n (gs ++ (gs.flatMap (Seg.next all)).filter (fun k => !gs.contains k)).eraseDups

/-- A port of a box that leads somewhere, or a node channel the node has. -/
def portOk (split : Nat) (ctl out : Bool) (x y p c : Nat) : Bool :=
  if p = 4 then
    let k := nodeAt x y
    if ctl then hasIn split k else if out then hasIn split k else hasOut split k c
  else (neighbour x y p).isSome

/-- R163 on the routes of one instance, for the mesh or the control net. -/
def netOk (split : Nat) (ctl : Bool) (all : List Seg) : Bool :=
  all.all (fun g =>
    portOk split ctl true g.x g.y g.op g.ot && g.ins.all (fun i => portOk split ctl false g.x g.y i.1 i.2)
    && (all.filter (fun k => k.x == g.x && k.y == g.y && k.op == g.op && k.ot == g.ot)).length ≤ 1
    && g.ins.all (fun i => (all.filter (fun k => k.x == g.x && k.y == g.y && k.ins.contains i)).length ≤ 4)
    && (g.op == 4 || !(g.next all).isEmpty)
    && g.ins.all (fun i => i.1 == 4 ||
        (match neighbour g.x g.y i.1 with
         | some (x, y, p) => all.any (fun k => k.x == x && k.y == y && k.op == p && k.ot == i.2)
         | none => false))
    && !(segReach all all.length (g.next all)).contains g)

/-- No merge lies on a path that ends at a matrix node's control port. -/
def controlPortOk (all : List Seg) : Bool :=
  all.all (fun g =>
    let ends := g.op == 4 && g.ot == 0 && (match nodeAt g.x g.y with | .mx _ main => main | _ => false)
    !ends || (all.filter (fun k => k == g || (segReach all all.length (k.next all)).contains g)).all (fun k => !k.mrg))

/-- R168: a path with LNS set stays set to its end, at an operand port or a facet, and starts so except at a merge. -/
def lensOk (all : List Seg) : Bool :=
  all.all (fun g => !g.lns ||
    ((g.next all).all (·.lns)
     && (g.op != 4 || (match nodeAt g.x g.y with
          | .mx _ main => main && (g.ot == 1 || g.ot == 2)
          | .facet _ => true
          | _ => false))
     && (let ps := g.prev all
         if g.mrg then ps.isEmpty || ps.any (·.lns) || g.ins.any (fun i => i.1 == 4) else ps.all (·.lns))))

/-! ## The other sections checked at step 6 -/

/-- Epilogue bindings (R320). -/
def epiOk (b : List Word) : Bool :=
  b.all (fun w => nbits w.toNat 0 53 == 0 && nbits w.toNat 56 8 != 0)
  && (b.map (fun w => nbits w.toNat 56 8)).dedup.length == b.length

/-- Readout entries (R177). -/
def readoutOk (split : Nat) (exempt : Bool) (b : List Word) : Bool :=
  b.all (fun w =>
    let n := w.toNat
    let x := nbits n 60 4
    let y := nbits n 56 4
    let kind := nbits n 52 4
    let start := nbits n 34 14
    let last := nbits n 20 14
    let sel := nbits n 0 16
    let facet := match nodeAt x y with | .facet f => exempt || split ≤ f | _ => false
    x ≤ 9 && y ≤ 7 && nbits n 48 4 == 0 && nbits n 16 4 == 0
    && (match kind with
        | 1 => facet && start == 0 && last == 0 && sel < 256
        | 2 => facet && start ≤ last && sel == 0
        | 3 => (match nodeAt x y with | .mx _ main => main | _ => false) && start == 0 && last == 0
        | _ => false))

/-- The groups a section names. -/
def groupIds (b : List Word) : List Nat := (evens b).map (fun w => nbits w.toNat 0 6)

/-- Fields of multicast group entries (R291). -/
def groupsOk (hmax : Nat) (b : List Word) : Bool :=
  (odds b).all (· == 0)
  && (evens b).all (fun w => nbits w.toNat 14 50 == 0 && nbits w.toNat 6 2 == 0 && nbits w.toNat 8 6 < 2 ^ hmax)

/-- What R338 needs of an AG section, by the fields of its CTR and AGEN words, illegal ones among them: CFGLD decodes none
(R150). An LVL of 4 or more leaves no gap below it to judge: it is ILL at the install (R94, R336). -/
def agOk (b : List Word) : Bool :=
  let lvl (w : Word) : Nat := nbits w.toNat 44 4
  let ctrs := b.filter (fun w => nbits w.toNat 56 8 == 0xC8)
  let agens := b.filter (fun w => nbits w.toNat 56 8 == 0xC9)
  let named := ctrs.map lvl
  let low := named.filter (· < 4)
  1 ≤ ctrs.length && ctrs.length ≤ 4 && 1 ≤ agens.length && agens.length ≤ 4
  && named.dedup.length == named.length && (List.range low.length).all low.contains
  && ctrs.all (fun w => lvl w == named.foldl max 0 || nbits w.toNat 17 3 == 0)
  && (agens.map lvl).dedup.length == agens.length
  && agens.all (fun w => (List.range 4).all (fun k => !nbit w.toNat (23 + k) || named.contains (nbits w.toNat (27 + 2 * k) 2)))

/-- Step 6 of R150 on one section. -/
def bodyOk (split hmax : Nat) (exempt : Bool) (c : Section) : Bool :=
  match c.type with
  | 4 => (odds c.body).all (· == 0) && (evens c.body).all (fun w => routeFields w (routeOf c.inst w))
  | 5 => c.body.all (fun w => ctlFields w (ctlOf c.inst w))
  | 6 => agOk c.body
  | 7 => c.body.length == 1
  | 8 => epiOk c.body
  | 9 => readoutOk split exempt c.body
  | 10 => groupsOk hmax c.body
  | _ => true

/-- The admitted form of an image. -/
def kernelOf (ws : List Word) (es : List SecEntry) : Kernel :=
  let secs := es.map (fun e => (⟨e.type, e.inst, e.node, secBody ws e⟩ : Section))
  let flags := imgVal ws 0xC 4
  { lp := nbit flags 0, idle := nbit flags 1, frz := nbit flags 2, split := imgVal ws 0x10 1, hmin := imgVal ws 0x11 1,
    hmax := imgVal ws 0x12 1, size := imgVal ws 8 4, sections := secs,
    routes := (secs.filter (·.type == 4)).flatMap (fun c => (evens c.body).map (routeOf c.inst)),
    ctl := (secs.filter (·.type == 5)).flatMap (fun c => c.body.map (ctlOf c.inst)) }

/-- Step 6 of R150 on the whole image; a task has one group table, in which no two entries name one group (R291). -/
def configOk (ws : List Word) (k : Kernel) : Bool :=
  let split := judgedSplit ws
  let gids := (k.sections.filter (·.type == 10)).flatMap (fun c => groupIds c.body)
  k.sections.all (bodyOk split k.hmax (k.split == 0)) && gids.dedup.length == gids.length
  && (List.range k.hmax).all (fun i =>
    let rs := (k.routes.filter (fun r => nbit r.inst i)).map Route.seg
    let cs := (k.ctl.filter (fun r => nbit r.inst i)).map CtlRoute.seg
    netOk split false rs && controlPortOk rs && lensOk rs && netOk split true cs)

/-! ## Admission (R150) -/

/-- Whether a hall of the gallery is bound to a tag of a context. -/
def tagBound (s : State) (gal : Nat) (k : KConf) : Bool :=
  s.halls.any (fun p => galleryOf p.1 == gal && (match p.2.bind with
    | some b => b.task.ctx == k.ctx && b.tag == k.tag
    | none => false))

def cacheOf (s : State) (gal : Nat) : List KConf := mget s.caches gal []

/-- The least recently used of a list. -/
def oldest : List KConf → Option KConf
  | [] => none
  | k :: ks => match oldest ks with
    | some o => if o.used < k.used then some o else some k
    | none => some k

/-- Step 7: make room for `size` bytes in 2 MiB. -/
def makeRoom (s : State) (gal size : Nat) : Nat → List KConf → Option (List KConf)
  | 0, cs => if (cs.map (·.kernel.size)).foldl (· + ·) 0 + size ≤ 0x200000 then some cs else none
  | n + 1, cs =>
    if (cs.map (·.kernel.size)).foldl (· + ·) 0 + size ≤ 0x200000 then some cs
    else
      let free := cs.filter (fun k => !tagBound s gal k)
      match (match oldest (free.filter (·.released)) with | some k => some k | none => oldest free) with
      | some k => makeRoom s gal size n (cs.filter (· != k))
      | none => none

/-- The store entries of tags leave the nodes and boxes of a gallery's halls (R152): a tag may be given again. -/
def dropStores (s : State) (gal : Nat) (tags : List (BitVec 16)) : State :=
  if tags = [] then s
  else { s with halls := s.halls.map (fun (p : Nat × Hall) => if galleryOf p.1 ≠ gal then p else (p.1, { p.2 with
    stores := p.2.stores.map (fun q => (q.1, q.2.filter (fun e => !tags.contains e.tag))) })) }

def lowestFree (used : List Nat) (lo n : Nat) : Option Nat :=
  ((List.range n).map (· + lo)).find? (fun v => !used.contains v)

/-- Steps 1 to 9 of R150: the tag, or the cause and the step that failed. -/
def admitKernel (s : State) (ctx : Word) (gal kidx : Nat) : Except (Cause × Nat) (BitVec 16 × State) :=
  match s.ctx? ctx with
  | none => .error (.kadmit, 2)
  | some c =>
    let cs := cacheOf s gal
    let use (s : State) (cs : List KConf) : State := { s with caches := mset s.caches gal cs, ids := s.ids + 1 }
    match cs.find? (fun k => k.ctx == ctx && k.kidx == kidx && !k.released) with
    | some k => .ok (k.tag, use s (cs.map (fun j => if j == k then { j with used := s.ids } else j)))
    | none =>
      match c.library[kidx]? with
      | none => .error (.kadmit, 2)
      | some img =>
        let ws := img.words
        if !headerOk ws then .error (.cfg, 3)
        else if Config.shake256 (imgBytes ws) ≠ imgDigest ws ∨ imgDigest ws ≠ img.digest then .error (.kadmit, 4)
        else
          let es := (List.range (imgVal ws 6 2)).map (secEntry ws)
          if !sectionsOk ws es then .error (.cfg, 5)
          else
            let k := kernelOf ws es
            if !configOk ws k then .error (.cfg, 6)
            else
              match makeRoom s gal k.size cs.length cs with
              | none => .error (.cfg, 7)
              | some kept =>
                let s := dropStores s gal ((cs.filter (fun k => !kept.contains k)).map (·.tag))
                let cs := kept
                let taken := s.ctxs.filterMap (fun p => if p.2.id == ctx then none else mfind p.2.tags gal)
                let ctag := match mfind c.tags gal with | some t => some t | none => lowestFree taken 0 256
                match ctag with
                | none => .error (.cfg, 8)
                | some t =>
                  match lowestFree ((cs.filter (fun k => k.tag.toNat / 256 == t)).map (fun k => k.tag.toNat % 256)) 1 255 with
                  | none => .error (.cfg, 8)
                  | some v =>
                    let tag := BitVec.ofNat 16 (t * 256 + v)
                    let s := s.setCtx { c with tags := mset c.tags gal t }
                    .ok (tag, use s (cs ++ [⟨ctx, kidx, tag, k, false, s.ids⟩]))

/-- `trap.info` of a failed admission (R150). -/
def admitInfo (step kidx : Nat) : Word := BitVec.ofNat 64 (step + kidx * 65536)

/-- The configuration with a tag in a gallery. -/
def findConf (s : State) (gal : Nat) (tag : BitVec 16) : Option KConf := (cacheOf s gal).find? (fun k => k.tag == tag)

/-- The cache and store entries of a released configuration are freed when the last hall leaves it (R152). -/
def freeReleased (s : State) (gal : Nat) : State :=
  let free (k : KConf) : Bool := k.released && !tagBound s gal k
  dropStores { s with caches := mset s.caches gal ((cacheOf s gal).filter (fun k => !free k)) } gal
    (((cacheOf s gal).filter free).map (·.tag))

end Sys2Proof.Machine
end

