-- ==== Sys2Proof/Machine/Operands.lean ====
section
/-! DEFINITION. What a unit reads before it acts: the words of its configuration (spec/04 R93, R94). -/

namespace Sys2Proof.Machine

/-- The instruction a unit of a kind reads from a word: a word that does not decode, or that belongs to another kind
of unit, is none (R93). -/
def fetchFor (k : UnitKind) (w : Word) : Option Instr :=
  match decode w.toNat with
  | .ok i => if i.unit = some k then some i else none
  | .error _ => none

/-- The word at a code offset of a hall. -/
def codeAt (x : Hall) (off : Nat) : Word := x.code.getD (off / 8) 0

/-- Opcode field of a word. -/
def opOf (w : Word) : Word := w >>> 56

/-! ## Token headers (R210) -/

def hdrKind (h : BitVec 16) : Nat := nbits h.toNat 14 2
def hdrTag (h : BitVec 16) : Nat := nbits h.toNat 12 2
/-- Element width in bits. -/
def hdrWid (h : BitVec 16) : Nat := 8 * 2 ^ nbits h.toNat 10 2
/-- Number of elements, LEN + 1. -/
def hdrLen (h : BitVec 16) : Nat := nbits h.toNat 7 3 + 1
def hdrLvl (h : BitVec 16) : Nat := nbits h.toNat 4 3
def hdrLot (h : BitVec 16) : Bool := h.getLsbD 3

/-- A header from its fields: kind, tag, width code, length, level, last-of-tile. -/
def mkHdr (kind tag wid len lvl : Nat) (lot : Bool) : BitVec 16 :=
  BitVec.ofNat 16 (kind * 2 ^ 14 + tag * 2 ^ 12 + wid * 2 ^ 10 + (len - 1) * 2 ^ 7 + lvl * 2 ^ 4 + b2n lot * 8)

/-- The code of an element width. -/
def widCode (w : Nat) : Nat := if w = 8 then 0 else if w = 16 then 1 else if w = 32 then 2 else 3

/-- Payload bits of a token: stop and done tokens have none (R211). -/
def payBits (h : BitVec 16) : Nat := if hdrKind h % 2 = 0 then hdrLen h * hdrWid h else 0

/-- The low `n` bits of a payload. -/
def cutPay (n : Nat) (p : BitVec 256) : BitVec 256 := BitVec.ofNat 256 (p.toNat % 2 ^ n)

/-- Element `k` of a payload of `w`-bit elements. -/
def payElem (w : Nat) (p : BitVec 256) (k : Nat) : Nat := nbits p.toNat (k * w) w

/-- Pack elements of `w` bits into a payload, the first lowest. -/
def packElems (w : Nat) : List Nat → Nat
  | [] => 0
  | e :: es => e % 2 ^ w + 2 ^ w * packElems w es

/-- The elements of a payload. -/
def payElems (h : BitVec 16) (p : BitVec 256) : List Nat := (List.range (hdrLen h)).map (payElem (hdrWid h) p)

/-- A token a hall produces. -/
def Hall.token (x : Hall) (h : BitVec 16) (p : BitVec 256) (lens : Bool) : Token :=
  ⟨h, cutPay (payBits h) p, lens, x.tag, false⟩

/-- A header that breaks R210, R211 or, for a scale header, R61. -/
def hdrBad (h : BitVec 16) : Bool :=
  nbits h.toNat 0 3 != 0 ||
    (match hdrKind h with
     | 0 => (hdrWid h == 64 && decide (4 < hdrLen h)) || hdrLvl h != 0
     | 1 => hdrWid h != 8 || hdrLen h != 1
     | 2 => hdrWid h != 8 || 1 < hdrLvl h
     | _ => hdrWid h != 8 || hdrLen h != 1 || hdrLvl h != 0 || hdrLot h)

/-! ## Facet operands (R82, R213, R214) -/

/-- The firing's shape (R213). -/
structure Shape where
  w : Nat
  n : Nat
  tag : Nat
  lot : Bool
  deriving DecidableEq, Repr

/-- The image of an element register that holds nothing for MERGE (R238). -/
def emptyMark : BitVec 16 := 0xFFFF

/-- The token a source names: an element register or the head of an input channel. -/
def Facet.tok (F : Facet) (o : Opnd) : Option EReg :=
  match o with
  | .e k => F.e[k.val]?
  | .deq k | .peek k => (lget F.ins k.val).head?.map (fun t => ⟨t.hdr, t.pay, t.lens⟩)
  | _ => none

/-- The lead source's token. -/
def Facet.lead (F : Facet) (srcs : List Opnd) : Option EReg := (srcs.filterMap F.tok).head?

def EReg.shape (t : EReg) : Shape := ⟨hdrWid t.hdr, hdrLen t.hdr, hdrTag t.hdr, hdrLot t.hdr⟩

def isData (t : EReg) : Bool := hdrKind t.hdr == 0

/-- The shape of a firing; `w0` is the width of its default shape. -/
def Facet.shape (F : Facet) (srcs : List Opnd) (w0 : Nat) : Shape :=
  match F.lead srcs with
  | some t => t.shape
  | none => ⟨w0, if w0 = 64 then 4 else 8, 0, false⟩

/-- CHAN and TIX of a source (R216). -/
def Facet.place (F : Facet) (o : Opnd) : Nat × Nat :=
  match o with
  | .deq k | .peek k => (k.val, lget F.delivered k.val)
  | _ => (0, 0)

/-- Token sources with their operands. -/
def Facet.tokens (F : Facet) (srcs : List Opnd) : List (Opnd × EReg) :=
  srcs.filterMap (fun o => (F.tok o).map (fun t => (o, t)))

/-- What a STREAM freeze names: CHAN, TIX and the case (R216, R332). -/
abbrev Breach := Nat × Nat × StreamCase

/-- The breach at a source. -/
def Facet.breach (F : Facet) (c : StreamCase) (o : Opnd) : Breach := ((F.place o).1, (F.place o).2, c)

/-- A STREAM case of R216 among a firing's sources. `fw` is the width of the format in FN, where one is named. DESIGN CHOICE
(log 77): where one firing meets several cases, the empty mark is named first, for such a register holds no token, then
shape, width and kind, and within a case the first source. -/
def Facet.streamFault (F : Facet) (srcs : List Opnd) (fw : Option Nat) : Option Breach :=
  let ts := F.tokens srcs
  match ts with
  | [] => none
  | (_, l) :: rest =>
    let at' (c : StreamCase) (o : Option (Opnd × EReg)) : Option Breach := o.map (fun p => F.breach c p.1)
    let shape := rest.find? (fun p => isData l && isData p.2 && (hdrWid p.2.hdr != hdrWid l.hdr || hdrLen p.2.hdr != hdrLen l.hdr))
    let width := ts.find? (fun p => isData l && isData p.2 && (match fw with | some w => hdrWid p.2.hdr != w | none => false))
    let kind := rest.find? (fun p => if isData l then !isData p.2 else p.2.hdr != l.hdr)
    let empty := ts.find? (fun p => p.2.hdr == emptyMark)
    (((at' .empty empty).or (at' .shape shape)).or (at' .width width)).or (at' .kind kind)

/-- A source of a firing that takes a token with a malformed header from a channel (R211, R216). -/
def Facet.headerFault (F : Facet) (srcs : List Opnd) : Option Breach :=
  (srcs.find? (fun o => match o with
    | .deq _ | .peek _ => ((F.tok o).map (fun t => hdrBad t.hdr)).getD false
    | _ => false)).map (F.breach .header)

/-- A breach where a condition holds. -/
def Facet.breachIf (F : Facet) (b : Bool) (c : StreamCase) (o : Opnd) : Option Breach := if b then some (F.breach c o) else none

/-! ## The bank of a scratch-mode facet (R241) -/

/-- First scratch offset of a facet's bank. -/
def bankBase (x : Hall) (n : Nat) : Nat := (n - x.split) * 65536

/-- Value of `len` bytes at a bank byte, wrapping at the bank's end. -/
def bankGet (x : Hall) (n o : Nat) : Nat → Nat
  | 0 => 0
  | len + 1 => (cget x.scratch (bankBase x n + o % 65536)).toNat + 256 * bankGet x n (o + 1) len

/-- Store `len` bytes at a bank byte. -/
def bankPut (x : Hall) (n o v : Nat) : Nat → Hall
  | 0 => x
  | len + 1 => bankPut (x.put (bankBase x n + o % 65536) [BitVec.ofNat 8 v]) n (o + 1) (v / 256) len

/-- The first byte an address register names. -/
def bankStart (F : Facet) (k : Nat) : Nat := 4 * ((lget F.a k).toNat % 16384)

/-- Bank words touched by `len` bytes from a byte, as scratch words of the hall. -/
def bankWords (x : Hall) (n o len : Nat) : List Nat :=
  (List.range ((o % 4 + len + 3) / 4)).map (fun i => bankBase x n / 4 + (o / 4 + i) % 16384)

/-- Elements of a source in a shape (R214). -/
def srcElems (x : Hall) (n : Nat) (F : Facet) (imm : BitVec 10) (sh : Shape) (o : Opnd) : List Nat :=
  match o with
  | .e _ | .deq _ | .peek _ =>
    (match F.tok o with
     | some t => (List.range sh.n).map (payElem sh.w t.pay)
     | none => List.replicate sh.n 0)
  | .areg k => List.replicate sh.n ((lget F.a k.val).toNat % 2 ^ sh.w)
  | .bank k => (List.range sh.n).map (fun j => bankGet x n (bankStart F k.val + j * (sh.w / 8)) (sh.w / 8))
  | .imm => List.replicate sh.n (wrapInt imm.toInt sh.w)
  | .ones => List.replicate sh.n (2 ^ sh.w - 1)
  | .zero | .push _ => List.replicate sh.n 0

/-- The facet of a hall that the firing's agent names. -/
def Hall.inLens (x : Hall) (n : Nat) : Bool := x.lens.contains n

/-- A firing's result is lens-marked by its sources (R217). -/
def srcLens (x : Hall) (n : Nat) (F : Facet) (srcs : List Opnd) : Bool :=
  srcs.any (fun o => match o with
    | .bank _ => x.inLens n
    | o => ((F.tok o).map (·.lens)).getD false)

/-! ## What a rule needs (R81 to R84, R219) -/

/-- The instruction of a rule slot; an empty slot has none. -/
def Facet.rule (F : Facet) (slot : Nat) : Option Instr := fetchFor .facet (F.pool.getD slot 0)

/-- A class of structural resources (R219). -/
inductive FClass | alu | sfu | bank1 | bankN | move
  deriving DecidableEq, Repr

/-- A rule's header, destination, used sources, class and the width of its default shape. -/
structure RuleForm where
  hdr : FHdr
  d : Opnd
  srcs : List Opnd
  cls : FClass
  w0 : Nat
  deriving DecidableEq, Repr

def ruleForm (i : Instr) : Option RuleForm :=
  match i with
  | .fadd f d x y g | .fsub f d x y g | .fmul f d x y g | .fmin f d x y g | .fmax f d x y g => some ⟨f, d, [x, y], .alu, g.fmt.bits⟩
  | .ffma f d x y z g => some ⟨f, d, [x, y, z], .alu, g.fmt.bits⟩
  | .fsgn f d x y op g => some ⟨f, d, if op = .abs then [x] else [x, y], .alu, g.fmt.bits⟩
  | .fcmp f d x y _ _ g => some ⟨f, d, [x, y], .alu, g.fmt.bits⟩
  | .esel f d x y z => some ⟨f, d, [x, y, z], .alu, 32⟩
  | .fexp2 f d x g | .flog2 f d x g | .frcp f d x g | .frsq f d x g | .fsqrt f d x g | .ftanh f d x g | .fsigm f d x g =>
    some ⟨f, d, [x], .sfu, g.fmt.bits⟩
  | .iadd f d x y _ | .isub f d x y _ | .imul f d x y _ | .iand f d x y _ | .ior f d x y _ | .ixor f d x y _
  | .ishl f d x y _ => some ⟨f, d, [x, y], .alu, 32⟩
  | .imad f d x y z _ => some ⟨f, d, [x, y, z], .alu, 32⟩
  | .imin f d x y _ | .imax f d x y _ | .ishr f d x y _ => some ⟨f, d, [x, y], .alu, 32⟩
  | .icmp f d x y _ _ => some ⟨f, d, [x, y], .alu, 32⟩
  | .iclmp f d x y z _ => some ⟨f, d, [x, y, z], .alu, 32⟩
  | .cvt f d x y _ g dir sc => some ⟨f, d, if sc && !dir then [x, y] else [x], .alu, if dir then g.slot else 32⟩
  | .merge f o i k => some ⟨f, .push o, [.deq i, .e k], .move, 32⟩
  | .split f o x y _ => some ⟨f, .push o, [x, y], .move, 32⟩
  | .tsum f d x g _ | .tmax f d x g _ _ | .tmin f d x g _ _ => some ⟨f, d, [x], .alu, g.fmt.bits⟩
  | .mov f d x _ => some ⟨f, d, [x], .move, 32⟩
  | .drop f i => some ⟨f, .zero, [.deq i], .move, 32⟩
  | .hdr f d x kind .. => some ⟨f, d, if kind = .stop ∨ kind = .done then [] else [x], .move, 32⟩
  | .scl f d x _ => some ⟨f, d, [x], .alu, 32⟩
  | .iota f d x _ => some ⟨f, d, [x], .alu, 32⟩
  | .bcast f d x _ => some ⟨f, d, [x], .move, 32⟩
  | .fld f d .. | .fldf f d .. | .flde f d .. => some ⟨f, d, [], .bank1, 32⟩
  | .fst f x .. | .fste f x .. => some ⟨f, .zero, [x], .bank1, 32⟩
  | .fldx f d _ y _ _ => some ⟨f, d, [y], .bankN, 32⟩
  | .fstx f x _ z _ => some ⟨f, .zero, [x, z], .bankN, 32⟩
  | .famo f d x .. => some ⟨f, d, [x], .bankN, 32⟩
  | .ainc f ak x y _ => some ⟨f, .areg ak, [x, y], .move, 32⟩
  | .pset f x .. => some ⟨f, .zero, [x], .move, 32⟩
  | .send f _ => some ⟨f, .zero, [], .move, 32⟩
  | .waitc f _ => some ⟨f, .zero, [], .move, 32⟩
  | _ => none

/-- Bytes per element of a WID code in FN. -/
def widBytes (w : Nat) : Nat := 2 ^ w

/-- The scratch words of a full/empty bank access of a rule, with what it needs of them: true for full (R242, R243). -/
def Facet.feNeeds (F : Facet) (x : Hall) (n : Nat) (i : Instr) : Option (Bool × List Nat) :=
  match i with
  | .fldf _ _ ak _ len wid | .flde _ _ ak _ len wid =>
    some (true, bankWords x n (bankStart F ak.val) ((len.val + 1) * widBytes wid.val))
  | .fste _ src ak _ =>
    let sh := F.shape [src] 32
    if ((F.lead [src]).map isData).getD true then
      some (false, bankWords x n (bankStart F ak.val) (sh.n * (sh.w / 8)))
    else none
  | _ => none

/-- The words stand as a full/empty access needs them. -/
def feStands (x : Hall) (p : Bool × List Nat) : Bool :=
  p.2.all (fun w => x.full.contains w == p.1)

/-! ## Scale latches (R61, R62) -/

/-- Scales left in a latch. -/
def latchScales (l : Option Latch) : List (BitVec 8) := (l.map (·.scales)).getD []

/-- A scale header is latched, with its lens mark; none while scales of the previous burst are unused. -/
def latchHeader (l : Option Latch) (h : BitVec 16) (p : BitVec 256) (lens : Bool) : Option Latch :=
  if latchScales l ≠ [] then none
  else some ⟨(List.range (hdrLen h)).map (fun k => BitVec.ofNat 8 (payElem 8 p k)), 0, h.getLsbD 4, hdrLot h, false, lens⟩

/-- The scale of the next element; none when no latched scale remains. -/
def latchTake (l : Option Latch) : Option (BitVec 8 × Latch) :=
  match l with
  | none => none
  | some l =>
    match l.scales with
    | [] => none
    | x :: xs =>
      if l.used + 1 = (if l.bl then 32 else 16) then some (x, { l with scales := xs, used := 0, spent := xs.isEmpty && l.lot })
      else some (x, { l with used := l.used + 1 })

/-- The scales of the next `n` elements. -/
def latchTakes : Nat → Option Latch → Option (List (BitVec 8) × Option Latch)
  | 0, l => some ([], l)
  | n + 1, l =>
    match latchTake l with
    | none => none
    | some (x, l) => (latchTakes n (some l)).map (fun p => (x :: p.1, p.2))

/-- A stop or done token would cut a block. -/
def latchCut (l : Option Latch) : Bool := (l.map (fun l => l.used != 0)).getD false

end Sys2Proof.Machine
end

