-- ==== Sys2Proof/Machine/Sequencer.lean ====
section
/-! DEFINITION. How a sequencer carries a word through its two units (spec/08 R181 to R189, R200): the compute unit's
turn, retirement and loop-back, and the address unit's turn ahead of it. -/

namespace Sys2Proof.Machine

/-- The load queue's entries of later words are discarded with their predictions (R187). What the address unit made of
the word at the point of execution stays; it starts again behind that word, and until then stands at no word. -/
def Hall.dropAhead (x : Hall) : Hall :=
  match x.au.queue with
  | q :: _ :: _ => { x with au := { x.au with queue := [q], pc := 1 } }
  | _ => x

/-- Where execution goes after a word at `off` that went to `next`: the loop-back of R200. -/
def loopBack (lc : Word) (ls le off next : Nat) (taken : Bool) : Nat × Word :=
  if taken = false ∧ lc ≠ 0 ∧ off = le ∧ next = le + 8 then
    if lc = 1 then (next, 0) else (ls, lc - 1)
  else (next, lc)

/-- A control word (`ctl`) at `off` was decided otherwise than predicted (R187). -/
def Ahead.wrong (q : Ahead) (off next : Nat) (taken ctl : Bool) : Bool :=
  ctl && q.off == off && q.taken != (if taken then some next else none)

/-- The load queue after a word at `off` that went to `next` (R183, R187). A control word that was decided
otherwise than predicted restarts the address unit, and is counted; a loop-back that falls otherwise than predicted, LC
having been written meanwhile, restarts it uncounted. DESIGN CHOICE (unsafe, log 84): R187 has no case for it. -/
def Hall.passAu (x : Hall) (off next : Nat) (taken ctl : Bool) : Hall :=
  match x.au.queue with
  | [] => x.syncAu
  | q :: qs =>
    if q.off = off ∧ q.next = x.pc ∧ q.wrong off next taken ctl = false then
      if qs = [] then x.syncAu else { x with au := { x.au with queue := qs } }
    else { x.syncAu with restarts := if q.wrong off next taken ctl then x.restarts + 1 else x.restarts }

/-- A word of the hall retires: the point of execution moves on (R200), which is forward progress (R416). `y`: the word
marks a freeze point. -/
def Hall.retire (x : Hall) (next : Nat) (taken ctl y : Bool) : Hall :=
  let p := loopBack x.lc x.ls.toNat x.le.toNat x.pc next taken
  Hall.passAu { x with pc := p.1, lc := p.2, wdogCount := 0, wait := .none, atYield := y } x.pc next taken ctl

/-- R182: a word of the C view that reads or writes a pending register waits; the first read of a completed token is
an acquire at hall scope (R187, R377). -/
def cStart {α : Type} (s : State) (h : Nat) (srcs : List Reg) (dst : List Reg) (k : State → Res α) : Res α :=
  let x := s.hall h
  if x.pend &&& (regBits srcs ||| regBits dst) ≠ 0 then .wait s
  else if x.fresh &&& (regBits srcs ||| regBits dst) = 0 then k s
  else
    let x' := if x.fresh &&& regBits srcs = 0 then x else x.dropAhead
    k (s.setHall h { x' with fresh := x'.fresh &&& ~~~ (regBits srcs ||| regBits dst) })

/-- The compute unit ends a word: its effect's outcome, then the A part on the committed A view, then retirement. -/
def settle (h : Nat) (hd : SHdr) (ctl : Bool) (aPart : View → View) (pc : Nat) : Res (Option Nat) → State
  | .ok t s => s.updHall h fun x =>
      let x := if hd.mark ≠ .c ∧ holds hd x.a then { x with a := aPart x.a } else x
      x.retire (t.getD (pc + 8)) t.isSome ctl hd.y
  | .trap c i s => raise s h c i pc
  | .freeze c i s => freeze s h 8 7 0 0 0 c i []
  | .wait s => s

/-- The compute unit's turn at a word: the C part runs when its guards hold (R72, R184). -/
def computeWord (h : Nat) (hd : SHdr) (srcs dst : List Reg) (ctl : Bool) (aPart : View → View)
    (eff : State → Res (Option Nat)) (s : State) : State :=
  let x := s.hall h
  settle h hd ctl aPart x.pc
    (if hd.mark ≠ .a ∧ holds hd x.c then cStart s h srcs dst eff else .ok none s)

/-- Loop-backs the address unit has made that the point of execution has not (R185). -/
def AddrUnit.loops (u : AddrUnit) : Nat := (u.queue.filter (·.loopBack)).length

/-- Load-queue entries in use (R186). -/
def AddrUnit.loads (u : AddrUnit) : Nat := (u.queue.filter (fun q => q.load.isSome)).length

/-- The address unit may not make another loop-back for now (R185). -/
def AddrUnit.loopFull (u : AddrUnit) : Bool :=
  (loopBack u.lc u.ls u.le u.pc (u.pc + 8) false).1 != u.pc + 8 && 16 ≤ u.loops

/-- The address unit leaves the word at its place for `next`. -/
def AddrUnit.pass (u : AddrUnit) (next : Nat) (taken : Bool) (load : Option LoadEntry) (trip : Option Word := none) :
    AddrUnit :=
  let p := loopBack u.lc u.ls u.le u.pc next taken
  { u with pc := p.1, lc := p.2, queue := u.queue ++ [⟨u.pc, p.1, p.1 != next, if taken then some next else none, trip, load⟩] }

/-- The address unit's turn at a word that is no load (R185). `ctl` gives, for a control word whose guards hold in the
working copy, where it is predicted to go and the working copy after it. -/
def aheadWord (h : Nat) (hd : SHdr) (srcs dst : List Reg) (aPart : View → View)
    (ctl : AddrUnit → Option (Nat × AddrUnit)) (s : State) : State :=
  let x := s.hall h
  let u := x.au
  if 256 < u.queue.length || u.loopFull then s
  else if hd.mark = .c then s.setHall h { x with au := u.pass (u.pc + 8) false none }
  else if u.poison &&& regBits srcs ≠ 0 then s
  else if holds hd u.view then
    match ctl u with
    | some (t, u) => s.setHall h { x with au := u.pass t true none (some u.lc) }
    | none =>
      let u := { u with view := aPart u.view, poison := u.poison &&& ~~~ regBits dst }
      s.setHall h { x with au := u.pass (u.pc + 8) false none }
  else s.setHall h { x with au := u.pass (u.pc + 8) false none }

/-- A word that is not a control word and no load. -/
def plainWord (hd : SHdr) (srcs dst : List Reg) (aPart : View → View) (eff : Nat → State → Res (Option Nat))
    (s : State) : State :=
  match s.cur with
  | .seq h => computeWord h hd srcs dst false aPart (eff h) s
  | .addr h => aheadWord h hd srcs dst aPart (fun _ => none) s
  | _ => s

/-- A word whose only mark is C (R75): `eff` is its effect on the executing hall; it goes on to the next word. -/
def cWord (hd : SHdr) (srcs dst : List Reg) (eff : Nat → State → Res Unit) (s : State) : State :=
  plainWord hd srcs dst id (fun h s => (eff h s).andThen fun _ s => .ok none s) s

/-- A C-view register of a hall. -/
def State.rc (s : State) (h : Nat) (r : Reg) : Word := (s.hall h).c.reg r

/-- Write a C-view register of a hall. -/
def State.wc (s : State) (h : Nat) (r : Reg) (w : Word) : State := s.updHall h fun x => { x with c := x.c.setReg r w }

/-- A word that writes one scalar register from its view's registers and predicates (R190, R195). -/
def aluWord (hd : SHdr) (a : Reg) (srcs : List Reg) (f : View → Word) (s : State) : State :=
  plainWord hd srcs [a] (fun v => v.setReg a (f v))
    (fun h s => .ok none (s.wc h a (f (s.hall h).c))) s

/-- A token register becomes pending (R182). s0 is never marked. -/
def setPending (s : State) (h : Nat) (a : Reg) : State :=
  s.updHall h fun x => { x with pend := x.pend ||| regBits [a], fresh := x.fresh &&& ~~~ regBits [a] }

/-- Own writes discard load-queue entries whose bytes they overlap, whatever addresses the two use (R187). -/
def Hall.discardOverlap (x : Hall) (place n : Nat) : Hall :=
  if x.au.queue.any (fun q => match q.load with
    | some l => l.place < place + n && place < l.place + l.size
    | none => false) then x.dropAhead else x

/-- The same for a write of an engine, which the word at the point of execution follows as well: a load there is issued
again with the rest. -/
def Hall.discardAhead (x : Hall) (place n : Nat) : Hall :=
  match x.au.queue.head?.bind (·.load) with
  | some l => if l.place < place + n && place < l.place + l.size then x.syncAu else x.discardOverlap place n
  | none => x.discardOverlap place n

/-- A word at which the address unit waits until the point of execution reaches it. -/
def stopWord (hd : SHdr) (srcs dst : List Reg) (eff : Nat → State → Res Unit) (s : State) : State :=
  match s.cur with
  | .addr _ => s
  | _ => cWord hd srcs dst eff s

end Sys2Proof.Machine
end

