-- ==== Sys2Proof/Machine/SeqInt.lean ====
section
/-! DEFINITION. The integer instructions and immediate forms of the sequencer (spec/08 R190 to R195). -/

namespace Sys2Proof.Machine

/-- The answer of every meaning that completes. -/
abbrev Out := Host.Outcome State Fault Refusal

/-! ## Results -/

/-- High 64 bits of a product (MULH). -/
def mulHigh (u : Bool) (b c : Word) : Word :=
  if u then BitVec.ofNat 64 (b.toNat * c.toNat / 2 ^ 64) else BitVec.ofInt 64 (b.toInt * c.toInt / 2 ^ 64)

/-- R191: quotient and remainder. -/
def divRem (u : Bool) (b c : Word) : Word × Word :=
  if c = 0 then (BitVec.allOnes 64, b)
  else if u then (BitVec.ofNat 64 (b.toNat / c.toNat), BitVec.ofNat 64 (b.toNat % c.toNat))
  else (BitVec.ofInt 64 (b.toInt.tdiv c.toInt), BitVec.ofInt 64 (b.toInt.tmod c.toInt))

/-- R192: the count is the whole register. -/
def shlW (b : Word) (n : Nat) : Word := if n < 64 then b <<< n else 0
def shrW (b : Word) (n : Nat) : Word := if n < 64 then b >>> n else 0
def sraW (b : Word) (n : Nat) : Word := b.sshiftRight (min n 64)

def minW (u : Bool) (b c : Word) : Word := if (if u then b.ult c else b.slt c) then b else c
def maxW (u : Bool) (b c : Word) : Word := if (if u then b.ult c else b.slt c) then c else b

/-- Number of leading zero bits of the low `n` bits (CLZ). -/
def clzFrom : Nat → Nat → Nat
  | 0, _ => 0
  | n + 1, x => if nbit x n then 0 else 1 + clzFrom n x

/-- Number of one bits among the low `n` (POPC). -/
def popcFrom : Nat → Nat → Nat
  | 0, _ => 0
  | n + 1, x => b2n (nbit x n) + popcFrom n x

/-- R193: position and width. -/
def fieldPos (c : Word) : Nat := nbits c.toNat 0 6
def fieldWidth (c : Word) : Nat := nbits c.toNat 8 6 + 1

def bfxW (sx : Bool) (b c : Word) : Word :=
  let v := nbits b.toNat (fieldPos c) (fieldWidth c)
  if sx then BitVec.ofInt 64 (sextNat v (fieldWidth c)) else BitVec.ofNat 64 v

def bfiW (b c d : Word) : Word :=
  let m : Word := BitVec.ofNat 64 ((2 ^ fieldWidth c - 1) * 2 ^ fieldPos c)
  (d &&& ~~~ m) ||| ((b <<< fieldPos c) &&& m)

def leaW (x32 : Bool) (sh : Nat) (b c : Word) : Word :=
  b + (if x32 then (c.truncate 32).signExtend 64 else c) <<< sh

/-- CMPI's three-way outcome (R195). -/
def cmpiW (b : Word) (imm : BitVec 28) : Word :=
  if b.slt (imm.signExtend 64) then BitVec.allOnes 64 else if b = imm.signExtend 64 then 0 else 1

def movhiW (d : Word) (imm : BitVec 30) : Word := BitVec.ofNat 64 (imm.toNat * 2 ^ 34 + d.toNat % 2 ^ 34)

/-- CMP in one view (R194). -/
def cmpView (p : Pred) (b c : Reg) (k : Combine) (cond : Cond) (v : View) : View :=
  v.setPred p (combine k (v.pred p) (cond.holds 64 (v.reg b).toNat (v.reg c).toNat))

/-! ## The instructions of R190 -/

def execAdd (h : SHdr) (a b c : Reg) (s : State) : Out := .next (aluWord h a [b, c] (fun v => v.reg b + v.reg c) s)
def execSub (h : SHdr) (a b c : Reg) (s : State) : Out := .next (aluWord h a [b, c] (fun v => v.reg b - v.reg c) s)
def execMul (h : SHdr) (a b c : Reg) (s : State) : Out := .next (aluWord h a [b, c] (fun v => v.reg b * v.reg c) s)
def execMulh (h : SHdr) (a b c : Reg) (u : Bool) (s : State) : Out :=
  .next (aluWord h a [b, c] (fun v => mulHigh u (v.reg b) (v.reg c)) s)
def execDiv (h : SHdr) (a b c : Reg) (u : Bool) (s : State) : Out :=
  .next (aluWord h a [b, c] (fun v => (divRem u (v.reg b) (v.reg c)).1) s)
def execRem (h : SHdr) (a b c : Reg) (u : Bool) (s : State) : Out :=
  .next (aluWord h a [b, c] (fun v => (divRem u (v.reg b) (v.reg c)).2) s)
def execAnd (h : SHdr) (a b c : Reg) (s : State) : Out := .next (aluWord h a [b, c] (fun v => v.reg b &&& v.reg c) s)
def execOr (h : SHdr) (a b c : Reg) (s : State) : Out := .next (aluWord h a [b, c] (fun v => v.reg b ||| v.reg c) s)
def execXor (h : SHdr) (a b c : Reg) (s : State) : Out := .next (aluWord h a [b, c] (fun v => v.reg b ^^^ v.reg c) s)
def execAndn (h : SHdr) (a b c : Reg) (s : State) : Out :=
  .next (aluWord h a [b, c] (fun v => v.reg b &&& ~~~ v.reg c) s)
def execShl (h : SHdr) (a b c : Reg) (s : State) : Out :=
  .next (aluWord h a [b, c] (fun v => shlW (v.reg b) (v.reg c).toNat) s)
def execShr (h : SHdr) (a b c : Reg) (s : State) : Out :=
  .next (aluWord h a [b, c] (fun v => shrW (v.reg b) (v.reg c).toNat) s)
def execSra (h : SHdr) (a b c : Reg) (s : State) : Out :=
  .next (aluWord h a [b, c] (fun v => sraW (v.reg b) (v.reg c).toNat) s)
def execMin (h : SHdr) (a b c : Reg) (u : Bool) (s : State) : Out :=
  .next (aluWord h a [b, c] (fun v => minW u (v.reg b) (v.reg c)) s)
def execMax (h : SHdr) (a b c : Reg) (u : Bool) (s : State) : Out :=
  .next (aluWord h a [b, c] (fun v => maxW u (v.reg b) (v.reg c)) s)
def execClz (h : SHdr) (a b : Reg) (s : State) : Out :=
  .next (aluWord h a [b] (fun v => BitVec.ofNat 64 (clzFrom 64 (v.reg b).toNat)) s)
def execPopc (h : SHdr) (a b : Reg) (s : State) : Out :=
  .next (aluWord h a [b] (fun v => BitVec.ofNat 64 (popcFrom 64 (v.reg b).toNat)) s)
def execBfx (h : SHdr) (a b c : Reg) (sx : Bool) (s : State) : Out :=
  .next (aluWord h a [b, c] (fun v => bfxW sx (v.reg b) (v.reg c)) s)
def execBfi (h : SHdr) (a b c d : Reg) (s : State) : Out :=
  .next (aluWord h a [b, c, d] (fun v => bfiW (v.reg b) (v.reg c) (v.reg d)) s)
def execSel (h : SHdr) (a b c : Reg) (p : Pred) (s : State) : Out :=
  .next (aluWord h a [b, c] (fun v => if v.pred p then v.reg b else v.reg c) s)
def execCmp (h : SHdr) (p : Pred) (b c : Reg) (k : Combine) (cond : Cond) (s : State) : Out :=
  .next (plainWord h [b, c] [] (cmpView p b c k cond)
    (fun g s => .ok none (s.updHall g fun x => { x with c := cmpView p b c k cond x.c })) s)
def execMad (h : SHdr) (a b c d : Reg) (s : State) : Out :=
  .next (aluWord h a [b, c, d] (fun v => v.reg b * v.reg c + v.reg d) s)
def execLea (h : SHdr) (a b c : Reg) (x32 : Bool) (sh : Fin 8) (s : State) : Out :=
  .next (aluWord h a [b, c] (fun v => leaW x32 sh.val (v.reg b) (v.reg c)) s)

/-! ## The immediate forms of R195 -/

def execAddi (h : SHdr) (a b : Reg) (imm : BitVec 28) (s : State) : Out :=
  .next (aluWord h a [b] (fun v => v.reg b + imm.signExtend 64) s)
def execMuli (h : SHdr) (a b : Reg) (imm : BitVec 28) (s : State) : Out :=
  .next (aluWord h a [b] (fun v => v.reg b * imm.signExtend 64) s)
def execAndi (h : SHdr) (a b : Reg) (imm : BitVec 28) (s : State) : Out :=
  .next (aluWord h a [b] (fun v => v.reg b &&& imm.signExtend 64) s)
def execOri (h : SHdr) (a b : Reg) (imm : BitVec 28) (s : State) : Out :=
  .next (aluWord h a [b] (fun v => v.reg b ||| imm.signExtend 64) s)
def execXori (h : SHdr) (a b : Reg) (imm : BitVec 28) (s : State) : Out :=
  .next (aluWord h a [b] (fun v => v.reg b ^^^ imm.signExtend 64) s)
def execShli (h : SHdr) (a b : Reg) (n : Fin 64) (s : State) : Out :=
  .next (aluWord h a [b] (fun v => shlW (v.reg b) n.val) s)
def execShri (h : SHdr) (a b : Reg) (n : Fin 64) (s : State) : Out :=
  .next (aluWord h a [b] (fun v => shrW (v.reg b) n.val) s)
def execSrai (h : SHdr) (a b : Reg) (n : Fin 64) (s : State) : Out :=
  .next (aluWord h a [b] (fun v => sraW (v.reg b) n.val) s)
def execCmpi (h : SHdr) (a b : Reg) (imm : BitVec 28) (s : State) : Out :=
  .next (aluWord h a [b] (fun v => cmpiW (v.reg b) imm) s)
def execMovi (h : SHdr) (a : Reg) (imm : BitVec 34) (s : State) : Out :=
  .next (aluWord h a [] (fun _ => imm.signExtend 64) s)
def execMovhi (h : SHdr) (a : Reg) (imm : BitVec 30) (s : State) : Out :=
  .next (aluWord h a [a] (fun v => movhiW (v.reg a) imm) s)

end Sys2Proof.Machine
end

