-- ==== Sys2Proof/Machine/SeqMem.lean ====
section
/-! DEFINITION. Loads, stores, prefetch and L1 maintenance of the sequencer (spec/10 R271 to R273; run-ahead loads
spec/08 R186 to R188). -/

namespace Sys2Proof.Machine

/-- Bytes of an access size (R79). -/
def szBytes : Sz → Nat | .b => 1 | .h => 2 | .w => 4 | .d => 8

/-- The register value of a loaded one: zero- or sign-extended (R271). -/
def extend (n : Nat) (sx : Bool) (v : Nat) : Word :=
  if sx then BitVec.ofInt 64 (sextNat v (8 * n)) else BitVec.ofNat 64 v

/-- *ea* of the SI forms: base plus signed offset, mod 2^64. -/
def eaOff (b : Reg) (off : BitVec 25) (v : View) : Nat := (v.reg b + off.signExtend 64).toNat

/-- *ea* of the indexed forms. -/
def eaIdx (b c : Reg) (sh : Nat) (v : View) : Nat := (v.reg b + v.reg c <<< sh).toNat

/-! ## Loads -/

/-- The entry the address unit has for the word at the point of execution, when it names the same access (R186). -/
def headFill (x : Hall) (ea n : Nat) : Option Fill :=
  match x.au.queue with
  | q :: _ =>
    if q.off = x.pc then
      match q.load with
      | some l => if l.addr = ea ∧ l.size = n then some l.fill else none
      | none => none
    else none
  | [] => none

/-- The value an A-marked load consumes: its entry's, or the load performed at its place (R186 to R188). -/
def consumeLoad (s : State) (h ea n : Nat) (ch : Hint) : Res Nat :=
  match headFill (s.hall h) ea n with
  | some (.value v) => .ok v.toNat s
  | some (.fault c i) => .trap c i s
  | _ => loadAt s h ea n ch

/-- The C part of a load. -/
def loadC (h : Nat) (a : Reg) (ea : View → Nat) (n : Nat) (sx : Bool) (ch : Hint) (s : State) : Res (Option Nat) :=
  (loadAt s h (ea (s.hall h).c) n ch).andThen fun v s => .ok none (s.wc h a (extend n sx v))

/-- The A part of a load at the point of execution: both views receive the value (R186). -/
def loadA (h : Nat) (hd : SHdr) (a : Reg) (ea : View → Nat) (n : Nat) (sx : Bool) (s : State) : Res (Option Nat) :=
  let x := s.hall h
  if holds hd x.a then
    cStart s h [] [a] fun s =>
    (consumeLoad s h (ea x.a) n hd.ch).andThen fun v s =>
    .ok none (s.updHall h fun x => { x with c := x.c.setReg a (extend n sx v), a := x.a.setReg a (extend n sx v) })
  else .ok none s

/-- The address unit passes an A-marked load: the entry takes the data or the fault (R186, R188). -/
def aheadLoad (h : Nat) (hd : SHdr) (a : Reg) (srcs : List Reg) (ea : View → Nat) (n : Nat) (sx : Bool) (s : State) :
    State :=
  let x := s.hall h
  let u := x.au
  if 256 < u.queue.length || u.loopFull || 64 ≤ u.loads || u.poison &&& regBits srcs != 0 then s
  else
    let entry (f : Fill) : LoadEntry := ⟨a.val, ea u.view, n, sx, placeOf s h (ea u.view) n, hd.ch, f⟩
    let go (s : State) (f : Fill) (v : View) (p : BitVec 64) : State :=
      s.updHall h fun x => { x with au := { u with view := v, poison := p }.pass (u.pc + 8) false (some (entry f)) }
    if holds hd u.view then
      match loadAt s h (ea u.view) n hd.ch with
      | .ok v s => go s (.value (BitVec.ofNat 64 v)) (u.view.setReg a (extend n sx v)) (u.poison &&& ~~~ regBits [a])
      | .trap .integ i s => raise s h .integ i x.pc
      | .trap c i s => go s (.fault c i) u.view (u.poison ||| regBits [a])
      | .freeze c i s => freeze s h 8 7 0 0 0 c i []
      | .wait s => go s .pending u.view (u.poison ||| regBits [a])
    else go s .noEffect u.view u.poison

/-- An entry is filled (R186): the data reach the working copy unless a later word has written the register there, and a
fault leaves it poisoned (R188). -/
def AddrUnit.filled (u : AddrUnit) (i : Nat) (l : LoadEntry) (f : Fill) : AddrUnit :=
  let queue := u.queue.modify i (fun q => { q with load := some { l with fill := f } })
  let later := (u.queue.drop (i + 1)).any (fun q => q.load.any (fun k =>
    k.dst == l.dst && match k.fill with | .pending | .fault _ _ => true | _ => false))
  match f with
  | .value v =>
    if u.poison.getLsbD l.dst && !later then
      let r : Reg := Fin.ofNat 64 l.dst
      { u with queue := queue, view := u.view.setReg r (extend l.size l.sx v.toNat), poison := u.poison &&& ~~~ regBits [r] }
    else { u with queue := queue }
  | _ => { u with queue := queue }

/-- The load queue asks again for an entry that is not filled yet (R186): its word may have filled since. -/
def fillEntry (h : Nat) (s : State) (i : Nat) : State :=
  match ((s.hall h).au.queue[i]?).bind (·.load) with
  | some l =>
    if l.fill ≠ .pending then s
    else
      let go (s : State) (f : Fill) : State := s.updHall h fun x => { x with au := x.au.filled i l f }
      match loadAt s h l.addr l.size l.ch with
      | .ok v s => go s (.value (BitVec.ofNat 64 v))
      | .trap .integ n s => raise s h .integ n (s.hall h).pc
      | .trap c n s => go s (.fault c n)
      | .freeze c n s => freeze s h 8 7 0 0 0 c n []
      | .wait s => s
  | none => s

/-- The same for every entry, in program order. -/
def fillPending (s : State) (h : Nat) : State := (List.range (s.hall h).au.queue.length).foldl (fillEntry h) s

/-- LD and LDX under their marks (R181, R271). -/
def loadWord (hd : SHdr) (a : Reg) (srcs : List Reg) (ea : View → Nat) (n : Nat) (sx : Bool) (s : State) : State :=
  match s.cur with
  | .seq h =>
    if hd.mark = .a then settle h { hd with mark := .c } false id (s.hall h).pc (loadA h hd a ea n sx s)
    else computeWord h hd srcs [a] false id (loadC h a ea n sx hd.ch) s
  | .addr h =>
    if hd.mark = .a then aheadLoad h hd a srcs ea n sx s else aheadWord h hd srcs [a] id (fun _ => none) s
  | _ => s

def execLd (h : SHdr) (a b : Reg) (sz : Sz) (sx : Bool) (off : BitVec 25) (s : State) : Out :=
  .next (loadWord h a [b] (eaOff b off) (szBytes sz) sx s)

def execLdx (h : SHdr) (a b c : Reg) (sz : Sz) (sx : Bool) (sh : Fin 8) (s : State) : Out :=
  .next (loadWord h a [b, c] (eaIdx b c sh.val) (szBytes sz) sx s)

/-! ## Stores -/

/-- A plain store of a register's low bytes; own load-queue entries that overlap are discarded (R187). -/
def storeEff (g : Nat) (a : Reg) (ea : View → Nat) (n : Nat) (ch : Hint) (s : State) : Res Unit :=
  let x := s.hall g
  let va := ea x.c
  let place := placeOf s g va n
  (storeAt s g va n ((x.c.reg a).toNat % 2 ^ (8 * n)) ch).andThen fun _ s =>
  .ok () (s.updHall g fun x => x.discardOverlap place n)

def execSt (h : SHdr) (a b : Reg) (sz : Sz) (off : BitVec 25) (s : State) : Out :=
  .next (cWord h [a, b] [] (fun g s => storeEff g a (eaOff b off) (szBytes sz) h.ch s) s)

def execStx (h : SHdr) (a b c : Reg) (sz : Sz) (sh : Fin 8) (s : State) : Out :=
  .next (cWord h [a, b, c] [] (fun g s => storeEff g a (eaIdx b c sh.val) (szBytes sz) h.ch s) s)

/-! ## Prefetch (R272) -/

/-- Prefetch the line of one address: any obstacle skips it, the write-back of a line it would evict too, for PFX never
raises a fault. A line that is held already takes the hint too (R76). -/
def pfxLine (s : State) (h va : Nat) (l2 : Bool) (ch : Hint) : State :=
  if inScratch va then s else
  match resolve s h .seq va 1 with
  | .ok (.dev pa leaf) s' =>
    if pteLN leaf then s
    else match l2Fetch s' (s.ctxOf h) h (pa / 128) (pteKD leaf) va (pteAR leaf) ch with
      | .ok _ s' =>
        if l2 || !(hintAllocs ch).1 || (l1Find (s'.hall h) false (pa / 128)).isSome then noteHint s' h false (pa / 128) ch
        else match l1Insert s' h (fillLine s' (pa / 128) leaf va ch) with
          | .ok _ s' => s'
          | _ => s
      | _ => s
  | .ok (.host ha _) s' =>
    if l2 then s else
    match hostRead s' h ha va 1 ch with
    | .ok _ s' => s'
    | _ => s
  | _ => s

def pfxLines (h : Nat) (l2 : Bool) (ch : Hint) : Nat → Nat → State → State
  | 0, _, s => s
  | n + 1, va, s => pfxLines h l2 ch n (va + 128) (pfxLine s h va l2 ch)

def execPfx (h : SHdr) (b c : Reg) (l2 : Bool) (lines : Fin 256) (s : State) : Out :=
  let start (v : View) : Nat := (v.reg b + v.reg c).toNat / 128 * 128
  .next (match s.cur with
    | .seq g =>
      let x := s.hall g
      if h.mark = .a then
        settle g { h with mark := .c } false id x.pc
          (.ok none (if x.au.queue = [] ∧ holds h x.a then pfxLines g l2 h.ch (lines.val + 1) (start x.a) s else s))
      else computeWord g h [b, c] [] false id
        (fun s => .ok none (pfxLines g l2 h.ch (lines.val + 1) (start (s.hall g).c) s)) s
    | .addr g =>
      let u := (s.hall g).au
      let go := h.mark = .a && u.queue.length ≤ 256 && !u.loopFull && u.poison &&& regBits [b, c] == 0 && holds h u.view
      aheadWord g h [b, c] [] id (fun _ => none)
        (if go then pfxLines g l2 h.ch (lines.val + 1) (start u.view) s else s)
    | _ => s)

/-! ## FLUSH and INVAL (R273) -/

/-- The 64 KiB of memory an address's page puts it in: host or device, and where. Pages that do not translate, scratch
and reserved ranges give an address no line has. -/
def physPage (s : State) (h va : Nat) : Bool × Nat :=
  if ownBase ≤ va then (true, 2 ^ 60) else
  match translate s h .seq va with
  | .ok (leaf, big) _ => (pteHO leaf, (ptePA leaf + va % pageBytes big) / 65536 * 65536)
  | _ => (true, 2 ^ 60)

/-- Whether an L1 line lies in the lines of [lo, lo + n), given the pages of the range. -/
def inRange (pages : List (Bool × Nat)) (lo n : Nat) (l : L1Line) : Bool :=
  let first := lo / 128
  let last := (lo + n - 1) / 128
  (List.range pages.length).any (fun i =>
    match pages[i]? with
    | some (host, pa) =>
      host == l.host && pa / 65536 == l.line / 512
        && first ≤ (lo / 65536 + i) * 512 + l.line % 512 && (lo / 65536 + i) * 512 + l.line % 512 ≤ last
    | none => false)

/-- The pages of a range, in order. -/
def physPages (s : State) (h lo n : Nat) : List (Bool × Nat) :=
  (List.range ((lo + n - 1) / 65536 + 1 - lo / 65536)).map (fun i => physPage s h ((lo / 65536 + i) * 65536))

/-- The test of a FLUSH or INVAL range on L1 lines. -/
def l1Select (s : State) (h lo n : Nat) : L1Line → Bool :=
  if n = 0 then fun _ => false
  else if 2 ^ 32 < n then fun _ => true
  else
    let pages := physPages s h lo n
    inRange pages lo n

def flushEff (g : Nat) (b c : Reg) (s : State) : Res Unit :=
  let x := s.hall g
  let sel := l1Select s g (x.c.reg b).toNat (x.c.reg c).toNat
  (writeBackAll s g (x.l1.filter sel)).andThen fun _ s =>
  .ok () (s.updHall g fun x => { x with l1 := x.l1.map (fun l => if sel l then { l with dirty := 0 } else l) })

/-- No later load of the sequencer issues before FLUSH or INVAL has completed: the address unit waits at them. -/
def execFlush (h : SHdr) (b c : Reg) (s : State) : Out := .next (stopWord h [b, c] [] (fun g s => flushEff g b c s) s)

def invalEff (g : Nat) (b c : Reg) (wb : Bool) (s : State) : Res Unit :=
  let x := s.hall g
  let sel := l1Select s g (x.c.reg b).toNat (x.c.reg c).toNat
  (if wb then writeBackAll s g (x.l1.filter sel) else .ok () s).andThen fun _ s =>
  .ok () (s.updHall g fun x => { x with l1 := x.l1.filter (fun l => !sel l) })

def execInval (h : SHdr) (b c : Reg) (wb : Bool) (s : State) : Out :=
  .next (stopWord h [b, c] [] (fun g s => invalEff g b c wb s) s)

end Sys2Proof.Machine
end

