-- ==== Sys2Proof/Machine/SeqSync.lean ====
section
/-! DEFINITION. Synchronisation of the sequencer (spec/14): full/empty accesses, FEST, WAIT (spec/16 R418), atomics,
posted REDs, FENCE, GBAR and MARK. -/

namespace Sys2Proof.Machine

/-! ## What synchronising accesses take and leave -/

/-- A full/empty load takes what the releases at its words carry (R354, R377). -/
def joinWords (s : State) (h : Nat) (ws : List Nat) : State :=
  ws.foldl (fun s w => joinClock s h (carriedFe s (keyOfScratch h (4 * w)) 4 h)) s

/-- A full-setting store is a release at hall scope: it ends what earlier releases left at its words (R354). -/
def leaveWords (s : State) (h : Nat) (ws : List Nat) : State :=
  ws.foldl (fun s w => endCarry s (keyOfScratch h (4 * w)) 4) s

/-- The F bits of a list of words. -/
def setWords (ws : List Nat) (b : Bool) (x : Hall) : Hall := ws.foldl (fun x w => x.setFull w 1 b) x

/-- NODE of a facet bank port (R391). -/
def nodeOfScratch (x : Hall) (t off : Nat) : Nat := 0x3000 + 48 * t + x.split + off / 65536

/-- A store-class synchronising access of `n` bytes leaves at its location its own release and the fences before it
(R354, R368). -/
def storeCarry (s : State) (g key n : Nat) (scp : Scope) (clk : List Nat) : State :=
  leaveCarry s key n g ((s.hall g).leaves scp clk)

/-- A load-class synchronising access reads what releases left (R354); it is kept for a later FENCE (R368). -/
def loadCarry (s : State) (g key n : Nat) : State :=
  let cs := carriesAt s key n
  if cs = [] then s else s.updHall g fun x => { x with seen := cs ++ x.seen.filter (fun c => !cs.contains c) }

/-! ## Full/empty accesses (R355 to R357) -/

def feSub : FeOp → Nat | .lde => 0 | .ste => 1 | .ldf => 3 | .wait => 3

/-- No earlier request of the list to these words could be served now. -/
def feFree (y : Hall) (before : List FeWaiter) (off n : Nat) : Bool :=
  before.all (fun w => !feTouches w off n || !feReady y w.op w.off w.size)

/-- The request performs at its bank port, is logged, and its value and ordering take effect on the hall (R356, R373).
`waited` says that it stood among the waiters. -/
def fePerform (s : State) (t : Nat) (w : FeWaiter) (waited : Bool) : LogOut :=
  let g := w.hall
  let y := s.hall t
  let v := cval y.scratch w.off w.size
  let logs := match w.op with
    | .ldf | .wait => waited
    | _ => true
  let ev : LogEv := ⟨nodeOfScratch y t w.off, srcSeq g, 1, feSub w.op, w.off,
    if w.op = .ste then BitVec.ofNat 64 (w.value.toNat % 2 ^ (8 * w.size)) else BitVec.ofNat 64 v⟩
  let perform (s : State) : State :=
    let key := keyOfScratch t w.off
    let r : Reg := Fin.ofNat 64 w.reg
    let take (s : State) : State :=
      let s := loadCarry s g key w.size
      acquire s g w.gallery (if w.gallery then carried s key w.size g .gallery else carriedFe s key w.size g)
    match w.op with
    | .ldf => (take s).wc g r (BitVec.ofNat 64 v)
    | .lde => (take (s.updHall t fun y => y.setFull (w.off / 4) (w.size / 4) false)).wc g r (BitVec.ofNat 64 v)
    | .wait => (take s).wc g r 1
    | .ste =>
      let s := s.updHall t fun y => (y.put w.off (leBytes w.size w.value.toNat)).setFull (w.off / 4) (w.size / 4) true
      (storeCarry s g key w.size (if w.gallery then .gallery else .hall) w.clock).updHall g fun x =>
        x.discardOverlap key w.size
  if logs then
    match logEvent s (s.ctxOf t) ev with
    | .go s => .go (perform s)
    | .stall s => .stall s
    | .diverge i s => .diverge i s
  else .go (perform s)

/-- A full/empty access's checks (R356): alignment, then a scratch place. -/
def feResolve (s : State) (g va n : Nat) : Res (Nat × Nat) :=
  if va % n ≠ 0 then .trap .align (addrWord va) s
  else if !inScratch va then .trap .access (addrWord va) s
  else (resolve s g .seq va n).andThen fun p s =>
    match p with
    | .scratch t off => .ok (t, off) s
    | _ => .trap .access (addrWord va) s

/-- A request arrives (R357): served at once when its condition holds and no earlier request goes before it, which in
REPLAY the records say (R373, R395); else it joins the waiters. A waiting hall's own turn asks for service again. -/
def feRequest (s : State) (g : Nat) (w : FeWaiter) : Res Unit :=
  (feResolve s g w.va w.size).andThen fun p s =>
    let (t, off) := p
    let w := { w with off := off }
    let y := s.hall t
    let waiting := (s.hall g).wait = .fe
    let stamp := if waiting then ((y.feq.find? (fun k => k.hall == g)).map (·.stamp)).getD s.ids else s.ids
    let before := if waiting then y.feq.takeWhile (fun k => k.hall != g) else y.feq
    let s := if waiting ∧ y.feq.all (fun k => k.hall != g) then s.updHall t fun y => { y with feq := y.feq ++ [w] } else s
    let first := replays s (s.ctxOf t) || (feFree y before off w.size && !facetFirst y off w.size stamp
      && !arrivalFirst s t off w.size stamp)
    if feReady y w.op off w.size && first then
      if y.badAt off w.size && w.op != .ste then .trap .memerr (addrWord w.va) s
      else
        match fePerform s t w waiting with
        | .go s => .ok () (s.updHall t fun y => { y with feq := y.feq.filter (fun k => k.hall != g) })
        | .stall s => .wait s
        | .diverge i s => .trap .mrdiv i s
    else if waiting then .wait s
    else
      let s := { s with ids := s.ids + 1 }
      .wait ((s.updHall t fun y => { y with feq := y.feq ++ [w] }).updHall g fun x => { x with wait := .fe })

/-- The gallery window gives gallery scope, the own window hall scope (R356). -/
def feGallery (va : Nat) : Bool := galBase ≤ va

/-- LDF and LDE. -/
def feTake (op : FeOp) (h : SHdr) (a b : Reg) (dbl : Bool) (off : BitVec 25) (s : State) : State :=
  cWord h [b] [a] (fun g s =>
    let va := eaOff b off (s.hall g).c
    let n := if dbl then 8 else 4
    feRequest s g ⟨g, op, 0, n, 0, a.val, va, feGallery va, [], s.tick, s.ids, 0, h.y⟩) s

def execLdf (h : SHdr) (a b : Reg) (dbl : Bool) (off : BitVec 25) (s : State) : Out :=
  .next (feTake .ldf h a b dbl off s)

def execLde (h : SHdr) (a b : Reg) (dbl : Bool) (off : BitVec 25) (s : State) : Out :=
  .next (feTake .lde h a b dbl off s)

/-- STE is a release at its scope when it arrives (R356). -/
def execSte (h : SHdr) (a b : Reg) (dbl : Bool) (off : BitVec 25) (s : State) : Out :=
  .next (cWord h [a, b] [] (fun g s =>
    let x := s.hall g
    let va := eaOff b off x.c
    let n := if dbl then 8 else 4
    let w : FeWaiter := ⟨g, .ste, 0, n, x.c.reg a, 0, va, feGallery va, [], s.tick, s.ids, 0, h.y⟩
    if x.wait = .fe then feRequest s g w
    else (feResolve s g va n).andThen fun _ s =>
      if x.posted ≠ [] then .wait s
      else (release s g (feGallery va)).andThen fun clk s => feRequest s g { w with clock := clk }) s)

/-- STF: no wait (R356). -/
def stfEff (g : Nat) (a b : Reg) (n : Nat) (off : BitVec 25) (s : State) : Res Unit :=
  let x := s.hall g
  let va := eaOff b off x.c
  (feResolve s g va n).andThen fun p s =>
    let (t, o) := p
    if x.posted ≠ [] ∨ portBusy s t o n then .wait s
    else
      let v := (x.c.reg a).toNat % 2 ^ (8 * n)
      let ev : LogEv := ⟨nodeOfScratch (s.hall t) t o, srcSeq g, 1, 2, o, BitVec.ofNat 64 v⟩
      match release s g (feGallery va) with
      | .ok _ _ =>
        logged s (s.ctxOf t) ev fun s =>
          (release s g (feGallery va)).andThen fun clk s =>
            let s := s.updHall t fun y => (y.put o (leBytes n v)).setFull (o / 4) (n / 4) true
            let s := storeCarry s g (keyOfScratch t o) n (if feGallery va then .gallery else .hall) clk
            .ok () (s.updHall g fun x => x.discardOverlap (keyOfScratch t o) n)
      | .trap c i s => .trap c i s
      | .freeze c i s => .freeze c i s
      | .wait s => .wait s

def execStf (h : SHdr) (a b : Reg) (dbl : Bool) (off : BitVec 25) (s : State) : Out :=
  .next (cWord h [a, b] [] (fun g s => stfEff g a b (if dbl then 8 else 4) off s) s)

/-- Set the F bits of a range in rising order, leaving a release's clock at each word set full (R358): the value stays, and
with it what an earlier release left there (R354). -/
def festWords (g t off : Nat) (f : Bool) (scp : Scope) (clk : List Nat) : Nat → State → State
  | 0, s => s
  | n + 1, s =>
    let s := festWords g t off f scp clk n s
    let s := s.updHall t fun y => y.setFull (off / 4 + n) 1 f
    if f then addCarry s (keyOfScratch t (off + 4 * n)) 4 g ((s.hall g).leaves scp clk) else s

/-- Every facet a range of scratch touches lies outside lens mode, and the range lies in the scratchpad. -/
def rangeOk (x : Hall) (off n : Nat) : Bool :=
  off + n ≤ x.size && x.lens.all (fun f => f < x.split + off / 65536 || x.split + (off + n - 1) / 65536 < f)

def festEff (g : Nat) (b c : Reg) (f : Bool) (s : State) : Res Unit :=
  let x := s.hall g
  let n := (x.c.reg c).toNat
  let va := (x.c.reg b).toNat
  if n = 0 then .ok () s
  else (feResolve s g va 4).andThen fun p s =>
    let (t, o) := p
    if !rangeOk (s.hall t) o (4 * n) then .trap .access (addrWord va) s
    else if (f ∧ x.posted ≠ []) ∨ portBusy s t o (4 * n) then .wait s
    else
      let ev : LogEv := ⟨nodeOfScratch (s.hall t) t o, srcSeq g, 1, if f then 0xB else 0xA, o, BitVec.ofNat 64 n⟩
      let wide := f && feGallery va
      match release s g wide with
      | .ok _ _ =>
        logged s (s.ctxOf t) ev fun s =>
          (release s g wide).andThen fun clk s =>
            .ok () (festWords g t o f (if feGallery va then .gallery else .hall) clk n s)
      | .trap c i s => .trap c i s
      | .freeze c i s => .freeze c i s
      | .wait s => .wait s

def execFestF (h : SHdr) (b c : Reg) (s : State) : Out := .next (cWord h [b, c] [] (fun g s => festEff g b c true s) s)
def execFestE (h : SHdr) (b c : Reg) (s : State) : Out := .next (cWord h [b, c] [] (fun g s => festEff g b c false s) s)

/-- The limit of a waiting WAIT has passed. -/
def FeWaiter.expired (w : FeWaiter) (now : Nat) : Bool := w.op == .wait && w.limit != 0 && decide (w.since + w.limit ≤ now)

/-- A WAIT at its limit (R418): its word is full, and it gives 1 as one that is served; or it gives 0 and orders nothing. -/
def waitEnds (s : State) (t : Nat) (w : FeWaiter) : Res Unit :=
  if !(s.hall t).fullAt w.off 4 then .ok () ((cancelWait s w.hall).wc w.hall (Fin.ofNat 64 w.reg) 0)
  else if (s.hall t).badAt w.off 4 then .trap .memerr (addrWord w.va) s
  else
    match fePerform s t w true with
    | .go s => .ok () (cancelWait s w.hall)
    | .stall s => .wait s
    | .diverge i s => .trap .mrdiv i s

/-- The request of a hall that waits at some bank port, with the hall of the port. -/
def waiterOf (s : State) (g : Nat) : Option (Nat × FeWaiter) :=
  s.halls.findSome? (fun p => (p.2.feq.find? (fun w => w.hall == g)).map (fun w => (p.1, w)))

/-- WAIT (R418): takes nothing, and ends at its limit. -/
def execWait (h : SHdr) (a b c : Reg) (s : State) : Out :=
  .next (cWord h [b, c] [a] (fun g s =>
    let x := s.hall g
    let va := (x.c.reg b).toNat
    let w : FeWaiter := ⟨g, .wait, 0, 4, 0, a.val, va, feGallery va, [], s.tick, s.ids, (x.c.reg c).toNat, h.y⟩
    match feRequest s g w with
    | .wait s' =>
      (match waiterOf s' g with
       | some (t, w) => if x.wait = .fe ∧ w.expired s.tick then waitEnds s' t w else .wait s'
       | none => .wait s')
    | r => r) s)

/-- The bank port serves one waiting request (R357): the waiting hall's word retires with it. The flag says that it was
served, or that its hall trapped. -/
def feServeOne (s : State) (t : Nat) (w : FeWaiter) : Bool × State :=
  let g := w.hall
  let pc := (s.hall g).pc
  if (s.hall g).held then (false, s)
  else if (s.hall t).badAt w.off w.size && w.op != .ste then (true, raise s g .memerr (addrWord w.va) pc)
  else
    match fePerform s t w true with
    | .go s => (true, State.updHall (s.updHall t fun y => { y with feq := y.feq.filter (fun k => k.hall != g) }) g
        fun x => x.retire (pc + 8) false false w.y)
    | .stall s => (false, s)
    | .diverge i s => (true, raise s g .mrdiv i pc)

/-- The first request of a list that can be served. -/
def feServeFirst (t : Nat) : List FeWaiter → State → State
  | [], s => s
  | w :: ws, s =>
    match feServeOne s t w with
    | (true, s) => s
    | (false, s) => feServeFirst t ws s

/-- A bank port's pass (R357): it serves the oldest waiting request to a word whose condition holds, no facet rule and no
produce from outside going before it; in REPLAY the one whose record is next (R373, R395). -/
def feServe (s : State) (t word : Nat) : State :=
  let y := s.hall t
  let ready := y.feq.filter (fun w => feTouches w (4 * word) 4 && feReady y w.op w.off w.size)
  if replays s (s.ctxOf t) then feServeFirst t ready s
  else feServeFirst t ((ready.filter (fun w => !facetFirst y w.off w.size w.stamp
    && !arrivalFirst s t w.off w.size w.stamp)).take 1) s

def execFeWaitServe (hall : HallId) (word : Nat) (s : State) : Out := .next (feServe s hall.val word)

/-- A WAIT's limit has passed (R418): the word ends and retires; a time-out is not logged. -/
def waitTimeout (s : State) (g : Nat) : State :=
  match waiterOf s g with
  | none => s
  | some (t, w) =>
    if (s.hall g).held || !w.expired s.tick then s
    else
      let pc := (s.hall g).pc
      match waitEnds s t w with
      | .ok _ s => s.updHall g fun x => x.retire (pc + 8) false false w.y
      | .trap c i s | .freeze c i s => raise s g c i pc
      | .wait s => s

def execWaitTimeout (hall : HallId) (s : State) : Out := .next (waitTimeout s hall.val)

/-! ## Atomics (R360 to R366) -/

/-- An atomic's parts: its bytes, operand, SUB and digest in the Mirror, whether a host takes it, and what it makes of
the old value (`none`: nothing stored). -/
structure Amo where
  n : Nat
  sub : Nat
  digest : Word
  host : Bool
  f : Nat → Option Nat

/-- Sums of floating-point encodings (AMFADD, RED.fadd). -/
def faddN (n x y : Nat) : Nat := if n = 4 then fop2 .fp32 FVal.add x y else fop2 .fp64 FVal.add x y

/-- Place of an atomic (R360, R391). -/
def nodeOfPa (pa : Nat) (leaf : Word) : Nat :=
  if pteMS leaf then 0x2000 + pa / 0xC00000000 else 0x1000 + sliceOf pa

/-- The issuing hall's L1 copy of a line is written back and invalidated (R360). -/
def l1Evict (s : State) (g : Nat) (host : Bool) (line : Nat) : Res Unit :=
  match l1Find (s.hall g) host line with
  | none => .ok () s
  | some l => (writeBackLine s g l).andThen fun _ s => .ok () (s.updHall g fun x => x.dropLine host line)

/-- Where MS = 1, the slice's copy of the line too is written back and invalidated, and the base die checks what it reads
(R263, R360); else the slice holds the line, allocated as the hint says (R76). -/
def sliceFetch (s : State) (g pa : Nat) (leaf : Word) (va : Nat) (ch : Hint) : Res Unit :=
  let fetch (s : State) (ch : Hint) : Res Unit := l2Fetch s (s.ctxOf g) g (pa / 128) (pteKD leaf) va (pteAR leaf) ch
  if pteMS leaf then
    (match s.l2.find? (fun (l : L2Line) => l.line == pa / 128) with
     | some l => l2Evict s l
     | none => .ok () s).andThen fun _ s => fetch s .memSide
  else (fetch s ch).andThen fun _ s => .ok () (noteHint s g false (pa / 128) ch)

/-- Where an atomic performs, after the checks of R363. -/
inductive AmoPlace
  | scratch (t off : Nat)
  | dev (pa : Nat) (leaf : Word)
  | host (ha : Nat)

def amoKey : AmoPlace → Nat
  | .scratch t off => keyOfScratch t off
  | .dev pa _ => pa
  | .host ha => keyOfHost ha

def amoResolve (s : State) (g : Nat) (ag : TlbAgent) (va n : Nat) (host : Bool) : Res AmoPlace :=
  if va % n ≠ 0 then .trap .align (addrWord va) s
  else (locate s g ag va n).andThen fun p s =>
    match p with
    | .scratch t off => .ok (.scratch t off) s
    | .dev pa leaf =>
      if pteLN leaf then .trap .access (addrWord va) s
      else if !pteWR leaf then .trap .xlat (addrWord va) s
      else .ok (.dev pa leaf) s
    | .host ha leaf =>
      if !host then .trap .access (addrWord va) s
      else if !pteWR leaf then .trap .xlat (addrWord va) s
      else (hostReach s g ha va leaf).andThen fun _ s => .ok (.host ha) s

/-- The place touches T0 of a spawned task (R29). -/
def AmoPlace.ownedT0 (p : AmoPlace) (s : State) (ctx : Word) (va n : Nat) : Bool :=
  match p with
  | .dev pa _ => ownsT0 s ctx va n || ownsT0At s ctx pa n
  | _ => false

/-- The read-modify-write itself, at its place: the old value. An atomic that stores to T0 of a spawned task raises
ACCESS, ahead of what its data could raise; one that does not store reads it (R13, R29, R361; log 49). -/
def amoApply (s : State) (g va : Nat) (m : Amo) (ch : Hint) : AmoPlace → Res Nat
  | .scratch t off =>
    let y := s.hall t
    if portBusy s t off m.n then .wait s
    else if y.badAt off m.n then .trap .memerr (addrWord va) s
    else
      let old := cval y.scratch off m.n
      .ok old (match m.f old with
        | some v => s.updHall t fun y => y.put off (leBytes m.n v)
        | none => s)
  | .dev pa leaf =>
    (l1Evict s g false (pa / 128)).andThen fun _ s =>
    if (m.f (leafRead s pa leaf m.n)).isSome ∧ AmoPlace.ownedT0 (.dev pa leaf) s (s.ctxOf g) va m.n then
      .trap .access (addrWord va) s
    else
      (sliceFetch s g pa leaf va ch).andThen fun _ s =>
      let old := leafRead s pa leaf m.n
      match m.f old with
      | some v => .ok old (leafWrite s (s.ctxOf g) g pa leaf va (leBytes m.n v))
      | none => .ok old s
  | .host ha =>
    -- an egress: only once its horizon is reached (R366); the host may end it with an error
    if horizon s g ≠ [] ∨ integPending s (s.ctxOf g) ∨ egressCovers s (s.ctxOf g) ha m.n then .wait s
    else (l1Evict s g true (ha / 128)).andThen fun _ s =>
    let old := cval s.hostMem ha m.n
    let (k, s) := s.draw
    if Config.freeBool k then
      let (j, s) := s.draw
      .trap .access (addrWord va) { s with hostMem := cwrite s.hostMem ha (leBytes m.n (Config.freeWord j).toNat) }
    else
      .ok old (match m.f old with
        | some v => { s with hostMem := cwrite s.hostMem ha (leBytes m.n v) }
        | none => s)

def amoNode (s : State) : AmoPlace → Nat
  | .scratch t off => nodeOfScratch (s.hall t) t off
  | .dev pa leaf => nodeOfPa pa leaf
  | .host _ => 0x8000

/-- A logged event between a check that what follows can perform and its performing: what has to wait, or ends in a fault,
writes no record and consumes none (R373). -/
def loggedIf {α : Type} (s : State) (ctx : Word) (ev : LogEv) (k : State → Res α) : Res α :=
  match k s with
  | .ok _ _ => logged s ctx ev k
  | .wait _ => .wait s
  | r => r

/-- An atomic of a sequencer: its old value (R353, R354, R360, R363). -/
def amoRun (s : State) (g va : Nat) (y : Sync) (ch : Hint) (m : Amo) : Res Nat :=
  (amoResolve s g .seq va m.n m.host).andThen fun p s =>
  if postedHits (s.hall g) (amoKey p) m.n ∨ (ordReleases y.ord ∧ (s.hall g).posted ≠ []) then .wait s
  else
    let wide := ordReleases y.ord && scopeWide y.scp
    loggedIf s (s.ctxOf g) ⟨amoNode s p, srcSeq g, 2, m.sub, va, m.digest⟩ fun s =>
    (release s g wide).andThen fun clk s =>
    (amoApply s g va m ch p).andThen fun old s =>
    let key := amoKey p
    let got := carried s key m.n g y.scp
    let s := loadCarry s g key m.n
    let s := if (m.f old).isSome then
        (storeCarry s g key m.n y.scp clk).updHall g fun x => x.discardOverlap key m.n
      else s
    .ok old (if ordAcquires y.ord then acquire s g (scopeWide y.scp) got else s)

def amoBytes (y : Sync) : Nat := if y.dbl then 8 else 4

/-- Low bytes of a register as a number. -/
def lowN (n : Nat) (w : Word) : Nat := w.toNat % 2 ^ (8 * n)

/-- Members with one operand (R361): `f n old v`. -/
def amoWord (h : SHdr) (a b c : Reg) (y : Sync) (sub : Nat) (host : Bool) (f : Nat → Nat → Nat → Nat) (s : State) :
    State :=
  cWord h [b, c] [a] (fun g s =>
    let x := s.hall g
    let n := amoBytes y
    let v := lowN n (x.c.reg c)
    (amoRun s g (x.c.reg b).toNat y h.ch ⟨n, sub, BitVec.ofNat 64 v, host, fun old => some (f n old v)⟩).andThen fun old s =>
    .ok () (s.wc g a (BitVec.ofNat 64 old))) s

def modN (n x : Nat) : Nat := x % 2 ^ (8 * n)

/-- Lesser or greater of two values of `n` bytes (AMMIN, AMMAX). -/
def minmaxN (max u : Bool) (n x y : Nat) : Nat :=
  let lt := if u then decide (x < y) else decide (sextNat x (8 * n) < sextNat y (8 * n))
  if lt != max then x else y

def execAmadd (h : SHdr) (a b c : Reg) (y : Sync) (s : State) : Out :=
  .next (amoWord h a b c y 0 true (fun n old v => modN n (old + v)) s)
def execAmand (h : SHdr) (a b c : Reg) (y : Sync) (s : State) : Out :=
  .next (amoWord h a b c y 1 false (fun _ old v => old &&& v) s)
def execAmor (h : SHdr) (a b c : Reg) (y : Sync) (s : State) : Out :=
  .next (amoWord h a b c y 2 false (fun _ old v => old ||| v) s)
def execAmxor (h : SHdr) (a b c : Reg) (y : Sync) (s : State) : Out :=
  .next (amoWord h a b c y 3 false (fun _ old v => old ^^^ v) s)
def execAmmin (h : SHdr) (a b c : Reg) (y : Sync) (u : Bool) (s : State) : Out :=
  .next (amoWord h a b c y 4 false (fun n old v => minmaxN false u n old v) s)
def execAmmax (h : SHdr) (a b c : Reg) (y : Sync) (u : Bool) (s : State) : Out :=
  .next (amoWord h a b c y 5 false (fun n old v => minmaxN true u n old v) s)
def execAmswp (h : SHdr) (a b c : Reg) (y : Sync) (s : State) : Out :=
  .next (amoWord h a b c y 6 true (fun _ _ v => v) s)
def execAmfadd (h : SHdr) (a b c : Reg) (y : Sync) (s : State) : Out :=
  .next (amoWord h a b c y 0xB false (fun n old v => faddN n old v) s)

/-- 64-bit left rotation by 32 (R392). -/
def rotl32 (v : Nat) : Nat := v % 2 ^ 32 * 2 ^ 32 + v / 2 ^ 32 % 2 ^ 32

/-- Members with a success predicate (R361, R362). -/
def amoPredWord (h : SHdr) (a b c d : Reg) (p : Pred) (y : Sync) (sub : Nat) (host : Bool)
    (f : Nat → Nat → Nat → Nat → Option Nat) (s : State) : State :=
  cWord h [b, c, d] [a] (fun g s =>
    let x := s.hall g
    let n := amoBytes y
    let v := lowN n (x.c.reg c)
    let k := lowN n (x.c.reg d)
    (amoRun s g (x.c.reg b).toNat y h.ch ⟨n, sub, BitVec.ofNat 64 (v ^^^ rotl32 k), host, fun old => f n old v k⟩).andThen
      fun old s =>
    .ok () (s.updHall g fun x =>
      { x with c := (x.c.setReg a (BitVec.ofNat 64 old)).setPred p (f n old v k).isSome })) s

def execAmcas (h : SHdr) (a b c d : Reg) (p : Pred) (y : Sync) (s : State) : Out :=
  .next (amoPredWord h a b c d p y 7 true (fun _ old v k => if old = k then some v else none) s)

def execAmfab (h : SHdr) (a b c d : Reg) (p : Pred) (y : Sync) (s : State) : Out :=
  .next (amoPredWord h a b c d p y 9 false (fun _ old v k => if old + v ≤ k then some (old + v) else none) s)

def execAmincw (h : SHdr) (a b c : Reg) (y : Sync) (s : State) : Out :=
  .next (amoWord h a b c y 8 false (fun _ old v => if v ≤ old then 0 else old + 1) s)

/-! ## RED (R364) -/

def redFun (op : RedOp) (n old v : Nat) : Nat :=
  match op with
  | .add => modN n (old + v)
  | .fadd => faddN n old v
  | .and => old &&& v
  | .or => old ||| v
  | .xor => old ^^^ v
  | .min => minmaxN false false n old v
  | .max => minmaxN true false n old v

/-- RED is checked and posted; its release comes first. -/
def redEff (g : Nat) (b c : Reg) (y : Sync) (op : RedOp) (ch : Hint) (s : State) : Res Unit :=
  let x := s.hall g
  let n := amoBytes y
  let va := (x.c.reg b).toNat
  (amoResolve s g .seq va n (op == .add)).andThen fun p s =>
  if p.ownedT0 s (s.ctxOf g) va n then .trap .access (addrWord va) s else
  let rel := ordReleases y.ord && scopeWide y.scp
  if ordReleases y.ord ∧ x.posted ≠ [] then .wait s
  else (release s g rel).andThen fun clk s =>
  .ok () (s.updHall g fun x => { x.discardOverlap (amoKey p) n with
    posted := x.posted ++ [⟨va, amoKey p, y.dbl, op, BitVec.ofNat 64 (lowN n (x.c.reg c)), x.pc, ch, x.leaves y.scp clk⟩] })

def execRed (h : SHdr) (b c : Reg) (y : Sync) (op : RedOp) (s : State) : Out :=
  .next (cWord h [b, c] [] (fun g s => redEff g b c y op h.ch s) s)

/-- The oldest posted RED of a hall performs (R364 to R366). A fault met now freezes the hall at the sequencer's position:
MEMERR for an error in the data or a check that fails, INTEG under R126, and it stays posted; a host's error status is
ACCESS, after which it is not performed again. -/
def redPerform (s : State) (g : Nat) : State :=
  let x := s.hall g
  match x.posted with
  | [] => s
  | p :: rest =>
    if x.held then s
    else
      let n := if p.dbl then 8 else 4
      let v := p.value.toNat
      let m : Amo := ⟨n, 0xA, p.value, p.op == .add, fun old => some (redFun p.op n old v)⟩
      let stop (c : Cause) (i : Word) (s : State) : State := freeze s g 8 7 0 0 0 c i [BitVec.ofNat 64 p.off]
      let fault (c : Cause) (i : Word) (s : State) : State :=
        match c with
        | .mrdiv | .integ => stop c i s
        | _ => stop .memerr (addrWord p.addr) s
      let gone (s : State) : State := s.updHall g fun x => { x with posted := rest }
      match amoResolve s g .seq p.addr n m.host with
      | .ok pl s =>
        let host := match pl with | .host _ => true | _ => false
        let perform (s : State) : Res Unit := (amoApply s g p.addr m p.ch pl).andThen fun _ s =>
          .ok () (gone (leaveCarry s (amoKey pl) n g p.leaves))
        match loggedIf s (s.ctxOf g) ⟨amoNode s pl, srcSeq g, 2, 0xA, p.addr, p.value⟩ perform with
        | .ok _ s => s
        | .trap .access i s => if host then stop .access (addrWord p.addr) (gone s) else fault .access i s
        | .trap c i s | .freeze c i s => fault c i s
        | .wait s => s
      | .trap c i s | .freeze c i s => fault c i s
      | .wait s => s

def execRedPerform (hall : HallId) (s : State) : Out := .next (redPerform s hall.val)

/-! ## FENCE (R367, R368) -/

/-- The fences a hall has made, after one more: it stands for every earlier one of its scope or a narrower one. -/
def Hall.fenced (x : Hall) (scp : Scope) (clk : List Nat) : Hall :=
  if clk = [] then x
  else { x with fenceRel := (scp, clk) :: x.fenceRel.filter (fun f => scopeRank scp < scopeRank f.1) }

/-- FENCE: a release waits for posted REDs and host stores; an acquire joins what earlier load-class accesses read, as far
as the scopes pair, and leaves the rest for a wider FENCE. -/
def fenceEff (g : Nat) (ord : Ord) (scp : Scope) (s : State) : Res Unit :=
  let acq (s : State) : State :=
    if ordAcquires ord then
      (acquire s g (scopeWide scp) (carryClock (s.hall g).seen (·.pairs g scp))).updHall g fun x =>
        { x with seen := x.seen.filter (fun c => !c.pairs g scp) }
    else s
  if ordReleases ord then
    if (s.hall g).posted ≠ [] then .wait s
    else (release s g (scopeWide scp)).andThen fun clk s => .ok () (acq (s.updHall g fun x => x.fenced scp clk))
  else .ok () (acq s)

def execFence (h : SHdr) (ord : Ord) (scp : Scope) (s : State) : Out :=
  .next (cWord h [] [] (fun g s => fenceEff g ord scp s) s)

/-! ## The gallery barrier (R370, R141) -/

/-- The key of a task's barrier unit, of the hall's gallery. -/
def barUnitOf (s : State) (b : Binding) (g : Nat) : Option Nat :=
  ((s.task? b.task).bind (·.unit)).map (fun u => 3 * galleryOf g + u)

def State.bar (s : State) (k : Nat) : BarUnit := mget s.bars k default

/-- Instances of the task that have neither arrived nor executed EXIT. -/
def barMissing (t : Task) (u : BarUnit) : List Nat :=
  (List.range t.halls).filter (fun i => !(u.arrived.any (fun a => a.1 == i)) && !(t.retired.getD i false))

/-- Each arrival of a completed generation acquires, receives g + 1 and retires. -/
def barRelease (t : Task) (u : BarUnit) (s : State) : State :=
  u.arrived.foldl (fun s a =>
    let h := t.granted.getD a.1 0
    let pc := (s.hall h).pc
    ((acquire s h true u.clock).wc h (Fin.ofNat 64 a.2.1) ((u.gen + 1).zeroExtend 64)).updHall h
      fun x => x.retire (pc + 8) false false a.2.2) s

/-- A generation completes once every instance has arrived or executed EXIT, and the task is not frozen (R370). -/
def barComplete (s : State) (k : Nat) : State :=
  let u := s.bar k
  match u.task.bind s.task? with
  | none => s
  | some t =>
    if u.arrived = [] ∨ barMissing t u ≠ [] ∨ t.state = .frozen ∨
        (t.onHalls.any (fun h => (s.hall h).held)) then s
    else
      match logEvent s t.id.ctx ⟨0x4000 + k, srcSeq (t.granted.getD 0 0), 3, 0, t.id.va, u.gen.zeroExtend 64⟩ with
      | .go s => barRelease t u { s with bars := mset s.bars k { u with gen := u.gen + 1, arrived := [], clock := [] } }
      | .stall s => s
      | .diverge i s => (t.granted.head?.map (fun h => freeze s h 8 7 0 0 0 .mrdiv i [])).getD s

/-- GBAR: a hall task completes at once; otherwise the instance arrives and waits for its generation. -/
def gbarEff (g : Nat) (a : Reg) (y : Bool) (s : State) : Res Unit :=
  match (s.hall g).bind with
  | none => .ok () s
  | some b =>
    if (s.hall g).posted ≠ [] then .wait s
    else
      match barUnitOf s b g with
      | none => (release s g true).andThen fun _ s => .ok () ((acquire s g true []).wc g a 0)
      | some k =>
        if (s.bar k).arrived.any (fun r => r.1 == b.inst) then .wait (s.updHall g fun x => { x with wait := .gbar })
        else (release s g true).andThen fun clk s =>
          let u := s.bar k
          let u' : BarUnit := { u with arrived := u.arrived ++ [(b.inst, a.val, y)], clock := clockMax u.clock clk }
          .wait (State.updHall { s with bars := mset s.bars k u' } g fun x => { x with wait := .gbar })

/-- After an arrival, or on a waiting hall's turn, the unit completes the generation when it can. -/
def gbarWord (h : SHdr) (a : Reg) (s : State) : State :=
  let s' := cWord h [] [a] (fun g s => gbarEff g a h.y s) s
  match s.cur with
  | .seq g =>
    if (s'.hall g).wait = .gbar then
      match (s'.hall g).bind with
      | some b => ((barUnitOf s' b g).map (barComplete s')).getD s'
      | none => s'
    else s'
  | _ => s'

def execGbar (h : SHdr) (a : Reg) (s : State) : Out := .next (gbarWord h a s)

def execGbarGenerationComplete (gal : Fin 8) (unit : Fin 3) (s : State) : Out :=
  .next (barComplete s (3 * gal.val + unit.val))

/-! ## MARK (R371) -/

def execMark (h : SHdr) (b : Reg) (s : State) : Out :=
  .next (cWord h [b] [] (fun g s =>
    logged s (s.ctxOf g) ⟨0x9000 + g, srcSeq g, 7, 0, (s.hall g).pc, s.rc g b⟩ fun s => .ok () s) s)

end Sys2Proof.Machine
end

