-- ==== Sys2Proof/Machine/Tensor.lean ====
section
/-! DEFINITION. Tensor identifier entries (spec/02 R38 to R43, spec/11 R305), and the reads and writes that engines make
through the hall's L1 and at bank ports (spec/10, spec/11 R277). -/

namespace Sys2Proof.Machine

/-! ## Fields (R38) -/

def Tensor.zero : Tensor := ⟨0, 0, 0, 0⟩
def Tensor.valid (t : Tensor) : Bool := t.w0.getLsbD 63
def Tensor.lens (t : Tensor) : Bool := t.w0.getLsbD 62
/-- Number of dimensions, 1 to 4. -/
def Tensor.dims (t : Tensor) : Nat := nbits t.w0.toNat 60 2 + 1
def Tensor.base (t : Tensor) : Nat := nbits t.w0.toNat 0 56
def Tensor.kd (t : Tensor) : Nat := nbits t.w1.toNat 52 12
def Tensor.fmt? (t : Tensor) : Option Fmt := Fmt.ofCode (nbits t.w1.toNat 47 5)
def Tensor.fmt (t : Tensor) : Fmt := t.fmt?.getD .int8
def Tensor.sfmt (t : Tensor) : Nat := nbits t.w1.toNat 45 2
def Tensor.layout (t : Tensor) : Nat := nbits t.w1.toNat 42 3
def Tensor.swz (t : Tensor) : Nat := nbits t.w1.toNat 39 3
/-- SBASE in bytes from BASE, signed. -/
def Tensor.sbase (t : Tensor) : Int := 64 * sextNat (nbits t.w1.toNat 15 24) 24
/-- Extent of dimension `k`. -/
def Tensor.ext (t : Tensor) (k : Nat) : Nat := nbits t.w2.toNat (16 * k) 16 + 1
/-- Stride of dimension `k`, 1 to 3, in units of 64 bytes. -/
def Tensor.stride (t : Tensor) (k : Nat) : Nat := if k = 0 then 0 else nbits t.w3.toNat (21 * (k - 1)) 21
def Tensor.bits (t : Tensor) : Nat := t.fmt.bits
/-- Elements a scale covers (R38). -/
def Tensor.block (t : Tensor) : Nat := if t.sfmt = 2 then 16 else 32
/-- Number of elements. -/
def Tensor.count (t : Tensor) : Nat := t.ext 0 * t.ext 1 * t.ext 2 * t.ext 3

/-- What TDEF checks of an entry (R305). -/
def Tensor.defOk (t : Tensor) : Bool :=
  nbits t.w0.toNat 56 4 == 0 && nbits t.w1.toNat 0 15 == 0 && !t.w3.getLsbD 63
  && t.fmt?.isSome && t.sfmt < 3 && t.layout < 3 && t.swz < 4
  && (List.range 4).all (fun k => k < t.dims || t.ext k == 1)

/-- The entry a context's table holds under a number. -/
def tensorOf (s : State) (ctx : Word) (n : Nat) : Tensor :=
  match s.ctx? ctx with
  | some c => mget c.tensors n Tensor.zero
  | none => Tensor.zero

/-! ## Checks at use (R39, R40) -/

/-- The alignment rules of R40. -/
def Tensor.aligned (t : Tensor) : Bool :=
  t.base % (if t.bits < 8 then 16 else t.bits / 8) == 0
  && (t.swz == 0 || (t.base % 128 == 0 && t.stride 1 % 2 == 0))
  && (t.layout != 2 || t.base % 2048 == 0)
  && (t.sfmt == 0 || t.ext 0 % t.block == 0)

/-- Formats a scale may accompany (R40). -/
def scalable (f : Fmt) : Bool := (0x07 ≤ f.code && f.code ≤ 0x0B) || f.isBfp

/-- The combinations of R39 and R40 that raise CFG at use. -/
def Tensor.shapeOk (t : Tensor) : Bool :=
  (t.layout != 1 || t.stride 1 == 0)
  && (t.layout != 2 || (t.dims == 2 && t.swz == 0 && (t.ext 1 + 31) / 32 * 64 * t.stride 1 ≤ 2048))
  && (if t.sfmt = 0 then !t.fmt.isBfp else scalable t.fmt)

/-- The first fault of R39 and R40 in the order of R13. -/
def Tensor.useFault (t : Tensor) : Option Cause :=
  if !t.aligned then some .align else if !t.shapeOk then some .cfg else none

/-! ## Addresses (R39) -/

/-- An element's index (i0, i1, i2, i3). -/
structure Idx where
  i0 : Nat
  i1 : Nat
  i2 : Nat
  i3 : Nat
  deriving DecidableEq, Repr, Inhabited

/-- The index of the element at a position, dimension 0 fastest. -/
def Tensor.idx (t : Tensor) (n : Nat) : Idx :=
  ⟨n % t.ext 0, n / t.ext 0 % t.ext 1, n / (t.ext 0 * t.ext 1) % t.ext 2, n / (t.ext 0 * t.ext 1 * t.ext 2)⟩

/-- Whether an index lies within the extents (R41). -/
def Tensor.inside (t : Tensor) (i : Idx) : Bool := i.i0 < t.ext 0 && i.i1 < t.ext 1 && i.i2 < t.ext 2 && i.i3 < t.ext 3

/-- The bit offset before swizzling. -/
def Tensor.rawBit (t : Tensor) (i : Idx) : Nat :=
  match t.layout with
  | 1 => 512 * (i.i2 * t.stride 2 + i.i3 * t.stride 3)
      + t.bits * (4096 * (i.i1 / 64 * ((t.ext 0 + 63) / 64) + i.i0 / 64) + 64 * (i.i1 % 64) + i.i0 % 64)
  | 2 => 8 * (2048 * (i.i1 % 32) + 64 * t.stride 1 * (i.i1 / 32)) + i.i0 * t.bits
  | _ => 512 * (i.i1 * t.stride 1 + i.i2 * t.stride 2 + i.i3 * t.stride 3) + i.i0 * t.bits

/-- Byte offset `y` with bits [6:4] swizzled by row `j`. -/
def swizzle (swz j y : Nat) : Nat :=
  let m := match swz with | 1 => 8 | 2 => 4 | 3 => 2 | _ => 1
  y - nbits y 4 3 * 16 + (nbits y 4 3 ^^^ j % m) * 16

/-- The address of byte `k` of an element: each byte of one that crosses a byte is swizzled on its own (R39, R46). -/
def Tensor.byteAddr (t : Tensor) (i : Idx) (k : Nat) : Nat :=
  let j := if t.layout = 1 then i.i1 % 64 else i.i1
  t.base + swizzle t.swz j (t.rawBit i / 8 + k)

/-- The absolute bit address of an element's first bit. -/
def Tensor.bitAddr (t : Tensor) (i : Idx) : Nat := 8 * t.byteAddr i 0 + t.rawBit i % 8

/-- The addresses of the bytes an element touches. -/
def Tensor.bytesOf (t : Tensor) (i : Idx) : List Nat :=
  (List.range ((t.rawBit i % 8 + t.bits + 7) / 8)).map (t.byteAddr i)

/-- The address of the scale of the block that holds an element, as a register holds it: SBASE is signed, and an address
below 0 has bits [63:56] set (R250). -/
def Tensor.scaleAddr (t : Tensor) (i : Idx) : Nat :=
  (((t.base : Int) + t.sbase + (i.i0 / t.block + t.ext 0 / t.block * (i.i1 + t.ext 1 * (i.i2 + t.ext 2 * i.i3)) : Nat))
    % 2 ^ 64).toNat

/-- Bytes an engine touches for a value of `n` bits at a bit address: first address and count. -/
def bitSpan (a n : Nat) : Nat × Nat := (a / 8, (a % 8 + n + 7) / 8)

/-- The absolute addresses of an element's bits. -/
def Tensor.bitsOf (t : Tensor) (i : Idx) : List Nat :=
  (List.range t.bits).map fun k => 8 * t.byteAddr i ((t.rawBit i % 8 + k) / 8) + (t.rawBit i % 8 + k) % 8

/-- Two elements have a bit in common. -/
def Tensor.sharesBits (t : Tensor) : Bool := !decide ((List.range t.count).flatMap (fun n => t.bitsOf (t.idx n))).Nodup

/-- R41: whether elements of a written entry overlap, by a stride of 0 or one smaller than the span of the inner
dimensions. The strides alone are compared, in the order of the dimensions, so one under which elements of different rows
interleave without a common byte counts as overlap (log 75). Swizzling moves bytes within their 128 bytes: where an outer
stride is no multiple of those, the bits of the elements decide. -/
def Tensor.overlaps (t : Tensor) : Bool :=
  let row := (t.ext 0 * t.bits + 7) / 8
  let outer (inner : Nat) (k : Nat) : Bool × Nat :=
    if t.ext k = 1 then (false, inner) else (64 * t.stride k < inner, 64 * t.stride k * (t.ext k - 1) + inner)
  let (b1, s1) :=
    match t.layout with
    | 1 => (false, (t.rawBit ⟨t.ext 0 - 1, t.ext 1 - 1, 0, 0⟩ + t.bits + 7) / 8)
    | 2 => ((t.ext 1 != 1 && decide (2048 < row)) || (decide (32 < t.ext 1) && decide (64 * t.stride 1 < row)), 65536)
    | _ => outer row 1
  let (b2, s2) := outer s1 2
  let (b3, _) := outer s2 3
  let odd (k : Nat) : Bool := t.ext k != 1 && t.stride k % 2 == 1
  b1 || b2 || b3 || (t.swz != 0 && (odd 2 || odd 3) && t.sharesBits)

/-- The page check of R41 for an entry: `leaf` is none in scratch. -/
def Tensor.pageFault (t : Tensor) (leaf : Option Word) : Option Cause :=
  match leaf with
  | none => if t.lens then some .access else none
  | some w => if pteKD w ≠ t.kd ∨ (t.lens ∧ !pteLN w) then some .access else none

/-! ## Engine accesses: plain reads and writes inside one line, through the L1 or at a bank port -/

/-- The leaf behind a place; none in scratch. -/
def placeLeaf : Place → Option Word
  | .scratch _ _ => none
  | .dev _ w => some w
  | .host _ w => some w

/-- A read: its value, and the leaf of the page (none in scratch). `full`: the read of a scratch word waits for its F
bit. `bad`: what the page makes of the access before it is made (R41). -/
def engReadIf (s : State) (h : Nat) (ag : TlbAgent) (va n : Nat) (full : Bool) (ch : Hint)
    (bad : Option Word → Option Cause) : Res (Nat × Option Word) :=
  (locate s h ag va n).andThen fun p s =>
  match bad (placeLeaf p) with
  | some c => .trap c (addrWord va) s
  | none =>
    match p with
    | .scratch t off =>
      if full then (scratchRead s h t off va n).andThen fun v s => .ok (v, none) s
      else
        let y := s.hall t
        if y.badAt off n then .trap .memerr (addrWord va) s
        else
          let ctx := s.ctxOf h
          (raceCheck s ctx h (s.epoch ctx h) (recOfScratch t off) va (spanBytes off n) false).andThen fun _ s =>
          .ok (cval (s.hall t).scratch off n, none) s
    | .host ha leaf =>
      (hostReach s h ha va leaf).andThen fun _ s => (hostRead s h ha va n ch).andThen fun v s => .ok (v, some leaf) s
    | .dev pa leaf =>
      (devRead s h pa leaf va n ch).andThen fun v s =>
      .ok (v, some leaf) (if ag = .ce then dependOn s (s.ctxOf h) h (pa / 128) else s)

def engRead (s : State) (h : Nat) (ag : TlbAgent) (va n : Nat) (full : Bool) (ch : Hint) : Res (Nat × Option Word) :=
  engReadIf s h ag va n full ch (fun _ => none)

/-- What forbids a write of `n` bytes, in the order of R13: T0 of a spawned task (R29), a lens page (R23), no translation, or a
page without WR (R255). -/
def writable (s : State) (h : Nat) (ag : TlbAgent) (va n : Nat) : Res Place :=
  if ownsT0 s (s.ctxOf h) va n then .trap .access (addrWord va) s
  else (locate s h ag va n).andThen fun p s =>
  match p with
  | .scratch .. => .ok p s
  | .host _ leaf => if pteWR leaf then .ok p s else .trap .xlat (addrWord va) s
  | .dev pa leaf =>
    if ownsT0At s (s.ctxOf h) pa n || pteLN leaf then .trap .access (addrWord va) s
    else if pteWR leaf then .ok p s else .trap .xlat (addrWord va) s

/-- A write: T0 of a spawned task and lens pages are refused, F bits stay. A copy engine's write to scratch is neither
checked nor recorded for races (R384). -/
def engWrite (s : State) (h : Nat) (ag : TlbAgent) (va n v : Nat) (ch : Hint) (w : Writer := .unit) :
    Res (Option Word) :=
  (writable s h ag va n).andThen fun _ s =>
  (resolve s h ag va n).andThen fun p s =>
  match p with
  | .scratch t off =>
    if ag = .ce then
      if portBusy s t off n then .wait s
      else .ok none ((endCarry s (keyOfScratch t off) n).updHall t fun y => y.put off (leBytes n v))
    else (scratchWrite s h t off va n v).andThen fun _ s => .ok none s
  | .host ha leaf => .ok (some leaf) (hostWrite s h ha va n v ch w)
  | .dev pa leaf => (devWrite s h pa leaf va n v ch).andThen fun _ s => .ok (some leaf) s

/-- Read one byte after another at the addresses of a list, the first lowest; the page check of an entry is made on
every byte before the read (R41). The flag says that one lay in a lens page. -/
def readBytes (s : State) (h : Nat) (ag : TlbAgent) (t : Tensor) (full : Bool) (ch : Hint) : List Nat → Res (Nat × Bool)
  | [] => .ok (0, false) s
  | va :: vas =>
    (engReadIf s h ag va 1 full ch t.pageFault).andThen fun b s =>
    (readBytes s h ag t full ch vas).andThen fun hi s =>
    .ok (b.1 + 256 * hi.1, hi.2 || (b.2.map pteLN).getD false) s

/-- Read an element: its bits, and whether it lies in a lens page (R41, R46). -/
def readElem (s : State) (h : Nat) (ag : TlbAgent) (t : Tensor) (i : Idx) (full : Bool) (ch : Hint) : Res (Nat × Bool) :=
  let a := t.byteAddr i 0
  if !t.inside i then .trap .access (addrWord a) s
  else if t.bits < 8 then
    (readBytes s h ag t full ch (t.bytesOf i)).andThen fun b s => .ok (nbits b.1 (t.rawBit i % 8) t.bits, b.2) s
  else
    (engReadIf s h ag a (t.bits / 8) full ch t.pageFault).andThen fun b s => .ok (b.1, (b.2.map pteLN).getD false) s

/-- Read the scale of an element's block. -/
def readScale (s : State) (h : Nat) (ag : TlbAgent) (t : Tensor) (i : Idx) (full : Bool) (ch : Hint) : Res (Nat × Bool) :=
  readBytes s h ag t full ch [t.scaleAddr i]

/-- Where an access through an entry leads, with the page check before any write. -/
def entryPlace (s : State) (h : Nat) (ag : TlbAgent) (t : Tensor) (va n : Nat) : Res Place :=
  (locate s h ag va n).andThen fun p s =>
  match t.pageFault (placeLeaf p) with
  | some c => .trap c (addrWord va) s
  | none => .ok p s

/-- The byte a copy has already put at a host address, where its data waits to leave. -/
def copiedByte (s : State) (w : Writer) (p : Place) : Option Nat :=
  match p with
  | .host ha _ =>
    match (s.egress.filter (fun e => e.job.isSome && e.job == w.job && e.host ≤ ha && ha < e.host + e.data.length)).getLast? with
    | some e => some (e.data.getD (ha - e.host) 0).toNat
    | none => none
  | _ => none

/-- Replace bits [lo, lo + n) of the byte at an address. -/
def writeBits (s : State) (h : Nat) (ag : TlbAgent) (t : Tensor) (va lo n v : Nat) (ch : Hint)
    (w : Writer := .unit) : Res Unit :=
  (entryPlace s h ag t va 1).andThen fun _ s =>
  (writable s h ag va 1).andThen fun p s =>
  ((match copiedByte s w p with
    | some b => .ok b s
    | none => (engRead s h ag va 1 false ch).andThen fun b s => .ok b.1 s) : Res Nat).andThen fun b s =>
  (engWrite s h ag va 1 (b - nbits b lo n * 2 ^ lo + v % 2 ^ n * 2 ^ lo) ch w).andThen fun _ s => .ok () s

/-- Write an element (R46). -/
def writeElem (s : State) (h : Nat) (ag : TlbAgent) (t : Tensor) (i : Idx) (v : Nat) (ch : Hint)
    (w : Writer := .unit) : Res Unit :=
  let a := t.byteAddr i 0
  let b := t.bits
  if !t.inside i then .trap .access (addrWord a) s
  else if b < 8 then
    let lo := t.rawBit i % 8
    let n := min b (8 - lo)
    (writeBits s h ag t a lo n v ch w).andThen fun _ s =>
    if n = b then .ok () s else writeBits s h ag t (t.byteAddr i 1) 0 (b - n) (v / 2 ^ n) ch w
  else
    (entryPlace s h ag t a (b / 8)).andThen fun _ s =>
    (engWrite s h ag a (b / 8) v ch w).andThen fun _ s => .ok () s

/-! ## A value the spec does not state -/

/-- A trap whose `trap.info` no rule gives: a free value (log 7). -/
def trapOpen {α : Type} (c : Cause) (s : State) : Res α :=
  let (k, s) := s.draw
  .trap c (Config.freeWord k) s

end Sys2Proof.Machine
end

