-- ==== Sys2Proof/Machine/Launch.lean ====
section
/-! DEFINITION. Task records, SPAWN, CFGLD, CFGREL, TRIG, EXIT and the trigger walk (spec/02 R24 to R33, spec/06 R130 to
R135, R149 to R156). -/

namespace Sys2Proof.Machine

/-! ## Context halls and Landing entries (R128, R130, R135, R136) -/

/-- Halls of a context that are in service. -/
def ctxHalls (s : State) (c : Ctx) : List Nat :=
  (List.range 48).filter (fun h => c.halls.getLsbD h && (s.hall h).res != .fenced)

/-- The dispatcher's hall: the lowest-numbered one of the context (R119). -/
def Ctx.home (c : Ctx) : Nat := ((List.range 48).find? (fun h => c.halls.getLsbD h)).getD 0

def holdsDie (s : State) (c : Ctx) (d : Nat) : Bool := (ctxHalls s c).any (fun h => dieOf h == d)

/-- The die whose Landing takes a task, given the one it is meant for (R133, R135). -/
def targetDie (s : State) (c : Ctx) (d : Nat) : Nat := if holdsDie s c d then d else 1 - d

/-- Entries a context holds in a Landing. -/
def entriesOn (s : State) (ctx : Word) (d : Nat) : Nat :=
  (s.tasks.filter (fun t => t.id.ctx == ctx && t.die == d && t.state != .waiting)).length

def quotaFree (s : State) (c : Ctx) (d : Nat) : Bool := entriesOn s c.id d < c.quota.getD d 0

/-! ## Task records (R24, R25) -/

def t0Kidx (w : Nat) : Nat := nbits w 48 16
def t0Halls (w : Nat) : Nat := nbits w 45 3
def t0Prio (w : Nat) : Nat := nbits w 43 2
def t0Etrig (w : Nat) : Bool := nbit w 42
def t0Sp (w : Nat) : Bool := nbit w 41
def t0Dn (w : Nat) : Bool := nbit w 40
def t0Pred (w : Nat) : Nat := nbits w 16 16
def t0Nsucc (w : Nat) : Nat := nbits w 0 16

/-- The eight operand slots of T2 and T3. -/
def opdSlots (t2 t3 : Nat) : List (BitVec 16) :=
  (List.range 4).map (fun k => BitVec.ofNat 16 (nbits t2 (16 * k) 16))
    ++ (List.range 4).map (fun k => BitVec.ofNat 16 (nbits t3 (16 * k) 16))

def opdMode (o : BitVec 16) : Nat := o.toNat / 16384
def opdTid (o : BitVec 16) : Nat := o.toNat % 256

/-- R25. -/
def opdsOk (os : List (BitVec 16)) : Bool :=
  let used := os.filter (fun o => opdMode o != 0)
  os.all (fun o => nbits o.toNat 8 6 == 0 && (opdMode o != 0 || opdTid o == 0))
  && (used.map opdTid).dedup.length == used.length

/-- Step 3 of R28. -/
def recordFieldsOk (t0 t1 t2 t3 : Nat) : Bool :=
  nbits t0 32 8 == 0 && 1 ≤ t0Halls t0 && t0Halls t0 ≤ 6 && !t0Sp t0 && !t0Dn t0 && t0Nsucc t0 ≤ 4096
  && nbits t1 56 8 == 0 && opdsOk (opdSlots t2 t3)

/-- Bytes of device memory as the hall's own writes leave them: its dirty L1 bytes over memory. -/
def coherent (s : State) (h pa : Nat) (leaf : Word) (n : Nat) : Nat :=
  let bs := unitRead s (pteKD leaf) (pteAR leaf) pa n
  match l1Find (s.hall h) false (pa / 128) with
  | some l =>
    if l.kd ≠ pteKD leaf then leNat bs
    else leNat (bs.zipIdx.map (fun b => if l.dirty.getLsbD (pa % 128 + b.2) then lineByte l.data (pa % 128 + b.2) else b.1))
  | none => leNat bs

/-- The hall range of a library image (R34). -/
def imageAdmits (img : LibImage) (n : Nat) : Bool := imgVal img.words 0x11 1 ≤ n && n ≤ imgVal img.words 0x12 1

/-- R133 step 1: HALLS halls of one gallery, not the dispatcher's. -/
def roomFor (s : State) (c : Ctx) (n : Nat) : Bool :=
  (List.range 8).any (fun g => n ≤ ((ctxHalls s c).filter (fun h => galleryOf h == g && h != c.home)).length)

/-- An atomic update of a record's T0 at its L2 slice (R29, R33). -/
def writeT0 (s : State) (ctx : Word) (va pa : Nat) (leaf : Word) (v : Nat) : State :=
  leafWrite s ctx 48 pa leaf va (leBytes 8 v)

/-- Where the triggers of a record's predecessors leave their clocks until it is spawned. -/
def keyOfT0 (pa : Nat) : Nat := 2 ^ 61 + pa

/-- What earlier triggers have left for a record's task. -/
def t0Clock (s : State) (pa : Nat) : List Nat :=
  match s.carries.find? (fun c => c.addr == keyOfT0 pa) with
  | some c => c.clock
  | none => []

/-! ## SPAWN -/

/-- A task as its record gives it. -/
def newTask (id : TaskId) (t0 t1 : Nat) (ws : List Nat) : Task where
  id := id
  kidx := t0Kidx t0
  halls := t0Halls t0
  prio := t0Prio t0
  etrig := t0Etrig t0
  nsucc := t0Nsucc t0
  succ := nbits t1 0 56
  opds := opdSlots (ws.getD 0 0) (ws.getD 1 0)
  args := (ws.drop 2).map (BitVec.ofNat 64)
  die := 0
  state := .waiting
  entry := 0
  order := 0
  granted := []
  trig := List.replicate (t0Halls t0) false
  retired := List.replicate (t0Halls t0) false
  triggered := false
  dispatchSeq := 0
  resHalls := []
  resGallery := 0
  resStart := 0
  lapsed := none
  held := false
  saved := false
  unit := none
  preempting := false
  freezePt := false
  notify := []
  fencing := none
  bar := none
  acq := []
  rel := []
  exits := []

/-- A task becomes READY in a die's Landing (R131, R136, R137). -/
def Task.ready (t : Task) (s : State) (die : Nat) (clk : List Nat) : Task :=
  { t with state := .queued, die := die, entry := s.tick, order := s.orders, acq := clockMax t.acq clk }

/-- The checks of R28 and R133 step 1, then `k` with the place of T0, its leaf and the record's words. T0 is reached through
the page tables as they now stand, where its update goes (R30, R33); where they give no writable page, the update and so
the SPAWN is not performed: XLAT (log 50). -/
def spawnChecks (s : State) (g va : Nat) (k : Ctx → Nat → Word → List Nat → State → Res Unit) : Res Unit :=
  if va % 64 ≠ 0 then .trap .align (addrWord va) s
  else if ownBase ≤ va then .trap .access (addrWord va) s
  else (translate s g .seq va).andThen fun l s =>
  let leaf := l.1
  if pteHO leaf then .trap .access (addrWord va) s
  else if !pteWR leaf then .trap .xlat (addrWord va) s
  else if pteLN leaf then .trap .lens 0 s
  else
    let pa := ptePA leaf + va % pageBytes l.2
    match (s.ctx? (s.ctxOf g)).bind (fun c => devicePage s c va true) with
    | none => .trap .xlat (addrWord va) s
    | some (pa0, leaf0) =>
    (l2Fetch s (s.ctxOf g) g (pa / 128) (pteKD leaf) va (pteAR leaf) .dflt).andThen fun _ s =>
    (if pa0 = pa then .ok () s
      else l2Fetch s (s.ctxOf g) g (pa0 / 128) (pteKD leaf0) va (pteAR leaf0) .dflt).andThen fun _ s =>
    let ws := coherent s g pa0 leaf0 8 :: (List.range 7).map (fun i => coherent s g (pa + 8 * (i + 1)) leaf 8)
    let t0 := ws.getD 0 0
    let t1 := ws.getD 1 0
    if !recordFieldsOk t0 t1 (ws.getD 2 0) (ws.getD 3 0) then trapOpen .cfg s
    else if t0Nsucc t0 ≠ 0 ∧ t1 % 8 ≠ 0 then .trap .align (addrWord (nbits t1 0 56)) s
    else
      match s.ctx? (s.ctxOf g) with
      | none => .ok () s
      | some c =>
        match c.library[t0Kidx t0]? with
        | none => trapOpen .kadmit s
        | some img =>
          if !imageAdmits img (t0Halls t0) then trapOpen .kadmit s
          else if !roomFor s c (t0Halls t0) then .trap .access 0 s
          else k c pa0 leaf0 ws s

/-- SPAWN (R133): one read-modify-write of T0 (R33). -/
def spawnEff (g : Nat) (b : Reg) (xd : Bool) (s : State) : Res Unit :=
  let va := (s.rc g b).toNat
  spawnChecks s g va fun c pa leaf ws s =>
  let die := targetDie s c (if xd then 1 - dieOf g else dieOf g)
  let t0 := ws.getD 0 0
  if !quotaFree s c die ∨ (s.hall g).posted ≠ [] then .wait s
  else
    loggedIf s c.id ⟨0x6000 + dieOf g, srcSeq g, 6, b2n xd, va, BitVec.ofNat 64 t0⟩ fun s =>
    (release s g true).andThen fun clk s =>
    (l1Evict s g false (pa / 128)).andThen fun _ s =>
    let t := newTask ⟨c.id, va⟩ t0 (ws.getD 1 0) (ws.drop 2)
    let clk := clockMax clk (t0Clock s pa)
    let s := writeT0 s c.id va pa leaf (t0 + 2 ^ 41)
    let s := { s with carries := s.carries.filter (fun k => k.addr != keyOfT0 pa) }
    .ok () (if t0Pred t0 = 0 then { s with tasks := s.tasks ++ [t.ready s die clk], orders := s.orders + 1 }
            else { s with tasks := s.tasks ++ [{ t with acq := clk }] })

def execSpawn (h : SHdr) (b : Reg) (xd : Bool) (s : State) : Out :=
  .next (cWord h [b] [] (fun g s => spawnEff g b xd s) s)

/-! ## CFGLD and CFGREL -/

/-- CFGLD (R149, R150). -/
def cfgldEff (g : Nat) (a b : Reg) (s : State) : Res Unit :=
  let v := (s.rc g b).toNat
  if 2 ^ 16 ≤ v then .trap .cfg (admitInfo 0 (v % 2 ^ 16)) s
  else
    match admitKernel s (s.ctxOf g) (galleryOf g) v with
    | .ok (tag, s) => .ok () (s.wc g a (tag.zeroExtend 64))
    | .error (c, step) => .trap c (admitInfo step v) s

def execCfgld (h : SHdr) (a b : Reg) (s : State) : Out := .next (cWord h [b] [a] (fun g s => cfgldEff g a b s) s)

/-- Mark a configuration released; its entries go when no hall runs it (R152). -/
def releaseConf (s : State) (gal : Nat) (tag : BitVec 16) : State :=
  let cs := (cacheOf s gal).map (fun k => if k.tag == tag then { k with released := true } else k)
  freeReleased { s with caches := mset s.caches gal cs } gal

/-- CFGREL (R152): PRIV comes before CFG (R13, R92). -/
def cfgrelEff (g : Nat) (b : Reg) (s : State) : Res Unit :=
  let v := (s.rc g b).toNat
  let gal := nbits v 16 3
  let ctx := s.ctxOf g
  let own := (s.ctx? ctx).bind (fun c => mfind c.tags gal)
  if !s.isSystem ctx && own != some (nbits v 8 8) then .trap .priv 0 s
  else if 2 ^ 19 ≤ v then trapOpen .cfg s
  else .ok () (releaseConf s gal (BitVec.ofNat 16 v))

def execCfgrel (h : SHdr) (b : Reg) (s : State) : Out := .next (cWord h [b] [] (fun g s => cfgrelEff g b s) s)

/-! ## Triggering and retiring -/

/-- `trigger(task)`: the successor walk starts in the Landing of the task's die, once (R153). -/
def trigger (s : State) (id : TaskId) : State :=
  match s.task? id with
  | none => s
  | some t =>
    if t.triggered then s
    else
      let s := s.updTask id fun t =>
        { t with triggered := true, state := if t.state = .running then .triggered else t.state }
      if t.nsucc = 0 then s
      else { s with walks := s.walks ++ [⟨id, t.die, t.succ, t.nsucc, 0, none, none, 0, 0, t.rel⟩] }

/-- An instance's `inst.trig` becomes 1, with what its release carries (R153, R154). -/
def markTrig (s : State) (b : Binding) (clk : List Nat) : State :=
  let s := s.updTask b.task fun t => { t with trig := t.trig.set b.inst true, rel := clockMax t.rel clk }
  match s.task? b.task with
  | some t => if t.trig.all id then trigger s b.task else s
  | none => s

/-- TRIG (R153). -/
def trigEff (g : Nat) (s : State) : Res Unit :=
  match (s.hall g).bind with
  | none => .ok () s
  | some b =>
    match s.task? b.task with
    | none => .ok () s
    | some t =>
      if t.etrig && !(t.trig.getD b.inst false) then
        if (s.hall g).posted ≠ [] then .wait s
        else (release s g true).andThen fun clk s => .ok () (markTrig s b clk)
      else .ok () s

def execTrig (h : SHdr) (s : State) : Out := .next (cWord h [] [] (fun g s => trigEff g s) s)

/-- The routes a token at a place of a hall is on its way into, and whether they lead to a matrix control port. -/
def leadsToControl (x : Hall) (px py port track : Nat) : Bool :=
  match x.bind with
  | none => false
  | some b =>
    let all := b.routes.map Route.seg
    let start := all.filter (fun g => g.x == px && g.y == py && g.ins.contains (port, track))
    (segReach all all.length start).any (fun g => g.op == 4 && g.ot == 0 &&
      (match nodeAt g.x g.y with | .mx _ main => main | _ => false))

/-- A matrix control token that the sequencer pushed has not completed (R155, R369). -/
def seqMatrixPending (x : Hall) : Bool :=
  (List.range 4).any (fun c => (lget x.seqOuts c).any (·.fromSeq) && leadsToControl x 8 7 4 c)
  || x.links.any (fun l => l.2.any (·.fromSeq)
      && leadsToControl x (l.1 / 20 / 8) (l.1 / 20 % 8) (l.1 / 4 % 5) (l.1 % 4))
  || x.mx.any (fun m => (lget m.2.ins 0).any (·.fromSeq) || (m.2.busy.toList ++ m.2.ahead).any (·.seq))

/-- Copy-class instructions of a hall that have not completed (0x60 to 0x6A; R155, R369). -/
def copiesPending (s : State) (g : Nat) : Bool :=
  let x := s.hall g
  !x.copies.isEmpty || x.chains.any (fun c => c.2.active) || s.arrays.any (fun j => j.hall == g)
    || s.pmovs.any (fun j => j.hall == g)

/-- What EXIT waits for (R155). A SENC or USESIG counts as accepted once what it reads has been read, which is when the RSC
needs the hall no more (log 51). -/
def exitReady (s : State) (g : Nat) : Bool :=
  (s.hall g).posted.isEmpty && !hostPending s g && !copiesPending s g && !seqMatrixPending (s.hall g)
    && s.sencs.all (fun j => j.hall != g || j.started) && s.sigs.all (fun j => j.hall != g || j.started)

/-- DN is set through the page tables of the moment, or lost with one XLAT event (R30). -/
def setDone (s : State) (t : Task) : State :=
  match s.ctx? t.id.ctx with
  | none => s
  | some c =>
    if t.id.va = dispVA then s
    else
      match devicePage s c t.id.va true with
      | some (pa, leaf) =>
        leaveCarry (writeT0 s c.id t.id.va pa leaf (leafRead s pa leaf 8 ||| 2 ^ 40)) pa 8 (t.granted.getD 0 0)
          [(.package, t.exits)]
      | none => notifyEvent s c.id .xlat (addrWord t.id.va) (addrWord t.id.va) []

/-- A gallery task's barrier unit becomes free (R141). -/
def freeUnit (s : State) (t : Task) : State :=
  match t.unit, t.granted.head? with
  | some u, some h => { s with bars := mdel s.bars (3 * galleryOf h + u) }
  | _, _ => s

/-- The CTXSVs that wait for a task receive the status `v` (R420); one that parks the whole context waits for its last
task. INFO of CTXSV.ctx is stated nowhere (log 7). -/
def notifySave (v : Word) : List (Nat × Nat × TaskId × Bool) → State → State
  | [], s => s
  | n :: ns, s =>
    if s.tasks.any (fun u => u.notify.contains n) then notifySave v ns s
    else if n.2.2.2 then
      let (k, s) := s.draw
      notifySave v ns (statusOf n (BitVec.ofNat 64 ((Config.freeWord k).toNat % 2 ^ 32)) s)
    else notifySave v ns (statusOf n v s)

/-- The task is RETIRED: DN, and its Landing entry freed (R155). A CTXSV that waits for it ends with NOTASK (R415). -/
def retireTask (s : State) (t : Task) : State :=
  let s := setDone (freeUnit s t) t
  notifySave 0x0200000000000000 t.notify
    { s with tasks := s.tasks.filter (fun k => k.id != t.id), groups := s.groups.filter (fun k => k.1 != t.id) }

/-- EXIT (R155): the instance ends once every wait is over. -/
def exitRun (g : Nat) (s : State) : State :=
  match (s.hall g).bind with
  | none => s
  | some b =>
    if !exitReady s g then s
    else
      let s := flushRuns s g
      if (s.ctx? b.task.ctx).any (fun c => c.mirror.mode == .record) && !(s.hall g).runsWritten then s
      else
        match release s g true with
        | .ok clk s =>
          let s := match s.task? b.task with
            | some t => if t.trig.getD b.inst false then s else markTrig s b clk
            | none => s
          let s := s.updTask b.task fun t =>
            { t with retired := t.retired.set b.inst true, exits := clockMax t.exits clk }
          let s := freeReleased (unbindHall s g) (galleryOf g)
          match s.task? b.task with
          | some t =>
            if t.retired.all id then retireTask s t
            else
              match t.unit, t.granted.head? with
              | some u, some h => barComplete s (3 * galleryOf h + u)
              | _, _ => s
          | none => s
        | .trap c i s | .freeze c i s => freeze s g 8 7 0 0 0 c i []
        | .wait s => s

def execExit (h : SHdr) (s : State) : Out :=
  .next (match s.cur with
    | .seq g => if holds h (s.hall g).c then exitRun g s else computeWord g h [] [] false id (fun s => .ok none s) s
    | .addr g => if holds h (s.hall g).au.view then s else aheadWord g h [] [] id (fun _ => none) s
    | _ => s)

/-! ## The trigger walk (R31, R32) -/

/-- A record the walk may decrement: its T0's physical address and leaf. -/
def walkTarget (s : State) (c : Ctx) (e : Nat) : Option (Nat × Word) :=
  if e % 64 ≠ 0 ∨ 2 ^ 56 ≤ e ∨ ownBase ≤ e then none
  else
    match devicePage s c e true with
    | some (pa, leaf) => if pteLN leaf then none else some (pa, leaf)
    | none => none

/-- The entry at an index of a successor list. -/
def walkEntry (s : State) (c : Ctx) (w : Walk) : Option Nat :=
  let va := w.succ + 8 * w.next
  if ownBase ≤ va then none
  else
    match devicePage s c va false with
    | some (pa, leaf) => if pteLN leaf then none else some (leafRead s pa leaf 8)
    | none => none

/-- Replace the walk in progress after one entry; the last one ends it, with its one CFG event. -/
def walkNext (s : State) (w : Walk) (w' : Walk) : State :=
  let w' := { w' with next := w.next + 1 }
  if w'.next < w.nsucc then { s with walks := s.walks.map (fun k => if k == w then w' else k) }
  else
    let s := { s with walks := s.walks.filter (fun k => k != w) }
    if w'.firstBad = none ∧ w'.firstDrop = none then s
    else
      let i := w'.firstBad.getD 0xFFFF + w'.firstDrop.getD 0xFFFF * 2 ^ 16
      notifyEvent s w.task.ctx .cfg (BitVec.ofNat 64 i) (addrWord w.task.va)
        [BitVec.ofNat 64 w'.bad, BitVec.ofNat 64 w'.drop]

/-- The spawned task whose record's T0 stands at a physical address: an entry may name it by another address of its page. -/
def taskAtPA (s : State) (c : Ctx) (pa : Nat) : Option TaskId :=
  (s.tasks.find? (fun t => t.id.ctx == c.id && (devicePage s c t.id.va false).map (·.1) == some pa)).map (·.id)

/-- One decrement (R32). -/
def walkDecrement (s : State) (c : Ctx) (w : Walk) (e pa : Nat) (leaf : Word) : State :=
  let t0 := leafRead s pa leaf 8
  let ready := t0Pred t0 == 1 && t0Sp t0
  let die := targetDie s c w.die
  if ready && !quotaFree s c die then s
  else
    match logEvent s c.id ⟨nodeOfPa pa leaf, 62 * 1024 + w.die, 2, 0xD, e, addrWord w.task.va⟩ with
    | .stall s => s
    | .diverge i s => freezeContext s c.id .mrdiv i
    | .go s =>
      if t0Pred t0 = 0 then
        walkNext s w { w with firstDrop := some (w.firstDrop.getD w.next), drop := w.drop + 1 }
      else
        let s := writeT0 s c.id e pa leaf (t0 - 2 ^ 16)
        let id := (taskAtPA s c pa).getD ⟨c.id, e⟩
        let s :=
          if ready then { s.updTask id fun t => t.ready s die w.acq with orders := s.orders + 1 }
          else if t0Sp t0 then s.updTask id fun t => { t with acq := clockMax t.acq w.acq }
          else leaveCarry s (keyOfT0 pa) 4 0 [(.package, clockMax (t0Clock s pa) w.acq)]
        walkNext s w w

/-- One entry of a walk. -/
def walkOne (s : State) (w : Walk) : State :=
  match s.ctx? w.task.ctx with
  | none => { s with walks := s.walks.filter (fun k => k != w) }
  | some c =>
    match (walkEntry s c w).bind (fun e => (walkTarget s c e).map (fun p => (e, p))) with
    | none => walkNext s w { w with firstBad := some (w.firstBad.getD w.next), bad := w.bad + 1 }
    | some (e, pa, leaf) => walkDecrement s c w e pa leaf

/-- One entry of the first walk of a list that goes on: a walk that pauses at a full quota, or waits for the Mirror, holds
back no other (R153). -/
def walkFirst : List Walk → State → State
  | [], s => s
  | w :: ws, s =>
    let s' := walkOne s w
    if s'.walks = s.walks then walkFirst ws s' else s'

/-- One entry of a walk of a die, the oldest that goes on. -/
def triggerWalk (s : State) (die : Nat) : State := walkFirst (s.walks.filter (fun w => w.die == die)) s

def execTriggerWalk (die : Fin 2) (s : State) : Out := .next (triggerWalk s die.val)

end Sys2Proof.Machine
end

