-- ==== Sys2Proof/Machine/Landing.lean ====
section
/-! DEFINITION. The Landing: order, grants, reservations, BINDING (spec/06 R136 to R148, R151, R157), and the sealed spill
of a pre-empted task with its restore (spec/16 R411 to R414). -/

namespace Sys2Proof.Machine

/-! ## Order and eligibility -/

/-- Effective priority at the present tick (R137). -/
def Task.eff (t : Task) (now : Nat) : Nat := min 3 (t.prio + (now - t.entry) / 2 ^ 20)

/-- Whether `t` comes before `u` in the order of R138. -/
def before (now : Nat) (t u : Task) : Bool :=
  let a := t.eff now
  let b := u.eff now
  a > b || (a == b && (t.entry < u.entry || (t.entry == u.entry && t.order < u.order)))

def insertReady (now : Nat) (t : Task) : List Task → List Task
  | [] => [t]
  | u :: us => if before now u t then u :: insertReady now t us else t :: u :: us

def sortReady (now : Nat) : List Task → List Task
  | [] => []
  | t :: ts => insertReady now t (sortReady now ts)

/-- The kernel of a library image, as its bytes give it. -/
def imageKernel (img : LibImage) : Kernel :=
  kernelOf img.words ((List.range (imgVal img.words 6 2)).map (secEntry img.words))

def kernelInfo (c : Ctx) (kidx : Nat) : Option Kernel := c.library[kidx]?.map imageKernel

/-- Facets a kernel's rule pools, conflict matrices and routes name (R148). -/
def Kernel.facetsNamed (k : Kernel) : List Nat :=
  k.sections.filterMap (fun c => if c.type == 2 || c.type == 3 then facetAt (nodeX c.node) (nodeY c.node) else none)
  ++ k.routes.filterMap (fun r =>
      if r.op == 4 || r.ipA == 4 || (r.mrg && r.ipB == 4) then facetAt r.x r.y else none)
  ++ k.ctl.filterMap (fun r =>
      if r.op == 4 || r.ipA == 4 || (r.mrg && r.ipB == 4) then facetAt r.x r.y else none)

/-- Scratch bytes a kernel's scratch-data sections reach (R37). -/
def Kernel.reach (k : Kernel) : Nat :=
  (k.sections.filter (·.type == 11)).foldl
    (fun m c => max m ((c.body.headD 0).toNat + 8 * (c.body.length - 1))) 0

/-- R148 on one hall. -/
def splitOk (s : State) (t : Task) (k : Kernel) (x : Hall) : Bool :=
  k.split != 0 ||
    (if t.saved then s.saves.all (fun v => v.ctx != t.id.ctx || v.task != t.id || v.split == x.split)
     else k.reach ≤ x.size && k.facetsNamed.all (fun f => x.split ≤ f))

/-- R138: whether a hall is eligible for a task. The dispatcher's own hall takes the dispatcher only (R119). -/
def eligible (s : State) (c : Ctx) (t : Task) (k : Kernel) (h : Nat) : Bool :=
  let x := s.hall h
  c.halls.getLsbD h && x.res != .fenced && dieOf h == t.die
  && (if t.id.va = dispVA then h == c.home else h != c.home) && splitOk s t k x

/-- A ready task holds halls: by its reservation, or freed for it by victims (R142, R146). -/
def Task.holding (t : Task) : Bool := t.state == .reserving || (t.state == .queued && t.resHalls != [])

/-- Halls held for a task by its reservation or its pre-emption (R142, R146). -/
def heldFor (s : State) (u : Task) (h : Nat) : Bool :=
  u.resHalls.contains h ||
  (u.state == .reserving && galleryOf h == u.resGallery &&
    (match s.ctx? u.id.ctx with
     | some c => (match kernelInfo c u.kidx with
       | some k => eligible s c u k h
       | none => false)
     | none => false))

/-- A hall free for a task; `freed` counts as free. -/
def freeFor (s : State) (t : Task) (freed : List Nat) (h : Nat) : Bool :=
  ((s.hall h).res == .idle || freed.contains h)
  && !s.tasks.any (fun u => u.id != t.id && heldFor s u h && !(u.eff s.tick < t.eff s.tick))

/-- A node of the hall holds the kernel's configuration (R140). -/
def holdsTag (s : State) (c : Ctx) (kidx h : Nat) : Bool :=
  let x := s.hall h
  match (cacheOf s (galleryOf h)).find? (fun k => k.ctx == c.id && k.kidx == kidx && !k.released) with
  | some k => x.lastCtx == c.id && x.stores.any (fun p => p.2.any (fun e => e.tag == k.tag))
  | none => false

def atSplit (s : State) (k : Kernel) (h : Nat) : Bool := k.split == 0 || (s.hall h).split == k.split

/-- The order in which halls of a list are taken (R140). -/
def rankHalls (s : State) (c : Ctx) (t : Task) (k : Kernel) (hs : List Nat) : List Nat :=
  let tagged := hs.filter (holdsTag s c t.kidx)
  let rest := hs.filter (fun h => !tagged.contains h)
  tagged ++ rest.filter (atSplit s k) ++ rest.filter (fun h => !atSplit s k h)

/-- The free eligible halls of each gallery of a task's die. -/
def candidates (s : State) (c : Ctx) (t : Task) (k : Kernel) (freed : List Nat) : List (Nat × List Nat) :=
  (List.range 4).map fun g =>
    let gal := 4 * t.die + g
    (gal, ((List.range 6).map (· + 6 * gal)).filter (fun h => eligible s c t k h && freeFor s t freed h))

/-- The halls of a gallery that a task may take together: for a kernel with SPLIT 0 those of one split (R148). -/
def together (s : State) (k : Kernel) (p : Nat × List Nat) : List (Nat × List Nat) :=
  if k.split = 0 then [8, 12, 16].map (fun n => (p.1, p.2.filter (fun h => (s.hall h).split == n))) else [p]

/-- The keys of R140 of a candidate, most significant first. -/
def rankKey (s : State) (c : Ctx) (t : Task) (k : Kernel) (p : Nat × List Nat) : Nat :=
  (p.2.filter (holdsTag s c t.kidx)).length * 10000 + (p.2.filter (atSplit s k)).length * 100 + p.2.length

/-- The best candidate: highest keys, then the earliest. -/
def bestOf (key : Nat × List Nat → Nat) : List (Nat × List Nat) → Option (Nat × List Nat)
  | [] => none
  | p :: ps => match bestOf key ps with
    | some q => if key p < key q then some q else some p
    | none => some p

/-- Insert a number into a rising list. -/
def insNat (x : Nat) : List Nat → List Nat
  | [] => [x]
  | y :: l => if x < y then x :: y :: l else y :: insNat x l

def sortNat (l : List Nat) : List Nat := l.foldr insNat []

/-- The halls `grant` would choose, in instance order (R140, R141): the gallery by the keys of R140 over all its free
eligible halls; within it, for SPLIT 0, the split by the same keys over the halls that share it (log 53). -/
def chooseHalls (s : State) (c : Ctx) (t : Task) (k : Kernel) (freed : List Nat) : Option (List Nat) :=
  if t.halls = 1 then
    let hs := (List.range 48).filter (fun h => eligible s c t k h && freeFor s t freed h)
    let tagged := hs.filter (holdsTag s c t.kidx)
    match tagged, hs.filter (atSplit s k), hs with
    | h :: _, _, _ => some [h]
    | [], h :: _, _ => some [h]
    | [], [], h :: _ => some [h]
    | [], [], [] => none
  else
    let fits (p : Nat × List Nat) : Bool := t.halls ≤ p.2.length
    let best := bestOf (rankKey s c t k)
    match best ((candidates s c t k freed).filter (fun p => (together s k p).any fits)) with
    | some p => (best ((together s k p).filter fits)).map fun q => sortNat ((rankHalls s c t k q.2).take t.halls)
    | none => none

/-! ## The Landing under the Mirror (R157) -/

def srcLanding (die : Nat) : Nat := 62 * 1024 + die

/-- The Landing makes a logged decision, or waits with it. -/
def landingLog (s : State) (ctx : Word) (e : LogEv) : Bool × State :=
  match s.ctx? ctx with
  | none => (false, s)
  | some c =>
    match c.mirror.mode with
    | .off => (true, s)
    | .record => (match mirrorAppend s c e 64 with | .go s => (true, s) | .stall s => (false, s) | .diverge _ s => (false, s))
    | .replay =>
      match findOwn s c e.node e.src c.mirror.window c.mirror.tail with
      | .none => (false, placeStalls s c e.node e.src)
      | .bad i => (false, freezeContext s ctx .mrdiv i)
      | .own i r =>
        if r.getD 2 0 == (e.words i 0).getD 2 0 && r.getD 3 0 == e.data
            && nbits (r.getD 1 0).toNat 0 32 == c.mirror.seq e.node
        then (true, consumeRecord s c e.node i) else (false, placeStalls s c e.node e.src)

/-- The halls that a REPLAY record, if it is next and grants this task, names. -/
def replayHalls (s : State) (c : Ctx) (t : Task) : Option (List Nat) :=
  let node := 0x6000 + t.die
  match findOwn s c node (srcLanding t.die) c.mirror.window c.mirror.tail with
  | .own _ r =>
    let l3 := (r.getD 3 0).toNat
    if nbits (r.getD 1 0).toNat 0 32 == c.mirror.seq node && (r.getD 2 0) == BitVec.ofNat 64 (5 * 2 ^ 60 + t.id.va)
        && nbits l3 36 3 == t.halls
    then some ((List.range t.halls).map (fun k => nbits l3 (6 * k) 6)) else none
  | _ => none

/-- The pre-emption, if any, that a REPLAY context's next record of a Landing names: the victim's record address and the
head's, 0 for a head of another context (R157, R392). -/
def replayVictim (s : State) (c : Ctx) (die : Nat) : Option (Nat × Nat) :=
  let node := 0x6000 + die
  match findOwn s c node (srcLanding die) c.mirror.window c.mirror.tail with
  | .own _ r =>
    let l2 := (r.getD 2 0).toNat
    if nbits (r.getD 1 0).toNat 0 32 == c.mirror.seq node && nbits l2 56 8 == 0x51
    then some (nbits l2 0 56, (r.getD 3 0).toNat) else none
  | _ => none

/-- Whether a victim may be taken for a head as far as the victim's Mirror goes: in REPLAY only where its record is next. -/
def replayAllows (s : State) (head t : Task) : Bool :=
  match s.ctx? t.id.ctx with
  | none => false
  | some c => c.mirror.mode != .replay ||
      replayVictim s c t.die == some (t.id.va, if t.id.ctx = head.id.ctx then head.id.va else 0)

/-- `placeable`, with the halls: in REPLAY the recorded ones once they are free. -/
def placement (s : State) (t : Task) (freed : List Nat) : Option (List Nat) :=
  match s.ctx? t.id.ctx with
  | none => none
  | some c =>
    match kernelInfo c t.kidx with
    | none => none
    | some k =>
      if c.mirror.mode = .replay then
        match replayHalls s c t with
        | some hs => if hs.all (fun h => eligible s c t k h && freeFor s t freed h) then some hs else none
        | none => none
      else chooseHalls s c t k freed

/-- DATA of a grant record (R392). -/
def grantData (hs : List Nat) : Word :=
  BitVec.ofNat 64 (hs.length * 2 ^ 36 + (hs.zipIdx.map (fun p => p.1 * 2 ^ (6 * p.2))).sum)

/-! ## Grants -/

/-- The task's group table at its first grant (R291). -/
def firstGroups (t : Task) (k : Kernel) : List (TaskId × Nat × McGroup) :=
  (k.sections.filter (·.type == 10)).flatMap (fun c => (evens c.body).map (fun w =>
    (t.id, nbits w.toNat 0 6, (⟨BitVec.ofNat 6 (nbits w.toNat 8 6), false⟩ : McGroup))))

/-- Halls enter BINDING for a task under a tag (R143, R144); a hall that comes from another context is scrubbed (R129).
An instance that has retired takes none. -/
def bindHalls (t : Task) (tag : BitVec 16) (k : Kernel) : Nat → List Nat → State → State
  | _, [], s => s
  | i, h :: hs, s =>
    if t.retired.getD i false then bindHalls t tag k (i + 1) hs s
    else
      let s := if (s.hall h).lastCtx = t.id.ctx then s else scrubHall s h
      bindHalls t tag k (i + 1) hs (s.updHall h fun x =>
        { x with res := .binding, bound := false, bind := some ⟨t.id, i, t.kidx, tag, k⟩, wdogCount := 0 })

/-- The Landing prefetches into L2 (R26): one line of the address space; what does not translate, or would fault, is
passed over. -/
def prefetchLine (s : State) (h : Nat) (c : Ctx) (kd line : Nat) : State :=
  match walk s c (line * 128) with
  | some (leaf, big) =>
    if pteHO leaf || pteKD leaf != kd then s
    else
      match l2Fetch s c.id h ((ptePA leaf + line * 128 % pageBytes big) / 128) kd (line * 128) (pteAR leaf) .dflt with
      | .ok _ s => s
      | _ => s
  | none => s

/-- The lines that the bytes from `a` to `b` lie in. -/
def prefetchRange (h : Nat) (c : Ctx) (kd a b : Nat) (s : State) : State :=
  (List.range (b / 128 + 1 - a / 128)).foldl (fun s i => prefetchLine s h c kd (a / 128 + i)) s

/-- A tensor: its elements in runs of 64 along dimension 0, which lie together in every layout (R39; swizzling stays
within a line), and its scales. -/
def prefetchTensor (s : State) (h : Nat) (c : Ctx) (t : Tensor) : State :=
  if !t.valid || t.useFault.isSome then s
  else
    let rows := t.ext 1 * t.ext 2 * t.ext 3
    let runs := (t.ext 0 + 63) / 64
    let s := (List.range (rows * runs)).foldl (fun s n =>
      let i := t.idx (n / runs * t.ext 0 + n % runs * 64)
      let j := { i with i0 := min (i.i0 + 63) (t.ext 0 - 1) }
      prefetchRange h c t.kd (t.base + t.rawBit i / 8) (t.base + (t.rawBit j + t.bits - 1) / 8) s) s
    if t.sfmt = 0 then s
    else prefetchRange h c t.kd (t.scaleAddr ⟨0, 0, 0, 0⟩)
      (t.scaleAddr ⟨t.ext 0 - 1, t.ext 1 - 1, t.ext 2 - 1, t.ext 3 - 1⟩) s

def prefetchOperands (s : State) (h : Nat) (t : Task) : State :=
  match s.ctx? t.id.ctx with
  | none => s
  | some c => t.opds.foldl (fun s o =>
      if opdMode o == 1 || opdMode o == 3 then prefetchTensor s h c (mget c.tensors (opdTid o) Tensor.zero) else s) s

/-- A refused admission (R151): DN, the entry and a spill freed, one event. -/
def refuseTask (s : State) (t : Task) (c : Cause) : State :=
  let s := setDone s t
  let s := { s with tasks := s.tasks.filter (fun k => k.id != t.id)
                    saves := s.saves.filter (fun v => v.ctx != t.id.ctx || v.task != t.id) }
  notifyEvent s t.id.ctx c (addrWord t.id.va) (addrWord t.id.va) []

/-- The tasks that a dispatched task overtakes may be reserved for again (R142). -/
def liftLapses (s : State) (t : Task) : State :=
  { s with tasks := s.tasks.map (fun u => if before s.tick u t && u.die == t.die then { u with lapsed := none } else u) }

/-- The halls are given to the task (R141, R151), once the grant is logged. -/
def assignHalls (s : State) (t : Task) (hs : List Nat) : State :=
  let gal := galleryOf (hs.headD 0)
  match admitKernel s t.id.ctx gal t.kidx with
  | .error (c, _) => refuseTask s t c
  | .ok (tag, s) =>
    match findConf s gal tag with
    | none => s
    | some kc =>
      let unit := if t.halls < 2 then none
        else (List.range 3).find? (fun u => (mfind s.bars (3 * gal + u)).isNone)
      let s := match unit with
        | some u =>
          let b : BarUnit := t.bar.getD { (default : BarUnit) with gen := 0 }
          { s with bars := mset s.bars (3 * gal + u) { b with task := some t.id } }
        | none => s
      let s := if t.saved || s.groups.any (fun g => g.1 == t.id) then s
        else { s with groups := s.groups ++ firstGroups t kc.kernel }
      let s := bindHalls t tag kc.kernel 0 hs s
      let s := { s with dispatches := s.dispatches + 1 }
      let n := s.dispatches
      let s := s.updTask t.id fun t => { t with state := .dispatched, granted := hs, unit := unit, bar := none,
                                                resHalls := [], dispatchSeq := n, lapsed := none }
      prefetchOperands (liftLapses s t) (hs.headD 0) t

/-- One grant; false when it waits for the Mirror. -/
def grant (s : State) (t : Task) (hs : List Nat) : Bool × State :=
  match landingLog s t.id.ctx ⟨0x6000 + t.die, srcLanding t.die, 5, 0, t.id.va, grantData hs⟩ with
  | (true, s) => (true, assignHalls s t hs)
  | (false, s) => (false, s)

/-- Reserve for a gallery task (R142). In REPLAY the recorded grants decide, and nothing is held (log 54). -/
def reserve (s : State) (t : Task) : State :=
  match s.ctx? t.id.ctx with
  | none => s
  | some c =>
    match kernelInfo c t.kidx with
    | none => s
    | some k =>
      if t.state = .reserving ∨ t.lapsed.isSome ∨ c.mirror.mode = .replay then s
      else
        match bestOf (rankKey s c t k) (candidates s c t k []) with
        | some p => s.updTask t.id fun t => { t with state := .reserving, resGallery := p.1, resStart := s.tick }
        | none => s

/-! ## Pre-emption by the Landing (R145, R146) -/

/-- Halls an instance of which is being saved. -/
def Task.saving (t : Task) (s : State) : Bool := t.onHalls.any (fun h => (s.hall h).res == .saving)

/-- Free spill slots of a context (R411, R413). -/
def freeSlots (s : State) (c : Ctx) : Nat :=
  c.spillslots.toNat - (s.saves.filter (fun v => v.ctx == c.id)).length
    - ((s.tasks.filter (fun t => t.id.ctx == c.id && t.saving s)).map (fun t => t.onHalls.length)).sum

/-- Insert a victim: most recently dispatched first. -/
def insVictim (t : Task) : List Task → List Task
  | [] => [t]
  | u :: us => if u.dispatchSeq < t.dispatchSeq then t :: u :: us else u :: insVictim t us

/-- Victims allowed to a head (R145, R146): running tasks of PRIO 0; one that is to stop at its freeze point is running
still, so a head that pre-empts at once may take it. -/
def victims (s : State) (head : Task) (c : Ctx) : List Task :=
  let ok (t : Task) : Bool :=
    (t.state == .running || t.state == .triggered) && !t.held && (!t.preempting || (t.freezePt && 2 ≤ head.prio))
    && t.prio == 0 && t.id.va != dispVA
    && !t.saving s && t.die == head.die && t.onHalls.all (fun h => c.halls.getLsbD h)
    && (2 ≤ head.prio || (head.prio == 1 &&
      (t.onHalls.any (fun h => ((s.hall h).bind.map (fun b => b.kernel.frz)).getD false))))
    && (match s.ctx? t.id.ctx with | some v => t.onHalls.length ≤ freeSlots s v | none => false)
  (s.tasks.filter ok).foldr insVictim []

/-- The shortest run of victims, in order, that makes the head placeable as `place` says. -/
def enough (place : List Nat → Bool) (s : State) (head : Task) (freed : List Nat) : List Task → List Task → Option (List Task)
  | [], _ => none
  | v :: vs, got =>
    let slots (c : Word) : Nat := ((got.filter (fun t => t.id.ctx == c)).map (fun t => t.onHalls.length)).sum
    let fits := match s.ctx? v.id.ctx with
      | some c => slots c.id + v.onHalls.length ≤ freeSlots s c
      | none => false
    if !fits then enough place s head freed vs got
    else
      let freed := freed ++ v.onHalls
      if place freed then some (got ++ [v]) else enough place s head freed vs (got ++ [v])

/-- Each victim is logged once, in its own context's ring, and is stopped later by PREEMPT, or at the first freeze point
issued from now on (R145). Its halls are held for the head as though reserved from now (R146). -/
def takeVictim (head : Task) (s : State) (v : Task) : State :=
  let data := if v.id.ctx = head.id.ctx then addrWord head.id.va else 0
  match landingLog s v.id.ctx ⟨0x6000 + v.die, srcLanding v.die, 5, 1, v.id.va, data⟩ with
  | (true, s) =>
    let s := v.onHalls.foldl (fun s h => s.updHall h fun x => { x with atYield := false }) s
    (s.updTask v.id fun t => { t with preempting := true, freezePt := head.prio == 1 }).updTask head.id
      fun t => { t with resHalls := t.resHalls ++ v.onHalls
                        resStart := if t.holding then t.resStart else s.tick }
  | (false, s) => s

/-- Halls already promised to a head. -/
def promised (s : State) (head : Task) : List Nat :=
  head.resHalls.filter (fun h => (s.hall h).res == .idle ||
    s.tasks.any (fun t => t.onHalls.contains h && (t.preempting || t.saving s)))

/-- `try_preempt` (R146). Halls already promised to the head count as freed. -/
def tryPreempt (s : State) (head : Task) : State :=
  match s.ctx? head.id.ctx with
  | none => s
  | some c =>
    let pending := promised s head
    if head.prio = 0 ∨ (placement s head pending).isSome then s
    else
      match enough (fun f => (placement s head f).isSome) s head pending
          ((victims s head c).filter (replayAllows s head)) [] with
      | some vs => vs.foldl (takeVictim head) s
      | none => s

/-- In REPLAY: the victim of the pre-emption that the head's own context has recorded as its next decision (R157). -/
def recordedVictim (s : State) (head : Task) : Option Task :=
  match s.ctx? head.id.ctx with
  | none => none
  | some c =>
    if c.mirror.mode ≠ .replay then none
    else match replayVictim s c head.die with
      | some (v, h) => if h = head.id.va then (victims s head c).find? (fun t => t.id == ⟨c.id, v⟩) else none
      | none => none

/-! ## The Landing's place in REPLAY (R395, R396) -/

/-- Whether the Landing could act for a context by the rules of R139 to R146 alone: grant one of its ready tasks, or take
victims for the head where head or victim is the context's. -/
def couldAct (s : State) (c : Ctx) (ready : List Task) : Bool :=
  ready.any (fun t => t.id.ctx == c.id &&
    (match kernelInfo c t.kidx with
     | some k => (chooseHalls s c t k []).isSome
     | none => false))
  || (match ready with
    | [] => false
    | head :: _ =>
      (match s.ctx? head.id.ctx with
       | none => false
       | some hc =>
         (match kernelInfo hc head.kidx with
          | none => false
          | some k =>
            head.prio != 0 &&
            (match enough (fun f => (chooseHalls s hc head k f).isSome) s head (promised s head) (victims s head hc) [] with
             | some vs => head.id.ctx == c.id || vs.any (fun v => v.id.ctx == c.id)
             | none => false))))

/-- The Landing reads its next record for a context in REPLAY: a malformed one freezes the context; else, where it has
made no decision, it waits while it could act. -/
def landingReads (s : State) (ready : List Task) (die : Nat) (ctx : Word) : State :=
  let node := 0x6000 + die
  match s.ctx? ctx with
  | none => s
  | some c =>
    if c.mirror.mode ≠ .replay then s
    else match findOwn s c node (srcLanding die) c.mirror.window c.mirror.tail with
      | .bad i => freezeContext s ctx .mrdiv i
      | _ =>
        if couldAct s c ready then placeStalls s c node (srcLanding die)
        else s.setMirror ctx { c.mirror with waits := mdel c.mirror.waits node }

/-! ## The decision (R139) -/

/-- A context for which the Landing may decide now: not parked, and with free records in RECORD (R394, R420). -/
def mayDecide (s : State) (t : Task) : Bool :=
  match s.ctx? t.id.ctx with
  | some c => !c.parked && !c.terminating && (c.mirror.mode != .record || 64 ≤ c.mirror.free)
  | none => false

/-- Ready tasks of a die in the order of R138. -/
def readyTasks (s : State) (die : Nat) : List Task :=
  sortReady s.tick (s.tasks.filter (fun t =>
    (t.state == .queued || t.state == .reserving) && t.die == die && mayDecide s t))

/-- The loop over the ready tasks; true once one is granted. `seen` holds the effective priorities whose first unplaceable
gallery task has been met. -/
def decideAll : List Task → List Nat → State → Bool × State
  | [], _, s => (false, s)
  | t :: ts, seen, s =>
    let t := (s.task? t.id).getD t
    match placement s t [] with
    | some hs =>
      match grant s t hs with
      | (true, s) => (true, s)
      | (false, s) => decideAll ts seen s
    | none =>
      let e := t.eff s.tick
      if 2 ≤ t.halls && !seen.contains e then decideAll ts (e :: seen) (reserve s t) else decideAll ts seen s

/-- The Landing's turn on a die (R139): a grant, or a pre-emption; in REPLAY a recorded pre-emption as soon as it is
next. -/
def landingDecision (s : State) (die : Nat) : State :=
  if s.phase ≠ .running then s
  else
    let ready := readyTasks s die
    match decideAll ready [] s with
    | (true, s) => s
    | (false, s) =>
      match ready.findSome? (fun t => (recordedVictim s t).map (fun v => (t, v))) with
      | some (t, v) => takeVictim t s v
      | none =>
        let s := match ready with
          | [] => s
          | head :: _ => tryPreempt s ((s.task? head.id).getD head)
        (s.ctxs.map (fun p => p.2.id)).foldl (fun s c => landingReads s ready die c) s

def execLandingDecision (die : Fin 2) (s : State) : Out := .next (landingDecision s die.val)

/-- A reservation, or the hold of victims' halls, lapses after 2^22 ticks (R142, R146). -/
def reservationLapse (s : State) (id : TaskId) : State :=
  match s.task? id with
  | some t =>
    if t.holding ∧ t.resStart + 2 ^ 22 ≤ s.tick then
      s.updTask id fun t => { t with state := .queued, resHalls := [], lapsed := some s.dispatches }
    else s
  | none => s

def execReservationLapse (ctx task : Word) (s : State) : Out := .next (reservationLapse s ⟨ctx, task.toNat⟩)

/-! ## BINDING (R144) -/

/-- Where an offset of scratch, in bytes or words of which a facet has `unit`, lies after a change of split. -/
def Hall.moved (x : Hall) (n unit a : Nat) : Option Nat :=
  if x.split * unit + a < n * unit then none else some (x.split * unit + a - n * unit)

/-- A change of split (R18, R259): scratch keeps its facets, those that change mode are zero and empty. -/
def Hall.resplit (x : Hall) (n : Nat) : Hall :=
  if n = x.split then x
  else { x with split := n, l1 := []
                scratch := x.scratch.filterMap (fun c => (x.moved n 65536 c.1).map (fun a => (a, c.2)))
                full := x.full.filterMap (x.moved n 16384), bad := x.bad.filterMap (x.moved n 16384) }

/-- What releases have left at a hall's scratch words moves with the words (R354). -/
def moveCarries (s : State) (h n : Nat) : State :=
  { s with carries := s.carries.filterMap (fun c =>
      if c.inScratch h then ((s.hall h).moved n 65536 (c.addr - keyOfScratch h 0)).map (fun a => { c with addr := keyOfScratch h a })
      else some c) }

/-- The dirty lines go back and the split changes, where it does. -/
def changeSplit (s : State) (h n : Nat) : State :=
  if n = (s.hall h).split then s
  else (moveCarries (spillL1 s h (s.ctxOf h)) h n).updHall h fun x => x.resplit n

/-- Store one scratch-data section's words and set them full (R37). -/
def Hall.applyData (x : Hall) (c : Section) : Hall :=
  let off := (c.body.headD 0).toNat
  let bs := wordsBytes (c.body.drop 1)
  (x.put off bs).setFull (off / 4) (bs.length / 4) true

/-- The sections of scratch data that an instance starts with. -/
def Binding.data (b : Binding) : List Section := b.kernel.sections.filter (fun c => c.type == 11 && nbit c.inst b.inst)

/-- The start view of R27. -/
def startView (t : Task) (inst : Nat) : View :=
  let w (v : View) (r : Nat) (x : Word) : View := v.setReg (Fin.ofNat 64 r) x
  let v := w (w (w (w View.reset 1 (t.args.getD 0 0)) 2 (t.args.getD 1 0)) 3 (t.args.getD 2 0)) 4 (t.args.getD 3 0)
  w (w v 5 (BitVec.ofNat 64 inst)) 6 (BitVec.ofNat 64 t.halls)

/-- The start state of a fresh instance (R27, R37, R58, R166, R209, R308). -/
def Hall.startFresh (x : Hall) (t : Task) (b : Binding) : Hall :=
  let t := if t.id.va = dispVA then { t with args := t.args.set 0 (BitVec.ofNat 64 (x.size - 4096)) } else t
  let v := startView t b.inst
  let x := b.data.foldl Hall.applyData x
  Hall.syncAu { x with
    pc := 0, c := v, a := v, lc := 0, ls := 0, le := 0, pend := 0, fresh := 0, trap := TrapRegs.reset, hold := false
    facets := [], mx := [], units := [], seqIns := List.replicate 4 [], seqOuts := List.replicate 4 [], seqCi := [0, 0]
    links := [], merges := [], copies := [], chains := [], posted := [], fenceRel := [], seen := [], horizon := none, streamCase := none }

/-- A fresh instance starts; its section data stand where releases may have left something (R376). -/
def startInstance (s : State) (h : Nat) (t : Task) (b : Binding) : State :=
  let s := b.data.foldl (fun s c => endCarry s (keyOfScratch h (c.body.headD 0).toNat) (8 * (c.body.length - 1))) s
  s.updHall h fun x => { x.startFresh t b with bound := true }

/-- Every token of a restored hall takes the new binding's tag (R175). -/
def Hall.retag (x : Hall) (tag : BitVec 16) : Hall :=
  let ch (l : List (List Token)) : List (List Token) := l.map (fun q => q.map (fun t => { t with tag := tag }))
  { x with
    seqIns := ch x.seqIns, seqOuts := ch x.seqOuts
    links := x.links.map (fun p => (p.1, p.2.map (fun t => { t with tag := tag })))
    facets := x.facets.map (fun p => (p.1, { p.2 with ins := ch p.2.ins, outs := ch p.2.outs, installed := false }))
    mx := x.mx.map (fun p => (p.1, { p.2 with ins := ch p.2.ins, outs := ch p.2.outs }))
    units := x.units.map (fun p => (p.1, { p.2 with ins := ch p.2.ins, outs := ch p.2.outs, installed := false })) }

/-- The saved record of an instance. -/
def savedOf (s : State) (b : Binding) : Option Saved :=
  s.saves.find? (fun v => v.ctx == b.task.ctx && v.task == b.task && v.inst == b.inst)

def slotAddr (c : Ctx) (slot : Nat) : Nat := c.spillbase.toNat + 0x800000 * slot

/-- What a save keeps of the releases at a hall's kept scratch words (R354): by offset, hall 48 standing for the saved
instance's own. -/
def savedCarries (s : State) (h : Nat) (inside : Nat → Bool) : List Carry :=
  (s.carries.filter (fun c => c.inScratch h && inside ((c.addr - keyOfScratch h 0) / 4))).map
    (fun c => { c with addr := c.addr - keyOfScratch h 0, hall := if c.hall = h then 48 else c.hall })

/-- The restored words stand in a hall's scratch, with what releases have left at them. -/
def restoreCarries (s : State) (h : Nat) (l : List Carry) : State :=
  { s with carries := l.map (fun c => { c with addr := keyOfScratch h c.addr, hall := if c.hall = 48 then h else c.hall })
             ++ s.carries.filter (fun c => !c.inScratch h) }

/-- A restore (R414): the slot must be read, and hold the image as sealed, for a hall of the same split; else INTEG. DESIGN
CHOICE (log 12): a channel counts its tokens on from the saved count, so that an index since BINDING (R216) is one since
the instance's first. -/
def restoreHall (s : State) (h : Nat) (b : Binding) (v : Saved) : Option State :=
  match s.ctx? b.task.ctx with
  | none => none
  | some c =>
    let x := s.hall h
    let (reached, s) := atsSpan s (slotAddr c v.slot) v.image.length
    if !reached ∨ cread s.hostMem (slotAddr c v.slot) v.image.length ≠ v.image ∨ v.split ≠ x.split then none
    else
      let y := v.hall.retag b.tag
      let s := s.setHall h (Hall.syncAu { y with
        res := .binding, bind := some b, lastCtx := x.lastCtx, split := x.split, l1 := x.l1, tlb := x.tlb,
        stores := x.stores, copies := y.copies.map (fun j => { j with parked := false }), bound := true })
      some { restoreCarries (joinClock s h v.clock) h v.carries with saves := s.saves.filter (fun w => w != v) }

/-- The instances of a task start together (R141, R144); each acquires what the task was given (R134, R154). A task whose
context froze during BINDING freezes as it starts (R131, R396). -/
def startTask (s : State) (t : Task) : State :=
  let s := t.onHalls.foldl (fun s h =>
    joinClock (s.updHall h fun x =>
      (Hall.syncAu { x.dropClean with res := .running, bound := false, held := t.held }).useStore 160) h t.acq) s
  s.updTask t.id fun t => { t with
    state := if t.held then .frozen else if t.triggered then .triggered else .running
    saved := false }

/-- BINDING of one hall completes: a change of split waits until its dirty lines may be written back (R264), and a task
that was saved is restored from its spill. -/
def bindingComplete (s : State) (h : Nat) : State :=
  let x := s.hall h
  match x.bind with
  | none => s
  | some b =>
    match s.task? b.task with
    | none => s
    | some t =>
      let n := if b.kernel.split = 0 then x.split else b.kernel.split
      if x.res ≠ .binding ∨ x.bound ∨ (n ≠ x.split ∧ spillWaits s h) then s
      else
        let s := { s with recs := s.recs.filter (fun r => r.line < recOfScratch h 0 || recOfScratch h 0 + 65536 ≤ r.line) }
        let s := changeSplit s h n
        let done := if t.saved then (savedOf s b).bind (restoreHall s h b) else some (startInstance s h t b)
        match done with
        | none => terminate s t.id.ctx Cause.integ.code
        | some s => if t.onHalls.all (fun g => (s.hall g).bound) then startTask s t else s

def execBindingComplete (hall : HallId) (s : State) : Out := .next (bindingComplete s hall.val)

/-! ## The sealed spill (R411 to R413) -/

/-- The stop of a task that is to be saved (R411 steps 1 and 2): all its instances stop at once, copies park, and no
configuration is fetched on (R173). A hall that was held stays held, which says how its lines go back. The residency
reads SAVING from here on (log 33). -/
def startSave (s : State) (t : Task) : State :=
  let s := t.onHalls.foldl cancelWait s
  let s := t.onHalls.foldl (fun s h =>
    (evictWaiters (flushRuns s h) h).updHall h fun x =>
      { x with res := .saving, wait := .none, fetch := []
               copies := x.copies.map (fun j => { j with parked := true }) }) s
  { s.updTask t.id fun t => { t with state := .frozen, preempting := false, held := t.fencing.isSome } with
    firing := s.firing.filter (fun p => !t.onHalls.contains p.1) }

/-- Engine requests of a hall that finish before its spill does (R411 step 2, R287). -/
def enginesPending (s : State) (h : Nat) : Bool :=
  s.arrays.any (fun j => j.hall == h) || s.pmovs.any (fun j => j.hall == h) || s.sdecs.any (fun j => j.hall == h)
    || s.sencs.any (fun j => j.hall == h) || s.sigs.any (fun j => j.hall == h)
    || s.tasks.any (fun t => t.notify.any (fun n => n.1 == h)) || s.sends.any (fun p => p.1 == h)

/-- Scratch words a readout mask keeps (R177), as ranges of scratch words; the dispatcher's mailbox always (R176). -/
def keptWords (x : Hall) (b : Binding) : List (Nat × Nat) :=
  let secs := b.kernel.sections.filter (fun c => c.type == 9 && nbit c.inst b.inst)
  let ranges := secs.flatMap (fun c => c.body.filterMap (fun w =>
    let n := w.toNat
    match facetAt (nbits n 60 4) (nbits n 56 4) with
    | some f => if nbits n 52 4 = 2 ∧ x.split ≤ f
      then some ((f - x.split) * 16384 + nbits n 34 14, (f - x.split) * 16384 + nbits n 20 14) else none
    | none => none))
  if b.task.va = dispVA then (x.size / 4 - 1024, x.size / 4 - 1) :: ranges else ranges

/-- Whether the readout keeps a scratch word. -/
def keeps (x : Hall) (b : Binding) (w : Nat) : Bool := (keptWords x b).any (fun r => r.1 ≤ w && w ≤ r.2)

/-- Element registers of a facet that the mask keeps. -/
def keptRegs (b : Binding) (f k : Nat) : Bool :=
  (b.kernel.sections.filter (fun c => c.type == 9 && nbit c.inst b.inst)).any (fun c => c.body.any (fun w =>
    let n := w.toNat
    facetAt (nbits n 60 4) (nbits n 56 4) == some f && nbits n 52 4 == 1 && nbit n k))

/-- Accumulator tiles of a node that the mask keeps. -/
def keptTile (b : Binding) (m k : Nat) : Bool :=
  (b.kernel.sections.filter (fun c => c.type == 9 && nbit c.inst b.inst)).any (fun c => c.body.any (fun w =>
    let n := w.toNat
    nbits n 60 4 == 8 && nbits n 56 4 == 2 * m && nbits n 52 4 == 3 && nbit n k))

/-- The tile a word in progress names, and for F64 cells the second tile of the pair (R309, R329). -/
def MxNode.inUse (n : MxNode) (k : Nat) : Bool :=
  (n.busy.toList ++ n.ahead).any fun b =>
    match b.word with
    | .mma a .. | .mmag a .. | .mxrd a .. | .mxld a .. | .mxepi a .. =>
      k == a.val || (k == a.val + 1 && n.tiles[k]?.any (·.kind == .pair))
    | _ => false

/-- What readout carries of a hall (R176 to R178, R189, R329). -/
def readout (x : Hall) (b : Binding) : Hall :=
  { x with
    res := .saving, held := false, atYield := false, bound := false, pri := none, wait := .none, feq := [], l1 := [],
    tlb := [], stores := [], fetch := [], au := AddrUnit.reset
    scratch := x.scratch.filter (fun c => keeps x b (c.1 / 4)), full := x.full.filter (keeps x b), bad := x.bad.filter (keeps x b)
    facets := x.facets.map (fun p => (p.1, { p.2 with
      e := p.2.e.zipIdx.map (fun q => if keptRegs b p.1 q.2 then q.1 else ⟨0, 0, false⟩) }))
    mx := x.mx.map (fun p => (p.1, { p.2 with
      tiles := p.2.tiles.zipIdx.map (fun q => if keptTile b p.1 q.2 || p.2.inUse q.2 then q.1
        else ⟨.none, false, []⟩) })) }

/-- What the readout chain carries of a hall's lens data: every marked element, and every word of a lens-mode bank, under
the key of its lens key domain (R179, R329), as `f` gives it. -/
def Hall.coverLens (x : Hall) (f : BitVec 256 → BitVec 256) : Hall :=
  let tok (t : Token) : Token := if t.lens then { t with pay := f t.pay } else t
  let ch (l : List (List Token)) : List (List Token) := l.map (fun q => q.map tok)
  let wide (w : BitVec 64) : BitVec 64 := (f (w.zeroExtend 256)).truncate 64
  let octet (b : BitVec 8) : BitVec 8 := (f (b.zeroExtend 256)).truncate 8
  let burst (l : Option Latch) : Option Latch := l.map (fun l => if l.lens then { l with scales := l.scales.map octet } else l)
  let latch (on : Bool) (l : MxLatch) : MxLatch :=
    { (if on then { l with elems := l.elems.map wide, scales := l.scales.map octet } else l) with stream := burst l.stream }
  { x with
    seqIns := ch x.seqIns, seqOuts := ch x.seqOuts
    links := x.links.map (fun p => (p.1, p.2.map tok))
    facets := x.facets.map (fun p => (p.1, { p.2 with
      ins := ch p.2.ins, outs := ch p.2.outs, latch := p.2.latch.map burst
      e := p.2.e.map (fun e => if e.lens then { e with pay := f e.pay } else e) }))
    mx := x.mx.map (fun p => (p.1, { p.2 with
      ins := ch p.2.ins, outs := ch p.2.outs
      tiles := p.2.tiles.map (fun t =>
        if t.lens then { t with cells := (List.range 4096).map (fun k => (k, wide (mget t.cells k 0))) } else t)
      latA := latch (p.2.busy.any (·.entA.lens)) p.2.latA, latB := latch (p.2.busy.any (·.entB.lens)) p.2.latB }))
    units := x.units.map (fun p => (p.1, { p.2 with
      ins := ch p.2.ins, outs := ch p.2.outs
      pack := p.2.pack.map (fun k => if k.lens then { k with elems := k.elems.map wide } else k)
      acc := if p.2.accLens then p.2.acc.map wide else p.2.acc
      reqs := if p.2.ents.any (fun o => o.any Tensor.lens) then p.2.reqs.map (fun r => { r with value := wide r.value })
        else p.2.reqs
      snaps := if p.2.ents.any (fun o => o.any Tensor.lens)
        then p.2.snaps.map (fun n => { n with data := n.data.map octet }) else p.2.snaps }))
    scratch := x.lens.foldl (fun m n => cwrite m ((n - x.split) * 65536)
      ((cread m ((n - x.split) * 65536) 65536).map octet)) x.scratch }

/-- Header of a spill image before its tag (R412). -/
def spillHeader (inst halls : Nat) (ctx : Word) (task : Nat) (ver : Word) (len : Nat) (nonce : Digest) (split : Nat) :
    List Byte :=
  leBytes 4 0x53504C31 ++ leBytes 2 1 ++ leBytes 1 inst ++ leBytes 1 halls ++ leBytes 8 ctx.toNat ++ leBytes 8 task
    ++ leBytes 8 ver.toNat ++ leBytes 8 len ++ leBytes 12 nonce.toNat ++ leBytes 1 split ++ List.replicate 11 0

/-- Seal one instance into the lowest free slot, zeros filling the slot up (R179, R412, R413); an image that the host turns
away does not stand there, and its restore fails (log 33). -/
def sealHall (s : State) (t : Task) (inst h : Nat) : State :=
  match s.ctx? t.id.ctx, (s.hall h).bind with
  | some c, some b =>
    let x := s.hall h
    let used := (s.saves.filter (fun v => v.ctx == c.id)).map (·.slot)
    let slot := (lowestFree used 0 c.spillslots.toNat).getD 0
    let y := readout x b
    let kds := (c.domains.filter (fun d => d.kind == .lens)).map (·.kd)
    let body := (Config.spillBody (y.coverLens (Config.lensElem s.rsc.nonce kds))).take (0x800000 - 128)
    let (k, s) := s.draw
    let nonce := (Config.random k) &&& BitVec.ofNat 256 (2 ^ 96 - 1)
    let hd := spillHeader inst t.halls c.id t.id.va c.vc body.length nonce x.split
    let (ct, tag) := Config.gcmSeal (Config.spillKey s.rsc.nonce c.id) (leBytes 12 nonce.toNat) hd body
    let image := hd ++ fitBytes 16 tag ++ List.replicate 48 0 ++ fitBytes body.length ct
    let clk := c.clock h
    let v : Saved := ⟨c.id, slot, t.id, inst, c.vc, x.split, image, y, savedCarries s h (keeps x b), clk⟩
    let s := s.setCtx { c with vc := c.vc + 1
                               clocks := mset c.clocks h (clk.set h ((clk.getD h 0 + 1) % 2 ^ 32)) }
    let (reached, s) := atsSpan s (slotAddr c slot) image.length
    let s := if reached then { s with hostMem := cwrite (cclear s.hostMem (slotAddr c slot) 0x800000) (slotAddr c slot) image }
      else s
    { s with saves := s.saves ++ [v] }
  | _, _ => s

/-- The instances are sealed one by one, their halls become IDLE and the task READY (R411 steps 5 and 6). -/
def sealAll (t : Task) : List (Nat × Nat) → State → State
  | [], s => s
  | (h, i) :: hs, s => sealAll t hs (freeReleased (unbindHall (sealHall s t i h) h) (galleryOf h))

/-- The dirty lines of a hall that stops go back (R411 step 3): of one that was held already without another freeze. -/
def saveLines (s : State) (ctx : Word) (h : Nat) : Res Unit :=
  if (s.hall h).held then
    if spillWaits s h then .wait s else .ok () ((spillL1 s h ctx).updHall h Hall.cleanL1)
  else flushL1 s h

/-- A write-back that faults wins over the save (R415): the task is held where it stopped. The save that a CTXSV waits for
starts again of the held task. -/
def saveFails (s : State) (t : Task) (h : Nat) (c : Cause) (i : Word) : State :=
  let s := t.onHalls.foldl (fun s h => s.updHall h fun x => { x with res := .running }) s
  let s := freeze s h 8 7 0 0 0 c i []
  match s.task? t.id with
  | some t => if t.notify = [] then s else startSave s t
  | none => s

/-- The dirty lines of all the task's halls go back. -/
def saveAllLines (t : Task) : List Nat → State → Res Unit
  | [], s => .ok () s
  | h :: hs, s =>
    match saveLines s t.id.ctx h with
    | .ok _ s => saveAllLines t hs s
    | .wait s => .wait s
    | .trap c i s | .freeze c i s => .freeze c i (saveFails s t h c i)

/-- The instances are sealed, their halls freed, and the task READY; a task of a hall that is to be fenced stays held
(R409). -/
def sealTask (s : State) (t : Task) : State :=
  let bar := match t.unit, t.granted.head? with
    | some u, some h => mfind s.bars (3 * galleryOf h + u)
    | _, _ => none
  let s := freeUnit (sealAll t t.live s) t
  let s := s.updTask t.id fun t => { t with
    state := if t.fencing.isSome then .frozen else .queued, held := t.fencing.isSome, fencing := none
    granted := [], saved := true, unit := none, preempting := false, notify := [], bar := bar, acq := [] }
  let s := match t.fencing with
    | some h => fenceHall s h t.id.ctx t.id.va
    | none => s
  notifySave (BitVec.ofNat 64 t.live.length) t.notify s

/-- The save goes on once the engines are done (R411 step 2): the dirty lines go back, then the instances are sealed. -/
def finishSave (s : State) (t : Task) : State :=
  if t.onHalls.any (fun h => enginesPending s h) then s
  else
    match saveAllLines t t.onHalls s with
    | .ok _ s => sealTask s t
    | .trap _ _ s | .freeze _ _ s | .wait s => s

/-- An instance executes EXIT, and waits there (R155, R415). -/
def Hall.atExit (x : Hall) : Bool :=
  x.res == .running && !x.held && (x.exiting || (x.pc < x.length &&
    (match fetchFor .seq (codeAt x x.pc) with
     | some (.exit f) => holds f x.c
     | _ => false)))

/-- A pre-emption may start: as many free spill slots as instances (R411). -/
def slotsFor (s : State) (t : Task) : Bool :=
  match s.ctx? t.id.ctx with
  | some c => t.onHalls.length ≤ freeSlots s c
  | none => false

/-- PREEMPT (R411): a chosen victim stops, at once or at its freeze point; a task whose halls are SAVING is sealed. A CTXSV
lets an EXIT complete first (R415). -/
def preempt (s : State) (id : TaskId) : State :=
  match s.task? id with
  | none => s
  | some t =>
    if t.saving s then finishSave s t
    else if t.preempting && (t.state == .running || t.state == .triggered || t.stopped) && slotsFor s t
        && (t.notify == [] || !t.onHalls.any (fun h => (s.hall h).atExit)) && (t.stopped || !t.freezePt || t.onHalls.any (fun h => (s.hall h).atYield)) then startSave s t
    else s

/-- A victim of a head of PRIO 1 stops at its freeze point, all of its instances with it (R145, R146). -/
def stopAtFreeze (s : State) : State :=
  (s.tasks.filter (fun t => t.preempting && t.freezePt && t.onHalls.any (fun h => (s.hall h).atYield))).foldl
    (fun s t => if t.saving s then s else preempt s t.id) s

def execPreempt (ctx task : Word) (s : State) : Out := .next (preempt s ⟨ctx, task.toNat⟩)

end Sys2Proof.Machine
end

