-- ==== Sys2Proof/Machine/Fabric.lean ====
section
/-! DEFINITION. The hall fabric: channels and switch boxes, merge switches, the control net, configuration stores
(spec/07 R159 to R175), and the sequencer's tokens (spec/08 R205 to R208). -/

namespace Sys2Proof.Machine

/-! ## Channels of nodes -/

def boxOf (x y : Nat) : Nat := 8 * x + y

/-- Replace one queue of a list. -/
def setNth {α : Type} (l : List α) (n : Nat) (a : α) : List α := l.set n a

def Hall.chanIn (x : Hall) (px py c : Nat) : List Token :=
  match nodeAt px py with
  | .facet n => lget (x.facet n).ins c
  | .seq => lget x.seqIns c
  | .mx m main => if main then lget (x.node m).ins c else []
  | .ce => []
  | _ => lget (x.unit (boxOf px py)).ins c

def Hall.setIn (x : Hall) (px py c : Nat) (q : List Token) : Hall :=
  match nodeAt px py with
  | .facet n => x.setFacet n { x.facet n with ins := setNth (x.facet n).ins c q }
  | .seq => { x with seqIns := setNth x.seqIns c q }
  | .mx m _ => x.setNode m { x.node m with ins := setNth (x.node m).ins c q }
  | .ce => x
  | _ => x.setUnit (boxOf px py) { x.unit (boxOf px py) with ins := setNth (x.unit (boxOf px py)).ins c q }

def Hall.chanOut (x : Hall) (px py c : Nat) : List Token :=
  match nodeAt px py with
  | .facet n => lget (x.facet n).outs c
  | .seq => lget x.seqOuts c
  | .mx m main => if main then lget (x.node m).outs c else []
  | .ce => []
  | _ => lget (x.unit (boxOf px py)).outs c

def Hall.setOut (x : Hall) (px py c : Nat) (q : List Token) : Hall :=
  match nodeAt px py with
  | .facet n => x.setFacet n { x.facet n with outs := setNth (x.facet n).outs c q }
  | .seq => { x with seqOuts := setNth x.seqOuts c q }
  | .mx m _ => x.setNode m { x.node m with outs := setNth (x.node m).outs c q }
  | .ce => x
  | _ => x.setUnit (boxOf px py) { x.unit (boxOf px py) with outs := setNth (x.unit (boxOf px py)).outs c q }

/-- Whether a queue that holds `n` tokens has space: 4 tokens in a facet's channel (R212). -/
def roomIn (facet : Bool) (n : Nat) : Bool := if facet then n < 4 else n == 0 || Config.moreRoom n

def isFacet (px py : Nat) : Bool := (facetAt px py).isSome

/-- A node's output channel has space for one token. -/
def Hall.outRoom (x : Hall) (px py c : Nat) : Bool := roomIn (isFacet px py) (x.chanOut px py c).length

/-- Push a token on a node's output channel. -/
def Hall.pushOut (x : Hall) (px py c : Nat) (t : Token) : Hall := x.setOut px py c (x.chanOut px py c ++ [t])

/-! ## Queues of the mesh: a node's output channel (port 4), or what waits at a switch-box input -/

def Hall.queue (x : Hall) (px py port track : Nat) : List Token :=
  if port = 4 then x.chanOut px py track else mget x.links (swKey px py port track) []

def Hall.setQueue (x : Hall) (px py port track : Nat) (q : List Token) : Hall :=
  if port = 4 then x.setOut px py track q
  else { x with links := if q = [] then mdel x.links (swKey px py port track) else mset x.links (swKey px py port track) q }

/-- Where an output of a switch box delivers: space there, and the delivery. -/
def Hall.destRoom (x : Hall) (px py port track : Nat) : Bool :=
  if port = 4 then roomIn (isFacet px py) (x.chanIn px py track).length
  else
    match neighbour px py port with
    | some (nx, ny, p) => roomIn false (x.queue nx ny p track).length
    | none => false

def Hall.deliver (x : Hall) (px py port track : Nat) (t : Token) : Hall :=
  if port = 4 then x.setIn px py track (x.chanIn px py track ++ [t])
  else
    match neighbour px py port with
    | some (nx, ny, p) => x.setQueue nx ny p track (x.queue nx ny p track ++ [t])
    | none => x

/-! ## Configuration stores (R172 to R174) -/

/-- The store key of a 4 KiB block of code: the sequencer's own for the first. -/
def codeNode (block : Nat) : Nat := if block = 0 then boxOf 8 7 else 160 + block

/-- The block of code that a key names. -/
def codeBlock? (node : Nat) : Option Nat :=
  if node = boxOf 8 7 then some 0 else if 160 < node && node < 192 then some (node - 160) else none

/-- How a node's configuration stands. -/
inductive Ready
  | ok
  | missing
  | poisoned
  deriving DecidableEq, Repr

/-- The store entry of the bound tag at a node (80 to 159: switch boxes; from 161: blocks of code). -/
def Hall.config (x : Hall) (node : Nat) : Ready :=
  match (mget x.stores node []).find? (fun e => e.tag == x.tag) with
  | some e => if e.poisoned then .poisoned else .ok
  | none => .missing

/-- The words of a node's section for the bound instance. -/
def Binding.section? (b : Binding) (types : List Nat) (px py : Nat) : Option (List Word) :=
  (b.kernel.sections.find? (fun c => types.contains c.type && nbit c.inst b.inst && c.node == 16 * px + py)).map (·.body)

def Hall.sect (x : Hall) (types : List Nat) (px py : Nat) : List Word :=
  ((x.bind.bind (fun b => b.section? types px py))).getD []

/-- The first illegal word of a section with its index (R93, R94): an empty rule slot is legal in a facet. -/
def firstIllegal (k : UnitKind) : Nat → List Word → Option (Nat × Word)
  | _, [] => none
  | i, w :: ws =>
    if (k == .facet && w == 0) || (fetchFor k w).isSome then firstIllegal k (i + 1) ws else some (i, w)

def unitKindAt (px py : Nat) : UnitKind :=
  match nodeAt px py with
  | .facet _ => .facet
  | .prism => .prism
  | .ag => .ag
  | .mp => .mp
  | .mx _ _ => .matrix
  | _ => .seq

/-- The rows of a conflict-matrix section; without one, all zeros (R36). -/
def confRows (ws : List Word) : List (BitVec 16) :=
  (List.range 16).map (fun i => BitVec.ofNat 16 (nbits (ws.getD (i / 4) 0).toNat (16 * (i % 4)) 16))

/-- A facet, prism unit, AG tile or port takes its words from its store's entry; an illegal word freezes the hall
(R94). -/
def installNode (s : State) (h px py : Nat) : Res Unit :=
  let x := s.hall h
  match nodeAt px py with
  | .facet n =>
    if (x.facet n).installed then .ok () s
    else
      let pool := x.sect [2] px py
      match firstIllegal .facet 0 pool with
      | some (i, w) => .freeze .ill (opOf w) (freeze s h px py i 0 0 .ill (opOf w) [])
      | none => .ok () (s.setHall h (x.setFacet n
          { x.facet n with pool := pool, conf := confRows (x.sect [3] px py), installed := true }))
  | .prism | .ag | .mp =>
    let u := x.unit (boxOf px py)
    if u.installed then .ok () s
    else
      let ws := x.sect [6, 7] px py
      match firstIllegal (unitKindAt px py) 0 ws with
      | some (i, w) => .freeze .ill (opOf w) (freeze s h px py 0 0 i .ill (opOf w) [])
      | none => .ok () (s.setHall h (x.setUnit (boxOf px py) { u with words := ws, installed := true }))
  | _ => .ok () s

/-- Four counters of 16 bits. -/
def packCounters (l : List Nat) : Word :=
  BitVec.ofNat 64 ((List.range 4).map (fun k => lget l k % 65536 * 2 ^ (16 * k))).sum

/-- E7 of a unit's event record: the outstanding count of GATH, the position of SCAN. -/
def PUnit.detail (u : PUnit) : Nat :=
  let op := nbits ((u.words.headD 0).toNat) 56 8
  if op = 0xCB then u.reqs.length else if op = 0xC0 then u.pos else 0

/-- DETAIL of a unit's event record (R352, R404). -/
def PUnit.counts (u : PUnit) : List Word :=
  [packCounters u.delivered, packCounters u.emitted, BitVec.ofNat 64 (u.passes % 2 ^ 32 * 2 ^ 32 + u.step % 2 ^ 32),
   BitVec.ofNat 64 u.detail]

/-- DETAIL of a matrix node's event record (R329, R404). DESIGN CHOICE (log 79): the element counter is what the word under
way has pushed, or within a K-step or a load what it has taken of the operand that the channel carries. -/
def MxNode.counts (n : MxNode) (chan : Nat) : List Word :=
  let taken (b : MxBusy) : Nat :=
    match b.word with
    | .mxrd .. | .mxepi .. => b.count
    | .mmag .. => if b.idx.length < 64 then b.idx.length else if chan = 2 then n.latB.elems.length else n.latA.elems.length
    | _ => if chan = 2 then n.latB.elems.length else n.latA.elems.length
  [BitVec.ofNat 64 ((n.busy.map (·.index)).getD n.accepted),
   BitVec.ofNat 64 ((n.busy.map (fun b => b.step * 2 ^ 32 + taken b)).getD 0)]

/-- The input of a node that holds a token: the lowest; 0 where none does. -/
def Hall.waitingChan (x : Hall) (px py : Nat) : Nat :=
  ((List.range 4).find? (fun c => !(x.chanIn px py c).isEmpty)).getD 0

/-- The counters of a node, and the token index of one of its inputs. -/
def Hall.counts (x : Hall) (px py chan : Nat) : List Word × Nat :=
  match nodeAt px py with
  | .facet n => ([], lget (x.facet n).delivered chan)
  | .mx m main => if main then ((x.node m).counts chan, lget (x.node m).delivered chan) else ([], 0)
  | .prism | .ag | .mp => ((x.unit (boxOf px py)).counts, lget (x.unit (boxOf px py)).delivered chan)
  | _ => ([], 0)

/-- A poisoned entry that is needed raises CFG; the record names the position, the tag, in INFO, and the channel counters
(R174; log 66): CHAN and TIX are those of the input whose token needs the entry. -/
def poisonAt (s : State) (h px py chan tix : Nat) (detail : List Word) : State :=
  freeze s h px py 0 chan tix .cfg ((s.hall h).tag.zeroExtend 64) detail

def poisonFault (s : State) (h px py : Nat) : State :=
  let chan := if nodeAt px py = .seq then 0 else (s.hall h).waitingChan px py
  let n := (s.hall h).counts px py chan
  poisonAt s h px py chan n.2 n.1

/-- Go on at a node once its configuration is there and installed; a missing entry waits for its fetch. -/
def withConfig (s : State) (h px py : Nat) (k : State → State) : State :=
  match (s.hall h).config (boxOf px py) with
  | .missing => s
  | .poisoned => poisonFault s h px py
  | .ok =>
    match installNode (s.updHall h fun x => x.useStore (boxOf px py)) h px py with
    | .ok _ s => k s
    | .trap _ _ s | .freeze _ _ s | .wait s => s

/-- A hall whose fabric may act. -/
def Hall.active (x : Hall) : Bool := x.res == .running && !x.held && !x.hold

/-- Nodes whose work starts without an input token (R338), by the fields of their words, illegal ones among them. -/
def selfStarting (x : Hall) (px py : Nat) : Bool :=
  match nodeAt px py with
  | .seq => true
  | .facet _ => (x.sect [2] px py).any (fun w => w != 0 && nbits w.toNat 44 4 == 0)
  | .prism | .ag | .mp =>
    let ws := (x.sect [6, 7] px py).map (·.toNat)
    let top := ((ws.filter (fun w => nbits w 56 8 == 0xC8)).map (nbits · 44 4)).foldl max 0
    ws.any (fun w =>
      let op := nbits w 56 8
      (op == 0xC0 && nbit w 27) || ((op == 0xC1 || op == 0xC2) && nbit w 19)
        || (op == 0xC8 && nbits w 44 4 == top && nbits w 18 2 == 0) || (op == 0xCA && !nbit w 35 && nbits w 29 2 == 0))
  | _ => false

def Hall.ctlAt (x : Hall) (px py : Nat) : List Nat :=
  match nodeAt px py with
  | .facet n => (x.facet n).ci
  | .seq => x.seqCi
  | .mx m _ => (x.node m).ci
  | .ce => []
  | _ => (x.unit (boxOf px py)).ci

/-! ## The control net (R169, R170) -/

/-- The control routes that take an input of a box. -/
def ctlFrom (all : List CtlRoute) (px py port line : Nat) : List CtlRoute :=
  all.filter (fun k => k.x == px && k.y == py &&
    ((k.ipA == port && k.ilA == line) || (k.mrg && k.ipB == port && k.ilB == line)))

/-- The control inputs at the ends of a control output's path, by position and line; `n` bounds the hops. -/
def ctlEnds (all : List CtlRoute) : Nat → List CtlRoute → List (Nat × Nat × Nat)
  | 0, _ => []
  | n + 1, rs => rs.flatMap fun r =>
      if r.op = 4 then [(r.x, r.y, r.oln)]
      else
        match neighbour r.x r.y r.op with
        | some (nx, ny, p) => ctlEnds all n (ctlFrom all nx ny p r.oln)
        | none => []

/-- The boxes of the path, in the order its tokens meet them. -/
def ctlBoxes (all : List CtlRoute) : Nat → List CtlRoute → List (Nat × Nat)
  | 0, _ => []
  | n + 1, rs => rs.flatMap fun r =>
      (r.x, r.y) ::
        (match neighbour r.x r.y r.op with
         | some (nx, ny, p) => ctlBoxes all n (ctlFrom all nx ny p r.oln)
         | none => [])

def Hall.ctlRoutes (x : Hall) : List CtlRoute := (x.bind.map Binding.ctl).getD []

def Hall.ctlDests (x : Hall) (px py line : Nat) : List (Nat × Nat × Nat) :=
  let all := x.ctlRoutes
  ctlEnds all (all.length + 1) (ctlFrom all px py 4 line)

/-- The first box of a control output's path that does not hold its entry (R173). -/
def Hall.ctlGate (x : Hall) (px py line : Nat) : Option (Nat × Nat) :=
  let all := x.ctlRoutes
  (ctlBoxes all (all.length + 1) (ctlFrom all px py 4 line)).find? (fun p => x.config (80 + boxOf p.1 p.2) != .ok)

def Hall.setCtl (x : Hall) (px py : Nat) (l : List Nat) : Hall :=
  match nodeAt px py with
  | .facet n => x.setFacet n { x.facet n with ci := l }
  | .seq => { x with seqCi := l }
  | .mx m _ => x.setNode m { x.node m with ci := l }
  | .ce => x
  | _ => x.setUnit (boxOf px py) { x.unit (boxOf px py) with ci := l }

def Hall.ctlCount (x : Hall) (px py line : Nat) : Nat := (x.ctlAt px py).getD line 0

def Hall.addCtl (x : Hall) (d : Nat × Nat × Nat) : Hall :=
  x.setCtl d.1 d.2.1 ((x.ctlAt d.1 d.2.1).set d.2.2 (x.ctlCount d.1 d.2.1 d.2.2 + 1))

/-- Every end of a list can take one token more (R169). -/
def Hall.ctlFits (x : Hall) (ds : List (Nat × Nat × Nat)) : Bool :=
  ds.all (fun d => x.ctlCount d.1 d.2.1 d.2.2 + ds.count d ≤ 15)

def ctlKey (px py line : Nat) : Nat := 2 * boxOf px py + line

/-- Control tokens that wait at a control output. -/
def Hall.ctlHeld (x : Hall) (px py line : Nat) : Nat := mget x.ctlOut (ctlKey px py line) 0

/-- Tokens of a control output stay there: it has no route (R170), or a box of its path lacks its entry (R173). -/
def Hall.ctlStays (x : Hall) (px py line : Nat) : Bool :=
  (x.ctlDests px py line).isEmpty || (x.ctlGate px py line).isSome

/-- A control output can take one token: where it stays, the output has space; else every branch can take it (R169). -/
def Hall.ctlRoom (x : Hall) (px py line : Nat) : Bool :=
  if x.ctlStays px py line then roomIn false (x.ctlHeld px py line)
  else x.ctlHeld px py line == 0 && x.ctlFits (x.ctlDests px py line)

/-- One token of a control output passes the boxes of its path, which use their entries (R173), and joins every end. -/
def Hall.passPath (x : Hall) (px py line : Nat) : Hall :=
  let all := x.ctlRoutes
  (x.ctlDests px py line).foldl Hall.addCtl
    ((ctlBoxes all (all.length + 1) (ctlFrom all px py 4 line)).foldl (fun x p => x.useStore (80 + boxOf p.1 p.2)) x)

/-- Send one control token. -/
def Hall.sendCtl (x : Hall) (px py line : Nat) : Hall :=
  if x.ctlStays px py line then { x with ctlOut := mset x.ctlOut (ctlKey px py line) (x.ctlHeld px py line + 1) }
  else x.passPath px py line

/-- Take one control token. -/
def Hall.takeCtl (x : Hall) (px py line : Nat) : Hall :=
  x.setCtl px py ((x.ctlAt px py).set line (x.ctlCount px py line - 1))

/-- One waiting token of the output with a key goes on where it now can. -/
def Hall.passCtl (key : Nat) (x : Hall) : Hall :=
  let px := key / 16
  let py := key / 2 % 8
  let line := key % 2
  let k := x.ctlHeld px py line
  let ds := x.ctlDests px py line
  if k = 0 ∨ x.ctlStays px py line ∨ !x.ctlFits ds then x
  else { x.passPath px py line with ctlOut := if k = 1 then mdel x.ctlOut key else mset x.ctlOut key (k - 1) }

/-- Waiting control tokens go on as far as they can. -/
def Hall.flowCtl (x : Hall) : Hall :=
  x.ctlOut.foldl (fun x p => p.2.fold (fun _ _ x => x.passCtl p.1) x) x

/-- The boxes that waiting control tokens have reached and that lack their entries. -/
def Hall.ctlWants (x : Hall) : List (Nat × Nat) :=
  x.ctlOut.filterMap (fun p => x.ctlGate (p.1 / 16) (p.1 / 2 % 8) (p.1 % 2))

/-- Whether a node has a reason to fetch its entry (R172, R173): the sequencer by the block its streams are in, a matrix
node for a word under way too, a box for a control token too. -/
def needsConfig (x : Hall) (node : Nat) : Bool :=
  match codeBlock? node with
  | some b => x.pc / 4096 == b || x.au.pc / 4096 == b
  | none =>
    if node < 80 then
      let px := node / 8
      let py := node % 8
      selfStarting x px py || (List.range 4).any (fun c => !(x.chanIn px py c).isEmpty) || (x.ctlAt px py).any (0 < ·)
        || (match nodeAt px py with | .mx m main => main && (x.node m).busy.isSome | _ => false)
    else
      let px := (node - 80) / 8
      let py := (node - 80) % 8
      (List.range 5).any (fun p => (List.range 4).any (fun t => !(x.queue px py p t).isEmpty)) || x.ctlWants.contains (px, py)

/-- CONFIG_FETCH (R173 step 2): a node that misses asks the gallery's cache. -/
def configFetch (s : State) (h node : Nat) : State :=
  let x := s.hall h
  if x.active && node < 192 && x.config node == .missing && (mfind x.fetch node).isNone && needsConfig x node then
    s.setHall h { x with fetch := mset x.fetch node (x.tag, s.tick) }
  else s

def execConfigFetch (hall : HallId) (node : Nat) (s : State) : Out := .next (configFetch s hall.val node)

/-- Steps 3 and 4 of R173: the entry replaces the least recently used one of another tag. -/
def storePut (es : List StoreEntry) (bound : BitVec 16) (e : StoreEntry) : List StoreEntry :=
  let es := es.filter (fun k => k.tag != e.tag)
  if es.length < 4 then es ++ [e]
  else
    match es.find? (fun k => k.tag != bound) with
    | some old => es.erase old ++ [e]
    | none => es

/-- A block of code joins the sequencer's entry of its tag (R172); with an entry that makes room for another tag's, every
block of it leaves. -/
def Hall.putCode (x : Hall) (node : Nat) (e : StoreEntry) : Hall :=
  let tags := storePut (mget x.stores 160 []) x.tag { e with poisoned := false }
  let keep (q : Nat × List StoreEntry) : Nat × List StoreEntry :=
    (q.1, if (codeBlock? q.1).isSome then q.2.filter (fun k => tags.any (fun t => t.tag == k.tag)) else q.2)
  let blocks := (mget x.stores node []).filter (fun k => k.tag != e.tag)
  { x with stores := (mset (mset x.stores node (blocks ++ [e])) 160 tags).map keep }

/-- A fetched entry is put into its node's store. -/
def Hall.putStore (x : Hall) (node : Nat) (e : StoreEntry) : Hall :=
  if (codeBlock? node).isSome then x.putCode node e
  else { x with stores := mset x.stores node (storePut (mget x.stores node []) x.tag e) }

/-- CONFIG_FETCH_COMPLETE (R173, R174): forward progress, unless the data was beyond repair. -/
def configFetchComplete (s : State) (h node : Nat) (how : FetchEnd) : State :=
  let x := s.hall h
  match mfind x.fetch node with
  | none => s
  | some (tag, _) =>
    let x := { x with fetch := mdel x.fetch node, wdogCount := 0 }
    let x := x.putStore node ⟨tag, how == .poisoned⟩
    let s := s.setHall h x
    if how = .ok ∧ node < 80 ∧ x.active then
      match installNode s h (node / 8) (node % 8) with
      | .ok _ s | .trap _ _ s | .freeze _ _ s | .wait s => s
    else s

def execConfigFetchComplete (hall : HallId) (node : Nat) (how : FetchEnd) (s : State) : Out :=
  .next (configFetchComplete s hall.val node how)

/-- A fetch completes or fails within 2^14 ticks (R173); which of the two is free. -/
def fetchesDue (s : State) (h : Nat) : State :=
  ((s.hall h).fetch.filter (fun p => p.2.2 + 2 ^ 14 ≤ s.tick)).foldl (fun s p =>
    let (k, s) := s.draw
    configFetchComplete s h p.1 (if Config.freeBool k then .ok else .poisoned)) s

/-- Waiting control tokens go on, and one that needs a poisoned entry freezes its hall (R174). -/
def flowControl (s : State) : State :=
  s.halls.foldl (fun s p =>
    if p.2.ctlOut = [] ∨ !p.2.active then s
    else
      let x := p.2.flowCtl
      match x.ctlWants.find? (fun b => x.config (80 + boxOf b.1 b.2) == .poisoned) with
      | some b => poisonAt (s.setHall p.1 x) p.1 b.1 b.2 0 0 []
      | none => s.setHall p.1 x) s

/-! ## Switch boxes (R159, R162 to R168) -/

/-- Routes of the bound instance at a box. -/
def Hall.routesAt (x : Hall) (px py : Nat) : List Route :=
  (x.bind.map (fun b => b.routes.filter (fun r => r.x == px && r.y == py))).getD []

/-- SWM on one beat of 128 bits (R164). -/
def mapBeat (swm : BitVec 8) (b : Nat) : Nat :=
  (nbits b (32 * nbits swm.toNat 0 2) 32) + 2 ^ 32 * (nbits b (32 * nbits swm.toNat 2 2) 32)
  + 2 ^ 64 * (nbits b (32 * nbits swm.toNat 4 2) 32) + 2 ^ 96 * (nbits b (32 * nbits swm.toNat 6 2) 32)

def mapToken (swm : BitVec 8) (t : Token) : Token :=
  let p := t.pay.toNat
  { t with pay := cutPay (payBits t.hdr) (BitVec.ofNat 256 (mapBeat swm (nbits p 0 128) + 2 ^ 128 * mapBeat swm (nbits p 128 128))) }

/-- The side of a route that an input is: true for A. -/
def Route.sideA (r : Route) (port track : Nat) : Bool := r.ipA == port && r.itA == track

def Hall.merge (x : Hall) (r : Route) : MergeSt := mget x.merges (swKey r.x r.y r.op r.otr) default

def Hall.setMerge (x : Hall) (r : Route) (m : MergeSt) : Hall :=
  { x with merges := mset x.merges (swKey r.x r.y r.op r.otr) m }

/-- A branch can take a token from an input: space, and at a merge the choice has fallen on that input. -/
def Hall.branchTakes (x : Hall) (r : Route) (port track : Nat) : Bool :=
  x.destRoom r.x r.y r.op r.otr &&
    (!r.mrg || (let m := x.merge r
                m.next == some (r.sideA port track) || m.lock == some (r.sideA port track)))

/-- The last token of a fibre: a stop, a done token, or last-of-tile (R166). -/
def endsFibre (t : Token) : Bool := hdrKind t.hdr == 1 || hdrKind t.hdr == 3 || hdrLot t.hdr

/-- One branch takes the token. -/
def takeBranch (t : Token) (x : Hall) (r : Route) : Hall :=
  let x := x.deliver r.x r.y r.op r.otr (mapToken r.swm t)
  if r.mrg then
    let m := x.merge r
    x.setMerge r { m with next := none, lock := if endsFibre t then none else m.lock }
  else x

/-- SWITCH_TOKEN_PASS: the token at an input of a box leaves for every branch of that input, or for none (R165). A
lens-marked token that reaches an output with LNS = 0, where the output can take it and a merge has chosen its input, is
withheld and freezes the hall (R168). DESIGN CHOICE (log 76): the record names the output by its track in CHAN and its
port in E4, for R404 has no field for a port. -/
def switchPass (s : State) (h px py port track : Nat) : State :=
  let x := s.hall h
  if !x.active then s
  else
    match x.queue px py port track with
    | [] => s
    | t :: rest =>
      match x.config (80 + boxOf px py) with
      | .missing => s
      | .poisoned => poisonAt s h px py track 0 []
      | .ok =>
        let rs := (x.routesAt px py).filter (fun r => r.sideA port track || (r.mrg && r.ipB == port && r.itB == track))
        match rs.find? (fun r => t.lens && !r.lns && x.branchTakes r port track) with
        | some r => freeze s h px py 0 r.otr 0 .lens 0 [BitVec.ofNat 64 r.op]
        | none =>
          if rs = [] ∨ !rs.all (fun r => x.branchTakes r port track) then s
          else s.setHall h (rs.foldl (takeBranch t) ((x.setQueue px py port track rest).useStore (80 + boxOf px py)))

def execSwitchTokenPass (hall : HallId) (x : Col) (y : Row) (port : Fin 5) (track : Chan) (s : State) : Out :=
  .next (switchPass s hall.val x.val y.val port.val track.val)

/-! ## Merge switches (R166, R167) -/

/-- R166 without the Mirror: the side a merge serves next, given which sides hold a token. -/
def mergeRule (r : Route) (ls hasA hasB : Bool) : Bool :=
  if hasA && hasB then (match r.arb with | 1 => true | 2 => false | _ => !ls) else hasA

/-- The place and source of a merge switch (R391). -/
def mergeNode (h : Nat) (r : Route) : Nat := 0x5000 + 80 * h + boxOf r.x r.y

/-- The key of a switch's own timer (R167): its place, with its output above. -/
def mergeTimer (h : Nat) (r : Route) : Nat := mergeNode h r + 65536 * (4 * r.op + r.otr + 1)

/-- The earliest unconsumed record of a merge switch's output among the next `n` from `i` (R167, R395). -/
def findRun (s : State) (c : Ctx) (node src out : Nat) : Nat → Word → Own
  | 0, _ => .none
  | n + 1, i =>
    if c.mirror.used.contains i.toNat then findRun s c node src out n (i + 1)
    else
      match ringRead s c i with
      | Option.none => findRun s c node src out n (i + 1)
      | some r =>
        let l1 := (r.getD 1 0).toNat
        let a := nbits (r.getD 2 0).toNat 0 56
        if (nbits l1 48 16 == node || nbits l1 60 4 == 0 || 9 < nbits l1 60 4) && !recordOk i r then .bad i
        else if nbits l1 48 16 == node && nbits l1 32 16 == src && a / 256 == out then .own i r
        else findRun s c node src out n (i + 1)

/-- A choice is made: LS, and the fibre lock or the next token (R166). -/
def chosen (r : Route) (m : MergeSt) (a : Bool) : MergeSt :=
  if r.fib then { m with ls := a, lock := some a } else { m with ls := a, next := some a }

/-- A switch waits for a record of its own, or for a token of the input that its record names. -/
def runWaits (s : State) (h : Nat) (c : Ctx) (r : Route) : State :=
  timerStalls s c (mergeTimer h r) (mergeNode h r) (srcOf h r.x r.y)

/-- Read the next run of a switch in REPLAY (R167, R395). The choices of the switches of a box go on side by side; their
records are consumed in the order of the place (`serveRuns`). -/
def replayRun (s : State) (h : Nat) (c : Ctx) (r : Route) : State :=
  match findRun s c (mergeNode h r) (srcOf h r.x r.y) (4 * r.op + r.otr) c.mirror.window c.mirror.tail with
  | .none => runWaits s h c r
  | .bad i => if badNode s c i then freezeContext s c.id .mrdiv i else freeze s h r.x r.y 0 0 0 .mrdiv i []
  | .own i w =>
    let n := nbits (w.getD 2 0).toNat 0 8
    if n = 0 ∨ 64 < n ∨ nbits (w.getD 2 0).toNat 60 4 ≠ 4 then freeze s h r.x r.y 0 0 0 .mrdiv i []
    else s.updHall h fun x =>
      x.setMerge r { x.merge r with replay := (List.range n).map (fun k => !(w.getD 3 0).getLsbD k), index := i }

/-- A box serves its runs in sequence-number order (R395): a run whose choices are all made, and whose record is the place's
next, is consumed, and so on. -/
def serveRuns (h px py : Nat) (ctx : Word) : Nat → State → State
  | 0, s => s
  | n + 1, s =>
    match s.ctx? ctx with
    | none => s
    | some c =>
      let node := 0x5000 + 80 * h + boxOf px py
      let next (p : Nat × MergeSt) : Bool :=
        p.1 / 20 == boxOf px py && p.2.unserved &&
          (ringRead s c p.2.index).any (fun r => nbits (r.getD 1 0).toNat 0 32 == c.mirror.seq node)
      match (s.hall h).merges.find? next with
      | none => s
      | some (key, m) => serveRuns h px py ctx n
          ((consumeRecord s c node m.index).updHall h fun x => { x with merges := mset x.merges key { m with unserved := false } })

/-- A recorded choice is made: the switch's timer ends; with the last choice of its run the record waits for its place. -/
def replayChoice (s : State) (h : Nat) (c : Ctx) (r : Route) (b : Bool) (left : List Bool) : State :=
  let s := s.setMirror c.id { c.mirror with waits := mdel c.mirror.waits (mergeTimer h r), quiet := s.tick }
  let s := s.updHall h fun x => x.setMerge r (chosen r { x.merge r with replay := left, unserved := left == [] } b)
  serveRuns h r.x r.y c.id ((s.hall h).merges.length + 1) s

/-- MERGE_CHOICE at the merge that drives an output. -/
def mergeChoice (s : State) (h px py port track : Nat) : State :=
  let x := s.hall h
  match (x.routesAt px py).find? (fun r => r.mrg && r.op == port && r.otr == track) with
  | none => s
  | some r =>
    let m := x.merge r
    let hasA := !(x.queue px py r.ipA r.itA).isEmpty
    let hasB := !(x.queue px py r.ipB r.itB).isEmpty
    if !x.active || x.config (80 + boxOf px py) != .ok || m.next.isSome || m.lock.isSome
        || !x.destRoom px py port track || !(hasA || hasB) then s
    else
      match s.ctx? (s.ctxOf h) with
      | none => s
      | some c =>
        let pick (a : Bool) (m : MergeSt) (s : State) : State := s.updHall h fun x => x.setMerge r (chosen r m a)
        let a := mergeRule r m.ls hasA hasB
        match c.mirror.mode with
        | .off => pick a m s
        | .record =>
          if m.owed then flushRun 64 h s (swKey px py port track)
          else if c.mirror.free < 64 then s
          else if m.run.length < 63 then pick a { m with run := m.run ++ [a] } s
          else
            match mirrorAppend s c (runEvent h (swKey px py port track) (m.run ++ [a])) 64 with
            | .go s => pick a { m with run := [] } s
            | .stall s | .diverge _ s => s
        | .replay =>
          match m.replay with
          | [] => if m.unserved then runWaits s h c r else replayRun s h c r
          | b :: bs => if (if b then hasA else hasB) then replayChoice s h c r b bs else runWaits s h c r

def execMergeChoice (hall : HallId) (x : Col) (y : Row) (port : Fin 5) (track : Chan) (s : State) : Out :=
  .next (mergeChoice s hall.val x.val y.val port.val track.val)

/-! ## Tokens of the sequencer (R205 to R208) -/

/-- A header PUSHT refuses. -/
def pushBad (h : Word) : Bool :=
  let n := h.toNat
  65536 ≤ n || nbits n 0 3 != 0 || (nbits n 10 2 == 3 && decide (3 < nbits n 7 3))
    || (nbits n 14 2 == 2 && (nbits n 10 2 != 0 || nbits n 5 2 != 0))

def pushtEff (g : Nat) (a b c d e : Reg) (ch : Chan) (s : State) : Res Unit :=
  let x := s.hall g
  let h := x.c.reg a
  if pushBad h then .trap .stream 0 s
  else if x.posted ≠ [] ∨ !x.outRoom 8 7 ch.val then .wait s
  else
    let p := (x.c.reg b).toNat + 2 ^ 64 * (x.c.reg c).toNat + 2 ^ 128 * (x.c.reg d).toNat + 2 ^ 192 * (x.c.reg e).toNat
    let t : Token := { x.token (h.truncate 16) (BitVec.ofNat 256 p) false with fromSeq := true }
    .ok () (s.setHall g (x.pushOut 8 7 ch.val t))

def execPusht (h : SHdr) (a b c d e : Reg) (ch : Chan) (s : State) : Out :=
  .next (cWord h [a, b, c, d, e] [] (fun g s => pushtEff g a b c d e ch s) s)

def poptEff (g : Nat) (a b c d e : Reg) (ch : Chan) (k : Bool) (s : State) : Res Unit :=
  match lget (s.hall g).seqIns ch.val with
  | [] => .wait s
  | t :: rest =>
    let s := acquire s g false []
    let w (i : Nat) : Word := BitVec.ofNat 64 (nbits t.pay.toNat (64 * i) 64)
    let s := ((((s.wc g a (t.hdr.zeroExtend 64)).wc g b (w 0)).wc g c (w 1)).wc g d (w 2)).wc g e (w 3)
    .ok () (if k then s else s.updHall g fun x => { x with seqIns := setNth x.seqIns ch.val rest })

def execPopt (h : SHdr) (a b c d e : Reg) (ch : Chan) (k : Bool) (s : State) : Out :=
  .next (cWord h [] [a, b, c, d, e] (fun g s => poptEff g a b c d e ch k s) s)

def execCtltSend (h : SHdr) (line : Fin 2) (s : State) : Out :=
  .next (cWord h [] [] (fun g s =>
    let x := s.hall g
    if x.posted ≠ [] ∨ !x.ctlRoom 8 7 line.val then .wait s else .ok () (s.setHall g (x.sendCtl 8 7 line.val))) s)

def execCtltConsume (h : SHdr) (line : Fin 2) (s : State) : Out :=
  .next (cWord h [] [] (fun g s =>
    let x := s.hall g
    if x.ctlCount 8 7 line.val = 0 then .wait s
    else .ok () ((acquire s g false []).updHall g fun x => x.takeCtl 8 7 line.val)) s)

end Sys2Proof.Machine
end

