-- ==== Sys2Proof/Machine/Copies.lean ====
section
/-! DEFINITION. The copy engine (spec/11 R277 to R293) and write-backs of the L1 (spec/10 R258). A copy moves one
destination line in a step; the line is whole, and its words are set full, before anything else happens. -/

namespace Sys2Proof.Machine

/-! ## Acceptance -/

/-- Instructions of a hall in flight (R277, R290): a chain counts once. -/
def inFlight (s : State) (h : Nat) : Nat :=
  let x := s.hall h
  (x.copies.filter (fun j => j.chain.isNone)).length + (x.chains.filter (fun c => c.2.active)).length
    + (s.arrays.filter (fun j => j.hall == h)).length

/-- The status word of R279. -/
def copyStatus (cause info : Nat) : Word := BitVec.ofNat 64 (cause * 2 ^ 56 + info % 2 ^ 32)

/-- A copy-class instruction is issued once the engine has room and posted REDs have performed (R277, R284). -/
def copyIssue (s : State) (h : Nat) (k : State → Res Unit) : Res Unit :=
  if 512 ≤ inFlight s h ∨ (s.hall h).posted ≠ [] then .wait s else k s

/-- Put a job into the engine and mark its token register pending (R278); the reads its egress depends on are those of
R125 now and its own (R285). -/
def acceptCopy (s : State) (h : Nat) (kind : CopyKind) (a : Reg) (chain : Option Nat) (src dst len : Nat) (ch : Hint)
    (orig : List Nat) : State :=
  let j : CopyJob := ⟨s.ids, kind, a.val, chain, src, dst, len, ch, horizon s h, 0, false, [], [], orig⟩
  setPending ({ s with ids := s.ids + 1 }.updHall h fun x => { x with copies := x.copies ++ [j] }) h a

/-- An address in one's own slot of the gallery window as one of the own window (R252). -/
def ownAddr (h va : Nat) : Nat :=
  let b := galBase + posOf h * slotBytes
  if b ≤ va ∧ va < b + slotBytes then ownBase + (va - b) else va

/-- An address that `resolve` does not refuse with ACCESS. -/
def reachOk (s : State) (h va : Nat) : Bool :=
  match resolve s h .ce va 1 with
  | .trap .access _ _ => false
  | _ => true

/-- A range lies in the translated space, or within one scratchpad (R281). -/
def copyRange (s : State) (h va len : Nat) : Bool :=
  if va + len ≤ ownBase then true
  else if va < ownBase then false
  else
    (if va < galBase then decide (va + len ≤ galBase) else (va - galBase) / slotBytes == (va + len - 1 - galBase) / slotBytes)
    && (List.range ((len - 1) / 65536 + 1)).all (fun i => reachOk s h (va + 65536 * i)) && reachOk s h (va + len - 1)

/-- The 64 KiB pages that [va, va + n) touches. -/
def pagesOf (va n : Nat) : List Nat :=
  (List.range ((va % 65536 + n - 1) / 65536 + 1)).map (fun i => va / 65536 * 65536 + 65536 * i)

/-- Some mapped page of a translated range is a lens page, as the agent's translations have it (R257). -/
def lensIn (s : State) (h : Nat) (ag : TlbAgent) (va len : Nat) : Bool :=
  !inScratch va && (pagesOf va len).any (fun p => ((leafAt s h ag p).map (fun l => pteLN l.1)).getD false)

/-- The first page of a range translates, and may be written when `wr`. -/
def firstPageOk (s : State) (h va : Nat) (ag : TlbAgent) (wr : Bool) : Bool :=
  inScratch va ||
    (match translate s h ag va with
     | .ok l _ => !wr || pteWR l.1
     | _ => false)

/-- The checks of R281 on a source, in the order of R13; `dst` is absent for CPYM (R292). -/
def copyCheck (s : State) (h : Nat) (ag : TlbAgent) (src : Nat) (dst : Option Nat) (len : Nat) : Option (Cause × Word) :=
  let ds := dst.toList
  if 2 ^ 32 ≤ len then some (.access, 0)
  else
    match (ds ++ [src]).find? (fun v => !copyRange s h v len), ds.find? (fun v => lensIn s h ag v len),
        ds.find? (fun v => !firstPageOk s h v ag true) with
    | some v, _, _ => some (.access, addrWord v)
    | none, some v, _ => some (.access, addrWord v)
    | none, none, some v => some (.xlat, addrWord v)
    | none, none, none =>
      if !firstPageOk s h src ag false then some (.xlat, addrWord src)
      else if lensIn s h ag src len then some (.lens, 0) else none

/-- The checks of ranges use the agent's buffer (R257); a range that fails the first check is not looked at. -/
def refillRanges (s : State) (h : Nat) (ag : TlbAgent) (vas : List Nat) (len : Nat) : State :=
  if 2 ^ 32 ≤ len then s else refill s h ag ((vas.filter (fun v => copyRange s h v len)).flatMap (fun v => pagesOf v len))

/-! ## CPY (R280 to R285) -/

def cpyEff (g : Nat) (a b c d : Reg) (ch : Hint) (s : State) : Res Unit :=
  let x := s.hall g
  let dst := (x.c.reg b).toNat
  let src := (x.c.reg c).toNat
  let len := (x.c.reg d).toNat
  copyIssue s g fun s =>
    let s := if len = 0 then s else refillRanges s g .seq [dst, src] len
    match (if len = 0 then none else copyCheck s g .seq src (some dst) len) with
    | some f => .trap f.1 f.2 s
    | none => .ok () (acceptCopy s g .bytes a none src dst len ch [])

def execCpy (h : SHdr) (a b c d : Reg) (s : State) : Out :=
  .next (cWord h [b, c, d] [a] (fun g s => cpyEff g a b c d h.ch s) s)

/-- A task declares an identifier read-only (R26). -/
def readOnly (s : State) (h tid : Nat) : Bool :=
  match (s.hall h).bind.bind (fun b => s.task? b.task) with
  | some t => t.opds.any (fun o => opdMode o == 1 && opdTid o == tid)
  | none => false

/-- The bytes of the element at a position. -/
def Tensor.at (t : Tensor) (n : Nat) : List Nat := t.bytesOf (t.idx n)

/-- The line of the first byte of the element at a position. -/
def Tensor.lineAt (t : Tensor) (n : Nat) : Nat := t.byteAddr (t.idx n) 0 / 128

/-- The bytes of every element. -/
def Tensor.allBytes (t : Tensor) : List Nat := (List.range t.count).flatMap t.at

/-- The page checks of R41 that an entry fails before any access, on every byte: ACCESS with its address. -/
def Tensor.accessFault (t : Tensor) (s : State) (h : Nat) : Option Nat :=
  t.allBytes.find? (fun va =>
    if ownBase ≤ va then t.lens || !reachOk s h va
    else match leafAt s h .seq va with
      | some (w, _) => (t.pageFault (some w)).isSome
      | none => false)

/-- Some element of an entry lies in a lens page. -/
def Tensor.touchesLens (t : Tensor) (s : State) (h : Nat) : Bool := t.allBytes.any (fun va => lensIn s h .seq va 1)

/-- The checks of R283 after the first four, in the order of R13. -/
def tensorCheck (s : State) (h : Nat) (src dst : Tensor) (tidDst : Nat) : Option (Option (Cause × Word)) :=
  if !src.aligned ∨ !dst.aligned then some (some (.align, 0))
  else if readOnly s h tidDst ∨ dst.overlaps then some (some (.access, 0))
  else
    match src.accessFault s h, dst.accessFault s h with
    | some va, _ => some (some (.access, addrWord va))
    | none, some va => some (some (.access, addrWord va))
    | none, none =>
      if dst.touchesLens s h then some (some (.access, 0))
      else if src.touchesLens s h then some (some (.lens, 0))
      else if !src.shapeOk ∨ !dst.shapeOk then some none
      else none

/-- Lowest and highest byte of an entry's elements. -/
def Tensor.bounds (t : Tensor) : Nat × Nat :=
  (t.allBytes.foldl min (2 ^ 64), t.allBytes.foldl max 0)

/-- Every element of an entry, when all of it can be read. -/
def readAll (h : Nat) (t : Tensor) : Nat → State → Option (List Nat)
  | 0, _ => some []
  | n + 1, s =>
    match readAll h t n s, readElem s h .ce t (t.idx n) false .dflt with
    | some l, .ok v _ => some (l ++ [v.1])
    | _, _ => none

/-- The source elements, for a copy whose element sets may overlap (R283). -/
def origElems (s : State) (h : Nat) (src dst : Tensor) : List Nat :=
  let a := src.bounds
  let b := dst.bounds
  if a.1 ≤ b.2 ∧ b.1 ≤ a.2 then (readAll h src src.count s).getD [] else []

def cpyTEff (g : Nat) (a b c : Reg) (ch : Hint) (s : State) : Res Unit :=
  let x := s.hall g
  let d := (x.c.reg b).toNat
  let r := (x.c.reg c).toNat
  let ctx := s.ctxOf g
  copyIssue s g fun s =>
    let dst := tensorOf s ctx d
    let src := tensorOf s ctx r
    if 256 ≤ d ∨ 256 ≤ r ∨ !dst.valid ∨ !src.valid then .trap .access 0 s
    else if dst.fmt ≠ src.fmt ∨ dst.sfmt ≠ 0 ∨ src.sfmt ≠ 0 then trapOpen .cfg s
    else if dst.dims ≠ src.dims ∨ dst.w2 ≠ src.w2 then .trap .access 0 s
    else if dst.lens ∨ src.lens then .trap .lens 0 s
    else
      let s := refill s g .seq ((src.allBytes ++ dst.allBytes).map (fun v => v / 65536 * 65536)).dedup
      match tensorCheck s g src dst d with
      | some (some f) => .trap f.1 f.2 s
      | some none => trapOpen .cfg s
      | none => .ok () (acceptCopy s g (.tensor src dst) a none src.base dst.base src.count ch (origElems s g src dst))

def execCpyT (h : SHdr) (a b c : Reg) (s : State) : Out :=
  .next (cWord h [b, c] [a] (fun g s => cpyTEff g a b c h.ch s) s)

/-! ## Multicast groups (R291 to R293) -/

def mcGroup (s : State) (t : TaskId) (g : Nat) : McGroup :=
  ((s.groups.find? (fun p => p.1 == t && p.2.1 == g)).map (·.2.2)).getD ⟨0, false⟩

def setGroup (s : State) (t : TaskId) (g : Nat) (m : McGroup) : State :=
  { s with groups := (t, g, m) :: s.groups.filter (fun p => !(p.1 == t && p.2.1 == g)) }

/-- Member instances of a group: a bit at or above HALLS is ignored (R291). -/
def members (t : Task) (m : McGroup) : List Nat := (List.range t.halls).filter (fun i => m.mask.getLsbD i)

/-- The gallery-window address of a scratch offset in a member. -/
def memberVA (t : Task) (i off : Nat) : Nat := galBase + posOf (t.granted.getD i 0) * slotBytes + off

/-- The checks of R292. -/
def multiCheck (s : State) (h : Nat) (ag : TlbAgent) (t : Task) (ms : List Nat) (src off len : Nat) : Option (Cause × Word) :=
  match copyCheck s h ag src none len with
  | some (.access, i) => some (.access, i)
  | r =>
    if ms.any (fun i => (s.hall (t.granted.getD i 0)).size < off + len || !copyRange s h (memberVA t i off) len)
    then some (.access, addrWord off) else r

/-- The task a hall runs, with the group's state. -/
def hallTask (s : State) (h : Nat) : Option Task := (s.hall h).bind.bind (fun b => s.task? b.task)

def cpymEff (g : Nat) (a b c d : Reg) (grp : Fin 64) (ch : Hint) (s : State) : Res Unit :=
  match hallTask s g with
  | none => .ok () s
  | some t =>
    let m := mcGroup s t.id grp.val
    if m.quiesced then .wait s
    else
      let x := s.hall g
      let off := (x.c.reg b).toNat
      let src := (x.c.reg c).toNat
      let len := (x.c.reg d).toNat
      let ms := members t m
      copyIssue s g fun s =>
        let s := if len = 0 then s else refillRanges s g .seq [src] len
        match (if len = 0 then none else multiCheck s g .seq t ms src off len) with
        | some f => .trap f.1 f.2 s
        | none =>
          .ok () (acceptCopy s g (.multicast grp.val ms) a none src off (if ms = [] then 0 else len) ch [])

def execCpym (h : SHdr) (a b c d : Reg) (g : Fin 64) (s : State) : Out :=
  .next (cWord h [b, c, d] [a] (fun k s => cpymEff k a b c d g h.ch s) s)

/-- A query's immediate result (R293). -/
def queryWord (h : SHdr) (a : Reg) (srcs : List Reg) (f : Nat → State → Res Word) (s : State) : State :=
  cWord h srcs [a] (fun g s => copyIssue s g fun s => (f g s).andThen fun v s => .ok () (complete s g a.val v)) s

def execCpyqCount (h : SHdr) (a : Reg) (s : State) : Out :=
  .next (queryWord h a [] (fun g s => .ok (BitVec.ofNat 64 (inFlight s g)) s) s)

def Hall.chain (x : Hall) (k : Nat) : ChainCh := mget x.chains k ⟨false, 0, 0, 0, 0, 0, none, []⟩
def Hall.setChain (x : Hall) (k : Nat) (c : ChainCh) : Hall := { x with chains := mset x.chains k c }

def execCpyqChain (h : SHdr) (a : Reg) (ch : Fin 8) (s : State) : Out :=
  .next (queryWord h a [] (fun g s =>
    let c := (s.hall g).chain ch.val
    .ok (BitVec.ofNat 64 (b2n c.active * 2 ^ 63 + c.ptr % 2 ^ 56)) s) s)

/-- The group a query names: other bits of `sb` must be 0 (R293). -/
def groupOp (b : Reg) (k : Task → Nat → Word → Nat → State → Res Unit) (g : Nat) (s : State) : Res Unit :=
  let v := s.rc g b
  if nbits v.toNat 6 2 ≠ 0 ∨ 2 ^ 14 ≤ v.toNat then .trap .access 0 s
  else
    match hallTask s g with
    | none => .ok () s
    | some t => k t (nbits v.toNat 0 6) v g s

/-- The CPYMs of a group accepted and not completed, of every instance of the task. -/
def groupJobs (s : State) (t : Task) (grp : Nat) : List Nat :=
  t.onHalls.flatMap (fun h => (s.hall h).copies.filterMap (fun j =>
    match j.kind with
    | .multicast g _ => if g = grp then some j.id else none
    | _ => none))

def execCpyqGq (h : SHdr) (a b : Reg) (s : State) : Out :=
  .next (cWord h [b] [a] (fun g s => copyIssue s g fun s => groupOp b (fun t grp _ g s =>
    let js := groupJobs s t grp
    let s := setGroup s t.id grp { mcGroup s t.id grp with quiesced := true }
    .ok () (if js = [] then complete s g a.val 0
            else acceptCopy s g (.quiesce grp js) a none 0 0 0 .dflt [])) g s) s)

def execCpyqGset (h : SHdr) (a b : Reg) (s : State) : Out :=
  .next (cWord h [b] [a] (fun g s => copyIssue s g fun s => groupOp b (fun t grp v g s =>
    let m := mcGroup s t.id grp
    if m.quiesced then
      .ok () (complete (setGroup s t.id grp { m with mask := BitVec.ofNat 6 (v.toNat / 256) }) g a.val 0)
    else .ok () (complete s g a.val 1)) g s) s)

def execCpyqGres (h : SHdr) (a b : Reg) (s : State) : Out :=
  .next (cWord h [b] [a] (fun g s => copyIssue s g fun s => groupOp b (fun t grp _ g s =>
    .ok () (complete (setGroup s t.id grp { mcGroup s t.id grp with quiesced := false }) g a.val 0)) g s) s)

/-! ## Moving a line (R282, R283, R292) -/

/-- The next bytes of a copy in its order: offset and count, within one destination line. `ds` are the destinations
(R282, R292). -/
def CopyJob.chunk (j : CopyJob) (h : Nat) (ds : List Nat) : Nat × Nat :=
  let r := ownAddr h j.src
  if ds.any (fun d => r < ownAddr h d && ownAddr h d < r + j.len) then
    let e := j.len - j.done
    let n := min e ((j.dst + e - 1) % 128 + 1)
    (e - n, n)
  else (j.done, min (j.len - j.done) (128 - (j.dst + j.done) % 128))

/-- Read `n` bytes, at most 64 at a time and none across a 64-byte line. The copy's hint is for its destination (R280). -/
def readPieces (h : Nat) : Nat → Nat → Nat → State → Res (List Byte)
  | 0, _, _, s => .ok [] s
  | f + 1, va, n, s =>
    if n = 0 then .ok [] s
    else
      let k := min n (64 - va % 64)
      (engRead s h .ce va k false .dflt).andThen fun v s =>
      if (v.2.map pteLN).getD false then .trap .lens 0 s
      else (readPieces h f (va + k) (n - k) s).andThen fun bs s => .ok (leBytes k v.1 ++ bs) s

/-- Write bytes of a copy in the same pieces. -/
def writePieces (h : Nat) (ch : Hint) (job : Nat) : Nat → Nat → List Byte → State → Res Unit
  | 0, _, _, s => .ok () s
  | f + 1, va, bs, s =>
    if bs = [] then .ok () s
    else
      let k := min bs.length (64 - va % 64)
      (engWrite s h .ce va k (leNat (bs.take k)) ch (.copy job)).andThen fun _ s => writePieces h ch job f (va + k) (bs.drop k) s

/-- A request that must be served first waits at scratch words of a destination (R357): the line waits whole. -/
def lineBusy (s : State) (h va n : Nat) : Bool :=
  match locate s h .ce va 1 with
  | .ok (.scratch t off) s => portBusy s t off n
  | _ => false

/-- Set full every scratch word that [va, va + n) touches, where it is scratch: a release at hall scope (R282). -/
def fillWords (s : State) (h va n : Nat) : State :=
  if !inScratch va ∨ n = 0 then s
  else
    match resolve s h .ce va 1 with
    | .ok (.scratch t off) s =>
      let ws := (List.range ((off + n - 1) / 4 + 1 - off / 4)).map (fun i => off / 4 + i)
      leaveWords (s.updHall t (setWords ws true)) t ws
    | _ => s

/-- A source element of a tensor copy. Where the copy may have written over it, it is the old or the present one
(R283), the old one while the present one waits to leave for the host. -/
def sourceElem (s : State) (h : Nat) (j : CopyJob) (src : Tensor) (n : Nat) : Res Nat :=
  match readElem s h .ce src (src.idx n) false .dflt, j.orig[n]? with
  | .ok v s, o =>
    if v.2 then .trap .lens 0 s
    else match o with
      | some o => let d := s.draw; .ok (if Config.freeBool d.1 then o else v.1) d.2
      | none => .ok v.1 s
  | .wait w, some o => if s.egress.any (fun e => e.job == some j.id) then .ok o s else .wait w
  | .wait w, none => .wait w
  | .trap c i s, _ => .trap c i s
  | .freeze c i s, _ => .freeze c i s

/-- The source elements at positions of a tensor copy. -/
def readElems (h : Nat) (j : CopyJob) (src : Tensor) : List Nat → State → Res (List Nat)
  | [], s => .ok [] s
  | n :: ns, s =>
    (sourceElem s h j src n).andThen fun v s => (readElems h j src ns s).andThen fun vs s => .ok (v :: vs) s

/-- Values go to the positions of a tensor copy. -/
def writeElems (h : Nat) (j : CopyJob) (dst : Tensor) : List (Nat × Nat) → State → Res Unit
  | [], s => .ok () s
  | (n, v) :: ps, s =>
    (writeElem s h .ce dst (dst.idx n) v j.ch (.copy j.id)).andThen fun _ s => writeElems h j dst ps s

/-- What stops an access before it is made. -/
def stopOf {α : Type} (r : Res α) : Option (Cause × Word) :=
  match r with
  | .trap c i _ | .freeze c i _ => some (c, i)
  | _ => none

/-- Of what stops the accesses of a line, ACCESS comes before XLAT (R13). -/
def lineStop (fs : List (Option (Cause × Word))) : Option (Cause × Word) :=
  let l := fs.filterMap id
  (l.find? (fun f => f.1 == .access)).or l.head?

/-- The pieces in which a range of a line is read and written. -/
def pieces : Nat → Nat → Nat → List (Nat × Nat)
  | 0, _, _ => []
  | f + 1, va, n => if n = 0 then [] else
    let k := min n (64 - va % 64)
    (va, k) :: pieces f (va + k) (n - k)

/-- What stops a line of a byte copy: its destination, then its source. -/
def bytesStop (s : State) (h src : Nat) (dst : Option Nat) (n : Nat) : Option (Cause × Word) :=
  lineStop (((dst.map (pieces n · n)).getD []).map (fun p => stopOf (writable s h .ce p.1 p.2))
    ++ (pieces n src n).map (fun p => stopOf (locate s h .ce p.1 p.2)))

/-- What stops the elements of a tensor copy at positions. -/
def elemsStop (s : State) (h : Nat) (src dst : Tensor) (ns : List Nat) : Option (Cause × Word) :=
  lineStop ((ns.flatMap dst.at).map (fun va => stopOf ((entryPlace s h .ce dst va 1).andThen fun _ s => writable s h .ce va 1))
    ++ (ns.flatMap src.at).map (fun va => stopOf (entryPlace s h .ce src va 1)))

/-- Every place of a list is reached: a host page is asked for (R436). -/
def reachAll (h : Nat) : List Nat → State → Res Unit
  | [], s => .ok () s
  | va :: vas, s => (resolve s h .ce va 1).andThen fun _ s => reachAll h vas s

/-- The writes of a line are made whole or not at all. -/
def whole {α : Type} (s : State) (r : Res α) : Res α :=
  match r with
  | .wait _ => .wait s
  | r => r

/-- Lines that an element of an entry touches. -/
def Tensor.lines (t : Tensor) (n : Nat) : List Nat := ((t.at n).map (· / 128)).dedup

/-- Set the words of a finished line full. -/
def fillTensorLine (s : State) (h : Nat) (t : Tensor) (line : Nat) : State :=
  ((t.allBytes.filter (· / 128 == line)).map (· / 4)).dedup.foldl (fun s w => fillWords s h (4 * w) 4) s

/-- The lines whose last element lies in [a, b). -/
def finished (t : Tensor) (a b : Nat) : List Nat :=
  ((List.range (b - a)).flatMap (fun i => t.lines (a + i))).dedup.filter (fun l =>
    !(List.range (t.count - b)).any (fun i => (t.lines (b + i)).contains l))

/-- A migration of a page that a range names is under way (R275). -/
def moving (s : State) (ctx : Word) (va n : Nat) : Bool :=
  !s.pmovs.isEmpty && (pagesOf va n).any (fun v =>
    match (s.ctx? ctx).bind (fun c => walk s c v) with
    | some (w, big) =>
      let pa := ptePA w + v % pageBytes big
      s.pmovs.any (fun j => j.pages.any (fun p => p.src < pa + 65536 && pa < p.src + pageBytes p.big))
    | none => false)

/-- The positions of a tensor copy whose elements lie in the line of position `n`, from there on. -/
def lineElems (dst : Tensor) (n len : Nat) : List Nat :=
  ((List.range (len - n)).map (n + ·)).takeWhile (fun k => dst.lineAt k == dst.lineAt n)

/-- Move the next line of a job: the job after it. What stops the line is judged before any of it is read, the whole line is
read before any of it is written, and a write that must wait leaves none of it written (R13, R286). -/
def copyLine (s : State) (h : Nat) (j : CopyJob) : Res CopyJob :=
  let ctx := s.ctxOf h
  match j.kind with
  | .quiesce _ _ => .ok j s
  | .bytes =>
    let (k, n) := j.chunk h [j.dst]
    if moving s ctx (j.src + k) n ∨ moving s ctx (j.dst + k) n ∨ lineBusy s h (j.dst + k) n then .wait s
    else
      match bytesStop s h (j.src + k) (some (j.dst + k)) n with
      | some f => .trap f.1 f.2 s
      | none =>
        (reachAll h ((pieces n (j.dst + k) n).map (·.1)) s).andThen fun _ s =>
        (readPieces h n (j.src + k) n s).andThen fun bs s =>
        whole s ((writePieces h j.ch j.id n (j.dst + k) bs s).andThen fun _ s =>
          .ok { j with done := j.done + n } (fillWords s h (j.dst + k) n))
  | .tensor src dst =>
    let ns := lineElems dst j.done j.len
    if ns.any (fun n => (src.at n ++ dst.at n).any (fun v => moving s ctx v 1) || (dst.at n).any (fun v => lineBusy s h v 1))
    then .wait s
    else
      match elemsStop s h src dst ns with
      | some f => .trap f.1 f.2 s
      | none =>
        (reachAll h (ns.flatMap dst.at) s).andThen fun _ s =>
        (readElems h j src ns s).andThen fun vs s =>
        let n := j.done + ns.length
        whole s ((writeElems h j dst (ns.zip vs) s).andThen fun _ s =>
          .ok { j with done := n } ((finished dst j.done n).foldl (fun s l => fillTensorLine s h dst l) s))
  | .multicast _ ms =>
    match hallTask s h with
    | none => .ok j s
    | some t =>
      let (k, n) := j.chunk h (ms.map (fun i => memberVA t i j.dst))
      match j.left with
      | [] =>
        if moving s ctx (j.src + k) n then .wait s
        else
          match bytesStop s h (j.src + k) none n with
          | some f => .trap f.1 f.2 s
          | none => (readPieces h n (j.src + k) n s).andThen fun bs s => .ok { j with buf := bs, left := ms } s
      | i0 :: _ =>
        let (q, s) := s.draw
        let i := j.left.getD ((Config.freeWord q).toNat % j.left.length) i0
        let va := memberVA t i (j.dst + k)
        if lineBusy s h va n then .wait s
        else
          whole s ((writePieces h j.ch j.id n va j.buf s).andThen fun _ s =>
            let left := j.left.erase i
            let s := fillWords s h va n
            if left = [] then .ok { j with left := [], buf := [], done := j.done + n } s else .ok { j with left := left } s)

def Hall.updCopy (x : Hall) (j : CopyJob) : Hall :=
  { x with copies := x.copies.map (fun k => if k.id == j.id then j else k) }

/-- The device lines that a hall's engine reads at addresses, as its buffer translates them. -/
def sourceLines (s : State) (h : Nat) (vas : List Nat) : List Nat :=
  vas.filterMap (fun va => match locate s h .ce va 1 with
    | .ok (.dev pa _) _ => some (pa / 128)
    | _ => none)

/-- The checks under way of lines that a hall has received: those a read of the lines depends on, whichever read of the hall
brought them (R125). -/
def lineChecks (s : State) (h : Nat) (lines : List Nat) : List Nat :=
  (s.checks.filter (fun c => c.hall == h && lines.contains c.line)).map (·.id)

/-- The source addresses that the next line of a job reads, one for each of its pieces. -/
def CopyJob.sources (j : CopyJob) (s : State) (h : Nat) : List Nat :=
  let run (ds : List Nat) : List Nat := let (k, n) := j.chunk h ds; (pieces n (j.src + k) n).map (·.1)
  match j.kind with
  | .quiesce _ _ => []
  | .bytes => run [j.dst]
  | .tensor src dst => (lineElems dst j.done j.len).flatMap src.at
  | .multicast _ ms => if j.left ≠ [] then [] else
      run ((hallTask s h).elim [] (fun t => ms.map (fun i => memberVA t i j.dst)))

/-- The same, with the checks of the reads it made (R285), of an attempt that waits too. -/
def copyStep (s : State) (h : Nat) (j : CopyJob) : Res CopyJob :=
  let new (t : State) : List Nat := (lineChecks t h (sourceLines t h (j.sources s h))).filter (!j.checks.contains ·)
  match copyLine s h j with
  | .ok j' t => .ok { j' with checks := j'.checks ++ new t } t
  | .wait t => .wait (t.updHall h fun x => x.updCopy { j with checks := j.checks ++ new t })
  | r => r

/-! ## Parking (R286, R290) -/

/-- The progress counter as a record shows it: bytes written. -/
def CopyJob.bytesDone (j : CopyJob) : Nat :=
  match j.kind with
  | .tensor src _ => j.done * src.bits / 8
  | _ => j.done

/-- A fault of the engine freezes the hall; the record names the token register, the counter, the transfer record and the
`parked` copies. -/
def copyFreeze (s : State) (h reg : Nat) (chain : Option Nat) (done parked : Nat) (c : Cause) (info : Word) : State :=
  let x := s.hall h
  let rec_ := match chain with | some k => (x.chain k).ptr | none => 0
  freeze s h 9 7 0 0 0 c info
    [BitVec.ofNat 64 (reg + (chain.getD 0) * 256), BitVec.ofNat 64 done, BitVec.ofNat 64 rec_, BitVec.ofNat 64 parked]

/-- The job parks with its counter. -/
def copyPark (s : State) (h : Nat) (j : CopyJob) (c : Cause) (info : Word) : State :=
  let reg := match j.chain with | some k => ((s.hall h).chain k).reg | none => j.reg
  copyFreeze (s.updHall h fun x => x.updCopy { j with parked := true }) h reg j.chain j.bytesDone (s.hall h).copies.length c info

def Hall.copy? (x : Hall) (id : Nat) : Option CopyJob := x.copies.find? (fun j => j.id == id)

/-- A job that can go on. -/
def copyRuns (x : Hall) (j : CopyJob) : Bool := x.active && !j.parked && decide (j.done < j.len)

/-- SCRATCH_LINE_FILL: the next line of a copy, in scratch or in memory, is written whole. Only forward movement is
progress for the watchdog (R416). -/
def lineFill (s : State) (h id : Nat) : State :=
  match (s.hall h).copy? id with
  | none => s
  | some j =>
    if !copyRuns (s.hall h) j then s
    else
      match copyStep s h j with
      | .ok j' s => s.updHall h fun x => x.updCopy j'
      | .trap c i _ | .freeze c i _ => copyPark s h j c i
      | .wait s => s

def execScratchLineFill (hall : HallId) (id : Nat) (s : State) : Out := .next (lineFill s hall.val id)

/-- COPY_FAULT_PARK: a copy whose next line faults parks. -/
def faultPark (s : State) (h id : Nat) : State :=
  match (s.hall h).copy? id with
  | none => s
  | some j =>
    if !copyRuns (s.hall h) j then s
    else
      match copyStep s h j with
      | .trap c i _ | .freeze c i _ => copyPark s h j c i
      | .ok _ _ | .wait _ => s

def execCopyFaultPark (hall : HallId) (id : Nat) (s : State) : Out := .next (faultPark s hall.val id)

/-! ## Chains (R288 to R290) -/

/-- CPYC (R289). -/
def cpycEff (g : Nat) (a b : Reg) (ch : Fin 8) (s : State) : Res Unit :=
  copyIssue s g fun s =>
    let x := s.hall g
    let c := x.chain ch.val
    let head := (x.c.reg b).toNat
    if c.active then .ok () (complete s g a.val (copyStatus 1 0))
    else if head % 64 ≠ 0 then .trap .align (addrWord head) s
    else
      let ptr := if head = 0 then c.ptr else head
      if ptr = 0 then .ok () (complete s g a.val (copyStatus 0 0))
      else .ok () (setPending (s.updHall g fun x => x.setChain ch.val ⟨true, ptr, a.val, 0, 0, 0, none, []⟩) g a)

def execCpyc (h : SHdr) (a b : Reg) (ch : Fin 8) (s : State) : Out :=
  .next (cWord h [b] [a] (fun g s => cpycEff g a b ch s) s)

/-- The key of a location an engine reads. -/
def keyAt (s : State) (h va : Nat) : Nat :=
  match resolve s h .ce va 1 with
  | .ok (.scratch t off) _ => keyOfScratch t off
  | .ok (.dev pa _) _ => pa
  | .ok (.host ha _) _ => keyOfHost ha
  | _ => 0

/-- Read the first four words of a record: an acquire at package scope (R290). -/
def readRecord (s : State) (h ptr : Nat) : Res (List Nat) :=
  let key := keyAt s h ptr
  let s := joinClock (s.updHall h Hall.dropClean) h (carried s key 64 h .package)
  let w (i : Nat) (s : State) : Res Nat :=
    (engRead s h .ce (ptr + 8 * i) 8 false .noL2).andThen fun v s =>
      if (v.2.map pteLN).getD false then .trap .lens 0 s else .ok v.1 s
  (w 0 s).andThen fun q0 s => (w 1 s).andThen fun q1 s => (w 2 s).andThen fun q2 s => (w 3 s).andThen fun q3 s =>
    .ok [q0, q1, q2, q3] s

/-- A malformed record (R288). -/
def recordBad (q : List Nat) : Bool :=
  nbits (q.getD 0 0) 56 6 != 0 || nbits (q.getD 0 0) 0 56 % 64 != 0 || nbits (q.getD 1 0) 56 8 != 0
  || nbits (q.getD 2 0) 56 8 != 0 || nbits (q.getD 3 0) 38 26 != 0
  || (!nbit (q.getD 0 0) 62 && nbits (q.getD 3 0) 32 6 != 0)

/-- A chain ends with a status; its pointer is kept at `ptr`. -/
def chainEnd (s : State) (h k ptr cause n : Nat) : State :=
  let c := (s.hall h).chain k
  complete (s.updHall h fun x => x.setChain k { c with active := false, ptr := ptr, job := none, got := [] }) h c.reg (copyStatus cause n)

/-- The copy that a record asks for is checked and started. -/
def startRecord (s : State) (h k : Nat) (c : ChainCh) (q : List Nat) : Res Unit :=
  let src := nbits (q.getD 1 0) 0 56
  let dst := nbits (q.getD 2 0) 0 56
  let len := nbits (q.getD 3 0) 0 32
  let grp := nbits (q.getD 3 0) 32 6
  let go (kind : CopyKind) (len : Nat) (s : State) : Res Unit :=
    let id := s.ids
    let s := acceptCopy s h kind 0 (some k) src dst len .dflt []
    .ok () (s.updHall h fun x => x.setChain k
      { c with job := some id, next := nbits (q.getD 0 0) 0 56, top := nbits (q.getD 0 0) 56 8, got := [] })
  if nbit (q.getD 0 0) 62 then
    match hallTask s h with
    | none => .ok () s
    | some t =>
      let m := mcGroup s t.id grp
      let ms := members t m
      if m.quiesced then .wait s
      else
        let s := if len = 0 then s else refillRanges s h .ce [src] len
        match (if len = 0 then none else multiCheck s h .ce t ms src dst len) with
        | some f => .trap f.1 f.2 s
        | none => go (.multicast grp ms) (if ms = [] then 0 else len) s
  else
    let s := if len = 0 then s else refillRanges s h .ce [dst, src] len
    match (if len = 0 then none else copyCheck s h .ce src (some dst) len) with
    | some f => .trap f.1 f.2 s
    | none => go .bytes len s

/-- CHAIN_RECORD: a processing channel reads its next record, once, and starts it. A check that fails parks the chain, which
counts among the copies parked (R290, R455). -/
def chainRecord (s : State) (h k : Nat) : State :=
  let x := s.hall h
  let c := x.chain k
  if !x.active ∨ !c.active ∨ c.job.isSome then s
  else
    match (if c.got = [] then readRecord s h c.ptr else .ok c.got s) with
    | .ok q s =>
      if !nbit (q.getD 0 0) 63 then chainEnd s h k c.ptr 3 c.count
      else if recordBad q then chainEnd s h k c.ptr 2 c.count
      else
        let c := { c with got := q }
        let s := s.updHall h fun x => x.setChain k c
        match startRecord s h k c q with
        | .ok _ s => s
        | .trap c' i s | .freeze c' i s => stop s c' i
        | .wait s => s
    | .trap c' i _ | .freeze c' i _ => stop s c' i
    | .wait s => s
where
  stop (s : State) (c : Cause) (i : Word) : State :=
    copyFreeze s h ((s.hall h).chain k).reg (some k) 0 ((s.hall h).copies.length + 1) c i

def execChainRecord (hall : HallId) (ch : Fin 8) (s : State) : Out := .next (chainRecord s hall.val ch.val)

/-- The line of a record in device memory is in the L1, so that the writes of the record's end find it and its check there. -/
def fetchRecord (s : State) (h ptr : Nat) : Res Unit :=
  (writable s h .ce (ptr + 32) 8).andThen fun _ s =>
  (writable s h .ce (ptr + 7) 1).andThen fun p s =>
    match p with
    | .dev pa leaf => (devRead s h pa leaf (ptr + 7) 1 .dflt).andThen fun _ s => .ok () s
    | _ => .ok () s

/-- The end of a record: a release at package scope, then its status and OWN cleared (R290). What the release covers has
gone back before either is written, and both go back at once. -/
def recordDone (s : State) (h k : Nat) (c : ChainCh) (st : Word) : Res Unit :=
  (reachAll h [c.ptr, c.ptr + 32] s).andThen fun _ s =>
  (release s h true).andThen fun clk s =>
  (fetchRecord s h c.ptr).andThen fun _ s =>
  whole s (
    (engWrite s h .ce (c.ptr + 32) 8 st.toNat .dflt).andThen fun _ s =>
    (engWrite s h .ce (c.ptr + 7) 1 (c.top % 128) .dflt).andThen fun _ s =>
    (flushL1 s h).andThen fun _ s =>
    let leaves := (s.hall h).leaves .package clk
    let s := leaveCarry (leaveCarry s (keyAt s h c.ptr) 8 h leaves) (keyAt s h (c.ptr + 32)) 8 h leaves
    let n := c.count + 1
    if c.next = 0 then .ok () (chainEnd s h k 0 0 n)
    else .ok () (s.updHall h fun x => x.setChain k { c with ptr := c.next, count := n, job := none }))

/-- COPY_COMPLETE: the completion write of R278, or the end of a chain's record, once all it sends has left (R285). -/
def copyComplete (s : State) (h id : Nat) : State :=
  match (s.hall h).copy? id with
  | none => s
  | some j =>
    let x := s.hall h
    let drop (s : State) : State := s.updHall h fun x => { x with copies := x.copies.filter (fun k => k.id != id) }
    if !x.active ∨ j.parked ∨ j.done < j.len ∨ s.egress.any (fun e => e.job == some j.id) then s
    else
      match j.kind, j.chain with
      | .quiesce _ js, _ =>
        if s.halls.any (fun p => p.2.copies.any (fun k => js.contains k.id)) then s else complete (drop s) h j.reg 0
      | _, none => complete (drop s) h j.reg (copyStatus 0 j.len)
      | _, some k =>
        let c := x.chain k
        match recordDone s h k c (copyStatus 0 j.len) with
        | .ok _ s => drop s
        | .trap c' i _ | .freeze c' i _ => copyPark s h j c' i
        | .wait s => s

def execCopyComplete (hall : HallId) (id : Nat) (s : State) : Out := .next (copyComplete s hall.val id)

/-! ## Write-backs of the hall L1 (R258, R384, R385) -/

/-- L1_WRITE_BACK: a dirty line leaves the L1, checked as a write; a race freezes the hall. -/
def l1WriteBack (s : State) (h line : Nat) : State :=
  match l1Find (s.hall h) false line with
  | none => s
  | some l =>
    if l.dirty = 0 then s
    else
      match writeBackLine s h l with
      | .ok _ s => s.updHall h fun x => { x with l1 := x.l1.filter (fun k => !(k.host == false && k.line == line)) }
      | .trap c i s | .freeze c i s => freeze s h 8 7 0 0 0 c i []
      | .wait s => s

def execL1WriteBack (hall : HallId) (line : Nat) (s : State) : Out := .next (l1WriteBack s hall.val line)

end Sys2Proof.Machine
end

