-- ==== Sys2Proof/Machine/Arrays.lean ====
section
/-! DEFINITION. In-array operations (spec/11 R294 to R304) and the tensor identifier table (R305 to R307). -/

namespace Sys2Proof.Machine

/-! ## Issue (R297, R298) -/

/-- Bytes of an operand from its start to the end of its 2 MiB-aligned range at most. -/
def operandBytes (va n : Nat) : Nat := min (2048 * n) (0x200000 - va % 0x200000)

/-- The leaves of the 64 KiB units that an operand touches, as the sequencer's translations have them (R257). -/
def operandLeaves (s : State) (h va n : Nat) : List (Option Word) :=
  (pagesOf va (operandBytes va n)).map (fun p => (leafAt s h .seq p).map (·.1))

def anyLeaf (ls : List (Option Word)) (f : Word → Bool) : Bool := ls.any (fun l => (l.map f).getD false)

/-- An operand that leaves the translated space. -/
def untranslated (va n : Nat) : Bool := ownBase < va + operandBytes va n

/-- The lens rule of R304: ACPY of the system context between lens pages of one domain. -/
def lensCopy (s : State) (c : Ctx) (op : ArrOp) (dst : List (Option Word)) (srcs : List (List (Option Word))) : Bool :=
  op = .acpy && s.isSystem c.id && dst.all (fun l => (l.map pteLN).getD false)
  && (dst :: srcs).all (fun ls => ls.all (fun l => match l, dst.head? with
    | some a, some (some b) => pteLN a && pteKD a == pteKD b
    | _, _ => false))

/-- Physical address of a row unit of an operand. -/
def rowPA (s : State) (h va : Nat) : Option (Nat × Word) :=
  (leafAt s h .seq va).map (fun p => (ptePA p.1 + va % pageBytes p.2, p.1))

/-- A destination row holds T0 of a spawned task (R29). -/
def rowsOwned (s : State) (h : Nat) (ctx : Word) (va n : Nat) : Bool :=
  ownsT0 s ctx va (2048 * n) || (List.range n).any (fun j => match rowPA s h (va + 2048 * j) with
    | some (pa, leaf) => !pteHO leaf && ownsT0At s ctx pa 2048
    | none => false)

/-- The checks of R298, in the order of R13. -/
def arrayCheck (s : State) (h : Nat) (c : Ctx) (op : ArrOp) (dst n : Nat) (srcs : List Nat) : Option (Cause × Word) :=
  match (dst :: srcs).find? (fun v => v % 2048 != 0) with
  | some v => some (.align, addrWord v)
  | none =>
    if 1024 < n then some (.access, 0)
    else if n = 0 then none
    else
      match (dst :: srcs).find? (fun v => untranslated v n) with
      | some v => some (.access, addrWord v)
      | none =>
        let d := operandLeaves s h dst n
        let rs := srcs.map (fun v => operandLeaves s h v n)
        let ok := lensCopy s c op d rs
        match ((dst, d) :: srcs.zip rs).find? (fun p => anyLeaf p.2 pteHO) with
        | some p => some (.access, addrWord p.1)
        | none =>
          if (!ok && anyLeaf d pteLN) || rowsOwned s h c.id dst (operandBytes dst n / 2048) then some (.access, addrWord dst)
          else
            match ((dst, d) :: srcs.zip rs).find? (fun p => p.2.any (·.isNone)) with
            | some p => some (.xlat, addrWord p.1)
            | none =>
              if anyLeaf d (fun w => !pteWR w) then some (.xlat, addrWord dst)
              else if !ok && rs.any (fun ls => anyLeaf ls pteLN) then some (.lens, 0) else none

/-- The bytes of a row unit: in domain 0 what a read there sees; else what DRAM holds, which an in-array copy carries over
as it stands (R300). A row that is not live is zeros (R295). -/
def rowData (s : State) (pa : Nat) (leaf : Word) : List Byte :=
  if rowDead s pa (pteAR leaf) then List.replicate 2048 0
  else if pteKD leaf = 0 then (List.range 8).flatMap (fun i => unitRead s 0 false (pa + 256 * i) 256)
  else cread s.mem pa 2048

def rowSeed (s : State) (pa : Nat) : RowSeed := mget s.rows (pa / 2048) ⟨0, 0, false⟩

/-- What a checked read of a row unit raises (R263): ECC comes before the MAC, unit by unit. -/
def rowFault (s : State) (va pa : Nat) (leaf : Word) : Option (Cause × Word) :=
  (List.range 8).findSome? fun i =>
    let p := pa + 256 * i
    if noDram s (p / 128) (pteAR leaf) then none
    else match mfind s.prot (p / 256) with
    | none => none
    | some m =>
      if m.ecc then some (.memerr, addrWord (va + 256 * i))
      else if pteKD leaf ≠ 0 ∧ m.kd ≠ pteKD leaf then some (.integ, BitVec.ofNat 64 (p / 128 * 128)) else none

/-- A source row unit at acceptance (R302); a row of no array page counts as live. -/
def srcRow (s : State) (h va : Nat) : SrcRow :=
  match rowPA s h va with
  | none => ⟨List.replicate 2048 0, true, ⟨0, 0, false⟩, [], some (.xlat, addrWord va)⟩
  | some (pa, leaf) =>
    ⟨rowData s pa leaf, !rowDead s pa (pteAR leaf), rowSeed s pa,
     (List.range 8).map (fun i => mfind s.prot (pa / 256 + i)), rowFault s va pa leaf⟩

/-- An operand that crosses its 2 MiB-aligned boundary. -/
def crosses (n va : Nat) : Bool := 0x200000 < va % 0x200000 + 2048 * n

/-- Two operand ranges overlap without being equal. -/
def partOverlap (n a b : Nat) : Bool := a != b && a < b + 2048 * n && b < a + 2048 * n

def anyPair (f : Nat → Nat → Bool) : List Nat → Bool
  | [] => false
  | a :: as => as.any (f a) || anyPair f as

/-- The operation ends with its status alone: it reads and writes nothing (R300). -/
def arrayRejects (n : Nat) (vas : List Nat) : Bool := vas.any (crosses n) || anyPair (partOverlap n) vas || n == 0

/-- The plain accesses to one row unit meet the access records of its lines in the L2 (R375, R384). -/
def rowRace (h : Nat) (writes : Bool) (va : Nat) (s : State) : Res Unit :=
  match rowPA s h va with
  | none => .trap .xlat (addrWord va) s
  | some (pa, _) =>
    ((List.range 32).filter (fun i => s.l2.any (fun l => l.line == (pa + 64 * i) / 128))).foldl (fun r i =>
      r.andThen fun _ s =>
        let ctx := s.ctxOf h
        raceCheck s ctx h (s.epoch ctx h) (recOfPa (pa + 64 * i)) (va + 64 * i) (BitVec.allOnes 64) writes) (.ok () s)

/-- The accesses to the row units of operands. -/
def rowRaces (h : Nat) (writes : Bool) (n : Nat) (vas : List Nat) (s : State) : Res Unit :=
  (vas.flatMap (fun v => (List.range n).map (fun j => v + 2048 * j))).foldl (fun r v =>
    r.andThen fun _ s => rowRace h writes v s) (.ok () s)

/-- A fault of an array operation is one of the copy engine's (R300, R404): the record names its token register. -/
def arrayFreeze (s : State) (h reg : Nat) (c : Cause) (info : Word) : State :=
  freeze s h 9 7 0 0 0 c info [BitVec.ofNat 64 reg, 0, 0, 0]

/-- An array instruction is checked and accepted (R298); a rejected shape is accepted too (R300). The checks use the
sequencer's translations (R257). The sources are read as they stand now, and those reads are plain accesses (R302, R384). -/
def arrayEff (g : Nat) (op : ArrOp) (a : Reg) (dst n : Nat) (srcs : List Nat) (pat : Word) (s : State) : Res Unit :=
  copyIssue s g fun s =>
  match s.ctx? (s.ctxOf g) with
  | none => .ok () s
  | some c =>
    let s := if n ≤ 1024 ∧ (dst :: srcs).all (fun v => v % 2048 == 0 && !untranslated v n)
      then refill s g .seq ((dst :: srcs).flatMap (fun v => pagesOf v (operandBytes v n))) else s
    match arrayCheck s g c op dst n srcs with
    | some f => .trap f.1 f.2 s
    | none =>
      let (rows, r) := if arrayRejects n (dst :: srcs) then ([], .ok () s)
        else (srcs.map (fun v => (List.range n).map (fun j => srcRow s g (v + 2048 * j))), rowRaces g false n srcs s)
      match r with
      | .ok _ s =>
        let j : ArrayJob := ⟨s.ids, g, op, a.val, c.id, dst, n, srcs, rows, pat⟩
        .ok () (setPending { s with ids := s.ids + 1, arrays := s.arrays ++ [j] } g a)
      | .trap c i s | .freeze c i s => .ok () (arrayFreeze (setPending s g a) g a.val c i)
      | .wait s => .wait s

/-- The instruction word with its two or three operands. -/
def arrayWord (h : SHdr) (op : ArrOp) (a b c : Reg) (srcs : List Reg) (pat : Option Reg) (s : State) : State :=
  cWord h (b :: c :: srcs ++ pat.toList) [a] (fun g s =>
    let r (q : Reg) : Nat := (s.rc g q).toNat
    arrayEff g op a (r b) (r c) (srcs.map r) ((pat.map (s.rc g)).getD 0) s) s

def execAcpy (h : SHdr) (a b c d : Reg) (s : State) : Out := .next (arrayWord h .acpy a b c [d] none s)
def execAfill (h : SHdr) (a b c d : Reg) (s : State) : Out := .next (arrayWord h .afill a b c [] (some d) s)
def execAand (h : SHdr) (a b c d e : Reg) (s : State) : Out := .next (arrayWord h .aand a b c [d, e] none s)
def execAor (h : SHdr) (a b c d e : Reg) (s : State) : Out := .next (arrayWord h .aor a b c [d, e] none s)
def execAxor (h : SHdr) (a b c d e : Reg) (s : State) : Out := .next (arrayWord h .axor a b c [d, e] none s)
def execAnot (h : SHdr) (a b c d : Reg) (s : State) : Out := .next (arrayWord h .anot a b c [d] none s)

/-! ## Paths (R299, R300) -/

/-- The status word of R299. -/
def arrayStatus (cause path : Nat) (nl : Bool) (why info : Nat) : Word :=
  BitVec.ofNat 64 (cause * 2 ^ 56 + path * 2 ^ 48 + b2n nl * 2 ^ 47 + why * 2 ^ 44 + info)

/-- An operand as the path rules see it: its leaf and first row's address. -/
structure Operand where
  va : Nat
  pa : Nat
  leaf : Word
  deriving DecidableEq, Repr

def operandOf (s : State) (h va : Nat) : Option Operand := (rowPA s h va).map (fun p => ⟨va, p.1, p.2⟩)

/-- The domain of an operand forbids in-array copies by policy (R116). -/
def noAcpy (s : State) (kd : Nat) : Bool := s.ctxs.any (fun c => c.2.domains.any (fun d => d.kd == kd && d.noacpy))

/-- The first reason of R299 that keeps an operation from the in-array path, in code order; 0 for none. DESIGN CHOICE
(log 77): operands of one value of PA div 16 MiB of which a page has left its flight give 110, not 010, which R294 would
also let apply. -/
def whyFallback (s : State) (c : Ctx) (op : ArrOp) (pat : Word) (os : List Operand) : Nat :=
  let logic := op != .acpy && op != .afill
  let sealed := os.any (fun o => pteKD o.leaf != 0)
  let same (f : Operand → Nat) : Bool := match os with
    | [] => true
    | o :: r => r.all (fun q => f q == f o)
  if os.any (fun o => !pteAR o.leaf) then 1
  else if !same (fun o => o.pa / 0x1000000) then 2
  else if !same (fun o => o.va / 2048 % 32) then 3
  else if logic && sealed then 4
  else if op = .acpy && sealed && (c.arctl.getLsbD 0 || os.any (fun o => noAcpy s (pteKD o.leaf))) then 5
  else if os.any (fun o => s.leftFlight.contains (ptePA o.leaf)) then 6
  else if !same (fun o => pteKD o.leaf) || (op = .afill && pat != 0) then 7
  else 0

/-- Every page of the destination is compressed. -/
def allCompressed (s : State) (h va n : Nat) : Bool :=
  (operandLeaves s h va n).all (fun l => (l.map pteCP).getD false)

/-! ## Rows (R295, R301) -/

/-- One byte of a result row. -/
def rowByte (op : ArrOp) (a b : Byte) : Byte :=
  match op with
  | .acpy => a
  | .aand => a &&& b
  | .aor => a ||| b
  | .axor => a ^^^ b
  | .anot => ~~~ a
  | .afill => a

/-- The result bytes of row unit `j`. -/
def rowResult (job : ArrayJob) (j : Nat) : List Byte :=
  let row (k : Nat) : List Byte := (((lget job.rows k)[j]?).map (·.data)).getD []
  match job.op with
  | .afill => (List.range 256).flatMap (fun _ => leBytes 8 job.pat.toNat)
  | .aand | .aor | .axor => List.zipWith (rowByte job.op) (row 0) (row 1)
  | _ => (row 0).map (fun a => rowByte job.op a 0)

/-- The destination row's table entry after the operation (R301), `src` the row it copies. -/
def rowAfter (s : State) (job : ArrayJob) (inArray : Bool) (d : Nat) (leaf : Word) (src : Option SrcRow) : RowSeed × State :=
  let old := rowSeed s d
  let (k, s') := s.draw
  let fresh : RowSeed := ⟨(Config.random k).truncate 32, old.ver + 1, true⟩
  if job.op = .afill ∧ job.pat = 0 then (⟨0, old.ver + 1, false⟩, s)
  else
    match src with
    | some r =>
      if pteKD leaf = 0 then ({ old with live := r.live }, s)
      else if inArray then (r.entry, s) else (fresh, s')
    | none => if pteKD leaf = 0 then ({ old with live := true }, s) else (fresh, s')

/-- The eight protection units of a written row: none when the row is not live; the source's, its errors among them, when
a row is copied in place (R300); else as the write left them. -/
def rowUnits (s : State) (inArray : Bool) (d : Nat) (src : Option SrcRow) (live : Bool) : State :=
  (List.range 8).foldl (fun s i =>
    let u := d / 256 + i
    if !live then { s with prot := mdel s.prot u }
    else match inArray, src with
      | true, some r =>
        match r.units.getD i none with
        | some m => { s with prot := mset s.prot u m }
        | none => { s with prot := mdel s.prot u }
      | _, _ => s) s

/-- Lines of a row leave the L2 (R300). -/
def dropRow (s : State) (pa : Nat) : State := (List.range 16).foldl (fun s i => l2Drop s (pa / 128 + i)) s

/-- Row units `0` to `n − 1` of an operation are written, on its path (R299 PATH); lines of a compressed page may wait
for sectors (R266), but none does when only metadata changes (R300). -/
def writeRows (job : ArrayJob) (path : Nat) : Nat → State → State
  | 0, s => s
  | j + 1, s =>
    let s := writeRows job path j s
    let va := job.dst + 2048 * j
    match rowPA s job.hall va with
    | none => s
    | some (d, leaf) =>
      let src := if job.op = .acpy then (lget job.rows 0)[j]? else none
      let (e, s) := rowAfter s job (path = 0) d leaf src
      let s := if path = 3 then physWrite s d leaf (rowResult job j)
        else leafWrite s job.ctx job.hall d leaf va (rowResult job j)
      let s := rowUnits (dropRow s d) (path = 0) d src (!pteAR leaf || e.live)
      if pteAR leaf then { s with rows := mset s.rows (d / 2048) e } else s

/-- Metadata only: the blocks that the rows fill with zeros whole are of class 0 (R265, R300; log 47). -/
def zeroBlocks (s : State) (job : ArrayJob) : State :=
  (List.range job.n).foldl (fun s j => match rowPA s job.hall (job.dst + 2048 * j) with
    | some (d, _) =>
      match mfind s.blocks (d / 4096) with
      | some e =>
        if s.mem.any (fun c => d / 4096 * 4096 ≤ c.1 && c.1 < d / 4096 * 4096 + 4096) then s
        else { s with blocks := mset s.blocks (d / 4096) { e with cls := 0, sec := 0 } }
      | none => s
    | none => s) s

/-- A T0 that a spawn has taken since the operation's issue (R29), and the accesses that write the destination (R384). -/
def rowAccess (s : State) (job : ArrayJob) : Res Unit :=
  if rowsOwned s job.hall job.ctx job.dst job.n then .trap .access (addrWord job.dst) s
  else rowRaces job.hall true job.n [job.dst] s

/-- ARRAY_OP_COMPLETE: the operation runs and its status is written (R300). -/
def arrayComplete (s : State) (h id : Nat) : State :=
  match s.arrays.find? (fun j => j.id == id && j.hall == h) with
  | none => s
  | some job =>
    match s.ctx? job.ctx with
    | none => s
    | some c =>
      let done (st : Word) (s : State) : State :=
        complete { s with arrays := s.arrays.filter (fun j => j.id != id) } h job.reg st
      let vas := job.dst :: job.srcs
      if vas.any (crosses job.n) then done (arrayStatus 1 2 false 0 0) s
      else if anyPair (partOverlap job.n) vas then done (arrayStatus 2 2 false 0 0) s
      else if job.n = 0 then done (arrayStatus 0 2 false 0 0) s
      else if vas.any (fun v => moving s job.ctx v (2048 * job.n)) then s
      else
        let stop (cs : Cause) (i : Word) (s : State) : State :=
          arrayFreeze { s with arrays := s.arrays.filter (fun j => j.id != id) } h job.reg cs i
        match rowAccess s job with
        | .trap cs i s | .freeze cs i s => stop cs i s
        | .wait s => s
        | .ok _ s =>
          let nl := job.rows.flatten.any (fun r => !r.live)   -- a source row that is not live (R299)
          let why := whyFallback s c job.op job.pat (vas.filterMap (operandOf s h))
          if job.op = .afill ∧ job.pat = 0 ∧ allCompressed s h job.dst job.n then
            done (arrayStatus 0 3 nl 0 job.n) (zeroBlocks (writeRows job 3 job.n s) job)
          else if why = 0 then done (arrayStatus 0 0 nl 0 job.n) (writeRows job 0 job.n s)
          else
            match job.rows.flatten.findSome? (·.fault) with
            | some (cs, i) => stop cs i s
            | none => done (arrayStatus 0 1 nl why job.n) (writeRows job 1 job.n s)

/-! ## The tensor identifier table (R305 to R307) -/

/-- Write an entry of the context's table in one step. -/
def setTensor (s : State) (ctx : Word) (n : Nat) (t : Tensor) : State :=
  s.updCtx ctx fun c => { c with tensors := mset c.tensors n t }

def execTdef (h : SHdr) (a b c d e : Reg) (s : State) : Out :=
  .next (cWord h [a, b, c, d, e] [] (fun g s =>
    let r (q : Reg) : Word := s.rc g q
    let t : Tensor := ⟨r b, r c, r d, r e⟩
    if 256 ≤ (r a).toNat then .trap .access 0 s
    else if !t.defOk then trapOpen .cfg s
    else .ok () (setTensor s (s.ctxOf g) (r a).toNat t)) s)

def execTdrop (h : SHdr) (a : Reg) (s : State) : Out :=
  .next (cWord h [a] [] (fun g s =>
    let n := (s.rc g a).toNat
    if 256 ≤ n then .trap .access 0 s else .ok () (setTensor s (s.ctxOf g) n Tensor.zero)) s)

end Sys2Proof.Machine
end

