-- ==== Sys2Proof/Machine/Facets.lean ====
section
/-! DEFINITION. How a facet chooses rules and fires them (spec/09 R212 to R224), and the operations that the F words
share: what a firing would do, its faults in the order of R13, and its effects in the order of R221. -/

namespace Sys2Proof.Machine

/-! ## Destinations (R214) -/

/-- Write a result to D: a bank word or an address register takes data only (R215). -/
def Hall.putDest (x : Hall) (n : Nat) (d : Opnd) (hdr : BitVec 16) (pay : Nat) (lens : Bool) : Hall :=
  let F := x.facet n
  let p : BitVec 256 := BitVec.ofNat 256 pay
  match d with
  | .e k => x.setFacet n { F with e := F.e.set k.val ⟨hdr, cutPay (payBits hdr) p, lens⟩ }
  | .push k => x.setFacet n { F with outs := F.outs.set k.val (lget F.outs k.val ++ [x.token hdr p lens]) }
  | .areg k =>
    if hdrKind hdr = 0 then
      x.setFacet n { F with a := F.a.set k.val (BitVec.ofNat 16 (payElem (hdrWid hdr) p 0)) }
    else x
  | .bank k =>
    if hdrKind hdr = 0 then bankPut x n (bankStart F k.val) (cutPay (payBits hdr) p).toNat (payBits hdr / 8) else x
  | _ => x

/-- The header of a data result. -/
def dataHdr (sh : Shape) : BitVec 16 := mkHdr 0 sh.tag (widCode sh.w) sh.n 0 sh.lot

/-! ## Channels -/

/-- Every token a firing names is there. -/
def Facet.present (F : Facet) (o : Opnd) : Bool :=
  match o with
  | .e _ | .deq _ | .peek _ => (F.tok o).isSome
  | _ => true

/-- Items 3 to 5 of R218; `need` is the space one firing may take. -/
def Facet.chansStand (F : Facet) (f : FHdr) (need : Nat) : Bool :=
  (List.range 4).all (fun k => (!f.ins.getLsbD k || !(lget F.ins k).isEmpty)
    && (!f.outs.getLsbD k || decide ((lget F.outs k).length + need ≤ 4)))
  && (match f.tag with
      | some (tc, tv) => ((lget F.ins tc.val).head?.map (fun t => hdrTag t.hdr == tv.val)).getD false
      | none => true)

/-- The channels that dequeue codes name, each once. -/
def deqs (srcs : List Opnd) : List Nat :=
  (srcs.filterMap (fun o => match o with | .deq k => some k.val | _ => none)).dedup

/-- Take one token from each channel of a list. -/
def Facet.dequeue (F : Facet) (ks : List Nat) : Facet :=
  ks.foldl (fun F k => { F with ins := F.ins.set k ((lget F.ins k).drop 1)
                                delivered := F.delivered.set k (lget F.delivered k + 1) }) F

/-! ## MERGE and SPLIT (R238, R239) -/

/-- Elements a token of this width can hold. -/
def maxLen (w : Nat) : Nat := if w = 64 then 4 else 8

/-- A token as MERGE packs it: header, payload, mark. -/
def ERegAppend (b t : EReg) : EReg :=
  let h := mkHdr (hdrKind b.hdr) (hdrTag b.hdr) (widCode (hdrWid b.hdr)) (hdrLen b.hdr + hdrLen t.hdr) (hdrLvl b.hdr) (hdrLot t.hdr)
  ⟨h, BitVec.ofNat 256 (packElems (hdrWid b.hdr) (payElems b.hdr b.pay ++ payElems t.hdr t.pay)), b.lens⟩

/-- What the buffer holds when MERGE empties it: the empty mark. -/
def emptyReg : EReg := ⟨emptyMark, 0, false⟩

/-- One firing of MERGE: the tokens pushed and the buffer after it (R238). -/
def mergeStep (t b : EReg) : List EReg × EReg :=
  let full := maxLen (hdrWid t.hdr)
  let empty := b.hdr == emptyMark
  let joinable := isData t && !empty && hdrWid b.hdr == hdrWid t.hdr && hdrTag b.hdr == hdrTag t.hdr
    && decide (hdrLen b.hdr + hdrLen t.hdr ≤ full) && b.lens == t.lens
  if joinable then
    let c := ERegAppend b t
    if hdrLen c.hdr = full ∨ hdrLot c.hdr then ([c], emptyReg) else ([], c)
  else
    let flush := if empty then [] else [b]
    if isData t && !hdrLot t.hdr && decide (hdrLen t.hdr < full) then (flush, t) else (flush ++ [t], emptyReg)

/-- The two tokens of a cut after `m` elements (R239). -/
def splitToken (t : EReg) (m : Nat) : EReg × EReg :=
  let w := hdrWid t.hdr
  let es := payElems t.hdr t.pay
  let part (es : List Nat) (lot : Bool) : EReg :=
    ⟨mkHdr 0 (hdrTag t.hdr) (widCode w) es.length 0 lot, BitVec.ofNat 256 (packElems w es), t.lens⟩
  (part (es.take m) false, part (es.drop m) (hdrLot t.hdr))

/-- SPLIT's count: the low 3 bits of element 0 of Y. -/
def splitCount (F : Facet) (y : Opnd) (imm : BitVec 10) : Nat :=
  match y with
  | .areg k => (lget F.a k.val).toNat % 8
  | .imm => imm.toNat % 8
  | _ => 0

/-- X of SPLIT as a token: a register or channel, else elements of the default shape. -/
def tokenOf (x : Hall) (n : Nat) (F : Facet) (imm : BitVec 10) (o : Opnd) : EReg :=
  match F.tok o with
  | some t => t
  | none => ⟨dataHdr ⟨32, 8, 0, false⟩, BitVec.ofNat 256 (packElems 32 (srcElems x n F imm ⟨32, 8, 0, false⟩ o)),
      srcLens x n F [o]⟩

def splitStep (t : EReg) (m : Nat) : List EReg :=
  if isData t ∧ 1 ≤ m ∧ m < hdrLen t.hdr then [(splitToken t m).1, (splitToken t m).2] else [t]

/-! ## Choosing rules (R218 to R223) -/

/-- The space a firing may take in an output channel (R218 item 5). -/
def outNeed (i : Instr) : Nat :=
  match i with
  | .merge .. | .split .. => 2
  | _ => 1

/-- The tokens that a firing pushes on its output channel, given the channel contents. -/
def pushCount (x : Hall) (n : Nat) (F : Facet) (i : Instr) : Nat :=
  match i with
  | .merge _ _ k e =>
    (match F.tok (.deq k), F.tok (.e e) with
     | some t, some b => (mergeStep t b).1.length
     | _, _ => 0)
  | .split _ _ a y imm => (splitStep (tokenOf x n F imm a) (splitCount F y imm)).length
  | .cvt _ _ a _ _ _ true true => if ((F.tok a).map (fun t => hdrKind t.hdr == 2)).getD false then 0 else 1
  | _ => 1

/-- The channels as a firing leaves them (R220): what it dequeues and the space it takes. -/
def Facet.afterChans (x : Hall) (n : Nat) (F : Facet) (i : Instr) (r : RuleForm) : Facet :=
  let k := pushCount x n F i
  let F := match r.d with
    | .push o => { F with outs := F.outs.set o.val (lget F.outs o.val ++ List.replicate k default) }
    | _ => F
  F.dequeue (deqs r.srcs)

/-- Guards of an F word on a facet's predicates; p0 reads true (R209). -/
def Facet.pred (F : Facet) (p : Pred) : Bool := p == 0 || F.p.getLsbD p.val

def Facet.guards (F : Facet) (f : FHdr) : Bool := guardHolds F.pred f.ga && guardHolds F.pred f.gb

/-- Structural resources (R219). -/
inductive FUnit | alu | bank | move
  deriving DecidableEq, Repr

def FClass.unit : FClass → FUnit
  | .alu | .sfu => .alu
  | .bank1 | .bankN => .bank
  | .move => .move

/-- Whether a rule names a bank-word operand. -/
def RuleForm.usesBank (r : RuleForm) : Bool := (r.d :: r.srcs).any Opnd.isBank

/-- The resources a rule needs. -/
def RuleForm.units (r : RuleForm) : List FUnit :=
  if r.usesBank && r.cls.unit != .bank then [r.cls.unit, .bank] else [r.cls.unit]

/-- Cycles for which a firing of shape `sh` holds a resource (R219). -/
def RuleForm.cycles (r : RuleForm) (sh : Shape) (u : FUnit) : Nat :=
  if u ≠ r.cls.unit then 1
  else
    let own := match r.cls with
      | .alu => if sh.w = 64 then (sh.n + 1) / 2 else (sh.n + 3) / 4
      | .sfu => sh.n
      | .bank1 => 1
      | .bankN => sh.n
      | .move => 1
    if u = .bank && r.usesBank then own + 1 else own

def Facet.busy (F : Facet) : FUnit → Nat
  | .alu => F.aluBusy
  | .bank => F.bankBusy
  | .move => F.moveBusy

def Facet.setBusy (F : Facet) (u : FUnit) (c : Nat) : Facet :=
  match u with
  | .alu => { F with aluBusy := c }
  | .bank => { F with bankBusy := c }
  | .move => { F with moveBusy := c }

/-- A slot with its instruction and form. -/
structure Slot where
  slot : Nat
  i : Instr
  r : RuleForm
  deriving DecidableEq, Repr

/-- The rules of a pool that are not empty. -/
def Facet.slots (F : Facet) : List Slot :=
  (List.range 16).filterMap (fun k => (F.rule k).bind (fun i => (ruleForm i).map (fun r => ⟨k, i, r⟩)))

/-- A set in rising slot order is consistent: each member's channels stand at its turn (R220). -/
def consistent (x : Hall) (n : Nat) : Facet → List Slot → Bool
  | _, [] => true
  | F, a :: as => F.chansStand a.r.hdr (outNeed a.i) && consistent x n (F.afterChans x n a.i a.r) as

/-- Insert a slot into a set in rising order. -/
def slotIns (a : Slot) : List Slot → List Slot
  | [] => [a]
  | b :: bs => if a.slot < b.slot then a :: b :: bs else b :: slotIns a bs

/-- Bit `c` of row `s` of the conflict matrix. -/
def Facet.together (F : Facet) (a c : Nat) : Bool := (F.conf.getD a 0).getLsbD c

/-- The loop of R220 over the slots in its order. -/
def chooseSet (x : Hall) (n : Nat) (F : Facet) (E : List Slot) : List Slot → List Slot → List Slot
  | [], chosen => chosen
  | a :: as, chosen =>
    let free := a.r.units.all (fun u => F.busy u == 0 && chosen.all (fun c => !c.r.units.contains u))
    let yields := E.any (fun u => F.urgent.getLsbD u.slot && u.slot != a.slot
      && chosen.all (fun c => c.slot != u.slot) && u.r.units.any (fun k => a.r.units.contains k))
    if chosen.length < 3 && free && !yields && chosen.all (fun c => F.together a.slot c.slot)
        && consistent x n F (slotIns a chosen)
    then chooseSet x n F E as (slotIns a chosen)
    else chooseSet x n F E as chosen

/-- The order in which R220 looks at the eligible slots: the lowest urgent one first. -/
def choiceOrder (F : Facet) (E : List Slot) : List Slot :=
  match E.find? (fun a => F.urgent.getLsbD a.slot) with
  | some u => u :: E.filter (fun a => a.slot != u.slot)
  | none => E

/-! ## Full/empty bank accesses and the Mirror (R218 item 6, R357, R373) -/

/-- First scratch offset of a bank byte, and its address in the hall's own window. -/
def bankOff (x : Hall) (n o : Nat) : Nat := bankBase x n + o % 65536
def bankVA (x : Hall) (n o : Nat) : Nat := ownBase + bankOff x n o

/-- XOR of the 8-byte parts of `len` bytes of a value (R392). -/
def xorParts : Nat → Nat → Nat
  | 0, _ => 0
  | k + 1, v => (v % 2 ^ 64) ^^^ xorParts k (v / 2 ^ 64)

/-- The record of a facet's full/empty access of `len` bytes. -/
def facetEvent (x : Hall) (h n sub o len v : Nat) : LogEv :=
  ⟨0x3000 + 48 * h + n, srcOf h (n / 8 + 1) (n % 8), 1, sub, bankOff x n o / 4 * 4,
    BitVec.ofNat 64 (xorParts ((len + 7) / 8) (v % 2 ^ (8 * len)))⟩

/-- The payload that a store of a token source writes. -/
def storeVal (x : Hall) (n : Nat) (F : Facet) (o : Opnd) : Nat :=
  let sh := F.shape [o] 32
  packElems sh.w (srcElems x n F 0 sh o)

/-- The logged event that a rule's firing would be, if it is one (R373). No log shows a lens element (R326): DATA is 0 in a
lens-mode facet (log 78). -/
def Facet.event (F : Facet) (x : Hall) (h n slot : Nat) (i : Instr) : Option LogEv :=
  let facetEvent (x : Hall) (h n sub o len v : Nat) : LogEv := facetEvent x h n sub o len (if x.inLens n then 0 else v)
  match i with
  | .fldf _ _ ak _ len wid =>
    let b := (len.val + 1) * widBytes wid.val
    let o := bankStart F ak.val
    if (lget F.arrive slot).any (·.waited) then some (facetEvent x h n 7 o b (bankGet x n o b)) else none
  | .flde _ _ ak _ len wid =>
    let b := (len.val + 1) * widBytes wid.val
    let o := bankStart F ak.val
    some (facetEvent x h n 4 o b (bankGet x n o b))
  | .fste _ src ak _ =>
    let sh := F.shape [src] 32
    if ((F.lead [src]).map isData).getD true then
      some (facetEvent x h n 5 (bankStart F ak.val) (sh.n * sh.w / 8) (storeVal x n F src))
    else none
  | .fst _ src ak _ true =>
    let sh := F.shape [src] 32
    if ((F.lead [src]).map isData).getD true then
      some (facetEvent x h n 6 (bankStart F ak.val) (sh.n * sh.w / 8) (storeVal x n F src))
    else none
  | _ => none

/-- No sequencer request that arrived earlier and could be served now touches the words (R357). -/
def seqFirst (x : Hall) (stamp : Nat) (ws : List Nat) : Bool :=
  x.feq.any (fun w => decide (w.stamp < stamp) && feReady x w.op w.off w.size
    && ws.any (fun k => w.off / 4 ≤ k && k ≤ (w.off + w.size - 1) / 4))

/-- How a rule stands with respect to item 6 of R218. -/
inductive FReady
  | yes
  | no
  | waitsFe            -- a full/empty access whose words do not stand
  | waitsLog           -- the Mirror does not let its event resolve: its starvation counter runs

/-- The Mirror lets a facet's event resolve (R218): whether its record matches is for the firing to meet. -/
def mirrorLets (s : State) (ctx : Word) (e : LogEv) : Bool × State :=
  match logEvent s ctx e with
  | .go _ => (true, s)
  | .stall s => (false, s)
  | .diverge i s => ((s.ctx? ctx).any (fun c => (ringRead s c i).any (fun r =>
      nbits (r.getD 1 0).toNat 0 32 == c.mirror.seq e.node)), s)

/-- Readiness at the start of the cycle; the state keeps what a wait in the Mirror leaves. -/
def readyRule (s : State) (h n : Nat) (a : Slot) : FReady × State :=
  let x := s.hall h
  let F := x.facet n
  let fe : Bool := match F.feNeeds x n a.i with
    | some p =>
      let stamp := ((lget F.arrive a.slot).map (·.stamp)).getD (s.ids + 1)
      feStands x p && !seqFirst x stamp p.2
        && (replays s (s.ctxOf h) || p.2.all (fun k => !arrivalFirst s h (4 * k) 4 stamp))
    | none => true
  if !fe then (.waitsFe, s)
  else
    let ctl : Bool := match a.i with
      | .waitc _ line => decide (1 ≤ x.ctlCount (n / 8 + 1) (n % 8) line.val)
      | .send _ line => x.ctlRoom (n / 8 + 1) (n % 8) line.val
      | _ => true
    if !ctl then (.no, s)
    else
      match F.event x h n a.slot a.i with
      | none => (.yes, s)
      | some e =>
        match mirrorLets s (s.ctxOf h) e with
        | (true, s) => (.yes, s)
        | (false, s) => (.waitsLog, s)

/-- A full/empty access arrives at the bank port in the cycle in which its rule is eligible in every other respect, and
takes its stamp (R357); `need` is what it needs of its words now, and none for another rule. -/
def stampRule (s : State) (h n slot : Nat) (need : Option (Bool × List Nat)) (waits : Bool) : State :=
  let x := s.hall h
  let F := x.facet n
  let set (w : Option FacetWait) (s : State) : State := s.setHall h (x.setFacet n { F with arrive := F.arrive.set slot w })
  match need, lget F.arrive slot with
  | none, none => s
  | none, some _ => set none s
  | some p, some w => set (some ⟨w.stamp, p.1, p.2, w.waited || waits⟩) s
  | some p, none => set (some ⟨s.ids + 1, p.1, p.2, waits⟩) { s with ids := s.ids + 1 }

/-- The eligible slots at the start of the cycle (R218), and those that only the Mirror holds back. A rule that becomes
ready keeps its stamp until it fires. Between rules of one facet the order is that of R220 (R249; log 37). -/
def eligibleSlots (h n : Nat) : List Slot → State → List Slot × List Slot × State
  | [], s => ([], [], s)
  | a :: as, s =>
    let F := (s.hall h).facet n
    if F.guards a.r.hdr && F.chansStand a.r.hdr (outNeed a.i) then
      let stamp (waits : Bool) (s : State) : State := stampRule s h n a.slot (F.feNeeds (s.hall h) n a.i) waits
      match readyRule s h n a with
      | (.yes, s) => let r := eligibleSlots h n as (stamp false s); (a :: r.1, r.2)
      | (.no, s) => eligibleSlots h n as s
      | (.waitsFe, s) => eligibleSlots h n as (stamp true s)
      | (.waitsLog, s) => let r := eligibleSlots h n as (stamp false s); (r.1, a :: r.2.1, r.2.2)
    else eligibleSlots h n as (stampRule s h n a.slot none false)

/-- What a firing holds, and for how long, by its shape at its turn (R219). -/
def Hall.firingHeld (x : Hall) (n slot : Nat) : List (FUnit × Nat) :=
  let F := x.facet n
  match (F.rule slot).bind ruleForm with
  | some r => r.units.map (fun u => (u, r.cycles (F.shape r.srcs r.w0) u))
  | none => []

/-- Starvation counters at the end of a cycle (R223): those of `missed`, eligible slots that did not fire, rise, and stop at
1024. Answers the slots whose counter has just reached it. -/
def Facet.miss (F : Facet) (missed : List Nat) : Facet × List Nat :=
  let due := missed.filter (fun k => lget F.starve k == 1023)
  ({ F with starve := F.starve.zipIdx.map (fun p => if missed.contains p.2 then min 1024 (p.1 + 1) else p.1)
            reached := due.foldl (fun m k => m ||| BitVec.ofNat 16 (2 ^ k)) F.reached }, due)

/-- Eligible slots of a facet have not fired; a counter that reaches 1024 is an event of its own. -/
def missSlots (s : State) (h n : Nat) (missed : List Nat) : State :=
  let x := s.hall h
  let (F, due) := (x.facet n).miss missed
  { s.setHall h (x.setFacet n F) with
    turns := due.map (fun k => Turn.event (.starvationUrgent (Fin.ofNat 48 h) (Fin.ofNat 48 n) (Fin.ofNat 16 k))) ++ s.turns }

/-- A request of a sequencer that the bank port of a facet can serve now, no facet rule going before it: it holds the port
(R219, R357). -/
def portTaken (s : State) (h n : Nat) : Bool :=
  let x := s.hall h
  x.feq.any (fun w => x.split + w.off / 65536 == n && feReady x w.op w.off w.size && !facetFirst x w.off w.size w.stamp)
    && (match s.ctx? (s.ctxOf h) with
        | some c => c.mirror.mode == .off || (c.mirror.mode == .record && 64 ≤ c.mirror.free)
        | none => false)

/-- FACET_CYCLE: one cycle of a facet (R218 to R223). The chosen firings stand in `firing` and take effect in slot
order before anything else. Whether another outside access holds the bank port in the cycle (R219) is left open (log 37).
DESIGN CHOICE (log 77): a malformed header at the head of a channel freezes the hall before any firing, with SLOT 0; of
several channels the lowest is named. -/
def facetCycle (s : State) (h n : Nat) : State :=
  let px := n / 8 + 1
  let py := n % 8
  if !(s.hall h).active || n < (s.hall h).split || s.firing != [] then s
  else withConfig s h px py fun s =>
    let F := (s.hall h).facet n
    match (List.range 4).find? (fun k => ((lget F.ins k).head?.map (fun t => hdrBad t.hdr)).getD false) with
    | some k => streamFreeze s h px py 0 k (lget F.delivered k) .header []
    | none =>
      match eligibleSlots h n F.slots s with
      | (E, waits, s) =>
        let (k, s) := s.draw
        let x := s.hall h
        let F := x.facet n
        let port := if Config.freeBool k || portTaken s h n then max 1 F.bankBusy else F.bankBusy
        let chosen := (chooseSet x n { F with bankBusy := port } E (choiceOrder F E) []).map (·.slot)
        let able := (E ++ waits).map (·.slot)
        let F := { F with
          starve := F.starve.zipIdx.map (fun p => if able.contains p.2 then p.1 else 0)
          aluBusy := F.aluBusy - 1
          bankBusy := F.bankBusy - 1
          moveBusy := F.moveBusy - 1 }
        { missSlots (s.setHall h (x.setFacet n F)) h n (able.filter (fun k => !chosen.contains k)) with
          firing := chosen.map (fun k => (h, n, k)) }

def execFacetCycle (hall : HallId) (n : FacetId) (s : State) : Out := .next (facetCycle s hall.val n.val)

/-- STARVATION_URGENT: each time a counter reaches 1024 the slot's urgent flag is set and `ctx.starve` counts (R223). -/
def starvationUrgent (s : State) (h n slot : Nat) : State :=
  let x := s.hall h
  let F := x.facet n
  let bit : BitVec 16 := BitVec.ofNat 16 (2 ^ slot)
  if F.reached.getLsbD slot then
    (s.setHall h (x.setFacet n { F with urgent := F.urgent ||| bit, reached := F.reached &&& ~~~ bit })).updCtx (s.ctxOf h)
      fun c => { c with starve := c.starve + 1 }
  else s

def execStarvationUrgent (hall : HallId) (n : FacetId) (slot : Fin 16) (s : State) : Out :=
  .next (starvationUrgent s hall.val n.val slot.val)

/-! ## Firing (R216, R217, R221, R222, R224) -/

/-- What a firing would meet and do. -/
structure Plan where
  ready : Bool := true                   -- the word has what it needs beside channels and F bits
  align : Option Nat := none             -- the bank byte at which ALIGN arises
  lens : Bool := false                   -- R217 forbids where the result would go
  reads : List (Nat × Nat) := []         -- ranges of the bank read: first byte, bytes
  plain : List (Nat × Nat × Bool) := []  -- plain events on the bank; true: a write
  claims : List (Nat × Nat) := []        -- other ranges written
  joins : List Nat := []                 -- scratch words whose releases the firing acquires (R249)
  stream : Option Breach := none
  event : Option LogEv := none
  apply : State → State := id            -- D, then the side effects
  c : Bool := true

/-- The race checks of a firing's plain events (R383, R384). -/
def raceRanges (s : State) (h n : Nat) : List (Nat × Nat × Bool) → Res Unit
  | [] => .ok () s
  | (o, len, w) :: rs =>
    let x := s.hall h
    let ctx := s.ctxOf h
    let one (o len : Nat) (s : State) : Res Unit :=
      raceCheck s ctx h (s.epoch ctx h) (recOfScratch h (bankOff x n o)) (bankVA x n o) (spanBytes (bankOff x n o) len) w
    let first := min len (64 - bankOff x n o % 64)
    (one o first s).andThen fun _ s =>
      (if first = len then .ok () s else one (o + first) (len - first) s).andThen fun _ s =>
        raceRanges s h n rs

/-- The bad scratch word among the ranges a firing reads. -/
def badRead (x : Hall) (n : Nat) (rs : List (Nat × Nat)) : Option Nat :=
  (rs.find? (fun r => (bankWords x n r.1 r.2).any x.bad.contains)).map (·.1)

/-- The predicate update of R222. -/
def Facet.update (F : Facet) (f : FHdr) (c : Bool) : Facet :=
  if f.pi = 0 then F
  else
    let old := F.pred f.pi
    let v := match f.po with | 0 => c | 1 => true | 2 => false | 3 => !old
    let b := BitVec.ofNat 8 (2 ^ f.pi.val)
    { F with p := if v then F.p ||| b else F.p &&& ~~~ b }

/-- Every range of the bank that a firing writes. -/
def Plan.writes (p : Plan) : List (Nat × Nat) := (p.plain.filter (·.2.2)).map (fun r => (r.1, r.2.1)) ++ p.claims

/-- The last steps of a firing: the predicate, the dequeues, and the resources it holds from its cycle on (R219); its
starvation counter and its urgent flag clear (R223), and it is forward progress (R416). -/
def finishFiring (f : FHdr) (srcs : List Opnd) (h n slot : Nat) (c : Bool) (held : List (FUnit × Nat)) (s : State) : State :=
  s.updHall h fun x =>
    let F := (x.facet n).update f c
    let F := held.foldl (fun F u => F.setBusy u.1 (u.2 - 1)) (F.dequeue (deqs srcs))
    { x.setFacet n { F with arrive := F.arrive.set slot none, starve := F.starve.set slot 0
                            urgent := F.urgent &&& ~~~ BitVec.ofNat 16 (2 ^ slot) } with wdogCount := 0 }

/-- A firing that faults has no effect, nor has any slot after it (R224): they have not fired in this cycle (R223). -/
def dropFirings (s : State) (h n slot : Nat) : State :=
  { missSlots s h n (slot :: s.firing.map (·.2.2)) with firing := [] }

def firingFault (s : State) (h n slot : Nat) (c : Cause) (info : Word) : State :=
  freeze (dropFirings s h n slot) h (n / 8 + 1) (n % 8) slot 0 0 c info []

def firingStream (s : State) (h n slot : Nat) (q : Breach) : State :=
  streamFreeze (dropFirings s h n slot) h (n / 8 + 1) (n % 8) slot q.1 q.2.1 q.2.2 []

/-- A chosen rule fires: its faults in the order of R13, then its effects. Its eligibility was judged at the start of the
cycle (R220, R221). What it acquires is joined before its own writes are checked and end what earlier releases left at
their words (R249). -/
def fire (f : FHdr) (need : Nat) (srcs : List Opnd) (plan : Hall → Nat → Nat → Nat → Plan) (s : State) : State :=
  match s.cur with
  | .facet h n slot =>
    let x := s.hall h
    let F := x.facet n
    if !F.chansStand f need || !srcs.all F.present then s
    else
      let p := plan x h n slot
      let fault := firingFault s h n slot
      let done (s : State) : State :=
        let s := p.writes.foldl (fun s r => endCarry s (keyOfScratch h (bankOff x n r.1)) r.2) s
        finishFiring f srcs h n slot p.c (x.firingHeld n slot) (p.apply s)
      if !p.ready then s else
      match p.align, p.lens, badRead x n p.reads, raceRanges (joinWords s h p.joins) h n p.plain with
      | some o, _, _, _ => fault .align (addrWord (bankVA x n o))
      | none, true, _, _ => fault .lens 0
      | none, false, some o, _ => fault .memerr (addrWord (bankVA x n o))
      | none, false, none, .trap c i _ => fault c i
      | none, false, none, .ok _ t =>
        (match p.event.map (logEvent t (s.ctxOf h)), (F.headerFault srcs).or p.stream with
         | some (.diverge i _), _ => fault .mrdiv i
         | _, some q => firingStream s h n slot q
         | none, none => done t
         | some (.go t), none => done t
         | some (.stall t), none => { t with recs := s.recs })
      | none, false, none, _ => s
  | _ => s

/-! ## Element instructions -/

/-- An element instruction: its result's width and length, its elements, and its condition where it reads element
values (R222). -/
structure ElemRule where
  d : Opnd
  srcs : List Opnd
  imm : BitVec 10
  w0 : Nat
  fw : Option Nat
  out : Shape → Shape
  f : Shape → List (List Nat) → List Nat
  cond : Option (List Nat → Bool)

/-- A bank operand at an address register: its alignment, and the elements it touches. -/
def bankAlign (F : Facet) (o : Opnd) (w : Nat) : Option Nat :=
  match o with
  | .bank k => if w = 64 ∧ (lget F.a k.val).toNat % 2 = 1 then some (bankStart F k.val) else none
  | _ => none

def elemRanges (o n w : Nat) : List (Nat × Nat) := (List.range n).map (fun j => (o + j * (w / 8), w / 8))

def bankRange (F : Facet) (o : Opnd) (n w : Nat) : List (Nat × Nat) :=
  match o with
  | .bank k => elemRanges (bankStart F k.val) n w
  | _ => []

/-- The first alignment fault among operands. -/
def firstAlign (F : Facet) (ps : List (Opnd × Nat)) : Option Nat := ps.findSome? (fun p => bankAlign F p.1 p.2)

/-- A non-data lead passes through (R215). -/
def passPlan (d : Opnd) (srcs : List Opnd) (t : EReg) (x : Hall) (h n : Nat) (fw : Option Nat) : Plan :=
  let F := x.facet n
  { stream := F.streamFault srcs fw
    apply := fun s => s.updHall h fun x => x.putDest n d t.hdr t.pay.toNat t.lens
    c := false }

/-- Whether the condition of this firing reaches a predicate by its value (R217). -/
def condReaches (f : FHdr) : Bool := f.pi != 0 && f.po == 0

def elemPlan (f : FHdr) (r : ElemRule) (x : Hall) (h n : Nat) (_slot : Nat) : Plan :=
  let F := x.facet n
  match F.lead r.srcs with
  | some t =>
    if isData t then go F else passPlan r.d r.srcs t x h n r.fw
  | none => go F
where
  go (F : Facet) : Plan :=
    let sh := F.shape r.srcs r.w0
    let o := r.out sh
    let lens := srcLens x n F r.srcs
    let es := r.f sh (r.srcs.map (srcElems x n F r.imm sh))
    let reads := r.srcs.flatMap (fun k => bankRange F k sh.n sh.w)
    { align := firstAlign F ((r.d, o.w) :: r.srcs.map (fun k => (k, sh.w)))
      lens := lens && (r.d.isAreg || (r.cond.isSome && condReaches f))
      reads := reads
      plain := reads.map (fun p => (p.1, p.2, false)) ++ (bankRange F r.d o.n o.w).map (fun p => (p.1, p.2, true))
      stream := F.streamFault r.srcs r.fw
      apply := fun s => s.updHall h fun x => x.putDest n r.d (dataHdr o) (packElems o.w es) lens
      c := match r.cond with | some k => k es | none => true }

/-- Fire an element instruction. -/
def fireElem (f : FHdr) (r : ElemRule) (s : State) : State := fire f 1 r.srcs (elemPlan f r) s

/-- Combine two or three source element lists. -/
def map1 (g : Nat → Nat) (xs : List (List Nat)) : List Nat := (lget xs 0).map g
def map2 (g : Nat → Nat → Nat) (xs : List (List Nat)) : List Nat := List.zipWith g (lget xs 0) (lget xs 1)
def map3 (g : Nat → Nat → Nat → Nat) (xs : List (List Nat)) : List Nat :=
  List.zipWith (fun p z => g p.1 p.2 z) (List.zip (lget xs 0) (lget xs 1)) (lget xs 2)

/-- The facet whose rule fires: for agents that are none, the empty one. -/
def State.facetNow (s : State) : Facet :=
  match s.cur with
  | .facet h n _ => (s.hall h).facet n
  | _ => Facet.reset 0

end Sys2Proof.Machine
end

