-- ==== Sys2Proof/Machine/Matrix.lean ====
section
/-! DEFINITION. Matrix nodes (spec/12): acceptance of words, operand streams, accumulation (spec/03 R63 to R66), results,
and the error log. A node's words take effect in acceptance order (R309); results of tiles that the word under way does
not write may leave before it ends (R322). Each turn takes one token, gathers one row, computes one K-step or pushes one
token. -/

namespace Sys2Proof.Machine

/-! ## The node and its faults -/

/-- Update the node a turn is about. -/
def State.updNode (s : State) (h m : Nat) (f : MxNode → MxNode) : State :=
  s.updHall h fun x => x.setNode m (f (x.node m))

/-- A fault of a node (R310, R404): the unit at (8, 2m), the channel and its token index or the word index. -/
def mxFault (s : State) (h m chan tix : Nat) (c : Cause) (info : Word) : State :=
  freeze s h 8 (2 * m) 0 chan tix c info (((s.hall h).node m).counts chan)

/-- A token that the node may not take at a port (R62, R309, R311): a STREAM case, or LENS for none. -/
def mxToken (s : State) (h m chan : Nat) (k : Option StreamCase) : State :=
  let n := (s.hall h).node m
  match k with
  | some k => streamFreeze s h 8 (2 * m) 0 chan (lget n.delivered chan) k (n.counts chan)
  | none => mxFault s h m chan (lget n.delivered chan) .lens 0

/-- Word `m` leaves the head of a port. -/
def MxNode.take (n : MxNode) (c : Nat) : MxNode :=
  { n with ins := n.ins.set c ((lget n.ins c).drop 1), delivered := n.delivered.set c (lget n.delivered c + 1) }

/-- A token is consumed: forward progress (R416). -/
def mxTake (s : State) (h m c : Nat) (f : MxNode → MxNode) : State :=
  (s.updNode h m fun n => f (n.take c)).updHall h fun x => { x with wdogCount := 0 }

/-! ## Tiles (R308, R315, R317) -/

def MxTile.zero : MxTile := ⟨.none, false, []⟩

def MxNode.tile (n : MxNode) (t : Nat) : MxTile := n.tiles.getD t MxTile.zero

def MxNode.setTile (n : MxNode) (t : Nat) (x : MxTile) : MxNode := { n with tiles := n.tiles.set t x }

/-- A tile's cell registers are written anew: no error stands in them (R323). -/
def MxNode.freshTile (n : MxNode) (t : Nat) (x : MxTile) : MxNode :=
  { n.setTile t x with badElem := n.badElem.filter (fun p => !(p.1 == 2 && p.2 / 4096 == t)) }

/-- A tile becomes NONE, with the other half where it is a half of an F64 pair. -/
def MxNode.clearTile (n : MxNode) (t : Nat) : MxNode :=
  let k := (n.tile t).kind
  let n := n.freshTile t MxTile.zero
  if k = .f64 then n.freshTile (t + 1) MxTile.zero
  else if k = .pair then n.freshTile (t - 1) MxTile.zero else n

/-- A tile takes a kind and cells; an F64 tile takes its upper half with it. -/
def MxNode.putTile (n : MxNode) (t : Nat) (x : MxTile) : MxNode :=
  if x.kind = .f64 then (n.freshTile t x).freshTile (t + 1) ⟨.pair, false, []⟩ else n.freshTile t x

/-- The cells of a tile whose registers hold an error (R323): those of an F64 cell lie in both halves. -/
def MxNode.badCells (n : MxNode) (t : Nat) : List Nat :=
  ((n.badElem.filter (fun p => p.1 == 2 && (p.2 / 4096 == t || ((n.tile t).kind == .f64 && p.2 / 4096 == t + 1)))).map
    (·.2 % 4096)).eraseDups

/-! ## Acceptance (R310 to R313) -/

/-- Formats of the first row of R312. -/
def mxFloat (f : Fmt) : Bool :=
  match f with
  | .fp32 | .fp16 | .bf16 | .e5m2 | .e4m3 | .e3m2 | .e2m3 | .e2m1 => true
  | _ => false

/-- SFMT fits a format: required on BFP, allowed on MX formats. -/
def mxScale (t : Tensor) : Bool := if t.sfmt = 0 then !t.fmt.isBfp else scalable t.fmt

/-- The kind of an operation on two formats (R312). -/
def mxKind (a b : Tensor) : Option MxTileKind :=
  if mxFloat a.fmt && mxFloat b.fmt then some .f32
  else if a.fmt = .fp64 ∧ b.fmt = .fp64 then some .f64
  else if a.fmt = .int8 ∧ b.fmt = .int8 then some .int
  else if a.fmt.isBfp && b.fmt.isBfp && a.block == b.block then some .bfp
  else none

/-- The epilogue binding of a chain (R320). -/
def mxBinding (x : Hall) (m epi : Nat) : Option Word := (x.sect [8] 8 (2 * m)).find? (fun w => nbits w.toNat 56 8 == epi)

/-- The bundle policy of an entry's domain lets adapters train (R116, R328). -/
def mxAdapt (s : State) (ctx : Word) (t : Tensor) : Bool :=
  ((s.ctx? ctx).bind (fun c => c.domain? t.kd)).any (·.adapt)

/-- Checks 2 to 5 of R310 on a product. -/
def mxProduct (s : State) (h : Nat) (n : MxNode) (t : Nat) (accum ta tr al bl : Bool) (a b : Tensor) : Option Cause :=
  let transposed (flag : Bool) (e : Tensor) : Bool := flag && e.lens && !mxAdapt s (s.ctxOf h) e
  if !a.valid ∨ !b.valid then some .access
  else if al ≠ a.lens ∨ bl ≠ b.lens then some .lens
  else if transposed ta a ∨ transposed tr b then some .access
  else
    match mxKind a b with
    | none => some .cfg
    | some k =>
      if !mxScale a ∨ !mxScale b then some .cfg
      else if (ta && a.fmt.isBfp) ∨ (tr && b.fmt.isBfp) then some .cfg
      else if k = .f64 ∧ t % 2 = 1 then some .cfg
      else if accum ∧ (n.tile t).kind ≠ .none ∧ (n.tile t).kind ≠ k then some .cfg
      else none

/-- Some element or scale of an entry in the own-hall window lies in the bank of a lens-mode facet (R41, R217). -/
def lensWords (x : Hall) (a : Tensor) : Bool :=
  x.lens.any fun n =>
    let inBank (va : Nat) : Bool := ownBase + bankBase x n ≤ va && va < ownBase + bankBase x n + 65536
    (List.range a.count).any fun k =>
      let i := a.idx k
      let bytes := if a.bits < 8 then a.bytesOf i else (List.range (a.bits / 8)).map (a.byteAddr i 0 + ·)
      bytes.any inBank || (a.sfmt != 0 && inBank (a.scaleAddr i))

/-- Check 6 of R310: the A entry of MMAG, in the order of R13. -/
def mxGather (s : State) (h : Nat) (a : Tensor) : Option Cause :=
  let p := a.bounds
  let hi := ownBase + (s.hall h).size
  let scales := (List.range a.count).all (fun i => a.sfmt == 0 ||
    (ownBase ≤ a.scaleAddr (a.idx i) && a.scaleAddr (a.idx i) < hi))
  if !a.aligned then some .align
  else if p.1 < ownBase ∨ hi ≤ p.2 ∨ !scales ∨ a.lens ∨ lensWords (s.hall h) a then some .access
  else if !a.shapeOk then some .cfg else none

/-- Checks of R310, R318 and R319 on a format entry of results or of a load. -/
def mxFormat (t : Tensor) : Option Cause :=
  if !t.valid then some .access else if t.sfmt ≠ 0 ∨ t.fmt = .e8m0 ∨ t.fmt.isBfp then some .cfg else none

/-- The first check of R310 that a word fails, after its decoding. -/
def mxCheck (s : State) (h m : Nat) (i : Instr) (a b c : Tensor) : Option Cause :=
  let x := s.hall h
  let n := x.node m
  let result (acc : Fin 16) (epi : BitVec 8) : Option Cause :=
    match mxFormat c with
    | some f => some f
    | none =>
      if epi ≠ 0 ∧ (mxBinding x m epi.toNat).isNone then some .cfg
      else if (n.tile acc.val).kind = .pair then some .cfg else none
  match i with
  | .mma acc accum tr al bl _ _ _ ta _ => mxProduct s h n acc.val accum ta tr al bl a b
  | .mmag acc accum tr bl _ _ _ _ =>
    (match mxProduct s h n acc.val accum false tr false bl a b with
     | some f => some f
     | none => mxGather s h a)
  | .mxrd acc _ epi _ | .mxepi acc _ epi _ => result acc epi
  | .mxld acc _ _ =>
    (match mxFormat c with
     | some f => some f
     | none => if c.fmt = .fp64 ∧ acc.val % 2 = 1 then some .cfg else none)
  | _ => none

/-- A word at the head of `i0` is accepted, or freezes the hall with no effect (R310). The entries are read once. A word
accepted beside one under way stands behind it (R322). -/
def mxAccept (s : State) (h m : Nat) (i : Instr) (ta tb tc : Nat) : State :=
  let n := (s.hall h).node m
  let ctx := s.ctxOf h
  let a := tensorOf s ctx ta
  let b := tensorOf s ctx tb
  let c := tensorOf s ctx tc
  match mxCheck s h m i a b c with
  | some .cfg => let (k, s) := s.draw; mxFault s h m 0 n.accepted .cfg (Config.freeWord k)
  | some f => mxFault s h m 0 n.accepted f 0
  | none =>
    let w : MxBusy := ⟨i, n.accepted, a, b, c, 0, 0, [], ((lget n.ins 0).head?.map (·.fromSeq)).getD false⟩
    mxTake s h m 0 fun n =>
      if n.busy.isNone then { n with accepted := n.accepted + 1, busy := some w }
      else { n with accepted := n.accepted + 1, ahead := n.ahead ++ [w] }

/-! ## Operand streams (R311) -/

/-- What comes of the token at the head of an operand port. -/
inductive Took
  | empty
  | fault (c : Option StreamCase)   -- none: LENS
  | took (l : MxLatch)

/-- Take a token into a latch that gathers `total` elements in the format of an entry; `lensOk`: the port is a lens
operand port. DESIGN CHOICE (unsafe, log 59): where a scale header's BL differs from the entry's SFMT, elements take their
scales by BL and a BFP block is the entry's, with the scale of its first element; R65 and R311 name no outcome. A token
that breaks several rules names the first in the order kind, width, framing, missing scale (log 77); a stop or done token
inside a block is R62's cut. -/
def takeOperand (q : List Token) (l : MxLatch) (e : Tensor) (total : Nat) (lensOk : Bool) : Took :=
  match q with
  | [] => .empty
  | t :: _ =>
    let n := hdrLen t.hdr
    let stream (k : StreamCase) : Took := .fault (some k)
    if t.lens && !lensOk then .fault none
    else if hdrBad t.hdr then stream .header
    else if hdrKind t.hdr = 2 then
      (if e.sfmt = 0 then stream .kind
       else match latchHeader l.stream t.hdr t.pay t.lens with
         | some k => .took { l with stream := some k }
         | none => stream .unused)
    else if hdrKind t.hdr ≠ 0 then stream (if latchCut l.stream then .cut else .kind)
    else if hdrWid t.hdr ≠ e.fmt.slot then stream .width
    else if total < l.elems.length + n ∨ hdrLot t.hdr ≠ (l.elems.length + n == total) then stream .framing
    else
      let es := (payElems t.hdr t.pay).map (BitVec.ofNat 64)
      if e.sfmt = 0 then .took { l with elems := l.elems ++ es }
      else match latchTakes n l.stream with
        | some (xs, k) => .took { elems := l.elems ++ es, scales := l.scales ++ xs, stream := k }
        | none => stream .missing

/-- Take from operand port `c` into a latch; `none` when the port is empty. -/
def mxOperand (s : State) (h m c : Nat) (l : MxLatch) (e : Tensor) (total : Nat) (lensOk : Bool)
    (put : MxLatch → MxNode → MxNode) : Option State :=
  let n := (s.hall h).node m
  match takeOperand (lget n.ins c) l e total lensOk with
  | .empty => none
  | .fault k => some (mxToken s h m c k)
  | .took l => some (mxTake s h m c (put l))

/-! ## Errors in elements (R323, R324) -/

/-- Log an element in error: the first after a clear fills the log. -/
def MxNode.logError (n : MxNode) (side tid step idx kix wix : Nat) : MxNode :=
  { n with
    zro := true
    elog := if n.elog.getLsbD 63 then n.elog ||| 0x4000000000000000 else
      BitVec.ofNat 64 (2 ^ 63 + side * 2 ^ 60 + tid * 2 ^ 52 + step % 256 * 2 ^ 44 + idx * 2 ^ 38 + kix * 2 ^ 32 + wix % 2 ^ 32) }

/-- Whether an element in error stands at a place. -/
def MxNode.badAt (n : MxNode) (side pos : Nat) : Bool := n.badElem.contains (side, pos)

/-- Log every element in error of a side that a K-step uses; `at` gives its two positions. -/
def MxNode.logSide (n : MxNode) (side tid step wix : Nat) (place : Nat → Nat × Nat) : MxNode :=
  (n.badElem.filter (fun p => p.1 == side)).foldl (fun n p =>
    n.logError side tid step (place p.2).1 (place p.2).2 wix) n

/-! ## Accumulation (R63 to R66, R315) -/

/-- Position in the stream of *a*[i][k] (R311). -/
def posA (ta : Bool) (i k : Nat) : Nat := if ta then 64 * k + i else 64 * i + k
/-- Position in the stream of *b*[k][j]. -/
def posB (tr : Bool) (k j : Nat) : Nat := if tr then 64 * k + j else 64 * j + k

/-- An operand element as a value, with its scale; an element in error is +0. -/
def operandValue (e : Tensor) (bad : Bool) (x : BitVec 64) (scale : BitVec 8) : FVal :=
  if bad then .fin false 0 0
  else if e.sfmt = 0 then e.fmt.decode x.toNat
  else scaledValue e.fmt x.toNat scale.toNat

/-- The values of a step tile in stream order. -/
def stepValues (n : MxNode) (side : Nat) (e : Tensor) (l : MxLatch) : List FVal :=
  (List.range 4096).map (fun q => operandValue e (n.badAt side q) (l.elems.getD q 0) (l.scales.getD q 0))

/-- The exact sum of a chunk of 8 products. -/
def chunkSum (p : Nat → FVal) : FVal :=
  (((p 0).add (p 1)).add ((p 2).add (p 3))).add (((p 4).add (p 5)).add ((p 6).add (p 7)))

/-- Chunks of a K-step added to a floating-point cell. -/
def floatCell (fmt : Fmt) (a b : Nat → FVal) (cell : Nat) : Nat :=
  (List.range 8).foldl (fun acc c =>
    fmt.encode .rn 0 ((fmt.decode acc).add (chunkSum (fun k => (a (8 * c + k)).mul (b (8 * c + k)))))) cell

/-- Saturation at 48 bits, with the sticky flag. -/
def sat48 (v : Int) : Int × Bool :=
  let w := clampInt v (-(2 ^ 47)) (2 ^ 47 - 1)
  (w, w != v)

/-- Products of integers added to an INT cell in chunks of 8. -/
def intCell (a b : Nat → Int) (cell : Nat) : Nat × Bool :=
  let r := (List.range 8).foldl (fun (acc : Int × Bool) c =>
    let t := ((List.range 8).map (fun k => a (8 * c + k) * b (8 * c + k))).sum
    let v := sat48 (acc.1 + t)
    (v.1, acc.2 || v.2)) (sextNat cell 48, false)
  (wrapInt r.1 48, r.2)

/-- Round to an integer the quotient of `v` by 2^k, ties to even (R66). -/
def shiftDown (v : Int) (k : Nat) : Int := roundInt .rn 0 (v < 0) v.natAbs (-(k : Int))

/-- One block's partial sum `p` of exponent `e` added to a BFP cell (S in [47:0], E in [57:48]). -/
def bfpBlock (nan : Bool) (p : Int) (e : Int) (cell : Nat) : Nat × Bool :=
  let sg := sextNat (nbits cell 0 48) 48
  let ex := nbits cell 48 10
  if nan ∨ ex = 1023 then (1023 * 2 ^ 48, false)
  else if p = 0 then (cell, false)
  else if sg = 0 then (wrapInt p 48 + (e + 512).toNat * 2 ^ 48, false)
  else
    let m := max ((ex : Int) - 512) e
    let v := sat48 (shiftDown sg (m - ((ex : Int) - 512)).toNat + shiftDown p (m - e).toNat)
    (wrapInt v.1 48 + (m + 512).toNat * 2 ^ 48, v.2)

/-- The blocks of a K-step added to a BFP cell (R65, R66): mantissas and scales by k. -/
def bfpCell (block n q : Nat) (a b : Nat → Int) (xa xb : Nat → Nat) (cell : Nat) : Nat × Bool :=
  (List.range (64 / block)).foldl (fun (acc : Nat × Bool) c =>
    let p := ((List.range block).map (fun k => a (block * c + k) * b (block * c + k))).sum
    let ea := xa (block * c)
    let eb := xb (block * c)
    let r := bfpBlock (ea == 255 || eb == 255) p ((ea : Int) + eb - 254 - (n - 1) - (q - 1)) acc.1
    (r.1, acc.2 || r.2)) (cell, false)

/-- The integer of an INT8 or BFP operand element. -/
def operandInt (e : Tensor) (bad : Bool) (x : BitVec 64) : Int := if bad then 0 else sextNat (nbits x.toNat 0 e.bits) e.bits

/-- A cell after a K-step, and whether it saturated. -/
def mxCell (kind : MxTileKind) (n : MxNode) (a b : Tensor) (ta tr : Bool) (va vb : Array FVal) (i j cell : Nat) : Nat × Bool :=
  let pa := posA ta i
  let pb := fun k => posB tr k j
  let ia := fun k => operandInt a (n.badAt 0 (pa k)) (n.latA.elems.getD (pa k) 0)
  let ib := fun k => operandInt b (n.badAt 1 (pb k)) (n.latB.elems.getD (pb k) 0)
  let sa := fun k => (n.latA.scales.getD (pa k) 0).toNat
  let sb := fun k => (n.latB.scales.getD (pb k) 0).toNat
  match kind with
  | .int => intCell ia ib cell
  | .bfp => bfpCell a.block a.bits b.bits ia ib sa sb cell
  | .f64 => (floatCell .fp64 (fun k => va.getD (pa k) .nan) (fun k => vb.getD (pb k) .nan) cell, false)
  | _ => (floatCell .fp32 (fun k => va.getD (pa k) .nan) (fun k => vb.getD (pb k) .nan) cell, false)

/-- Cells as a list of values by position, from a function. -/
def cellsOf (f : Nat → Nat) : Map (BitVec 64) :=
  (List.range 4096).filterMap (fun q => let v := f q; if v = 0 then none else some (q, BitVec.ofNat 64 v))

/-- One K-step of a product: both latches are full, and are empty afterwards. -/
def mxStep (n : MxNode) (b : MxBusy) (t : Nat) (accum ta tr lens : Bool) (tidA tidB : Nat) : MxNode :=
  let kind := (mxKind b.entA b.entB).getD .f32
  let old := n.tile t
  let n := if b.step ≠ 0 then n
    else if accum ∧ old.kind = kind then n.putTile t { old with lens := old.lens || lens }
    else (n.clearTile t).putTile t ⟨kind, lens || (accum && old.lens), []⟩
  let x := n.tile t
  let va := (stepValues n 0 b.entA n.latA).toArray
  let vb := (stepValues n 1 b.entB n.latB).toArray
  let mine := n.badCells t
  let start (q : Nat) : Nat := if mine.contains q then 0 else (mget x.cells q 0).toNat
  let cell (q : Nat) : Nat × Bool := mxCell kind n b.entA b.entB ta tr va vb (q / 64) (q % 64) (start q)
  let n := n.logSide 0 tidA b.step b.index (fun q => if ta then (q % 64, q / 64) else (q / 64, q % 64))
  let n := n.logSide 1 tidB b.step b.index (fun q => if tr then (q % 64, q / 64) else (q / 64, q % 64))
  let n := mine.foldl (fun n q => n.logError 2 t b.step (q / 64) (q % 64) b.index) n
  { n.setTile t { x with cells := cellsOf (fun q => (cell q).1) } with
    sat := n.sat || (List.range 4096).any (fun q => (cell q).2)
    latA := ⟨[], [], n.latA.stream⟩
    latB := ⟨[], [], n.latB.stream⟩
    badElem := n.badElem.filter (fun p => p.1 == 2 && !(p.2 / 4096 == t || (x.kind == .f64 && p.2 / 4096 == t + 1)))
    busy := some { b with step := b.step + 1, count := 0 } }

/-! ## Ends of words -/

/-- A word whose effects are done: with CT, one control token leaves on `co0` as a release (R321), and the next accepted
word is the one under way. -/
def mxFinish (s : State) (h m : Nat) (ct : Bool) : State :=
  let x := s.hall h
  if ct && !x.ctlRoom 8 (2 * m) 0 then s
  else
    let x := if ct then x.sendCtl 8 (2 * m) 0 else x
    let n := x.node m
    s.setHall h (x.setNode m { n with busy := n.ahead.head?, ahead := n.ahead.drop 1 })

/-- MXRD or MXEPI: its tile, and whether it clears it. -/
def resultWord (i : Instr) : Option (Nat × Bool) :=
  match i with
  | .mxrd a .. => some (a.val, false)
  | .mxepi a .. => some (a.val, true)
  | _ => none

/-- A result word has pushed its last token and has no tile left to clear: only its completion is open. -/
def MxBusy.pushed (b : MxBusy) : Bool :=
  b.count == 4096 && (match resultWord b.word with | some (_, true) => b.step == 1 | _ => true)

/-- A word accepted beside the one under way whose tokens have not all left. -/
def MxNode.streaming (n : MxNode) : Option MxBusy := n.ahead.find? (fun b => !b.pushed)

/-- The accepted word that `i` is: the one under way, or a result word beside it (R322). -/
def MxNode.wordOf (n : MxNode) (i : Instr) : Option MxBusy :=
  match n.busy with
  | none => none
  | some b => if (resultWord b.word).isNone && (resultWord i).isSome then n.streaming else some b

/-- An accepted word with new counters. -/
def MxNode.putWord (n : MxNode) (b : MxBusy) : MxNode :=
  if n.busy.any (·.index == b.index) then { n with busy := some b }
  else { n with ahead := n.ahead.map (fun w => if w.index = b.index then b else w) }

/-- Go on with an accepted word, or accept it. -/
def mxWord (i : Instr) (ta tb tc : Nat) (go : Nat → Nat → MxBusy → State → State) (s : State) : State :=
  match s.cur with
  | .mx h m =>
    match ((s.hall h).node m).wordOf i with
    | some b => go h m b s
    | none => mxAccept s h m i ta tb tc
  | _ => s

/-! ## MMA and MMAG (R315, R316) -/

def mmaGo (t ks : Nat) (accum ta tr al bl : Bool) (tidA tidB : Nat) (ct : Bool) (h m : Nat) (b : MxBusy) (s : State) : State :=
  let n := (s.hall h).node m
  if b.step = ks then mxFinish s h m ct
  else if n.latA.elems.length = 4096 ∧ n.latB.elems.length = 4096 then
    s.updNode h m fun n => mxStep n b t accum ta tr (al && bl) tidA tidB
  else
    let portB (s : State) : State :=
      if n.latB.elems.length = 4096 then s
      else (mxOperand s h m 2 n.latB b.entB 4096 bl (fun l n => { n with latB := l })).getD s
    if n.latA.elems.length = 4096 then portB s
    else
      match mxOperand s h m 1 n.latA b.entA 4096 al (fun l n => { n with latA := l }) with
      | some s => s
      | none => portB s

def execMma (acc : Fin 16) (accum tr al bl : Bool) (tida tidb ks : BitVec 8) (ta ct : Bool) (s : State) : Out :=
  .next (mxWord (.mma acc accum tr al bl tida tidb ks ta ct) tida.toNat tidb.toNat 0
    (mmaGo acc.val ks.toNat accum ta tr al bl tida.toNat tidb.toNat ct) s)

/-- The format of a row index. -/
def indexEntry : Tensor := ⟨0, BitVec.ofNat 64 (Fmt.code .int32 * 2 ^ 47), 0, 0⟩

/-- Indices of MMAG are taken from `i1`; the last one's token is checked against the extents (R316). -/
def mmagIndex (ks : Nat) (h m : Nat) (b : MxBusy) (s : State) : State :=
  let n := (s.hall h).node m
  match takeOperand (lget n.ins 1) ⟨b.idx.map (BitVec.ofNat 64), [], none⟩ indexEntry 64 false with
  | .empty => s
  | .fault k => mxToken s h m 1 k
  | .took l =>
    let xs := l.elems.map (fun v => v.toNat % 2 ^ 32)
    let a := b.entA
    let far := xs.find? (fun i => i != 0xFFFFFFFF && (a.ext 1 ≤ i || a.ext 0 < 64 * ks))
    if xs.length = 64 ∧ (far.isSome ∨ a.ext 0 < 64 * ks) then
      mxFault s h m 1 (lget n.delivered 1) .access
        (addrWord (a.bitAddr ⟨if a.ext 1 ≤ far.getD 0 then 0 else a.ext 0, far.getD 0, 0, 0⟩ / 8 % 2 ^ 56))
    else mxTake s h m 1 fun n => { n with busy := some { b with idx := xs } }

/-- One element of a gathered row: its bits and scale, and whether a scratch word that holds it or its scale is in error;
an element in error keeps the scale that its block was read with (R323). -/
def gatherElem (s : State) (h : Nat) (a : Tensor) (i : Idx) : Res (BitVec 64 × BitVec 8 × Bool) :=
  let scaled (v : BitVec 64) (bad : Bool) (s : State) : Res (BitVec 64 × BitVec 8 × Bool) :=
    if a.sfmt = 0 then .ok (v, 0, bad) s
    else match readScale s h (.mport 0) a i true .dflt with
      | .ok x s => .ok (v, BitVec.ofNat 8 x.1, bad) s
      | .trap .memerr _ s => .ok (0, 0, true) s
      | .trap c i s => .trap c i s
      | .freeze c i s => .freeze c i s
      | .wait s => .wait s
  match readElem s h (.mport 0) a i true .dflt with
  | .ok v s => scaled (BitVec.ofNat 64 v.1) false s
  | .trap .memerr _ s => scaled 0 true s
  | .trap c i s => .trap c i s
  | .freeze c i s => .freeze c i s
  | .wait s => .wait s

/-- Elements `64 − n` to 63 of a row of a step. -/
def gatherRow (h : Nat) (a : Tensor) (step row : Nat) : Nat → State → Res (List (BitVec 64 × BitVec 8 × Bool))
  | 0, s => .ok [] s
  | n + 1, s =>
    (gatherElem s h a ⟨64 * step + (63 - n), row, 0, 0⟩).andThen fun e s =>
    (gatherRow h a step row n s).andThen fun es s => .ok (e :: es) s

/-- The next row of a step tile goes into the A latch. -/
def mmagRow (h m : Nat) (b : MxBusy) (s : State) : State :=
  let l := ((s.hall h).node m).latA
  let k := l.elems.length
  let row := lget b.idx (k / 64)
  let got := if row = 0xFFFFFFFF then .ok (List.replicate 64 (0, 127, false)) s else gatherRow h b.entA b.step row 64 s
  match got with
  | .ok es s => s.updNode h m fun n => { n with
      latA := { n.latA with elems := n.latA.elems ++ es.map (·.1), scales := n.latA.scales ++ es.map (·.2.1) }
      badElem := n.badElem ++ (es.zipIdx.filter (fun p => p.1.2.2)).map (fun p => (0, k + p.2)) }
  | .trap c i s | .freeze c i s => mxFault s h m 0 b.index c i
  | .wait s => s

def mmagGo (t ks : Nat) (accum tr bl : Bool) (tidA tidB : Nat) (ct : Bool) (h m : Nat) (b : MxBusy) (s : State) : State :=
  let n := (s.hall h).node m
  if b.step = ks then mxFinish s h m ct
  else if b.idx.length < 64 then mmagIndex ks h m b s
  else if n.latA.elems.length < 4096 then
    -- the gather may wait on a scratch word; B goes on meanwhile
    let s' := mmagRow h m b s
    if ((s'.hall h).node m).latA.elems.length = n.latA.elems.length ∧ n.latB.elems.length < 4096 ∧ !(s'.hall h).held then
      (mxOperand s' h m 2 n.latB b.entB 4096 bl (fun l n => { n with latB := l })).getD s'
    else s'
  else if n.latB.elems.length < 4096 then
    (mxOperand s h m 2 n.latB b.entB 4096 bl (fun l n => { n with latB := l })).getD s
  else s.updNode h m fun n => mxStep n b t accum false tr false tidA tidB

def execMmag (acc : Fin 16) (accum tr bl : Bool) (tida tidb ks : BitVec 8) (ct : Bool) (s : State) : Out :=
  .next (mxWord (.mmag acc accum tr bl tida tidb ks ct) tida.toNat tidb.toNat 0
    (mmagGo acc.val ks.toNat accum tr bl tida.toNat tidb.toNat ct) s)

/-! ## MXZ, MXLD, MXRD, MXEPI (R317 to R319) -/

def mxzGo (t : Nat) (all ct : Bool) (h m : Nat) (b : MxBusy) (s : State) : State :=
  if b.step = 0 then
    s.updNode h m fun n =>
      { (if all then (List.range 16).foldl (fun n t => n.freshTile t MxTile.zero) n else n.clearTile t) with
        busy := some { b with step := 1 } }
  else mxFinish s h m ct

def execMxz (acc : Fin 16) (all ct : Bool) (s : State) : Out :=
  .next (mxWord (.mxz acc all ct) 0 0 0 (mxzGo acc.val all ct) s)

/-- The cell that a loaded element gives. -/
def loadCell (f : Fmt) (x : Nat) : Nat :=
  match f with
  | .fp64 => x
  | .int8 | .int32 => wrapInt (sextNat (nbits x 0 f.bits) f.bits) 48
  | _ => Fmt.fp32.encode .rn 0 (f.decode x)

def loadKind (f : Fmt) : MxTileKind :=
  match f with
  | .fp64 => .f64
  | .int8 | .int32 => .int
  | _ => .f32

def mxldGo (t : Nat) (ct : Bool) (h m : Nat) (b : MxBusy) (s : State) : State :=
  let n := (s.hall h).node m
  if b.step = 1 then mxFinish s h m ct
  else if n.latA.elems.length = 4096 then
    s.updNode h m fun n =>
      let f := b.entC.fmt
      { (n.clearTile t).putTile t ⟨loadKind f, false, cellsOf (fun q => loadCell f (n.latA.elems.getD q 0).toNat)⟩ with
        latA := ⟨[], [], n.latA.stream⟩
        busy := some { b with step := 1 } }
  else (mxOperand s h m 3 n.latA b.entC 4096 false (fun l n => { n with latA := l })).getD s

def execMxld (acc : Fin 16) (tidc : BitVec 8) (ct : Bool) (s : State) : Out :=
  .next (mxWord (.mxld acc tidc ct) 0 0 tidc.toNat (mxldGo acc.val ct) s)

/-- The value of a cell (R319). -/
def cellValue (k : MxTileKind) (c : Nat) : FVal :=
  match k with
  | .f32 => Fmt.fp32.decode c
  | .f64 => Fmt.fp64.decode c
  | .int => .ofInt (sextNat (nbits c 0 48) 48)
  | .bfp => if nbits c 48 10 = 1023 then .nan else (FVal.ofInt (sextNat (nbits c 0 48) 48)).scale ((nbits c 48 10 : Int) - 512)
  | .none | .pair => .fin false 0 0

/-- The next result token of a tile: 8 elements of a row, or 4 of 64 bits. -/
def resultToken (x : Hall) (m : Nat) (n : MxNode) (b : MxBusy) (t : Nat) (epi : Nat) : Token × Nat :=
  let f := b.entC.fmt
  let w := f.slot
  let len := if w = 64 then 4 else 8
  let tile := n.tile t
  let bind := if epi = 0 then 0 else ((mxBinding x m epi).getD 0).toNat
  let bad := n.badCells t
  let es := (List.range len).map (fun k =>
    let q := b.count + k
    f.encode .rn 0 (cellValue tile.kind (if bad.contains q then 0 else (mget tile.cells q 0).toNat)))
  let last := b.count + len == 4096 || (nbit bind 53 && (b.count + len) % 64 == 0)
  (x.token (mkHdr 0 (nbits bind 54 2) (widCode w) len 0 last) (BitVec.ofNat 256 (packElems w es)) tile.lens, len)

def mxrdGo (t epi : Nat) (clear ct : Bool) (h m : Nat) (b : MxBusy) (s : State) : State :=
  let x := s.hall h
  let n := x.node m
  if b.count = 4096 then
    if clear && b.step == 0 then
      s.updNode h m fun n => (n.clearTile t).putWord { b with step := 1 }
    else mxFinish s h m ct
  else if !x.outRoom 8 (2 * m) 0 then s
  else
    let (tok, len) := resultToken x m n b t epi
    let s := s.setHall h (x.pushOut 8 (2 * m) 0 tok)
    let mine := (n.badCells t).filter (fun q => b.count ≤ q && q < b.count + len)
    s.updNode h m fun n =>
      mine.foldl (fun n q => n.logError 2 t 0 (q / 64) (q % 64) b.index)
        (n.putWord { b with count := b.count + len })

def execMxrd (acc : Fin 16) (tidc epi : BitVec 8) (ct : Bool) (s : State) : Out :=
  .next (mxWord (.mxrd acc tidc epi ct) 0 0 tidc.toNat (mxrdGo acc.val epi.toNat false ct) s)

def execMxepi (acc : Fin 16) (tidc epi : BitVec 8) (ct : Bool) (s : State) : Out :=
  .next (mxWord (.mxepi acc tidc epi ct) 0 0 tidc.toNat (mxrdGo acc.val epi.toNat true ct) s)

/-! ## A node's turn -/

/-- The word a node runs now: the one under way, or the one its control port holds (R309, R325); a malformed token or word
freezes the hall, and the turn ends in the state given. -/
def mxNext (s : State) (h m : Nat) : Instr ⊕ State :=
  let x := s.hall h
  let n := x.node m
  if !x.active then .inr s
  else if ((lget n.ins 3).head?.map (·.lens)).getD false then .inr (mxToken s h m 3 none)
  else if ((lget n.ins 0).head?.map (·.lens)).getD false then .inr (mxToken s h m 0 none)
  else
    match x.config (boxOf 8 (2 * m)), n.busy, lget n.ins 0 with
    | _, none, [] => .inr s
    | .missing, _, _ => .inr s
    | .poisoned, _, _ => .inr (poisonFault s h 8 (2 * m))
    | .ok, some b, _ => .inl b.word
    | .ok, none, t :: _ =>
        if hdrBad t.hdr then .inr (mxToken s h m 0 (some .header))
        else if hdrKind t.hdr ≠ 0 then .inr (mxToken s h m 0 (some .kind))
        else if hdrWid t.hdr ≠ 64 ∨ hdrLen t.hdr ≠ 1 then .inr (mxToken s h m 0 (some .shape))
        else
          let w : Word := BitVec.ofNat 64 (payElem 64 t.pay 0)
          match fetchFor .matrix w with
          | some i => .inl i
          | none => .inr (mxFault s h m 0 n.accepted .ill (opOf w))

/-- The tiles that the word under way may still change. -/
def MxNode.writes (n : MxNode) (b : MxBusy) : List Nat :=
  let own (t : Nat) (f64 : Bool) : List Nat :=
    let k := (n.tile t).kind
    t :: ((if f64 || k == .f64 then [t + 1] else []) ++ (if k == .pair then [t - 1] else []))
  match b.word with
  | .mma a .. | .mmag a .. => own a.val (b.entA.fmt == .fp64)
  | .mxld a .. => own a.val (b.entC.fmt == .fp64)
  | _ => List.range 16

/-- R322: the result word that may go on while a product or a load is under way: its tile is none that the word under way
writes, and holds no element in error, whose log would then come out of order (R309). Its tokens leave in acceptance
order; its completion waits (R321). -/
def mxAhead (s : State) (h m : Nat) : Option Instr :=
  let x := s.hall h
  let n := x.node m
  let free (b : MxBusy) (i : Instr) : Bool :=
    match resultWord i with
    | some (t, _) => !(n.writes b).contains t && (n.badCells t).isEmpty
    | none => false
  if !x.active || x.config (boxOf 8 (2 * m)) != .ok then none
  else match n.busy with
    | none => none
    | some b =>
      match n.streaming with
      | some w => if free b w.word && (w.count == 4096 || x.outRoom 8 (2 * m) 0) then some w.word else none
      | none =>
        match lget n.ins 0 with
        | [] => none
        | t :: _ =>
          if t.lens || hdrBad t.hdr || hdrKind t.hdr != 0 || hdrWid t.hdr != 64 || hdrLen t.hdr != 1 then none
          else
            match fetchFor .matrix (BitVec.ofNat 64 (payElem 64 t.pay 0)) with
            | some i =>
              let c := match i with
                | .mxrd _ tc _ _ | .mxepi _ tc _ _ => tensorOf s (s.ctxOf h) tc.toNat
                | _ => Tensor.zero
              if free b i && (mxCheck s h m i c c c).isNone then some i else none
            | none => none

end Sys2Proof.Machine
end

