-- ==== Sys2Proof/Machine/Prism.lean ====
section
/-! DEFINITION. Prism units (spec/13 R330 to R344): fibre streams, packing, and the words SCAN to CRDW. A unit acts in
steps; a step that cannot push or lacks its input changes nothing. -/

namespace Sys2Proof.Machine

/-! ## A unit and its faults (R352, R404) -/

def State.unitAt (s : State) (h px py : Nat) : PUnit := (s.hall h).unit (boxOf px py)

def State.updUnit (s : State) (h px py : Nat) (f : PUnit → PUnit) : State :=
  s.updHall h fun x => x.setUnit (boxOf px py) (f (x.unit (boxOf px py)))

/-- A fault of a unit: its position, the channel with its token index, and its counters. -/
def unitFault (s : State) (h px py chan tix : Nat) (c : Cause) (info : Word) : State :=
  freeze s h px py 0 chan tix c info (s.unitAt h px py).counts

/-- A token that a unit may not take on a channel: a breach of R331, or LENS for none (R334). -/
def unitStream (s : State) (h px py c : Nat) (k : Option StreamCase) : Res Unit :=
  let u := s.unitAt h px py
  .ok () (match k with
    | some k => streamFreeze s h px py 0 c (lget u.delivered c) k u.counts
    | none => unitFault s h px py c (lget u.delivered c) .lens 0)

/-- The channel and token index that a fault of a step names (R352, R404): the next token of an input. -/
def PUnit.named (c : Nat) (u : PUnit) : Nat × Nat := (c, lget u.delivered c)

/-- The same for SCAN's family: the token that holds the reference under way; none with ROOT. -/
def PUnit.scanNamed (c : Nat) (root : Bool) (u : PUnit) : Nat × Nat :=
  if root then (0, 0) else (c, if u.cur.isSome && lget u.taken c = 0 then lget u.delivered c - 1 else lget u.delivered c)

/-- A step of the unit whose turn it is: a fault leaves everything as it was before the step (R352), and a consumed token
is forward progress (R416). `inp`: what a fault of the step names. -/
def unitWord (inp : PUnit → Nat × Nat) (step : Nat → Nat → Nat → State → Res Unit) (s : State) : State :=
  match s.cur with
  | .unit h px py =>
    let n := inp (s.unitAt h px py)
    (match step h px py s with
     | .ok _ s' =>
       if (s'.unitAt h px py).delivered = (s.unitAt h px py).delivered then s'
       else s'.updHall h fun x => { x with wdogCount := 0 }
     | .trap c i _ => unitFault s h px py n.1 n.2 c i
     | .freeze c i s' => unitFault s' h px py n.1 n.2 c i
     | .wait s' => s')
  | _ => s

/-! ## Input streams (R330, R331, R334) -/

/-- What stands at the head of an input. -/
inductive Head
  | none
  | bad (k : Option StreamCase)   -- none: LENS
  | data (v : Nat)
  | stop (l : Nat)
  | done
  deriving DecidableEq, Repr

/-- The head of an input whose elements have width `w`: Kind, Width, Closure and the lens rule are checked. -/
def PUnit.head (u : PUnit) (c w : Nat) (lensOk : Bool) : Head :=
  match lget u.ins c with
  | [] => .none
  | t :: _ =>
    if t.lens && !lensOk then .bad Option.none
    else if hdrBad t.hdr then .bad (some .header)
    else
      match hdrKind t.hdr with
      | 0 => if hdrWid t.hdr = w then .data (payElem w t.pay (lget u.taken c)) else .bad (some .width)
      | 1 => .stop (hdrLvl t.hdr)
      | 3 => if u.closed.getD c true then .done else .bad (some .closure)
      | _ => .bad (some .kind)

def PUnit.headLens (u : PUnit) (c : Nat) : Bool := ((lget u.ins c).head?.map (·.lens)).getD false

/-- The header of the head token of an input. -/
def PUnit.headHdr (u : PUnit) (c : Nat) : BitVec 16 := ((lget u.ins c).head?.map (·.hdr)).getD 0

/-- The head token of an input leaves it. -/
def PUnit.popTok (u : PUnit) (c : Nat) : PUnit :=
  { u with ins := u.ins.set c ((lget u.ins c).drop 1), taken := u.taken.set c 0,
           delivered := u.delivered.set c (lget u.delivered c + 1) }

/-- Take one element of the head token. -/
def PUnit.takeData (u : PUnit) (c : Nat) : PUnit :=
  let n := lget u.taken c + 1
  let len := ((lget u.ins c).head?.map (fun t => hdrLen t.hdr)).getD 1
  let u := { u with closed := u.closed.set c false }
  if n = len then u.popTok c else { u with taken := u.taken.set c n }

/-- Take a stop or done token. -/
def PUnit.takeMark (u : PUnit) (c : Nat) : PUnit :=
  { u.popTok c with closed := u.closed.set c true, last := u.last.set c Option.none }

/-- The empty reference (R330). -/
def emptyRef : Nat := 0xFFFFFFFF

/-! ## Output packing (R333) -/

def capOf (w : Nat) : Nat := if w = 64 then 4 else 8

/-- The elements held for a channel leave as one token. -/
def Hall.packOut (x : Hall) (px py c : Nat) (lot : Bool) : Hall :=
  let u := x.unit (boxOf px py)
  let p := lget u.pack c
  let n := p.elems.length
  let t := x.token (mkHdr 0 0 (widCode p.wid) n 0 lot) (BitVec.ofNat 256 (packElems p.wid (p.elems.map (·.toNat)))) p.lens
  (x.setUnit (boxOf px py) { u with pack := u.pack.set c ⟨[], p.wid, false⟩
                                    emitted := u.emitted.set c (lget u.emitted c + n) }).pushOut px py c t

/-- Elements join what is held for their channels: channel, width, value, lens mark. A channel's token leaves when it is
full; `none` when one has no space. -/
def Hall.packPush (px py : Nat) : List (Nat × Nat × Nat × Bool) → Hall → Option Hall
  | [], x => some x
  | (c, w, v, lens) :: es, x =>
    let u := x.unit (boxOf px py)
    let p := lget u.pack c
    let p' : Pack := ⟨p.elems ++ [BitVec.ofNat 64 v], w, p.lens || lens⟩
    let x' := x.setUnit (boxOf px py) { u with pack := u.pack.set c p' }
    if p'.elems.length < capOf w then Hall.packPush px py es x'
    else if x.outRoom px py c then Hall.packPush px py es (x'.packOut px py c false)
    else none

/-- Emit data elements in one step, with the unit's own change. -/
def emitData (h px py : Nat) (es : List (Nat × Nat × Nat × Bool)) (f : PUnit → PUnit) (s : State) : Res Unit :=
  match (s.hall h).packPush px py es with
  | none => .wait s
  | some x => .ok () ((s.setHall h x).updUnit h px py f)

/-- Cut the tokens held for channels before a mark; `none` when one has no space; the flag says that something left. -/
def Hall.cutPacks (x : Hall) (px py : Nat) (cs : List Nat) : Option (Bool × Hall) :=
  let held := cs.filter (fun c => (lget (x.unit (boxOf px py)).pack c).elems != [])
  if held = [] then some (false, x)
  else if held.all (fun c => x.outRoom px py c) then some (true, held.foldl (fun x c => x.packOut px py c false) x)
  else none

def stopHdr (l : Nat) : BitVec 16 := mkHdr 1 0 0 1 l false
def doneHdr : BitVec 16 := mkHdr 3 0 0 1 0 false

/-- Emit a stop or done token on channels in one step, cut tokens first in a step of their own. -/
def emitMark (h px py : Nat) (cs : List Nat) (hdr : BitVec 16) (f : PUnit → PUnit) (s : State) : Res Unit :=
  let x := s.hall h
  match x.cutPacks px py cs with
  | none => .wait s
  | some (true, x) => .ok () (s.setHall h x)
  | some (false, _) =>
    if cs.all (fun c => x.outRoom px py c) then
      .ok () ((s.setHall h (cs.foldl (fun x c => x.pushOut px py c (x.token hdr 0 false)) x)).updUnit h px py f)
    else .wait s

/-! ## Tensor entries (R339) -/

def noEnts : List (Option Tensor) := List.replicate 16 none

def PUnit.ent (u : PUnit) (k : Nat) : Tensor := (u.ents.getD k none).getD Tensor.zero

/-- Read entries into slots, each with its check, where they are not read yet. -/
def withEnts (h px py : Nat) (tids : List (Nat × Nat)) (chk : Nat → Tensor → Option Cause) (k : State → Res Unit) (s : State) :
    Res Unit :=
  let u := s.unitAt h px py
  let ctx := s.ctxOf h
  if tids.all (fun p => (u.ents.getD p.1 none).isSome) then k s
  else
    let bad := tids.filterMap (fun p => chk p.1 (tensorOf s ctx p.2))
    match [Cause.access, .lens, .cfg].find? (bad.contains ·) with
    | some .cfg => trapOpen .cfg s
    | some c => .trap c 0 s
    | none => .ok () (s.updUnit h px py fun u =>
        { u with ents := tids.foldl (fun l p => l.set p.1 (some (tensorOf s ctx p.2))) u.ents })

/-- A level array, segment array or bitmap; R334 governs LENS, for the arrays that CRDW writes too (R339; log 14). -/
def levelCheck (t : Tensor) : Option Cause :=
  if !t.valid then some .access
  else if t.lens then some .lens
  else if t.dims ≠ 1 ∨ t.fmt ≠ .int32 ∨ t.sfmt ≠ 0 then some .cfg else none

/-- The translation buffer of the memory-port node that a unit reaches memory through (R351). -/
def portOf (py : Nat) : TlbAgent := .mport (min 3 (py / 2))

/-- The first fault in the order of R13 that reaching the bytes of an access meets: ACCESS of any of them (R29, R41, R256),
then XLAT. -/
def reachFault (s : State) (h : Nat) (ag : TlbAgent) (t : Tensor) (write : Bool) (vas : List Nat) : Option (Cause × Word) :=
  let ctx := s.ctxOf h
  let fault (va : Nat) : Option (Cause × Word) :=
    match locate s h ag va 1 with
    | .ok p _ =>
      let owned := match p with
        | .dev pa _ => ownsT0 s ctx va 1 || ownsT0At s ctx pa 1
        | _ => false
      match t.pageFault (placeLeaf p), placeLeaf p with
      | some c, _ => some (c, addrWord va)
      | none, some w =>
        if !write then none
        else if pteLN w || owned then some (.access, addrWord va)
        else if !pteWR w then some (.xlat, addrWord va) else none
      | none, none => none
    | .trap c i _ | .freeze c i _ => some (c, i)
    | .wait _ => none
  let fs := vas.filterMap fault
  (fs.find? (fun f => f.1 == .access)).orElse fun _ => fs.head?

/-- The checks of a use of an entry by an element access (R40, R41), in the order of R13: ALIGN, ACCESS, XLAT, CFG. `acc`:
an ACCESS of the use itself, at the element's address. -/
def entryUse {α : Type} (h : Nat) (ag : TlbAgent) (t : Tensor) (write : Bool) (vas : List Nat) (acc : Bool) (s : State)
    (k : State → Res α) : Res α :=
  if !t.aligned then .trap .align 0 s
  else if acc then .trap .access (addrWord (vas.headD 0 % 2 ^ 56)) s
  else
    match reachFault s h ag t write vas with
    | some f => .trap f.1 f.2 s
    | none => if !t.shapeOk then trapOpen .cfg s else k s

/-- An element access of a unit: R40, then R41 and the access itself. -/
def portRead (s : State) (h : Nat) (ag : TlbAgent) (t : Tensor) (i : Idx) : Res (Nat × Bool) :=
  entryUse h ag t false (t.bytesOf i) (!t.inside i) s fun s => readElem s h ag t i false .dflt

def portWrite (s : State) (h : Nat) (ag : TlbAgent) (tid : Nat) (t : Tensor) (i : Idx) (v : Nat) : Res Unit :=
  entryUse h ag t true (t.bytesOf i) (readOnly s h tid || t.overlaps || !t.inside i) s fun s =>
    writeElem s h ag t i v .dflt

/-- An element of a level array: the scanner is its first consumer and no lens operand port, so lens data raises LENS
(R41, R334). -/
def levelRead (s : State) (h : Nat) (ag : TlbAgent) (t : Tensor) (n : Nat) : Res Nat :=
  (portRead s h ag t ⟨n, 0, 0, 0⟩).andThen fun v s => if v.2 then .trap .lens 0 s else .ok v.1 s

/-- Element `n` of a one-dimensional array. -/
def level (n : Nat) : Idx := ⟨n, 0, 0, 0⟩

/-! ## Level scanners (R340) -/

/-- What differs between SCAN, SCANB and SCAND: where the positions of a reference start and end, the coordinate at a
position (none: nothing to emit), and the reference emitted with it. -/
structure Scanner where
  tids : List (Nat × Nat)
  start : PUnit → Nat → State → Res (Nat × Nat)
  item : PUnit → Nat → Nat → State → Res (Option Nat)
  ref : Nat → Nat → Nat

/-- The fibre of a reference begins. -/
def scanBegin (k : Scanner) (h px py r : Nat) (f : PUnit → PUnit) (s : State) : Res Unit :=
  if r = emptyRef then .ok () (s.updUnit h px py fun u => { f u with owed := true })
  else (k.start (s.unitAt h px py) r s).andThen fun p s =>
    .ok () (s.updUnit h px py fun u => { f u with cur := some r, pos := p.1, fib := p.2, owed := true })

/-- The next position of the reference under way. -/
def scanNext (k : Scanner) (h px py ob r : Nat) (s : State) : Res Unit :=
  let u := s.unitAt h px py
  if u.fib ≤ u.pos then .ok () (s.updUnit h px py fun u => { u with cur := none })
  else (k.item u r u.pos s).andThen fun c s =>
    match c with
    | none => .ok () (s.updUnit h px py fun u => { u with pos := u.pos + 1 })
    | some c => emitData h px py [(ob, 32, c, false), (ob + 1, 32, k.ref r u.pos % 2 ^ 32, false)]
        (fun u => { u with pos := u.pos + 1 }) s

def scanStep (k : Scanner) (ib ob : Nat) (root : Bool) (h px py : Nat) (s : State) : Res Unit :=
  let u := s.unitAt h px py
  match u.cur with
  | some r => scanNext k h px py ob r s
  | none =>
    if root then
      if u.rootDone then .wait s
      else if !u.startDone then
        withEnts h px py k.tids (fun _ => levelCheck) (scanBegin k h px py 0 (fun u => { u with startDone := true })) s
      else if u.owed then emitMark h px py [ob, ob + 1] (stopHdr 0) (fun u => { u with owed := false }) s
      else emitMark h px py [ob, ob + 1] doneHdr (fun u => { u with rootDone := true }) s
    else
      match u.head ib 32 false with
      | .none => .wait s
      | .bad c => unitStream s h px py ib c
      | hd => withEnts h px py k.tids (fun _ => levelCheck) (fun s =>
        match hd with
        | .data r =>
          if u.owed then emitMark h px py [ob, ob + 1] (stopHdr 0) (fun u => { u with owed := false }) s
          else scanBegin k h px py r (fun u => u.takeData ib) s
        | .stop l =>
          if l = 7 then unitStream s h px py ib (some .level)
          else emitMark h px py [ob, ob + 1] (stopHdr (l + 1)) (fun u => { u.takeMark ib with owed := false }) s
        | .none | .bad _ | .done =>
          emitMark h px py [ob, ob + 1] doneHdr (fun u => { u.takeMark ib with owed := false, ents := noEnts }) s) s

def scanWord (ib ob tid seg : Nat) (root : Bool) (h px py : Nat) (s : State) : Res Unit :=
  scanStep
    { tids := [(0, tid), (1, seg)]
      start := fun u r s =>
        (levelRead s h (portOf py) (u.ent 1) r).andThen fun lo s =>
        (levelRead s h (portOf py) (u.ent 1) (r + 1)).andThen fun hi s => .ok (lo, hi) s
      item := fun u _ p s => (levelRead s h (portOf py) (u.ent 0) p).andThen fun c s => .ok (some c) s
      ref := fun _ p => p }
    ib ob root h px py s

/-- `e`: the level's extent. -/
def scanbWord (ib ob tid e : Nat) (root : Bool) (h px py : Nat) (s : State) : Res Unit :=
  scanStep
    { tids := [(0, tid)]
      start := fun _ _ s => .ok (0, e) s
      item := fun u r j s =>
        (levelRead s h (portOf py) (u.ent 0) (r * ((e + 31) / 32) + j / 32)).andThen fun w s =>
        .ok (if nbit w (j % 32) then some j else none) s
      ref := fun r j => r * e + j }
    ib ob root h px py s

def scandWord (ib ob e : Nat) (root : Bool) (h px py : Nat) (s : State) : Res Unit :=
  scanStep
    { tids := []
      start := fun _ _ s => .ok (0, e) s
      item := fun _ _ j s => .ok (some j) s
      ref := fun r j => r * e + j }
    ib ob root h px py s

def execScan (ib0 ob0 : Chan) (tid seg : BitVec 8) (root : Bool) (s : State) : Out :=
  .next (unitWord (PUnit.scanNamed ib0.val root) (scanWord ib0.val ob0.val tid.toNat seg.toNat root) s)

def execScanb (ib0 ob0 : Chan) (tid : BitVec 8) (ext : BitVec 16) (root : Bool) (s : State) : Out :=
  .next (unitWord (PUnit.scanNamed ib0.val root) (scanbWord ib0.val ob0.val tid.toNat (ext.toNat + 1) root) s)

def execScand (ib0 ob0 : Chan) (ext : BitVec 16) (root : Bool) (s : State) : Out :=
  .next (unitWord (PUnit.scanNamed ib0.val root) (scandWord ib0.val ob0.val (ext.toNat + 1) root) s)

/-! ## Intersection and union (R341) -/

/-- The heads of two paired channels of widths `v` and `w`, element by element (Pairing): a breach names the second
channel (log 14). A mark is the same on both, header for header. -/
inductive PairHead
  | none
  | bad (chan : Nat) (k : Option StreamCase)
  | data (a b : Nat)
  | stop (l : Nat)
  | done

/-- The first of some inputs whose head token is lens-marked: LENS comes before any breach of the grammar (R13, R334). -/
def PUnit.lensHead (u : PUnit) (cs : List Nat) : Option Nat := cs.find? u.headLens

def PUnit.pairHead (u : PUnit) (c d v w : Nat) : PairHead :=
  let same := (lget u.ins c).head?.map (·.hdr) == (lget u.ins d).head?.map (·.hdr)
  match u.head c v false, u.head d w false with
  | .bad k, .bad j => if k.isSome ∧ j.isNone then .bad d j else .bad c k
  | .bad k, _ => .bad c k
  | _, .bad k => .bad d k
  | .none, _ => .none
  | _, .none => .none
  | .data a, .data b => .data a b
  | .stop l, .stop _ => if same then .stop l else .bad d (some .pairing)
  | .done, .done => if same then .done else .bad d (some .pairing)
  | _, _ => .bad d (some .pairing)

/-- Take a pair. -/
def PUnit.takePair (u : PUnit) (c d coord : Nat) : PUnit :=
  let u := (u.takeData c).takeData d
  { u with last := u.last.set c (some coord) }

def PUnit.takeMarks (u : PUnit) (cs : List Nat) : PUnit := cs.foldl PUnit.takeMark u

/-- A coordinate is greater than the one before it in its fibre. -/
def PUnit.orderOk (u : PUnit) (c coord : Nat) : Bool :=
  match u.last.getD c none with
  | none => true
  | some v => decide (v < coord)

/-- One step of ISECT (`join` false) or UNION. -/
def jointStep (join : Bool) (ia ib oa ob : Nat) (h px py : Nat) (s : State) : Res Unit :=
  let u := s.unitAt h px py
  let out (c ra rb : Nat) : List (Nat × Nat × Nat × Bool) := [(oa, 32, c, false), (oa + 1, 32, ra, false), (ob, 32, rb, false)]
  let takeA (c r : Nat) : Res Unit :=
    if !u.orderOk ia c then unitStream s h px py ia (some .order)
    else emitData h px py (if join then out c r emptyRef else []) (fun u => u.takePair ia (ia + 1) c) s
  let takeB (c r : Nat) : Res Unit :=
    if !u.orderOk ib c then unitStream s h px py ib (some .order)
    else emitData h px py (if join then out c emptyRef r else []) (fun u => u.takePair ib (ib + 1) c) s
  let marks (hdr : BitVec 16) : Res Unit :=
    emitMark h px py [oa, oa + 1, ob] hdr (fun u => u.takeMarks [ia, ia + 1, ib, ib + 1]) s
  match u.lensHead [ia, ia + 1, ib, ib + 1] with
  | some c => unitStream s h px py c none
  | none =>
  match u.pairHead ia (ia + 1) 32 32, u.pairHead ib (ib + 1) 32 32 with
  | .bad c k, _ => unitStream s h px py c k
  | _, .bad c k => unitStream s h px py c k
  | .none, _ => .wait s
  | _, .none => .wait s
  | .data ca ra, .data cb rb =>
    if ca < cb then takeA ca ra
    else if cb < ca then takeB cb rb
    else if !u.orderOk ia ca then unitStream s h px py ia (some .order)
    else if !u.orderOk ib cb then unitStream s h px py ib (some .order)
    else emitData h px py (out ca ra rb) (fun u => (u.takePair ia (ia + 1) ca).takePair ib (ib + 1) cb) s
  | .data ca ra, _ => takeA ca ra
  | _, .data cb rb => takeB cb rb
  | .stop l, .stop m => if l = m then marks (stopHdr l) else unitStream s h px py ia (some .stop)
  | .done, .done => marks doneHdr
  | _, _ => unitStream s h px py ia (some .stop)

def execIsect (ib0 ib1 ob0 ob1 : Chan) (s : State) : Out :=
  .next (unitWord (fun _ => (0, 0)) (jointStep false ib0.val ib1.val ob0.val ob1.val) s)

def execUnion (ib0 ib1 ob0 ob1 : Chan) (s : State) : Out :=
  .next (unitWord (fun _ => (0, 0)) (jointStep true ib0.val ib1.val ob0.val ob1.val) s)

/-! ## REPT (R342) -/

/-- Take the next data element of the references to repeat. -/
def reptFetch (ir : Nat) (h px py : Nat) (s : State) : Res Unit :=
  match (s.unitAt h px py).head ir 32 false with
  | .none => .wait s
  | .bad c => unitStream s h px py ir c
  | .data x => .ok () (s.updUnit h px py fun u => { u.takeData ir with cur := some x })
  | .stop _ | .done => unitStream s h px py ir (some .stop)

def reptStep (ir is o : Nat) (h px py : Nat) (s : State) : Res Unit :=
  let u := s.unitAt h px py
  match u.head is 32 false, u.cur with
  | .none, _ => .wait s
  | .bad c, _ => unitStream s h px py is c
  | .data _, none => reptFetch ir h px py s
  | .data _, some x => emitData h px py [(o, 32, x, false)] (fun u => u.takeData is) s
  | .stop _, none => reptFetch ir h px py s
  | .stop l, some _ =>
    if l = 0 then emitMark h px py [o] (stopHdr 0) (fun u => { u.takeMark is with cur := none }) s
    else
      (match u.head ir 32 false with
       | .none => .wait s
       | .bad c => unitStream s h px py ir c
       | .stop m =>
         if m + 1 = l then emitMark h px py [o] (stopHdr l) (fun u => { u.takeMarks [ir, is] with cur := none }) s
         else unitStream s h px py ir (some .stop)
       | .data _ | .done => unitStream s h px py ir (some .stop))
  | .done, _ =>
    (match u.head ir 32 false with
     | .none => .wait s
     | .bad c => unitStream s h px py ir c
     | .done => emitMark h px py [o] doneHdr (fun u => u.takeMarks [ir, is]) s
     | .data _ | .stop _ => unitStream s h px py ir (some .stop))

def execRept (ib0 ib1 ob0 : Chan) (s : State) : Out := .next (unitWord (fun _ => (0, 0)) (reptStep ib0.val ib1.val ob0.val) s)

/-! ## RDCE (R343, R68) -/

/-- Sum of a running value and the next. -/
def rdceAdd (f : Fmt) (a v : Nat) : Nat :=
  match f with
  | .int8 | .int32 => (a + v) % 2 ^ f.slot
  | _ => fop2 f FVal.add a v

def rdceStep (f : Fmt) (lvl ib o : Nat) (h px py : Nat) (s : State) : Res Unit :=
  let u := s.unitAt h px py
  match u.head ib f.slot true with
  | .none => .wait s
  | .bad c => unitStream s h px py ib c
  | .data v =>
    let sum := match u.acc with
      | none => v
      | some a => rdceAdd f a.toNat v
    .ok () (s.updUnit h px py fun u =>
      { u.takeData ib with acc := some (BitVec.ofNat 64 sum), accLens := u.accLens || u.headLens ib })
  | .stop l =>
    if l < lvl then .ok () (s.updUnit h px py fun u => u.takeMark ib)
    else if !u.owed then
      -- the group's value first; a stop of the level itself ends there
      emitData h px py [(o, f.slot, (u.acc.getD 0).toNat, u.accLens)]
        (fun u => if l = lvl then { u.takeMark ib with acc := none, accLens := false }
                  else { u with acc := none, accLens := false, owed := true }) s
    else emitMark h px py [o] (stopHdr (l - lvl - 1)) (fun u => { u.takeMark ib with owed := false }) s
  | .done => emitMark h px py [o] doneHdr (fun u => { u.takeMark ib with acc := none, accLens := false }) s

def execRdce (ib0 ob0 : Chan) (lvl : Fin 8) (fmt : Fmt) (s : State) : Out :=
  .next (unitWord (PUnit.named ib0.val) (rdceStep fmt lvl.val ib0.val ob0.val) s)

/-! ## CRDW (R344) -/

def crdwStep (tid seg ib o : Nat) (cnt : Bool) (h px py : Nat) (s : State) : Res Unit :=
  let u := s.unitAt h px py
  let put (k t n v : Nat) (s : State) : Res Unit := portWrite s h (portOf py) t (u.ent k) (level n) v
  if u.ents.getD 0 none = none then
    -- the start of a stream
    match u.head ib 32 false with
    | .none => .wait s
    | .bad c => unitStream s h px py ib c
    | _ => withEnts h px py [(0, tid), (1, seg)] (fun _ => levelCheck) (fun s => .ok () s) s
  else if !u.inPass then
    (put 1 seg 0 0 s).andThen fun _ s => .ok () (s.updUnit h px py fun u => { u with inPass := true, pos := 0, fib := 0 })
  else
    let close (u : PUnit) : PUnit := { u.takeMark ib with ents := noEnts, inPass := false, owed := false }
    match u.head ib 32 false with
    | .none => .wait s
    | .bad c => unitStream s h px py ib c
    | .data c =>
      if !u.orderOk ib c then unitStream s h px py ib (some .order)
      else (put 0 tid u.pos c s).andThen fun _ s =>
        .ok () (s.updUnit h px py fun u =>
          let u := u.takeData ib
          { u with pos := u.pos + 1, last := u.last.set ib (some c) })
    | .stop _ =>
      (put 1 seg (u.fib + 1) u.pos s).andThen fun _ s =>
        .ok () (s.updUnit h px py fun u => { u.takeMark ib with fib := u.fib + 1 })
    | .done =>
      if !cnt then .ok () (s.updUnit h px py close)
      else if !u.owed then emitData h px py [(o, 32, u.pos % 2 ^ 32, false)] (fun u => { u with owed := true }) s
      else emitMark h px py [o] doneHdr close s

def execCrdw (ib0 ob0 : Chan) (tid seg : BitVec 8) (cnt : Bool) (s : State) : Out :=
  .next (unitWord (PUnit.named ib0.val) (crdwStep tid.toNat seg.toNat ib0.val ob0.val cnt) s)

end Sys2Proof.Machine
end

