-- ==== Sys2Proof/Machine/Ports.lean ====
section
/-! DEFINITION. Address-generator tiles and memory-port nodes (spec/13 R345 to R352): CTR, AGEN, MPORT, GATH, SCAT; the
turn of a unit, and UNIT_FAULT_WITHHOLD. -/

namespace Sys2Proof.Machine

/-! ## Common parts -/

/-- An element's slot bits (R47). -/
def slotBits (f : Fmt) (v : Nat) : Nat := if f.isBfp then wrapInt (sextNat v f.bits) 8 else v

/-- A pass starts (R345): once after BINDING, or for a control token, which it takes. -/
def passTrigger (h px py : Nat) (t : Trig) (s : State) : Option State :=
  let take (line : Nat) : Option State :=
    if (s.hall h).ctlCount px py line = 0 then none
    else some (s.updHall h fun x => { x.takeCtl px py line with wdogCount := 0 })
  match t with
  | .once => if (s.unitAt h px py).startDone then none else some (s.updUnit h px py fun u => { u with startDone := true })
  | .ci0 => take 0
  | .ci1 => take 1

/-- An element joins the token of a read stream, which leaves when it is full or ends a LOTK group (R346). -/
def emitLot (h px py c w v : Nat) (lens : Bool) (g lotk : Nat) (s : State) : Res Unit :=
  let x := s.hall h
  let u := x.unit (boxOf px py)
  let p := lget u.pack c
  let p' : Pack := ⟨p.elems ++ [BitVec.ofNat 64 v], w, p.lens || lens⟩
  let n := lget u.grp g + 1
  let lot := lotk != 0 && n == 2 ^ lotk
  let x' := x.setUnit (boxOf px py) { u with pack := u.pack.set c p', grp := u.grp.set g (if lot then 0 else n) }
  if p'.elems.length < capOf w && !lot then .ok () (s.setHall h x')
  else if x.outRoom px py c then .ok () (s.setHall h (x'.packOut px py c lot))
  else .wait s

/-- Send a control token on `co0`. -/
def unitCtl (h px py : Nat) (f : PUnit → PUnit) (s : State) : Res Unit :=
  let x := s.hall h
  if x.ctlRoom px py 0 then .ok () ((s.setHall h (x.sendCtl px py 0)).updUnit h px py f) else .wait s

/-- Checks of an entry at the start of a pass or stream (R339). -/
def entryCheck (write scaleOk : Bool) (t : Tensor) : Option Cause :=
  if !t.valid ∨ (write ∧ t.lens) then some .access else if !scaleOk ∧ t.sfmt ≠ 0 then some .cfg else none

/-- A step of several accesses is done whole or not at all; only a page request stays from one that waits. -/
def wholeStep (h : Nat) (s : State) (r : Res Unit) : Res Unit :=
  match r with
  | .wait s' => .wait (s.updHall h fun x => { x with pri := (s'.hall h).pri })
  | r => r

/-! ## AG tiles (R345, R346) -/

/-- An AGEN word of a tile. -/
structure AgStream where
  ib : Nat
  ob : Nat
  lvl : Nat
  tid : Nat
  dir : Bool
  map : BitVec 8
  use : BitVec 4
  lotk : Nat
  ct : Bool
  deriving DecidableEq, Repr

/-- The streams of a tile, in the order of its section. -/
def PUnit.streams (u : PUnit) : List AgStream :=
  u.words.filterMap (fun w => match fetchFor .ag w with
    | some (.agen ib ob lvl tid dir map use lotk ct) =>
      some ⟨ib.val, ob.val, lvl.val, tid.toNat, dir, map, use, lotk.val, ct⟩
    | _ => none)

/-- The counters of a tile: index and word. -/
def PUnit.counters (u : PUnit) : List (Nat × Instr) :=
  u.words.filterMap (fun w => match fetchFor .ag w with
    | some (.ctr lvl n t f) => some (lvl.val, .ctr lvl n t f)
    | _ => none)

/-- What a tile does next. In a pass: 0, the streams step; c + 1, counter c advances; 5, the streams end; 6, the chain
ends. -/
def PUnit.phase (u : PUnit) : Nat := u.pos

def PUnit.setPhase (u : PUnit) (k : Nat) : PUnit := { u with pos := k }

/-- A pass begins: every counter 0, the entries not read yet. -/
def startPass (u : PUnit) : PUnit :=
  { u with inPass := true, pos := 0, step := 0, fib := 0, ctrs := List.replicate 4 0, grp := List.replicate 4 0,
           ents := noEnts, owed := false }

def endPass (u : PUnit) : PUnit := { u with inPass := false, passes := u.passes + 1, pos := 0, ents := noEnts, owed := false }

/-- CTR: the outer counter starts passes and ends them; in a pass a counter advances and carries. -/
def ctrStep (lvl n : Nat) (trig : Trig) (fin : Bool) (h px py : Nat) (s : State) : Res Unit :=
  let u := s.unitAt h px py
  let outer := u.counters.all (fun c => c.1 ≤ lvl)
  if !u.inPass then
    if !outer then .wait s
    else
      match passTrigger h px py trig s with
      | some s => .ok () (s.updUnit h px py startPass)
      | none => .wait s
  else if u.phase = lvl + 1 then
    .ok () (s.updUnit h px py fun u =>
      if lget u.ctrs lvl < n then { u.setPhase 0 with ctrs := u.ctrs.set lvl (lget u.ctrs lvl + 1), step := u.step + 1 }
      else { u.setPhase (if outer then 5 else lvl + 2) with ctrs := u.ctrs.set lvl 0 })
  else if u.phase = 6 ∧ outer then
    if fin then unitCtl h px py endPass s else .ok () (s.updUnit h px py endPass)
  else .wait s

def execCtr (lvl : Fin 4) (n : BitVec 16) (trig : Trig) (fin : Bool) (s : State) : Out :=
  .next (unitWord (fun _ => (0, 0)) (ctrStep lvl.val n.toNat trig fin) s)

/-- The index tuple of a stream (R346). -/
def AgStream.idx (a : AgStream) (u : PUnit) : Idx :=
  let i (d : Nat) : Nat := if a.use.getLsbD d then lget u.ctrs (nbits a.map.toNat (2 * d) 2) else 0
  ⟨i 0, i 1, i 2, i 3⟩

def agTlb (px py lvl : Nat) : TlbAgent := .ag (boxOf px py) lvl

/-- What keeps a stream from taking its step: a fault of its input, or nothing to take. -/
def agBlocked (u : PUnit) (a : AgStream) : Head :=
  if a.dir then (match u.head a.ib (u.ent a.lvl).fmt.slot false with
    | .stop _ | .done => .bad (some .kind)
    | k => k)
  else .data 0

/-- One element of a stream. -/
def agElement (h px py : Nat) (a : AgStream) (s : State) : Res Unit :=
  let u := s.unitAt h px py
  let t := u.ent a.lvl
  if a.dir then
    match u.head a.ib t.fmt.slot false with
    | .data v =>
      (portWrite s h (agTlb px py a.lvl) a.tid t (a.idx u) v).andThen fun _ s =>
      .ok () (s.updUnit h px py fun u => u.takeData a.ib)
    | _ => .wait s
  else
    (portRead s h (agTlb px py a.lvl) t (a.idx u)).andThen fun v s =>
    emitLot h px py a.ob t.fmt.slot (slotBits t.fmt v.1) v.2 a.lvl a.lotk s

def agElements (h px py : Nat) : List AgStream → State → Res Unit
  | [], s => .ok () s
  | a :: as, s => (agElement h px py a s).andThen fun _ s => agElements h px py as s

/-- A faulting step of a tile names the token of the first write stream that faults (R352). -/
def agNamed (h px py : Nat) (all : List AgStream) (s : State) (r : Res Unit) : Res Unit :=
  match r with
  | .trap c i _ =>
    let u := s.unitAt h px py
    let n := (List.range all.length).find? (fun k =>
      match agElements h px py (all.take (k + 1)) s with | .trap .. => true | _ => false)
    match n.bind (all[·]?) with
    | some a =>
      if a.dir then .ok () (unitFault s h px py a.ib (lget u.delivered a.ib) c i) else .trap c i s
    | none => .trap c i s
  | r => r

/-- AGEN: all streams of the tile move in lockstep; at the end of a pass tokens are cut and CT tokens leave. -/
def agenStep (own : AgStream) (h px py : Nat) (s : State) : Res Unit :=
  let u := s.unitAt h px py
  let all := if u.streams.contains own then u.streams else [own]
  if !u.inPass then .wait s
  else if u.phase = 0 then
    withEnts h px py (all.map (fun a => (a.lvl, a.tid)))
      (fun k t => entryCheck ((all.find? (fun a => a.lvl == k)).any (·.dir)) false t) (fun s =>
        match all.find? (fun a => match agBlocked u a with | .bad _ => true | _ => false), all.all (fun a => agBlocked u a != .none) with
        | some a, _ => (match agBlocked u a with
          | .bad c => unitStream s h px py a.ib c
          | _ => .wait s)
        | none, false => .wait s
        | none, true =>
          agNamed h px py all s <| wholeStep h s ((agElements h px py all s).andThen fun _ s => .ok () (s.updUnit h px py fun u => u.setPhase 1))) s
  else if u.phase = 5 then
    match (s.hall h).cutPacks px py ((all.filter (fun a => !a.dir)).map (·.ob)) with
    | none => .wait s
    | some (true, x) => .ok () (s.setHall h x)
    | some (false, _) =>
      if u.fib < (all.filter (fun a => a.dir && a.ct)).length then unitCtl h px py (fun u => { u with fib := u.fib + 1 }) s
      else .ok () (s.updUnit h px py fun u => u.setPhase 6)
  else .wait s

def execAgen (ib0 ob0 : Chan) (lvl : Fin 4) (tid : BitVec 8) (dir : Bool) (map : BitVec 8) (use : BitVec 4) (lotk : Fin 16)
    (ct : Bool) (s : State) : Out :=
  .next (unitWord (fun _ => (0, 0)) (agenStep ⟨ib0.val, ob0.val, lvl.val, tid.toNat, dir, map, use, lotk.val, ct⟩) s)

/-! ## MPORT (R347) -/

/-- The scales of the next `n` blocks of a row. -/
def readScales (h : Nat) (ag : TlbAgent) (t : Tensor) (e : Nat) : Nat → State → Res (List Nat × Bool)
  | 0, s => .ok ([], false) s
  | n + 1, s =>
    (readScales h ag t e n s).andThen fun l s =>
    (readScale s h ag t (t.idx (e + n * t.block)) false .dflt).andThen fun v s => .ok (l.1 ++ [v.1], l.2 || v.2) s

/-- The scale header ahead of a run of blocks; its last-of-tile bit says that the run ends a LOTK group (log 14). -/
def mportHeader (h px py o : Nat) (t : Tensor) (lotk : Nat) (s : State) : Res Unit :=
  let u := s.unitAt h px py
  let n := min 8 ((t.ext 0 - (t.idx u.step).i0) / t.block)
  let ag := TlbAgent.mport (py / 2)
  entryUse h ag t false ((List.range n).map (fun k => t.scaleAddr (t.idx (u.step + k * t.block)))) false s fun s =>
    (readScales h ag t u.step n s).andThen fun xs s =>
    match (s.hall h).cutPacks px py [o] with
    | none => .wait s
    | some (true, x) => .ok () (s.setHall h x)
    | some (false, x) =>
      if !x.outRoom px py o then .wait s
      else
        let last := lotk != 0 && (lget u.grp 0 + n * t.block) % 2 ^ lotk == 0
        let tok := x.token (mkHdr 2 0 0 n (b2n (t.block == 32)) last) (BitVec.ofNat 256 (packElems 8 xs.1)) xs.2
        .ok () ((s.setHall h (x.pushOut px py o tok)).updUnit h px py fun u =>
          { u with owed := true, emitted := u.emitted.set o (lget u.emitted o + n) })

def mportStep (ib o tid : Nat) (dir : Bool) (lotk : Nat) (trig : Trig) (done ct : Bool) (h px py : Nat) (s : State) : Res Unit :=
  let u := s.unitAt h px py
  let ag := TlbAgent.mport (py / 2)
  if !u.inPass then
    match passTrigger h px py trig s with
    | some s => .ok () (s.updUnit h px py startPass)
    | none => .wait s
  else
    withEnts h px py [(0, tid)] (fun _ => entryCheck dir true) (fun s =>
      let t := u.ent 0
      if u.step < t.count then
        let i := t.idx u.step
        if dir then
          match u.head ib t.fmt.slot false with
          | .none => .wait s
          | .bad c => unitStream s h px py ib c
          | .stop _ | .done => unitStream s h px py ib (some .kind)
          | .data v =>
            (portWrite s h ag tid t i v).andThen fun _ s =>
            .ok () (s.updUnit h px py fun u => { u.takeData ib with step := u.step + 1 })
        else if t.sfmt ≠ 0 ∧ i.i0 % (8 * t.block) = 0 ∧ !u.owed then mportHeader h px py o t lotk s
        else
          (portRead s h ag t i).andThen fun v s =>
          (emitLot h px py o t.fmt.slot (slotBits t.fmt v.1) v.2 0 lotk s).andThen fun _ s =>
          .ok () (s.updUnit h px py fun u => { u with step := u.step + 1, owed := false })
      else if dir then
        if ct then unitCtl h px py endPass s else .ok () (s.updUnit h px py endPass)
      else if done then emitMark h px py [o] doneHdr endPass s
      else
        match (s.hall h).cutPacks px py [o] with
        | none => .wait s
        | some (true, x) => .ok () (s.setHall h x)
        | some (false, _) => .ok () (s.updUnit h px py endPass)) s

def execMport (ib0 ob0 : Chan) (tid : BitVec 8) (dir : Bool) (lotk : Fin 16) (trig : Trig) (done ct : Bool) (s : State) : Out :=
  .next (unitWord (if dir then PUnit.named ib0.val else fun _ => (0, 0)) (mportStep ib0.val ob0.val tid.toNat dir lotk.val trig done ct) s)

/-! ## GATH and SCAT (R348 to R350) -/

/-- Bytes of an element addressed by itself. -/
def Tensor.bytes (t : Tensor) : Nat := max 1 (t.bits / 8)

/-- The bytes of an element addressed by itself. -/
def Tensor.bytesAt (t : Tensor) (x : Nat) : List Nat := (List.range t.bytes).map (x + ·)

/-- The bytes of a DRAM row as the hall's memory system holds them: its L1's copies of lines, else the memory side's. -/
def rowBytes (s : State) (h row : Nat) (leaf : Word) : List Byte :=
  (List.range 16).flatMap fun i =>
    match (s.hall h).l1.find? (fun l => !l.host && l.line == 16 * row + i && l.kd == pteKD leaf) with
    | some l => (List.range 128).map (lineByte l.data)
    | none => lineRead s (pteKD leaf) (pteAR leaf) (16 * row + i)

/-- The row of a byte on a device page, with its place in the row and the page's leaf. -/
def rowOf (s : State) (h : Nat) (ag : TlbAgent) (va : Nat) : Option (Nat × Nat × Word) :=
  match locate s h ag va 1 with
  | .ok (.dev pa leaf) _ => some (pa / 2048, pa % 2048, leaf)
  | _ => none

/-- The rows that an element's bytes lie in, as an access of its window of request tokens reads them (R349; log 14); what no
window that is under way can read again is let go. It serves the tokens that have reached the unit: a later one's reads come
after its own acquire (R351). -/
def snapRows (s : State) (h px py ib tok : Nat) (vas : List Nat) : State :=
  let u := s.unitAt h px py
  let now := tok / 32
  let low := u.reqs.foldl (fun m r => min m (r.tok / 32)) now
  vas.foldl (fun s va =>
    match rowOf s h (.mport (py / 2)) va with
    | some (row, _, leaf) =>
      let snaps := (s.unitAt h px py).snaps.filter (fun n => low ≤ n.window)
      let snaps := if snaps.any (fun n => n.window == now && n.row == row && tok < n.upto) then snaps
        else snaps ++ [⟨now, lget u.delivered ib + (lget u.ins ib).length, row, rowBytes s h row leaf⟩]
      s.updUnit h px py fun u => { u with snaps := snaps }
    | none => s) s

/-- A byte of an element: of its row's snapshot on a device page, else as the access read it. -/
def snapByte (s : State) (h px py tok va : Nat) (seen : Byte) : Byte :=
  match rowOf s h (.mport (py / 2)) va with
  | some (row, i, _) =>
    (((s.unitAt h px py).snaps.find? (fun n => n.window == tok / 32 && n.row == row && tok < n.upto)).map (·.data.getD i 0)).getD seen
  | none => seen

/-- The bytes of an element that an access has read, as its window's row accesses give them. -/
def gathBytes (h px py ib tok : Nat) (vas : List Nat) (seen : Nat) (s : State) : Nat × State :=
  let s := snapRows s h px py ib tok vas
  (leNat (vas.zipIdx.map (fun p => snapByte s h px py tok p.1 (BitVec.ofNat 8 (seen / 256 ^ p.2)))), s)

/-- The value that a request names; the empty reference reads as zero, with no access. -/
def gathRead (h px py ib : Nat) (t : Tensor) (addr : Bool) (x tok : Nat) (s : State) : Res (Nat × Bool) :=
  let ag := TlbAgent.mport (py / 2)
  if addr then
    if t.aligned && x % t.bytes != 0 then .trap .align (addrWord x) s
    else entryUse h ag t false (t.bytesAt x) false s fun s =>
      (readBytes s h ag t false .dflt (t.bytesAt x)).andThen fun b s =>
      let (v, s) := gathBytes h px py ib tok (t.bytesAt x) b.1 s
      .ok (slotBits t.fmt (v % 2 ^ t.bits), b.2) s
  else if x = emptyRef then .ok (0, false) s
  else
    let i := t.idx x
    let vas := t.bytesOf i
    entryUse h ag t false vas (t.count ≤ x || !t.inside i) s fun s =>
      (readBytes s h ag t false .dflt vas).andThen fun b s =>
      let (v, s) := gathBytes h px py ib tok vas b.1 s
      .ok (slotBits t.fmt (nbits v (t.rawBit i % 8) t.bits), b.2) s

/-- Whether GATH runs out of order: ANY in a context whose Mirror is off (R350). -/
def gathAny (s : State) (h : Nat) (any : Bool) : Bool :=
  any && ((s.ctx? (s.ctxOf h)).map (fun c => c.mirror.mode == .off)).getD true

/-- A value and, in ANY mode, its sequence number leave in one step. -/
def gathEmit (h px py ib ov os : Nat) (any : Bool) (t : Tensor) (addr : Bool) (x seqno tok : Nat) (f : PUnit → PUnit) (s : State) :
    Res Unit :=
  (gathRead h px py ib t addr x tok s).andThen fun v s =>
  emitData h px py ((ov, t.fmt.slot, v.1, v.2) :: (if any then [(os, 32, seqno, false)] else [])) f s

/-- A value whose data arrives now leaves: which one is open (R349). A fault names its request token. -/
def gathArrive (h px py ib ov os : Nat) (addr : Bool) (s : State) : Res Unit :=
  let u := s.unitAt h px py
  let (k, s) := s.draw
  let i := (Config.freeWord k).toNat % u.reqs.length
  match u.reqs[i]? with
  | none => .wait s
  | some r =>
    match gathEmit h px py ib ov os true (u.ent 0) addr r.value.toNat r.seqno r.tok
        (fun u => { u with reqs := u.reqs.eraseIdx i }) s with
    | .trap c i _ => .ok () (unitFault s h px py ib r.tok c i)
    | .freeze c i s => .ok () (unitFault s h px py ib r.tok c i)
    | o => o

def gathStep (ib ov os tid : Nat) (any addr : Bool) (h px py : Nat) (s : State) : Res Unit :=
  let u := s.unitAt h px py
  let w := if addr then 64 else 32
  let outs := if any then [ov, os] else [ov]
  let free := gathAny s h any
  let arrive (s : State) : Res Unit := gathArrive h px py ib ov os addr s
  match u.head ib w false with
  | .none => if u.reqs = [] then .wait s else arrive s
  | .bad c => unitStream s h px py ib c
  | hd => withEnts h px py [(0, tid)] (fun _ => entryCheck false true) (fun s =>
    match hd with
    | .data x =>
      if free then
        let (k, s) := s.draw
        if u.reqs = [] ∨ (u.reqs.length < 256 ∧ Config.freeBool k) then
          .ok () (s.updUnit h px py fun u => { u.takeData ib with
            reqs := u.reqs ++ [⟨u.fib % 4096, BitVec.ofNat 64 x, w, lget u.delivered ib⟩], fib := u.fib + 1 })
        else arrive s
      else if u.reqs ≠ [] then arrive s
      else gathEmit h px py ib ov os any (u.ent 0) addr x (u.fib % 4096) (lget u.delivered ib) (fun u => { u.takeData ib with fib := u.fib + 1 }) s
    | .stop _ => if u.reqs ≠ [] then arrive s else emitMark h px py outs (u.headHdr ib) (fun u => u.takeMark ib) s
    | .none | .bad _ | .done =>
      if u.reqs ≠ [] then arrive s
      else emitMark h px py outs (u.headHdr ib) (fun u => { u.takeMark ib with ents := noEnts, fib := 0 }) s) s

def execGath (ib0 ob0 ob1 : Chan) (tid : BitVec 8) (any addr : Bool) (s : State) : Out :=
  .next (unitWord (PUnit.named ib0.val) (gathStep ib0.val ob0.val ob1.val tid.toNat any addr) s)

/-- The address that a SCAT element names; none for the empty reference. -/
def scatAddr (t : Tensor) (addr : Bool) (x : Nat) : Option Nat :=
  if addr then some x else if x = emptyRef then none else some (t.bitAddr (t.idx x) / 8)

/-- A use of the entry by an element of SCAT: an address of its own is aligned to the format, an index lies within the
entry (R348), and the entry's elements neither overlap nor are declared read-only (R26, R41). -/
def scatUse (h py tid : Nat) (t : Tensor) (addr : Bool) (x : Nat) (s : State) (k : State → Res Unit) : Res Unit :=
  let vas := if addr then t.bytesAt x else t.bytesOf (t.idx x)
  let outside := !addr && (decide (t.count ≤ x) || !t.inside (t.idx x))
  if t.aligned && addr && x % t.bytes != 0 then .trap .align (addrWord x) s
  else entryUse h (.mport (py / 2)) t true vas (readOnly s h tid || t.overlaps || outside) s k

/-- The store of SCAT with OPS 00. -/
def scatStore (h py : Nat) (t : Tensor) (addr : Bool) (x v : Nat) (s : State) : Res Unit :=
  let ag := TlbAgent.mport (py / 2)
  if !addr then writeElem s h ag t (t.idx x) v .dflt
  else if t.bits < 8 then writeBits s h ag t x 0 t.bits v .dflt
  else (engWrite s h ag x t.bytes v .dflt).andThen fun _ s => .ok () s

/-- The relaxed atomic add of SCAT with OPS 01: a logged event of the unit (R348, R364, R392). -/
def scatAdd (h px py : Nat) (t : Tensor) (va v : Nat) (s : State) : Res Unit :=
  let int := t.fmt == .int32
  let m : Amo := ⟨4, 0xA, BitVec.ofNat 64 (v % 2 ^ 32), int,
    fun old => some (if int then modN 4 (old + v) else faddN 4 old (v % 2 ^ 32))⟩
  (amoResolve s h (.mport (py / 2)) va 4 int).andThen fun p s =>
    loggedIf s (s.ctxOf h) ⟨amoNode s p, srcOf h px py, 2, 0xA, va, m.digest⟩ fun s =>
    (amoApply s h va m .dflt p).andThen fun _ s => .ok () (endCarry s (amoKey p) 4)

def scatStep (ib iv tid : Nat) (add addr ct : Bool) (h px py : Nat) (s : State) : Res Unit :=
  let u := s.unitAt h px py
  let w := if addr then 64 else 32
  let t := u.ent 0
  if u.ents.getD 0 none = none then
    match u.head ib w false with
    | .none => .wait s
    | .bad c => unitStream s h px py ib c
    | _ => withEnts h px py [(0, tid)] (fun _ => entryCheck true true) (fun s => .ok () s) s
  else
    let close (u : PUnit) : PUnit := { u.takeMarks [ib, iv] with ents := noEnts }
    match u.pairHead ib iv w t.fmt.slot with
    | .none => .wait s
    | .bad c k => unitStream s h px py c k
    | .data x v =>
      let took (s : State) : Res Unit := .ok () (s.updUnit h px py fun u => (u.takeData ib).takeData iv)
      match scatAddr t addr x with
      | none => took s
      | some va =>
        scatUse h py tid t addr x s fun s =>
          if add ∧ t.fmt ≠ .fp32 ∧ t.fmt ≠ .int32 then unitStream s h px py iv (some .width)
          else if add then (scatAdd h px py t va v s).andThen fun _ s => took s
          else (scatStore h py t addr x v s).andThen fun _ s => took s
    | .stop _ => .ok () (s.updUnit h px py fun u => u.takeMarks [ib, iv])
    | .done => if ct then unitCtl h px py close s else .ok () (s.updUnit h px py close)

def execScat (ib0 ib1 : Chan) (tid : BitVec 8) (add addr ct : Bool) (s : State) : Out :=
  .next (unitWord (PUnit.named ib0.val) (scatStep ib0.val ib1.val tid.toNat add addr ct) s)

/-! ## The turn of a unit -/

/-- The word that a unit runs now, once its configuration is there and installed. -/
def unitNext (s : State) (h px py : Nat) : (Instr × State) ⊕ State :=
  let x := s.hall h
  if !x.active then .inr s
  else
    match x.config (boxOf px py) with
    | .missing => .inr s
    | .poisoned => .inr (poisonFault s h px py)
    | .ok =>
      match installNode (s.updHall h fun x => x.useStore (boxOf px py)) h px py with
      | .trap _ _ s | .freeze _ _ s | .wait s => .inr s
      | .ok _ s =>
        let u := s.unitAt h px py
        let first (ws : List Instr) : (Instr × State) ⊕ State := match ws with
          | i :: _ => .inl (i, s)
          | [] => .inr s
        match nodeAt px py with
        | .prism | .mp => first (u.words.filterMap (fetchFor (unitKindAt px py)))
        | .ag =>
          let top := u.counters.foldl (fun m c => max m c.1) 0
          let ctr (k : Nat) : List Instr := (u.counters.filter (fun c => c.1 == k)).map (·.2)
          let gens := (u.words.filterMap (fetchFor .ag)).filter (fun i => match i with | .agen .. => true | _ => false)
          if !u.inPass ∨ u.phase = 6 then first (ctr top)
          else if 1 ≤ u.phase ∧ u.phase ≤ 4 then first (ctr (u.phase - 1))
          else first gens
        | _ => .inr s

/-- The step of a P word. -/
def unitStepOf (i : Instr) : Nat → Nat → Nat → State → Res Unit :=
  match i with
  | .scan ib ob tid seg root => scanWord ib.val ob.val tid.toNat seg.toNat root
  | .scanb ib ob tid ext root => scanbWord ib.val ob.val tid.toNat (ext.toNat + 1) root
  | .scand ib ob ext root => scandWord ib.val ob.val (ext.toNat + 1) root
  | .isect a b o p => jointStep false a.val b.val o.val p.val
  | .union a b o p => jointStep true a.val b.val o.val p.val
  | .rept a b o => reptStep a.val b.val o.val
  | .rdce ib ob lvl f => rdceStep f lvl.val ib.val ob.val
  | .crdw ib ob tid seg cnt => crdwStep tid.toNat seg.toNat ib.val ob.val cnt
  | .ctr lvl n t f => ctrStep lvl.val n.toNat t f
  | .agen ib ob lvl tid dir map use lotk ct => agenStep ⟨ib.val, ob.val, lvl.val, tid.toNat, dir, map, use, lotk.val, ct⟩
  | .mport ib ob tid dir lotk t done ct => mportStep ib.val ob.val tid.toNat dir lotk.val t done ct
  | .gath ib ob op tid any addr => gathStep ib.val ob.val op.val tid.toNat any addr
  | .scat ib iv tid add addr ct => scatStep ib.val iv.val tid.toNat add addr ct
  | _ => fun _ _ _ s => .wait s

/-- What a fault of a P word's step names. -/
def unitNamed (i : Instr) : PUnit → Nat × Nat :=
  match i with
  | .scan ib _ _ _ root | .scanb ib _ _ _ root | .scand ib _ _ root => PUnit.scanNamed ib.val root
  | .rdce ib .. | .crdw ib .. | .gath ib .. | .scat ib .. => PUnit.named ib.val
  | .mport ib _ _ true .. => PUnit.named ib.val
  | _ => fun _ => (0, 0)

/-- UNIT_FAULT_WITHHOLD (R352): a unit whose next step faults freezes its hall; any other unit is left alone. -/
def unitWithhold (s : State) (h px py : Nat) : State :=
  match unitNext s h px py with
  | .inr _ => s
  | .inl (i, r) =>
    let s' := unitWord (unitNamed i) (unitStepOf i) { r with cur := .unit h px py }
    if (s'.hall h).held then { s' with cur := s.cur } else s

def execUnitFaultWithhold (hall : HallId) (x : Col) (y : Row) (s : State) : Out :=
  .next (unitWithhold s hall.val x.val y.val)

end Sys2Proof.Machine
end

