-- ==== Sys2Proof/Machine/Barrier.lean ====
section
/-! DEFINITION. BAR and the quiescence of a hall's fabric (spec/14 R369). -/

namespace Sys2Proof.Machine

/-- The state of an outcome that goes on. -/
def outState (s : State) (o : Out) : State :=
  match o with
  | .next t => t
  | _ => s

/-- What an M word does when its node runs it. -/
def mxStepOf (i : Instr) (s : State) : State :=
  match i with
  | .mma acc accum tr al bl ta tb ks t ct => outState s (execMma acc accum tr al bl ta tb ks t ct s)
  | .mmag acc accum tr bl ta tb ks ct => outState s (execMmag acc accum tr bl ta tb ks ct s)
  | .mxz acc all ct => outState s (execMxz acc all ct s)
  | .mxrd acc tc epi ct => outState s (execMxrd acc tc epi ct s)
  | .mxld acc tc ct => outState s (execMxld acc tc ct s)
  | .mxepi acc tc epi ct => outState s (execMxepi acc tc epi ct s)
  | _ => s

/-- A change of the hall by a state change. -/
def hallMoves (s : State) (h : Nat) (t : State) : Bool :=
  { t.hall h with stores := [] } != { s.hall h with stores := [] }

/-- A matrix node can take a step. -/
def mxMoves (s : State) (h m : Nat) : Bool :=
  (mxAhead s h m).isSome ||
  match mxNext s h m with
  | .inr t => hallMoves s h t
  | .inl i => hallMoves s h (mxStepOf i { s with cur := .mx h m })

/-- A prism unit, AG tile or port can take a step: a page request alone is none. -/
def unitMoves (s : State) (h px py : Nat) : Bool :=
  match unitNext s h px py with
  | .inr t =>
    match (s.hall h).config (boxOf px py), installNode s h px py with
    | .ok, .ok _ s => hallMoves s h t
    | _, _ => hallMoves s h t
  | .inl (i, t) =>
    match unitStepOf i h px py t with
    | .wait _ => false
    | .ok _ t' => hallMoves t h t'
    | _ => true

/-- Some rule of a facet can fire, or its channel holds a malformed token. -/
def facetMoves (s : State) (h n : Nat) : Bool :=
  let x := s.hall h
  let F := x.facet n
  if n < x.split || x.config (boxOf (n / 8 + 1) (n % 8)) != .ok then false
  else (List.range 4).any (fun k => ((lget F.ins k).head?.map (fun t => hdrBad t.hdr)).getD false)
    || (match eligibleSlots h n F.slots s with
        | ([], _, _) => false
        | _ => true)

/-- A token of a node's output channel can enter the mesh. -/
def outMoves (s : State) (h px py track : Nat) : Bool :=
  (s.hall h).chanOut px py track != [] && hallMoves s h (switchPass s h px py 4 track)

/-- Positions of a hall's grid. -/
def positions : List (Nat × Nat) := (List.range 80).map (fun b => (b / 8, b % 8))

/-- R369 with FAB: nothing of the fabric can move in the present state, nor is a configuration entry on its way. -/
def quiescent (s : State) (h : Nat) : Bool :=
  let x := s.hall h
  x.links.isEmpty && x.fetch.isEmpty && x.flowCtl.ctlOut == x.ctlOut && s.firing.all (fun p => p.1 != h)
  && (List.range 160).all (fun b => b == boxOf 8 7 || x.config b != .missing || !needsConfig x b)
  && positions.all (fun p => (List.range 4).all (fun t => !outMoves s h p.1 p.2 t)
      && (match nodeAt p.1 p.2 with
          | .facet n => !facetMoves s h n
          | .mx m main => !main || !mxMoves s h m
          | .prism | .ag | .mp => !unitMoves s h p.1 p.2
          | _ => true))

/-- What BAR waits for without FAB. -/
def barReady (s : State) (g : Nat) : Bool :=
  (s.hall g).posted.isEmpty && !hostPending s g && !copiesPending s g && !seqMatrixPending (s.hall g)

/-- BAR: the wait ends in a release and an acquire at hall scope. -/
def barEff (fab : Bool) (g : Nat) (s : State) : Res Unit :=
  if barReady s g && (!fab || quiescent s g) then .ok () (acquire s g false []) else .wait s

def execBar (h : SHdr) (fab : Bool) (s : State) : Out := .next (cWord h [] [] (barEff fab) s)

end Sys2Proof.Machine
end

