-- ==== Sys2Proof/Machine/FacetAlu.lean ====
section
/-! DEFINITION. Element instructions of facets: floating point (spec/09 R225 to R231), integers (R232), conversion and
scales (R233 to R235), reductions (R236). -/

namespace Sys2Proof.Machine

/-! ## Floating point -/

/-- An element rule of a format whose result keeps the shape. -/
def fpRule (d : Opnd) (srcs : List Opnd) (g : FFmt) (f : List (List Nat) → List Nat) : ElemRule :=
  ⟨d, srcs, 0, g.fmt.bits, some g.fmt.bits, id, fun _ => f, none⟩

def execFadd (f : FHdr) (d x y : Opnd) (fmt : FFmt) (s : State) : Out :=
  .next (fireElem f (fpRule d [x, y] fmt (map2 (fop2 fmt.fmt FVal.add))) s)
def execFsub (f : FHdr) (d x y : Opnd) (fmt : FFmt) (s : State) : Out :=
  .next (fireElem f (fpRule d [x, y] fmt (map2 (fop2 fmt.fmt FVal.sub))) s)
def execFmul (f : FHdr) (d x y : Opnd) (fmt : FFmt) (s : State) : Out :=
  .next (fireElem f (fpRule d [x, y] fmt (map2 (fop2 fmt.fmt FVal.mul))) s)
def execFfma (f : FHdr) (d x y z : Opnd) (fmt : FFmt) (s : State) : Out :=
  .next (fireElem f (fpRule d [x, y, z] fmt (map3 (ffma fmt.fmt))) s)
def execFmin (f : FHdr) (d x y : Opnd) (fmt : FFmt) (s : State) : Out :=
  .next (fireElem f (fpRule d [x, y] fmt (map2 (fminmax fmt.fmt false))) s)
def execFmax (f : FHdr) (d x y : Opnd) (fmt : FFmt) (s : State) : Out :=
  .next (fireElem f (fpRule d [x, y] fmt (map2 (fminmax fmt.fmt true))) s)

/-- FSGN on elements of `w` bits (R228); the magnitude is that of x. -/
def signElem (op : SgnOp) (w x y : Nat) : Nat :=
  let sx := nbit x (w - 1)
  let sy := nbit y (w - 1)
  let sg := match op with | .cpy => sy | .neg => !sy | .xor => sx != sy | .abs => false
  x % 2 ^ (w - 1) + b2n sg * 2 ^ (w - 1)

def execFsgn (f : FHdr) (d x y : Opnd) (op : SgnOp) (fmt : FFmt) (s : State) : Out :=
  .next (fireElem f (fpRule d (if op = .abs then [x] else [x, y]) fmt
    (if op = .abs then map1 (fun a => signElem .abs fmt.fmt.bits a 0) else map2 (signElem op fmt.fmt.bits))) s)

/-- All ones of `w` bits where a condition holds. -/
def maskElem (w : Nat) (b : Bool) : Nat := if b then 2 ^ w - 1 else 0

/-- The condition of a comparison: any or every element (R229). -/
def maskCond (all : Bool) (es : List Nat) : Bool := if all then es.all (· != 0) else es.any (· != 0)

def execFcmp (f : FHdr) (d x y : Opnd) (cond : FCond) (all : Bool) (fmt : FFmt) (s : State) : Out :=
  .next (fireElem f { fpRule d [x, y] fmt (map2 fun a b => maskElem fmt.fmt.bits
    (cond.holds (fmt.fmt.decode a) (fmt.fmt.decode b))) with cond := some (maskCond all) } s)

/-- An element rule without a format. -/
def bitRule (d : Opnd) (srcs : List Opnd) (imm : BitVec 10) (f : Nat → List (List Nat) → List Nat) : ElemRule :=
  ⟨d, srcs, imm, 32, none, id, fun sh => f sh.w, none⟩

def execEsel (f : FHdr) (d x y z : Opnd) (s : State) : Out :=
  .next (fireElem f (bitRule d [x, y, z] 0 fun _ => map3 fun a b c => if c = 0 then b else a) s)

/-- The special functions (R231). -/
def fireSfu (f : FHdr) (d x : Opnd) (fmt : FFmt) (g : FVal → FVal) (s : State) : State :=
  fireElem f (fpRule d [x] fmt (map1 (fop1 fmt.fmt g))) s

def execFexp2 (f : FHdr) (d x : Opnd) (fmt : FFmt) (s : State) : Out := .next (fireSfu f d x fmt FVal.exp2 s)
def execFlog2 (f : FHdr) (d x : Opnd) (fmt : FFmt) (s : State) : Out := .next (fireSfu f d x fmt FVal.log2 s)
def execFrcp (f : FHdr) (d x : Opnd) (fmt : FFmt) (s : State) : Out := .next (fireSfu f d x fmt FVal.recip s)
def execFrsq (f : FHdr) (d x : Opnd) (fmt : FFmt) (s : State) : Out := .next (fireSfu f d x fmt FVal.rsqrt s)
def execFsqrt (f : FHdr) (d x : Opnd) (fmt : FFmt) (s : State) : Out := .next (fireSfu f d x fmt FVal.sqrt s)
def execFtanh (f : FHdr) (d x : Opnd) (fmt : FFmt) (s : State) : Out := .next (fireSfu f d x fmt FVal.tanh s)
def execFsigm (f : FHdr) (d x : Opnd) (fmt : FFmt) (s : State) : Out := .next (fireSfu f d x fmt FVal.sigm s)

/-! ## Integers (R232) -/

def addW (w x y : Nat) : Nat := (x + y) % 2 ^ w
def subW (w x y : Nat) : Nat := (x + (2 ^ w - y % 2 ^ w)) % 2 ^ w

/-- Shift right by y, with sign fill when `sg`. -/
def shrE (sg : Bool) (w x y : Nat) : Nat :=
  if sg then wrapInt (sextNat x w / 2 ^ min y w) w else if w ≤ y then 0 else x / 2 ^ y

def shlE (w x y : Nat) : Nat := if w ≤ y then 0 else x * 2 ^ y % 2 ^ w

/-- ICLMP: max(y, min(x, z)). -/
def clampW (u : Bool) (w x y z : Nat) : Nat := minmaxN true u (w / 8) y (minmaxN false u (w / 8) x z)

def execIadd (f : FHdr) (d x y : Opnd) (imm : BitVec 10) (s : State) : Out :=
  .next (fireElem f (bitRule d [x, y] imm fun w => map2 (addW w)) s)
def execIsub (f : FHdr) (d x y : Opnd) (imm : BitVec 10) (s : State) : Out :=
  .next (fireElem f (bitRule d [x, y] imm fun w => map2 (subW w)) s)
def execImul (f : FHdr) (d x y : Opnd) (imm : BitVec 10) (s : State) : Out :=
  .next (fireElem f (bitRule d [x, y] imm fun w => map2 fun a b => a * b % 2 ^ w) s)
def execImad (f : FHdr) (d x y z : Opnd) (imm : BitVec 10) (s : State) : Out :=
  .next (fireElem f (bitRule d [x, y, z] imm fun w => map3 fun a b c => (a * b + c) % 2 ^ w) s)
def execImin (f : FHdr) (d x y : Opnd) (u : Bool) (s : State) : Out :=
  .next (fireElem f (bitRule d [x, y] 0 fun w => map2 (minmaxN false u (w / 8))) s)
def execImax (f : FHdr) (d x y : Opnd) (u : Bool) (s : State) : Out :=
  .next (fireElem f (bitRule d [x, y] 0 fun w => map2 (minmaxN true u (w / 8))) s)
def execIand (f : FHdr) (d x y : Opnd) (imm : BitVec 10) (s : State) : Out :=
  .next (fireElem f (bitRule d [x, y] imm fun _ => map2 fun a b => a &&& b) s)
def execIor (f : FHdr) (d x y : Opnd) (imm : BitVec 10) (s : State) : Out :=
  .next (fireElem f (bitRule d [x, y] imm fun _ => map2 fun a b => a ||| b) s)
def execIxor (f : FHdr) (d x y : Opnd) (imm : BitVec 10) (s : State) : Out :=
  .next (fireElem f (bitRule d [x, y] imm fun _ => map2 fun a b => a ^^^ b) s)
def execIshl (f : FHdr) (d x y : Opnd) (imm : BitVec 10) (s : State) : Out :=
  .next (fireElem f (bitRule d [x, y] imm fun w => map2 (shlE w)) s)
def execIshr (f : FHdr) (d x y : Opnd) (sg : Bool) (s : State) : Out :=
  .next (fireElem f (bitRule d [x, y] 0 fun w => map2 (shrE sg w)) s)
def execIcmp (f : FHdr) (d x y : Opnd) (cond : Cond) (all : Bool) (s : State) : Out :=
  .next (fireElem f { bitRule d [x, y] 0 (fun w => map2 fun a b => maskElem w (cond.holds w a b)) with
    cond := some (maskCond all) } s)
def execIclmp (f : FHdr) (d x y z : Opnd) (u : Bool) (s : State) : Out :=
  .next (fireElem f (bitRule d [x, y, z] 0 fun w => map3 (clampW u w)) s)

/-! ## Conversion (R233, R234) -/

/-- Convert elements in order; in RS each takes one step of the seed (R56, R57). -/
def convAll (mode : RMode) (g : Nat → Nat → Nat → Nat) : BitVec 32 → List (Nat × Nat) → List Nat × BitVec 32
  | seed, [] => ([], seed)
  | seed, (x, k) :: xs =>
    let seed := if mode = .rs then lfsrStep seed else seed
    let r := convAll mode g seed xs
    (g seed.toNat x k :: r.1, r.2)

/-- The effect of a data conversion: D, the seed and the latch of a channel. -/
def cvtApply (h n : Nat) (d : Opnd) (hdr : BitVec 16) (pay : Nat) (lens : Bool) (seed : BitVec 32)
    (l : Option (Nat × Option Latch)) (s : State) : State :=
  s.updHall h fun x =>
    let x := x.putDest n d hdr pay lens
    let F := x.facet n
    x.setFacet n { F with seed := seed
                          latch := match l with | some (k, v) => F.latch.set k v | none => F.latch }

/-- A data firing of CVT on source elements paired with their scales; a lens-marked scale marks the result too (R217). -/
def cvtData (d : Opnd) (mode : RMode) (ow : Nat) (g : Nat → Nat → Nat → Nat) (x : Hall) (h n : Nat)
    (srcs : List Opnd) (sh : Shape) (es : List (Nat × Nat)) (stream : Option Breach)
    (l : Option (Nat × Option Latch)) : Plan :=
  let F := x.facet n
  let o : Shape := { sh with w := ow }
  let lens := srcLens x n F srcs || (l.bind (·.2)).any (·.lens)
  let r := convAll mode g F.seed es
  let reads := srcs.flatMap (fun k => bankRange F k sh.n sh.w)
  { align := firstAlign F ((d, ow) :: srcs.map (fun k => (k, sh.w)))
    lens := lens && d.isAreg
    reads := reads
    plain := reads.map (fun p => (p.1, p.2, false)) ++ (bankRange F d o.n o.w).map (fun p => (p.1, p.2, true))
    stream := stream
    apply := cvtApply h n d (dataHdr o) (packElems ow r.1) lens r.2 l }

/-- CVT without scales. DESIGN CHOICE (log 77): with no lead source the default shape has the width that X must have, which
for DIR = 0 is 32 bits, as for SCL, though FN names the other format (R213). -/
def cvtPlain (d a : Opnd) (mode : RMode) (fmt : Fmt) (dir : Bool) (x : Hall) (h n : Nat) : Plan :=
  let F := x.facet n
  let need := if dir then fmt.slot else 32
  let sh := F.shape [a] need
  let ow := if dir then 32 else fmt.slot
  match (F.lead [a]).filter (fun t => !isData t) with
  | some t => passPlan d [a] t x h n (some need)
  | none =>
    let g (r e _k : Nat) : Nat := if dir then Fmt.fp32.encode mode r (fmt.decode e) else fmt.encode mode r (Fmt.fp32.decode e)
    let long := ow = 64 ∧ 4 < sh.n
    cvtData d mode ow g x h n [a] sh ((srcElems x n F 0 sh a).map (·, 0))
      ((F.streamFault [a] (some need)).or (F.breachIf long .shape a)) none

/-- The scale that Y of a scaled CVT gives: the low 8 bits of its element 0. -/
def scaleOf (x : Hall) (n : Nat) (F : Facet) (sh : Shape) (b : Opnd) : Nat :=
  match F.tok b with
  | some t => t.pay.toNat % 256
  | none => lget (srcElems x n F 0 sh b) 0 % 256

/-- CVT to a scaled format. DESIGN CHOICE (log 77): a non-data X passes through whatever Y's header is, and beside a data X
the payload of a non-data Y gives the scale, for R234 takes Y for its element 0 alone. -/
def cvtTo (d a b : Opnd) (mode : RMode) (fmt : Fmt) (x : Hall) (h n : Nat) : Plan :=
  let F := x.facet n
  let sh := F.shape [a, b] 32
  match (F.lead [a, b]).filter (fun t => !isData t) with
  | some t => passPlan d [if (F.tok a).isSome then a else b] t x h n none
  | none =>
    let k := scaleOf x n F sh b
    let empty := ((F.tok b).map (fun t => t.hdr == emptyMark)).getD false
    cvtData d mode 8 (fun r e k => scaledEncode fmt mode r e k) x h n [a, b] sh
      ((srcElems x n F 0 sh a).map (·, k))
      (((F.streamFault [a] (some 32)).or (F.breachIf (sh.w ≠ 32) .width a)).or (F.breachIf empty .empty b)) none

/-- CVT from a scaled format: the scales stand in the channel's latch (R62). -/
def cvtFrom (d a : Opnd) (mode : RMode) (fmt : Fmt) (x : Hall) (h n : Nat) : Plan :=
  let F := x.facet n
  match a, F.tok a with
  | .deq k, some t =>
    let L := lget F.latch k.val
    let bad (c : StreamCase) : Option Breach := some (F.breach c a)
    if hdrKind t.hdr = 2 then
      match latchHeader L t.hdr t.pay t.lens with
      | none => { stream := bad .unused }
      | some l => { apply := cvtApply h n .zero 0 0 false F.seed (some (k.val, some l)), c := false }
    else if !isData t then
      if latchCut L then { stream := bad .cut } else passPlan d [a] t x h n none
    else
      let sh := t.shape
      match latchTakes sh.n L with
      | none => { stream := bad .missing }
      | some (ks, l) =>
        cvtData d mode 32 (fun r e k => Fmt.fp32.encode mode r (scaledValue fmt e k)) x h n [a] sh
          ((srcElems x n F 0 sh a).zip (ks.map (·.toNat))) (F.streamFault [a] (some 8)) (some (k.val, l))
  | _, _ => { ready := false }

def execCvt (f : FHdr) (d x y : Opnd) (mode : RMode) (fmt : Fmt) (dir sc : Bool) (s : State) : Out :=
  .next (fire f 1 (if sc && !dir then [x, y] else [x])
    (fun q h n _ => if !sc then cvtPlain d x mode fmt dir q h n
      else if dir then cvtFrom d x mode fmt q h n else cvtTo d x y mode fmt q h n) s)

/-- SCL (R235). -/
def execScl (f : FHdr) (d x : Opnd) (fmt : Fmt) (s : State) : Out :=
  .next (fireElem f ⟨d, [x], 0, 32, some 32, fun sh => { sh with w := 8 }, fun _ => map1 (sclElem fmt), none⟩ s)

/-! ## Reductions (R236, R67) -/

/-- A reduction of one token to one element. -/
def treeRule (d x : Opnd) (fmt : FFmt) (int : Bool) (op : Nat → Nat → Nat → Nat) : ElemRule :=
  ⟨d, [x], 0, fmt.fmt.bits, if int then none else some fmt.fmt.bits, fun sh => { sh with n := 1 },
    fun sh xs => [treeReduce (op sh.w) (lget xs 0)], none⟩

def execTsum (f : FHdr) (d x : Opnd) (fmt : FFmt) (int : Bool) (s : State) : Out :=
  .next (fireElem f (treeRule d x fmt int fun w => if int then addW w else fop2 fmt.fmt FVal.add) s)
def execTmax (f : FHdr) (d x : Opnd) (fmt : FFmt) (int u : Bool) (s : State) : Out :=
  .next (fireElem f (treeRule d x fmt int fun w => if int then minmaxN true u (w / 8) else fminmax fmt.fmt true) s)
def execTmin (f : FHdr) (d x : Opnd) (fmt : FFmt) (int u : Bool) (s : State) : Out :=
  .next (fireElem f (treeRule d x fmt int fun w => if int then minmaxN false u (w / 8) else fminmax fmt.fmt false) s)

end Sys2Proof.Machine
end

