-- ==== Sys2Proof/Machine/FacetBank.lean ====
section
/-! DEFINITION. Bank-port instructions of facets (spec/09 R241 to R245, R249). -/

namespace Sys2Proof.Machine

/-- The signed increment of an address register (R242). -/
def Facet.inc (F : Facet) (k : Nat) (inc : BitVec 5) : Facet := { F with a := F.a.set k (lget F.a k + inc.signExtend 16) }

/-- ALIGN at an address register for elements of `w` bits (R241). -/
def aregAlign (F : Facet) (k w : Nat) : Option Nat :=
  if w = 64 ∧ (lget F.a k).toNat % 2 = 1 then some (bankStart F k) else none

/-- What a load does to F bits. -/
inductive FeLoad | plain | full | empty
  deriving DecidableEq

/-- FLD, FLDF and FLDE (R242). -/
def loadPlan (i : Instr) (d : Opnd) (ak : Fin 4) (inc : BitVec 5) (len : Fin 8) (wid : Fin 4) (fe : FeLoad) (x : Hall)
    (h n slot : Nat) : Plan :=
  let F := x.facet n
  let w := 8 * widBytes wid.val
  let m := len.val + 1
  let o := bankStart F ak.val
  let ws := bankWords x n o (m * widBytes wid.val)
  let sh : Shape := ⟨w, m, 0, false⟩
  let lens := x.inLens n
  { align := (aregAlign F ak.val w).or (bankAlign F d w)
    lens := lens && d.isAreg
    reads := elemRanges o m w
    plain := (if fe = .plain then (elemRanges o m w).map (fun p => (p.1, p.2, false)) else [])
      ++ (bankRange F d m w).map (fun p => (p.1, p.2, true))
    event := F.event x h n slot i
    joins := if fe = .plain then [] else ws
    apply := fun s => s.updHall h fun y =>
      let y := y.putDest n d (dataHdr sh) (bankGet x n o (m * widBytes wid.val)) lens
      let y := y.setFacet n ((y.facet n).inc ak.val inc)
      if fe = .empty then setWords ws false y else y }

def execFld (f : FHdr) (d : Opnd) (ak : Fin 4) (inc : BitVec 5) (len : Fin 8) (wid : Fin 4) (s : State) : Out :=
  .next (fire f 1 [] (loadPlan (.fld f d ak inc len wid) d ak inc len wid .plain) s)
def execFldf (f : FHdr) (d : Opnd) (ak : Fin 4) (inc : BitVec 5) (len : Fin 8) (wid : Fin 4) (s : State) : Out :=
  .next (fire f 1 [] (loadPlan (.fldf f d ak inc len wid) d ak inc len wid .full) s)
def execFlde (f : FHdr) (d : Opnd) (ak : Fin 4) (inc : BitVec 5) (len : Fin 8) (wid : Fin 4) (s : State) : Out :=
  .next (fire f 1 [] (loadPlan (.flde f d ak inc len wid) d ak inc len wid .empty) s)

/-- FST and FSTE (R243): `sf` sets the words full. -/
def storePlan (i : Instr) (a : Opnd) (ak : Fin 4) (inc : BitVec 5) (sf : Bool) (x : Hall) (h n slot : Nat) : Plan :=
  let F := x.facet n
  if ((F.lead [a]).map isData).getD true then
    let sh := F.shape [a] 32
    let o := bankStart F ak.val
    let b := sh.n * (sh.w / 8)
    let ws := bankWords x n o b
    let src := bankRange F a sh.n sh.w
    { align := (aregAlign F ak.val sh.w).or (bankAlign F a sh.w)
      reads := src
      plain := src.map (fun p => (p.1, p.2, false))
        ++ (if sf then [] else (elemRanges o sh.n sh.w).map (fun p => (p.1, p.2, true)))
      claims := if sf then elemRanges o sh.n sh.w else []
      stream := F.streamFault [a] none
      event := F.event x h n slot i
      apply := fun s =>
        let s := if sf then leaveWords s h ws else s
        s.updHall h fun y =>
          let y := bankPut y n o (storeVal x n F a) b
          let y := y.setFacet n ((y.facet n).inc ak.val inc)
          if sf then setWords ws true y else y }
  else { stream := F.streamFault [a] none, c := false }

def execFst (f : FHdr) (x : Opnd) (ak : Fin 4) (inc : BitVec 5) (sf : Bool) (s : State) : Out :=
  .next (fire f 1 [x] (storePlan (.fst f x ak inc sf) x ak inc sf) s)
def execFste (f : FHdr) (x : Opnd) (ak : Fin 4) (inc : BitVec 5) (s : State) : Out :=
  .next (fire f 1 [x] (storePlan (.fste f x ak inc) x ak inc true) s)

/-- The index elements of a token in its own width, or of another source in the shape (R244). -/
def idxElems (x : Hall) (n : Nat) (F : Facet) (sh : Shape) (o : Opnd) : List Nat :=
  match F.tok o with
  | some t => payElems t.hdr t.pay
  | none => srcElems x n F 0 sh o

def srcLensOne (F : Facet) (o : Opnd) : Bool := ((F.tok o).map (·.lens)).getD false

/-- The bank bytes an index list names. -/
def idxPlaces (F : Facet) (ak sh : Nat) (ix : List Nat) : List Nat :=
  ix.map (fun i => (4 * (lget F.a ak).toNat + i * 2 ^ sh) % 65536)

/-- The first element of 64 bits that is not aligned. -/
def idxAlign (w : Nat) (ps : List Nat) : Option Nat := if w = 64 then ps.find? (fun p => p % 8 != 0) else none

/-- FLDX (R244). An index token of more than 4 elements cannot give a token of 64-bit elements (R211; log 20). -/
def fldxPlan (d : Opnd) (ak : Fin 4) (y : Opnd) (sft : Fin 8) (wid : Fin 4) (x : Hall) (h n _slot : Nat) : Plan :=
  let F := x.facet n
  match (F.lead [y]).filter (fun t => !isData t) with
  | some t => passPlan d [y] t x h n none
  | none =>
    let sh := F.shape [y] 32
    let w := 8 * widBytes wid.val
    let ps := idxPlaces F ak.val sft.val (idxElems x n F sh y)
    let lens := x.inLens n
    let reads := ps.map (fun p => (p, w / 8)) ++ bankRange F y sh.n sh.w
    { align := (idxAlign w ps).or (firstAlign F [(d, w), (y, sh.w)])
      lens := srcLensOne F y || (y.isBank && lens) || (lens && d.isAreg)
      reads := reads
      plain := reads.map (fun p => (p.1, p.2, false)) ++ (bankRange F d sh.n w).map (fun p => (p.1, p.2, true))
      stream := (F.streamFault [y] none).or (F.breachIf (w = 64 && decide (4 < sh.n)) .shape y)
      apply := fun s => s.updHall h fun z =>
        z.putDest n d (dataHdr ⟨w, sh.n, 0, false⟩) (packElems w (ps.map (fun p => bankGet x n p (w / 8)))) lens }

def execFldx (f : FHdr) (d : Opnd) (ak : Fin 4) (y : Opnd) (sh : Fin 8) (wid : Fin 4) (s : State) : Out :=
  .next (fire f 1 [y] (fldxPlan d ak y sh wid) s)

/-- FSTX (R244): a later element wins where two name one byte. -/
def fstxPlan (a : Opnd) (ak : Fin 4) (z : Opnd) (sft : Fin 8) (x : Hall) (h n _slot : Nat) : Plan :=
  let F := x.facet n
  match (F.lead [a, z]).filter (fun t => !isData t) with
  | some _ => { stream := F.streamFault [a, z] none, c := false }
  | none =>
    let sh := F.shape [a, z] 32
    let ps := idxPlaces F ak.val sft.val (idxElems x n F sh z)
    let es := srcElems x n F 0 sh a
    let lens := x.inLens n
    let reads := bankRange F a sh.n sh.w ++ bankRange F z sh.n sh.w
    let zBad (test : EReg → Bool) : Bool := (F.tok z).any test
    { align := (idxAlign sh.w ps).or (firstAlign F [(a, sh.w), (z, sh.w)])
      lens := srcLensOne F z || (z.isBank && lens)
      reads := reads
      plain := reads.map (fun p => (p.1, p.2, false)) ++ ps.map (fun p => (p, sh.w / 8, true))
      stream := (((F.streamFault [a] none).or (F.breachIf (zBad (·.hdr == emptyMark)) .empty z)).or
        (F.breachIf (zBad (fun t => !isData t)) .kind z)).or (F.breachIf (zBad (fun t => hdrLen t.hdr != sh.n)) .shape z)
      apply := fun s => s.updHall h fun y =>
        (ps.zip es).foldl (fun y p => bankPut y n p.1 p.2 (sh.w / 8)) y }

def execFstx (f : FHdr) (x : Opnd) (ak : Fin 4) (z : Opnd) (sh : Fin 8) (s : State) : Out :=
  .next (fire f 1 [x, z] (fstxPlan x ak z sh) s)

/-- The new value of an element under FAMO (R245). -/
def famoElem (op : AmoOp) (u : Bool) (w old v : Nat) : Nat :=
  match op with
  | .add => addW w old v
  | .and => old &&& v
  | .or => old ||| v
  | .xor => old ^^^ v
  | .min => minmaxN false u (w / 8) old v
  | .max => minmaxN true u (w / 8) old v
  | .swp => v
  | .fadd => fop2 .fp32 FVal.add old v

/-- FAMO (R245): the old values go to D. -/
def famoPlan (d a : Opnd) (ak : Fin 4) (op : AmoOp) (u : Bool) (x : Hall) (h n _slot : Nat) : Plan :=
  let F := x.facet n
  match (F.lead [a]).filter (fun t => !isData t) with
  | some t => passPlan d [a] t x h n none
  | none =>
    let sh := F.shape [a] 32
    let o := bankStart F ak.val
    let b := sh.w / 8
    let es := srcElems x n F 0 sh a
    let old := (List.range sh.n).map (fun j => bankGet x n (o + j * b) b)
    let lens := x.inLens n
    let src := bankRange F a sh.n sh.w
    let wOk := sh.w = 32 || (sh.w = 64 && op != .fadd)
    { align := (aregAlign F ak.val sh.w).or (firstAlign F [(d, sh.w), (a, sh.w)])
      lens := (lens || srcLensOne F a) && d.isAreg
      reads := elemRanges o sh.n sh.w ++ src
      plain := src.map (fun p => (p.1, p.2, false)) ++ (bankRange F d sh.n sh.w).map (fun p => (p.1, p.2, true))
      claims := elemRanges o sh.n sh.w
      stream := (F.streamFault [a] none).or (F.breachIf (!wOk) .width a)
      apply := fun s => s.updHall h fun y =>
        let y := ((List.range sh.n).zip (es.zip old)).foldl
          (fun y p => bankPut y n (o + p.1 * b) (famoElem op u sh.w p.2.2 p.2.1) b) y
        y.putDest n d (dataHdr sh) (packElems sh.w old) (lens || srcLensOne F a) }

def execFamo (f : FHdr) (d x : Opnd) (ak : Fin 4) (op : AmoOp) (u : Bool) (s : State) : Out :=
  .next (fire f 1 [x] (famoPlan d x ak op u) s)

end Sys2Proof.Machine
end

