-- ==== Sys2Proof/Machine/FacetTokens.lean ====
section
/-! DEFINITION. Token instructions of facets (spec/09 R237 to R240), address registers and predicates (R246, R247),
the control net (R248). -/

namespace Sys2Proof.Machine

/-- MOV copies a token of any kind (R237). -/
def execMov (f : FHdr) (d x : Opnd) (imm : BitVec 10) (s : State) : Out :=
  .next (fireElem f (bitRuleId d x imm) s)
where
  bitRuleId (d x : Opnd) (imm : BitVec 10) : ElemRule := ⟨d, [x], imm, 32, none, id, fun _ xs => lget xs 0, none⟩

/-- DROP discards the head token (R237). -/
def execDrop (f : FHdr) (i : Chan) (s : State) : Out :=
  .next (fire f 1 [.deq i] (fun x _ n _ => { c := (((x.facet n).tok (.deq i)).map isData).getD false }) s)

def execIota (f : FHdr) (d x : Opnd) (imm : BitVec 10) (s : State) : Out :=
  .next (fireElem f ⟨d, [x], imm, 32, none, id,
    fun sh xs => (List.range sh.n).map (fun k => (lget (lget xs 0) 0 + k) % 2 ^ sh.w), none⟩ s)

def execBcast (f : FHdr) (d x : Opnd) (j : Fin 8) (s : State) : Out :=
  .next (fireElem f ⟨d, [x], 0, 32, none, id,
    fun sh xs => List.replicate sh.n (lget (lget xs 0) (j.val % sh.n)), none⟩ s)

/-- Push tokens on a facet's output channel in order. -/
def pushAll (n : Nat) (o : Chan) (ts : List EReg) (x : Hall) : Hall :=
  ts.foldl (fun x t => x.putDest n (.push o) t.hdr t.pay.toNat t.lens) x

/-- MERGE (R238). -/
def mergePlan (o i : Chan) (k : Fin 8) (x : Hall) (h n _slot : Nat) : Plan :=
  let F := x.facet n
  match F.tok (.deq i), F.tok (.e k) with
  | some t, some b =>
    let r := mergeStep t b
    { apply := fun s => s.updHall h fun x =>
        let x := pushAll n o r.1 x
        let F := x.facet n
        x.setFacet n { F with e := F.e.set k.val r.2 }
      c := r.1.any isData }
  | _, _ => { ready := false }

def execMerge (f : FHdr) (o i : Chan) (k : Fin 8) (s : State) : Out :=
  .next (fire f 2 [.deq i, .e k] (mergePlan o i k) s)

/-- A register that holds the empty mark is read by another instruction than MERGE (R216). -/
def emptyFault (F : Facet) (o : Opnd) : Option Breach := F.breachIf ((F.tok o).any (·.hdr == emptyMark)) .empty o

/-- Bank accesses of a source in the default shape, or in its token's. -/
def srcReads (F : Facet) (o : Opnd) : List (Nat × Nat) := bankRange F o 8 32

/-- SPLIT (R239). -/
def splitPlan (o : Chan) (a y : Opnd) (imm : BitVec 10) (x : Hall) (h n _slot : Nat) : Plan :=
  let F := x.facet n
  let r := splitStep (tokenOf x n F imm a) (splitCount F y imm)
  { stream := emptyFault F a
    reads := srcReads F a
    plain := (srcReads F a).map (fun p => (p.1, p.2, false))
    apply := fun s => s.updHall h (pushAll n o r)
    c := r.length = 2 }

def execSplit (f : FHdr) (o : Chan) (x y : Opnd) (imm : BitVec 10) (s : State) : Out :=
  .next (fire f 2 [x, y] (splitPlan o x y imm) s)

/-- HDR (R240). A stop or done token has no payload; a scale header takes the payload of 8-bit data. DESIGN CHOICE (log 77):
the condition of a built token that is not data is 0, for such a firing produces no data result (R222). -/
def hdrPlan (d a : Opnd) (kind : TKind) (lvl : Fin 8) (lot : Bool) (tag : Fin 4) (kt bl : Bool) (x : Hall)
    (h n _slot : Nat) : Plan :=
  let F := x.facet n
  let put (hd : BitVec 16) (pay : Nat) (lens : Bool) (s : State) : State := s.updHall h fun x => x.putDest n d hd pay lens
  match kind with
  | .stop => { apply := put (mkHdr 1 tag.val 0 1 lvl.val lot) 0 false, c := false }
  | .done => { apply := put (mkHdr 3 tag.val 0 1 0 false) 0 false, c := false }
  | .data | .scale =>
    let t := tokenOf x n F 0 a
    let g := if kt then hdrTag t.hdr else tag.val
    let hd := if kind = .data then mkHdr 0 g (widCode (hdrWid t.hdr)) (hdrLen t.hdr) 0 lot
              else mkHdr 2 g 0 (hdrLen t.hdr) (b2n bl) lot
    let writes := if kind = .data then bankRange F d (hdrLen t.hdr) (hdrWid t.hdr) else []
    { align := if kind = .data then bankAlign F d (hdrWid t.hdr) else none
      lens := kind = .data && t.lens && d.isAreg
      reads := srcReads F a
      plain := (srcReads F a).map (fun p => (p.1, p.2, false)) ++ writes.map (fun p => (p.1, p.2, true))
      stream := ((emptyFault F a).or (F.breachIf (!isData t) .kind a)).or (F.breachIf (kind = .scale && hdrWid t.hdr != 8) .width a)
      apply := put hd t.pay.toNat t.lens
      c := kind = .data }

def execHdr (f : FHdr) (d x : Opnd) (kind : TKind) (lvl : Fin 8) (lot : Bool) (tag : Fin 4) (kt bl : Bool)
    (s : State) : Out :=
  .next (fire f 1 (if kind = .stop ∨ kind = .done then [] else [x]) (hdrPlan d x kind lvl lot tag kt bl) s)

/-- AINC (R246). -/
def execAinc (f : FHdr) (ak : Fin 4) (x y : Opnd) (imm : BitVec 10) (s : State) : Out :=
  .next (fireElem f ⟨.areg ak, [x, y], imm, 32, none, id,
    fun _ xs => [(lget (lget xs 0) 0 + lget (lget xs 1) 0) % 2 ^ 16], none⟩ s)

/-- The test of PSET on a token (R247). -/
def psetTest (test : PTest) (l : Nat) (t : EReg) : Bool :=
  let k := hdrKind t.hdr
  match test with
  | .data => k == 0
  | .stop => k == 1
  | .scale => k == 2
  | .done => k == 3
  | .lot => hdrLot t.hdr
  | .lvl => k == 1 && decide (l ≤ hdrLvl t.hdr)
  | .nz => k == 0 && payElem (hdrWid t.hdr) t.pay 0 != 0
  | .true => true

def execPset (f : FHdr) (x : Opnd) (test : PTest) (l : Fin 8) (s : State) : Out :=
  .next (fire f 1 [x] (fun q _ n _ =>
    let F := q.facet n
    match F.tok x with
    | some t => { lens := test = .nz && t.lens, stream := emptyFault F x, c := psetTest test l.val t }
    | none => { ready := false }) s)

/-- SEND and WAITC (R248): the facet's bank writes have performed, in firing order. -/
def execSend (f : FHdr) (line : Fin 2) (s : State) : Out :=
  .next (fire f 1 [] (fun x h n _ =>
    { ready := x.ctlRoom (n / 8 + 1) (n % 8) line.val
      apply := fun s => s.updHall h fun x => x.sendCtl (n / 8 + 1) (n % 8) line.val }) s)

def execWaitc (f : FHdr) (line : Fin 2) (s : State) : Out :=
  .next (fire f 1 [] (fun x h n _ =>
    { ready := x.ctlCount (n / 8 + 1) (n % 8) line.val != 0
      apply := fun s => s.updHall h fun x => x.takeCtl (n / 8 + 1) (n % 8) line.val }) s)

end Sys2Proof.Machine
end

