-- ==== Sys2Proof/Machine/Sessions.lean ====
section
/-! DEFINITION. Sessions: SDEC (spec/05 R110 to R114), SENC, USEINC, USESIG and reports (spec/17 R423 to R429, spec/05
R104), the integrity horizon (R124 to R127) and failed checks (spec/16 R408). -/

namespace Sys2Proof.Machine

/-! ## Checks at issue -/

def Ctx.session? (c : Ctx) (h : Nat) : Option Session := c.sessions.find? (fun x => x.handle == h)

def sessionOf (s : State) (ctx : Word) (h : Nat) : Option Session := (s.ctx? ctx).bind (fun c => c.session? h)

def updSession (s : State) (ctx : Word) (h : Nat) (f : Session → Session) : State :=
  s.updCtx ctx fun c => { c with sessions := c.sessions.map (fun x => if x.handle == h then f x else x) }

/-- What stands at an address: outside the context's memory, scratch of its own, no translation, or a page. -/
inductive PageAt
  | out
  | scratch
  | unmapped
  | page (w : Word)

def pageAt (s : State) (h va : Nat) : PageAt :=
  if ownBase ≤ va then (if reachOk s h va then .scratch else .out)
  else
    match leafAt s h .seq va with
    | some (w, _) => .page w
    | none => .unmapped

/-- The sequencer's checks of ranges use its translations (R257). -/
def checkPages (s : State) (h : Nat) (rs : List (Nat × Nat)) : State :=
  refill s h .seq ((rs.filter (fun r => r.2 != 0)).flatMap (fun r => pagesOf r.1 (min r.2 (2 ^ 24 + 80))))

/-- The first of `n` pages with a property, from an address on. -/
def findPage (p : Nat → Bool) : Nat → Nat → Option Nat
  | 0, _ => none
  | n + 1, va => if p va then some va else findPage p n (va / 65536 * 65536 + 65536)

/-- The first page of a range that is bad: at its first address, at a page's start, or at its last address. -/
def firstBad (s : State) (h va len : Nat) (bad : PageAt → Bool) : Option Nat :=
  if len = 0 then none
  else
    (findPage (fun v => bad (pageAt s h v)) ((va % 65536 + len - 1) / 65536 + 1) va).or
      (if bad (pageAt s h (va + len - 1)) then some (va + len - 1) else none)

def PageAt.isOut : PageAt → Bool | .out => true | _ => false
/-- The first page of a range outside the context's memory. -/
def firstOut (s : State) (h va len : Nat) : Option Nat :=
  if ownBase ≤ va then firstBad s h va len PageAt.isOut
  else if va + len ≤ ownBase then none
  else firstBad s h ownBase (va + len - ownBase) PageAt.isOut

def PageAt.isLens : PageAt → Bool | .page w => pteLN w | _ => false
def PageAt.unreadable : PageAt → Bool | .unmapped => true | _ => false
def PageAt.unwritable : PageAt → Bool | .unmapped => true | .page w => !pteWR w | _ => false
/-- A page of another domain, scratch included. -/
def PageAt.notOf (kd : Nat) : PageAt → Bool | .page w => pteKD w != kd | .scratch => true | _ => false

/-- T0 of the spawned tasks of a context, by physical address. -/
def ownedT0s (s : State) (ctx : Word) : List Nat :=
  (s.tasks.filter (·.id.ctx == ctx)).filterMap (fun t =>
    (s.ctx? ctx).bind (fun c => (devicePage s c t.id.va false).map (·.1)))

/-- The first address of a range at which a store meets T0 of a spawned task (R29). -/
def firstOwned (s : State) (h va len : Nat) : Option Nat :=
  if len = 0 then none
  else
    let owned := ownedT0s s (s.ctxOf h)
    if owned = [] then none
    else (pagesOf va len).findSome? fun p =>
      match leafAt s h .seq p with
      | some (w, big) =>
        let pa := ptePA w + p % pageBytes big
        ((List.range 8192).map (8 * ·)).findSome? fun o =>
          if !pteHO w && owned.contains (pa + o) && va < p + o + 8 && p + o < va + len then some (max va (p + o)) else none
      | none => none

/-- The first of several findings. -/
def firstFault (l : List (Cause × Option Nat)) : Option (Cause × Word) :=
  l.findSome? (fun p => p.2.map (fun v => (p.1, addrWord v)))

/-- A handle names a session that takes new work (R111, R424 item 6). -/
def sessionOpen (s : State) (ctx : Word) (h : Nat) : Bool := (sessionOf s ctx h).any (fun x => !x.closing)

/-- R111 after ILL, in the order of R13. -/
def sdecCheck (s : State) (g sb sc sn sh : Nat) : Option (Cause × Word) :=
  let elen := 80 + min sn (2 ^ 24)
  let kd := (sessionOf s (s.ctxOf g) sh).map (·.skd)
  if sb % 64 ≠ 0 then some (.align, addrWord sb)
  else if sc % 64 ≠ 0 then some (.align, addrWord sc)
  else if 255 < sh then some (.access, 0)
  else
    match firstFault [(.access, firstOut s g sb elen), (.access, firstOut s g sc sn),
        (.access, kd.bind (fun k => firstBad s g sc sn (PageAt.notOf k))),
        (.access, firstBad s g sb elen PageAt.isLens), (.access, firstBad s g sc sn PageAt.isLens),
        (.access, firstOwned s g sc (min sn (2 ^ 24))), (.xlat, firstBad s g sb elen PageAt.unreadable), (.xlat, firstBad s g sc sn PageAt.unwritable)] with
    | some f => some f
    | none => if sessionOpen s (s.ctxOf g) sh then none else some (.session, BitVec.ofNat 64 sh)

/-- R424 after ILL, in the order of R13. -/
def sencCheck (s : State) (g sb sc sn sh : Nat) : Option (Cause × Word) :=
  let n := min sn (2 ^ 24)
  if sc % 64 ≠ 0 then some (.align, addrWord sc)
  else if 255 < sh then some (.access, 0)
  else
    match firstFault [(.access, firstOut s g sb n), (.access, firstOut s g sc (80 + n)),
        (.access, firstBad s g sc (80 + n) PageAt.isLens), (.access, firstOwned s g sc (80 + n)),
        (.xlat, firstBad s g sb n PageAt.unreadable), (.xlat, firstBad s g sc (80 + n) PageAt.unwritable)] with
    | some f => some f
    | none =>
      if (firstBad s g sb n PageAt.isLens).isSome then some (.lens, 0)
      else if sessionOpen s (s.ctxOf g) sh then none else some (.session, BitVec.ofNat 64 sh)

/-- Bytes of a report (R104). -/
def reportBytes : Nat := 51872

/-- R427 after ILL, in the order of R13. -/
def usesigCheck (s : State) (g sh dst snc : Nat) : Option (Cause × Word) :=
  if dst % 64 ≠ 0 then some (.align, addrWord dst)
  else if 255 < sh then some (.access, 0)
  else
    match firstFault [(.access, firstBad s g dst reportBytes PageAt.isOut), (.access, firstBad s g snc 32 PageAt.isOut),
        (.access, firstBad s g dst reportBytes PageAt.isLens), (.access, firstBad s g snc 32 PageAt.isLens),
        (.access, firstOwned s g dst reportBytes),
        (.xlat, firstBad s g dst reportBytes PageAt.unwritable), (.xlat, firstBad s g snc 32 PageAt.unreadable)] with
    | some f => some f
    | none => if sessionOpen s (s.ctxOf g) sh then none else some (.session, BitVec.ofNat 64 sh)

/-! ## Memory of a crypto engine -/

/-- How a read or write of an engine ends; `a` tells what has been moved. -/
inductive Moved (α : Type) where
  | ok (a : α) (s : State)
  | fails (a : α) (s : State)          -- no translation, no permission or an uncorrectable error: cause MEM
  | stops (a : α) (s : State)          -- the hall froze, or the data is not there yet

/-- A fault that is none of the MEM kind freezes the hall. An envelope page that has lost its translation since
acceptance, or whose Page Request is refused, is of the MEM kind (log 62). -/
def engineFault {α : Type} (s : State) (h : Nat) (c : Cause) (i : Word) (a : α) : Moved α :=
  if c = .integ ∨ c = .mmx then .stops a (freeze s h 8 7 0 0 0 c i []) else .fails a s

/-- Read bytes for a hall. -/
def engineRead (s : State) (h va n : Nat) : Moved (List Byte) :=
  match readPieces h (n / 64 + 2) va n s with
  | .ok bs s => .ok bs s
  | .trap c i s => engineFault s h c i []
  | .freeze c i s => .stops [] (freeze s h 8 7 0 0 0 c i [])
  | .wait s => .stops [] s

/-- A page that an engine may still write: one of a domain, where the bytes may lie in that domain's pages alone (R107). -/
def mayStore (kd : Option Nat) : Place → Bool
  | .dev _ leaf => kd.all (· == pteKD leaf)
  | .scratch .. | .host .. => kd.isNone

/-- The bytes at a place take in T0 of a spawned task (R29). -/
def ownsPlace (s : State) (ctx : Word) (va n : Nat) : Place → Bool
  | .dev pa _ => ownsT0 s ctx va n || ownsT0At s ctx pa n
  | _ => false

/-- Write bytes for a hall in rising order, with the count of those written. A page that now holds T0 of a spawned task is a
fault of the hall (R29; log 62). Load-queue entries that the bytes overlap are discarded (R187). -/
def engineWrite (h : Nat) (kd : Option Nat) : Nat → Nat → List Byte → Nat → State → Moved Nat
  | 0, _, _, done, s => .ok done s
  | f + 1, va, bs, done, s =>
    if bs = [] then .ok done s
    else
      let k := min bs.length (64 - va % 64)
      match locate s h .ce va k with
      | .ok p _ =>
        if !mayStore kd p then .fails done s
        else if ownsPlace s (s.ctxOf h) va k p then .stops done (freeze s h 8 7 0 0 0 .access (addrWord va) [])
        else
          match engWrite s h .ce va k (leNat (bs.take k)) .dflt .engine with
          | .ok _ s =>
            engineWrite h kd f (va + k) (bs.drop k) (done + k) (s.updHall h fun x => x.discardAhead (placeKey p) k)
          | .trap c i s => engineFault s h c i done
          | .freeze c i s => .stops done (freeze s h 8 7 0 0 0 c i [])
          | .wait s => .stops done s
      | .trap c i s => engineFault s h c i done
      | .freeze c i s => .stops done (freeze s h 8 7 0 0 0 c i [])
      | .wait s => .stops done s

/-- The accesses of a job whose instance has left its hall go through the context's page tables, and to host pages through
ATS (R436). A failed check ends the context (R408). -/
def tableRead (c : Ctx) : Nat → Nat → Nat → State → Moved (List Byte)
  | 0, _, _, s => .ok [] s
  | f + 1, va, n, s =>
    if n = 0 then .ok [] s
    else
      let k := min n (64 - va % 64)
      match walk s c va with
      | none => .fails [] s
      | some (w, big) =>
        let a := ptePA w + va % pageBytes big
        let rest (bs : List Byte) (s : State) : Moved (List Byte) :=
          match tableRead c f (va + k) (n - k) s with
          | .ok l s => .ok (bs ++ l) s
          | r => r
        if pteHO w then
          match atsReach s a with
          | (true, s) => rest (cread s.hostMem a k) s
          | (false, s) => .fails [] s
        else
          match l2Fetch s c.id 48 (a / 128) (pteKD w) va (pteAR w) .memSide with
          | .ok _ s => rest (unitRead s (pteKD w) (pteAR w) a k) s
          | .trap .integ _ s => .stops [] (terminate s c.id Cause.integ.code)
          | .trap _ _ s | .freeze _ _ s => .fails [] s
          | .wait s => .stops [] s

def tableWrite (c : Ctx) (kd : Option Nat) : Nat → Nat → List Byte → Nat → State → Moved Nat
  | 0, _, _, done, s => .ok done s
  | f + 1, va, bs, done, s =>
    if bs = [] then .ok done s
    else
      let k := min bs.length (64 - va % 64)
      match walk s c va with
      | some (w, big) =>
        let a := ptePA w + va % pageBytes big
        let p := if pteHO w then Place.host a w else .dev a w
        if !pteWR w || pteLN w || !mayStore kd p || ownsPlace s c.id va k p then .fails done s
        else
          match pageWrite s c va (bs.take k) with
          | (true, s) => tableWrite c kd f (va + k) (bs.drop k) (done + k) s
          | (false, s) => .fails done s
      | none => .fails done s

/-- Whether the instance that issued a job still has its hall: not one that has left it, though its record runs there
again. -/
def jobBound (s : State) (j : CryptoJob) : Bool := !j.gone && (s.hall j.hall).bind.isSome

/-- A job's reads and writes are its context's, wherever its instance is. -/
def jobRead (s : State) (j : CryptoJob) (va n : Nat) : Moved (List Byte) :=
  if jobBound s j then engineRead s j.hall va n
  else
    match s.ctx? j.ctx with
    | some c => tableRead c (n / 64 + 2) va n s
    | none => .fails [] s

def jobStore (s : State) (j : CryptoJob) (kd : Option Nat) (va : Nat) (bs : List Byte) : Moved Nat :=
  if jobBound s j then engineWrite j.hall kd (bs.length / 64 + 2) va bs 0 s
  else
    match s.ctx? j.ctx with
    | some c => tableWrite c kd (bs.length / 64 + 2) va bs 0 s
    | none => .fails 0 s

/-- A job as it stands now. -/
def setJob (s : State) (j : CryptoJob) : State :=
  let put (l : List CryptoJob) : List CryptoJob := l.map (fun k => if k.id == j.id then j else k)
  { s with sdecs := put s.sdecs, sencs := put s.sencs, sigs := put s.sigs }

/-- The status goes into its register, where the instance is still there. -/
def jobStatus (s : State) (j : CryptoJob) (st : Word) : State :=
  if jobBound s j then complete s j.hall j.reg st else s

/-- The status word of R112. -/
def sessionStatus (cause info : Nat) : Word := BitVec.ofNat 64 (cause * 2 ^ 56 + info % 2 ^ 32)

/-- The nonce of R109: direction and counter, both big-endian. -/
def gcmNonce (dir ctr : Nat) : List Byte := (leBytes 4 dir).reverse ++ (leBytes 8 ctr).reverse

/-! ## Reports (R104, R428) -/

/-- A digest's 32 bytes. -/
def digestBytes (d : Digest) : List Byte := leBytes 32 d.toNat

/-- A report's 0x7E0 signed bytes: `body` holds bytes 0x1C0 on. -/
def reportHead (s : State) (kind : Nat) (nonce : List Byte) (ctx : Word) (peers : Nat) (libdig poldig : Digest)
    (body : List Byte) : List Byte :=
  leBytes 4 0x41545431 ++ leBytes 2 1 ++ leBytes 2 kind ++ leBytes 4 (if Config.lifeDebug then 2 else 1)
    ++ leBytes 4 (Config.fwsvn s.rsc.flash).toNat ++ digestBytes (Config.shake256 Config.identityKey) ++ digestBytes s.rsc.nonce
    ++ fitBytes 32 nonce ++ s.rsc.meas.flatMap digestBytes ++ leBytes 8 ctx.toNat
    ++ leBytes 8 peers ++ digestBytes libdig ++ digestBytes poldig ++ fitBytes 1568 body

/-- The RSC returns its certificate with every report (R103; log 56). -/
def certify (s : State) : State := { s with rsc := { s.rsc with cert := Config.certificate } }

/-- The signed report. -/
def signedReport (head : List Byte) : List Byte := head ++ fitBytes 49856 (Config.sign Config.identitySeed head)

/-- The body of a usage report from SID to RC (R428). -/
def usageBody (sid : Word) (handle : Nat) (final : Bool) (count rseq nrq rc : Nat) : List Byte :=
  leBytes 8 sid.toNat ++ leBytes 1 handle ++ leBytes 1 (b2n final) ++ List.replicate 6 0 ++ leBytes 8 count ++ leBytes 8 rseq
    ++ leBytes 8 nrq ++ leBytes 8 rc ++ List.replicate 1520 0

/-- A final report, from its snapshot (R431 step 3). -/
def finalReport (s : State) (f : Final) : List Byte :=
  signedReport (reportHead s 2 [] f.ctx f.peers f.libdig f.poldig (usageBody f.sid f.handle true f.count f.rseq f.nrq f.rc))

/-- The RSC answers a management request (R433): the header of the response with CODE, STATUS, LEN and TAG, what it carries,
and then the low 32 bits of TAG. -/
def respond (s : State) (tag : Word) (status : Nat) (a : Answer) : State :=
  let body := (Config.answerBody a).take 0x7FEC
  let head := leBytes 2 s.rsc.code ++ leBytes 2 status ++ leBytes 4 body.length ++ leBytes 8 tag.toNat
  { s with rsc := { s.rsc with reply := tag.truncate 32, status := status, answer := a, response := head ++ body } }

/-- The RSC writes a buffer of the host, through ATS and for the physical function (R433, R436); false where the host gives
no translation (log 82). -/
def toBuffer (s : State) (buf : Nat) (bs : List Byte) : Bool × State :=
  match atsSpan s buf bs.length with
  | (true, s) =>
    (true, { endCarry s (keyOfHost buf) bs.length with hostMem := cwrite s.hostMem buf bs, lastTlp := some (0, none) })
  | (false, s) => (false, s)

/-! ## SDEC (R110 to R114)

SDEC, SENC and USESIG come after every earlier store of the hall, posted REDs among them (R113, R366, R425). -/

def sdecEff (g : Nat) (a b c d e : Reg) (s : State) : Res Unit :=
  let r (q : Reg) : Nat := (s.rc g q).toNat
  let s := if r b % 64 = 0 ∧ r c % 64 = 0 then checkPages s g [(r b, 80 + min (r d) (2 ^ 24)), (r c, r d)] else s
  match sdecCheck s g (r b) (r c) (r d) (r e) with
  | some f => .trap f.1 f.2 s
  | none =>
    if (s.hall g).posted ≠ [] then .wait s else
    let j : CryptoJob := ⟨s.ids, g, s.ctxOf g, a.val, r e, r b, r c, r d, [], 0, false, false, [], none⟩
    .ok () (setPending { s with ids := s.ids + 1, sdecs := s.sdecs ++ [j] } g a)

def execSdec (h : SHdr) (a b c d e : Reg) (s : State) : Out :=
  .next (cWord h [b, c, d, e] [a] (fun g s => sdecEff g a b c d e s) s)

/-- A field of a header, little-endian. -/
def fieldOf (bs : List Byte) (off n : Nat) : Nat := leNat ((bs.drop off).take n)

/-- A malformed request header (R108). -/
def formBad (h : List Byte) : Bool :=
  fieldOf h 0 4 != 0x4E564531 || fieldOf h 4 2 != 1 || fieldOf h 6 2 != 1 || fieldOf h 0x1C 36 != 0

/-- A job's place in its session (R114, R425): it is the first of the accepted ones; in REPLAY, where the records give the
order of different halls, the first of its hall while no other is under way. -/
def mayRun (s : State) (jobs : List CryptoJob) (j : CryptoJob) (busy : CryptoJob → Bool) : Bool :=
  let mine := jobs.filter (fun k => k.ctx == j.ctx && k.handle == j.handle)
  if replays s j.ctx then
    (mine.find? (fun k => k.hall == j.hall)).any (·.id == j.id) && mine.all (fun k => k.id == j.id || !busy k)
  else mine.head?.any (·.id == j.id)

/-- A session that has begun to close ends once its accepted requests are complete (R431). Where the host gives no
translation of the buffer of a CLOSE, the snapshot joins the queue of final reports (log 82). -/
def closeIfDone (s : State) (ctx : Word) (h : Nat) : State :=
  let busy (l : List CryptoJob) : Bool := l.any (fun j => j.ctx == ctx && j.handle == h)
  match s.ctx? ctx with
  | none => s
  | some c =>
    match c.session? h with
    | none => s
    | some x =>
      if !x.closing || busy s.sdecs || busy s.sencs || busy s.sigs then s
      else
        match x.closer with
        | none => closeSession s c x true
        | some (tag, buf) =>
          match toBuffer s buf (finalReport s (finalOf c x)) with
          | (true, s) => respond (closeSession (certify s) c x false) tag 0 .none
          | (false, s) => respond (closeSession s c x true) tag 2 .none

/-- The engine's work on an envelope that has been read (R112): what is stored, whether NRQ advances, and the status. -/
def sdecOpen (x : Session) (h ct tag : List Byte) : Option (List Byte) :=
  Config.gcmOpen x.key (gcmNonce 1 (fieldOf h 0x10 8)) h (ct.take (fieldOf h 0x18 4)) (tag.take 16)

/-- The end of an SDEC. -/
def sdecFinish (j : CryptoJob) (cause info : Nat) (s : State) : State :=
  closeIfDone (jobStatus { s with sdecs := s.sdecs.filter (fun k => k.id != j.id) } j (sessionStatus cause info)) j.ctx j.handle

/-- The engine stores what stands in the job: plaintext, or zeros over what an SDEC that fails has written (R113). Plaintext
goes into pages of SKD alone (R107); a page that has changed hands since acceptance counts as lost (log 38). Zeros pass over
a lost page to the next, and the cause is then MEM. `n`: stores that may follow. -/
def sdecStore (skd : Nat) (j : CryptoJob) : Nat → StoreWork → State → State
  | 0, w, s => setJob s { j with work := some w }
  | n + 1, w, s =>
    match jobStore s j (some skd) (j.dst + w.wrote) w.bytes with
    | .ok _ s =>
      let s := if w.cause = 0 then updSession s j.ctx j.handle fun x => { x with nrq := x.nrq + 1 } else s
      sdecFinish j w.cause w.info s
    | .fails k s =>
      if w.wipe then
        let at' := w.wrote + k
        let skip := 65536 - (j.dst + at') % 65536
        sdecStore skd j n { w with wrote := at' + skip, bytes := w.bytes.drop (k + skip), cause := 6 } s
      else if w.wrote + k = 0 then sdecFinish j 6 0 s
      else sdecStore skd j n ⟨0, List.replicate (w.wrote + k) 0, true, 6, 0⟩ s
    | .stops k s => setJob s { j with work := some { w with wrote := w.wrote + k, bytes := w.bytes.drop k } }

/-- The engine's work once the header is read (R112, R113). -/
def sdecBody (x : Session) (j : CryptoJob) (s : State) : State :=
  let h := j.data
  let len := fieldOf h 0x18 4
  let stores := len / 65536 + 4
  let wiped (cause : Nat) : StoreWork := ⟨0, List.replicate len 0, true, cause, 0⟩
  if formBad h then sdecFinish j 4 0 s
  else if fieldOf h 8 8 ≠ x.sid.toNat then sdecFinish j 3 0 s
  else if fieldOf h 0x10 8 ≠ x.nrq then sdecFinish j 2 x.nrq s
  else if len = 0 ∨ 2 ^ 24 < len ∨ j.len < len then sdecFinish j 5 0 s
  else
    match jobRead s j (j.src + 64) (len + 16) with
    | .stops _ s => s
    | .fails _ s => sdecStore x.skd j stores (wiped 6) s
    | .ok body s =>
      match sdecOpen x h (body.take len) (body.drop len) with
      | none => sdecStore x.skd j stores (wiped 1) s
      | some pt => sdecStore x.skd j stores ⟨0, fitBytes len pt, false, 0, len⟩ s

/-- SDEC_COMPLETE (R112 to R114): the header is read once, the SDEC takes its place in the session's order, which is logged
once, and the engine works. One whose header cannot be read ends unlogged, its SEQ being unknown (log 63). -/
def sdecComplete (s : State) (id : Nat) : State :=
  match s.sdecs.find? (fun j => j.id == id) with
  | none => s
  | some j =>
    match sessionOf s j.ctx j.handle with
    | none => s
    | some x =>
      if !mayRun s s.sdecs j (·.started) then s
      else if j.started then
        match j.work with
        | some w => sdecStore x.skd j (w.bytes.length / 65536 + 4) w s
        | none => sdecBody x j s
      else
        match (if j.data = [] then jobRead s j j.src 64 else .ok j.data s) with
        | .stops _ s => s
        | .fails _ s => sdecFinish j 6 0 s
        | .ok h s =>
          let j := { j with data := h }
          match logEvent (setJob s j) j.ctx
              ⟨0x7000 + j.handle, srcSeq j.hall, 2, 0xC, j.handle, BitVec.ofNat 64 (fieldOf h 0x10 8)⟩ with
          | .go s => let j := { j with started := true }; sdecBody x j (setJob s j)
          | .stall s => s
          | .diverge i s => freeze s j.hall 8 7 0 0 0 .mrdiv i []

def execSdecComplete (id : Nat) (s : State) : Out := .next (sdecComplete s id)

/-! ## SENC (R423 to R425) -/

def sencEff (g : Nat) (a b c d e : Reg) (s : State) : Res Unit :=
  let r (q : Reg) : Nat := (s.rc g q).toNat
  let s := if r c % 64 = 0 then checkPages s g [(r b, r d), (r c, 80 + min (r d) (2 ^ 24))] else s
  match sencCheck s g (r b) (r c) (r d) (r e) with
  | some f => .trap f.1 f.2 s
  | none =>
    if (s.hall g).posted ≠ [] then .wait s else
    let j : CryptoJob := ⟨s.ids, g, s.ctxOf g, a.val, r e, r b, r c, r d, [], 0, false, false, horizon s g, none⟩
    .ok () (setPending { s with ids := s.ids + 1, sencs := s.sencs ++ [j] } g a)

def execSenc (h : SHdr) (a b c d e : Reg) (s : State) : Out :=
  .next (cWord h [b, c, d, e] [a] (fun g s => sencEff g a b c d e s) s)

/-- The header of a reply (R108, R424). -/
def replyHeader (x : Session) (len : Nat) : List Byte :=
  leBytes 4 0x4E564531 ++ leBytes 2 1 ++ leBytes 2 2 ++ leBytes 8 x.sid.toNat ++ leBytes 8 x.rc ++ leBytes 4 len
    ++ List.replicate 36 0

/-- The end of a SENC. -/
def sencFinish (j : CryptoJob) (cause info : Nat) (s : State) : State :=
  closeIfDone (jobStatus { s with sencs := s.sencs.filter (fun k => k.id != j.id) } j (sessionStatus cause info)) j.ctx j.handle

/-- The envelope is written; RC advances with it, and with one that loses a page once ciphertext is out (R425). -/
def sencStore (j : CryptoJob) (w : StoreWork) (s : State) : State :=
  let up (s : State) : State := updSession s j.ctx j.handle fun x => { x with rc := x.rc + 1 }
  match jobStore s j none (j.dst + w.wrote) w.bytes with
  | .stops k s => setJob s { j with work := some { w with wrote := w.wrote + k, bytes := w.bytes.drop k } }
  | .fails k s => sencFinish j 6 0 (if 64 < w.wrote + k then up s else s)
  | .ok _ s => sencFinish j 0 j.len (up s)

/-- The reply is sealed and written (R424, R425): only now, for the write is the egress. -/
def sencSeal (s : State) (j : CryptoJob) (x : Session) : State :=
  let hd := replyHeader x j.len
  let (ct, tag) := Config.gcmSeal x.key (gcmNonce 2 x.rc) hd j.data
  sencStore j ⟨0, hd ++ fitBytes j.len ct ++ fitBytes 16 tag, false, 0, j.len⟩ s

/-- The device lines that a job reads. -/
def jobLines (s : State) (j : CryptoJob) (va n : Nat) : List Nat :=
  let vas := (pieces n va n).map (·.1)
  if jobBound s j then sourceLines s j.hall vas
  else vas.filterMap (fun v => (s.ctx? j.ctx).bind (fun c => (devicePage s c v false).map (·.1 / 128)))

/-- The checks under way of the lines that a job reads, which it depends on as an egress (R125 item 4), of a read that waits
too. -/
def jobChecks (s : State) (j : CryptoJob) (va n : Nat) : List Nat :=
  (lineChecks s (if jobBound s j then j.hall else 48) (jobLines s j va n)).filter (!j.checks.contains ·)

/-- Whether an egress of a context may leave: its horizon is reached and no INTEG is pending (R126). -/
def mayLeave (s : State) (ctx : Word) (checks : List Nat) : Bool := (underWay s checks).isEmpty && !integPending s ctx

/-- The engine's work on a SENC that has its place in the session's order. -/
def sencWork (s : State) (j : CryptoJob) (x : Session) : State :=
  if j.len = 0 ∨ 2 ^ 24 < j.len then sencFinish j 5 0 s
  else if 2 ^ 64 ≤ x.rc then sencFinish j 2 0 s
  else if !j.started then
    let read (t : State) : CryptoJob := { j with checks := j.checks ++ jobChecks t j j.src j.len }
    match jobRead s j j.src j.len with
    | .stops _ t => setJob t (read t)
    | .fails _ s => sencFinish j 6 0 s
    | .ok pt t => setJob t { read t with data := pt, started := true }
  else if !mayLeave s j.ctx j.checks then s
  else
    match j.work with
    | some w => sencStore j w s
    | none => sencSeal s j x

/-- SENC_COMPLETE: the SENC takes its place in the session's order, which is logged once with the RC it uses (R429); the
engine reads the plaintext once, and once its horizon is reached seals and writes the envelope. -/
def sencComplete (s : State) (id : Nat) : State :=
  match s.sencs.find? (fun j => j.id == id) with
  | none => s
  | some j =>
    match sessionOf s j.ctx j.handle with
    | none => s
    | some x =>
      if !mayRun s s.sencs j (·.seqno == 1) then s
      else if j.seqno = 1 then sencWork s j x
      else
        match logEvent s j.ctx ⟨0x7000 + j.handle, srcSeq j.hall, 2, 0xE, j.handle, BitVec.ofNat 64 x.rc⟩ with
        | .stall s => s
        | .diverge i s => freeze s j.hall 8 7 0 0 0 .mrdiv i []
        | .go s => let j := { j with seqno := 1 }; sencWork (setJob s j) j x

def execSencComplete (id : Nat) (s : State) : Out := .next (sencComplete s id)

/-! ## USEINC and USESIG (R426 to R429) -/

def useincEff (g : Nat) (b c : Reg) (s : State) : Res Unit :=
  let h := (s.rc g b).toNat
  let v := s.rc g c
  let ctx := s.ctxOf g
  if 255 < h then .trap .access 0 s
  else if !sessionOpen s ctx h then .trap .session (BitVec.ofNat 64 h) s
  else logged s ctx ⟨0x7000 + h, srcSeq g, 2, 0xF, h, v⟩ fun s =>
    .ok () (updSession s ctx h fun x => { x with count := min (2 ^ 64 - 1) (x.count + v.toNat) })

def execUseinc (h : SHdr) (b c : Reg) (s : State) : Out := .next (cWord h [b, c] [] (fun g s => useincEff g b c s) s)

/-- At acceptance the RSC reads the nonce and takes the snapshot. -/
def usesigEff (g : Nat) (a b c d : Reg) (s : State) : Res Unit :=
  let r (q : Reg) : Nat := (s.rc g q).toNat
  let ctx := s.ctxOf g
  let h := r b
  let s := if r c % 64 = 0 then checkPages s g [(r c, reportBytes), (r d, 32)] else s
  match usesigCheck s g h (r c) (r d) with
  | some f => .trap f.1 f.2 s
  | none =>
    if 16 ≤ s.sigs.length ∨ (s.hall g).posted ≠ [] then .wait s
    else
      match sessionOf s ctx h with
      | none => .trap .session (BitVec.ofNat 64 h) s
      | some x =>
        let past := horizon s g
        let own (s : State) : List Nat := lineChecks s g (sourceLines s g [r d, r d + 31])
        let job (bs : List Byte) (n : Nat) (s : State) : Res Unit :=
          logged s ctx ⟨0x7000 + h, srcSeq g, 2, 0xF, h + 2 ^ 55, 0⟩ fun s =>
          .ok () (setPending { s with
            ids := s.ids + 1
            sigs := s.sigs ++ [⟨s.ids, g, ctx, a.val, h, r d, r c, reportBytes, bs, n, true, false,
              past ++ own s, none⟩] } g a)
        match engineRead s g (r d) 32 with
        | .stops _ t => .wait t
        | .fails _ s => job [] 0 s
        | .ok nonce s =>
          (job (nonce ++ usageBody x.sid h false x.count (x.rseq + 1) x.nrq x.rc) (x.rseq + 1) s).andThen fun _ s =>
          .ok () (updSession s ctx h fun x => { x with rseq := x.rseq + 1 })

def execUsesig (h : SHdr) (a b c d : Reg) (s : State) : Out :=
  .next (cWord h [b, c, d] [a] (fun g s => usesigEff g a b c d s) s)

/-- The report is written. A report page that has lost its translation or its write permission: the spec states no status
(log 15). -/
def usesigStore (j : CryptoJob) (w : StoreWork) (s : State) : State :=
  let finish (st : Word) (s : State) : State :=
    closeIfDone (jobStatus { s with sigs := s.sigs.filter (fun k => k.id != j.id) } j st) j.ctx j.handle
  match jobStore s j none (j.dst + w.wrote) w.bytes with
  | .stops k s => setJob s { j with work := some { w with wrote := w.wrote + k, bytes := w.bytes.drop k } }
  | .ok _ s => finish (sessionStatus 0 j.seqno) s
  | .fails _ s => let (k, s) := s.draw; finish (Config.freeWord k) s

/-- USESIG_COMPLETE (R427): once the horizon is reached the RSC signs and writes. -/
def usesigComplete (s : State) (id : Nat) : State :=
  match s.sigs.find? (fun j => j.id == id) with
  | none => s
  | some j =>
    if j.data = [] then
      closeIfDone (jobStatus { s with sigs := s.sigs.filter (fun k => k.id != id) } j (sessionStatus 6 0)) j.ctx j.handle
    else if !mayLeave s j.ctx j.checks then s
    else
      match j.work with
      | some w => usesigStore j w s
      | none =>
        let c := s.ctx? j.ctx
        usesigStore j ⟨0, signedReport (reportHead s 2 (j.data.take 32) j.ctx ((c.map Ctx.peerMask).getD 0)
          ((c.map (·.libdig)).getD 0) ((c.map Ctx.poldig).getD 0) (j.data.drop 32)), false, 0, j.seqno⟩ (certify s)

def execUsesigComplete (id : Nat) (s : State) : Out := .next (usesigComplete s id)

/-! ## The integrity horizon (R125 to R127, R408) -/

/-- IWAIT: its horizon is fixed when it issues; it acquires the check results (R125, R127, R187). -/
def iwaitEff (g : Nat) (s : State) : Res Unit :=
  let ids := (s.hall g).horizon.getD (horizon s g)
  if mayLeave s (s.ctxOf g) ids then .ok () (acquire (s.updHall g fun x => { x with horizon := none }) g false [])
  else .wait (s.updHall g fun x => { x with horizon := some ids })

def execIwait (h : SHdr) (s : State) : Out := .next (cWord h [] [] iwaitEff s)

/-- The checks that an egress waits for: a copy's data waits for all the copy's reads, which must have been made (R285). -/
def Egress.needs (e : Egress) (s : State) : Option (List Nat) :=
  match e.job with
  | none => some e.checks
  | some id =>
    (s.halls.findSome? (fun p => p.2.copies.find? (fun j => j.id == id))).bind fun j =>
      if j.done < j.len then none else some (e.checks ++ j.checks)

/-- The egress at the front of a hall's reaches its host page: one whose translation the host has since invalidated
translates again (R436). A refused one raises XLAT, and waits until the hall goes on; where its instance has gone, the
context is told and it is given up. None: it does not leave now. -/
def egressReach (e : Egress) (s : State) : Option State × State :=
  let runs := s.ctxOf e.hall = e.ctx ∧ (s.hall e.hall).bind.isSome
  if s.ats.contains (e.host / 65536) then (some s, s)
  else if runs ∧ (s.hall e.hall).held then (none, s)
  else
    match atsReach s e.host with
    | (true, s) => (some s, s)
    | (false, s) =>
      if runs then (none, freeze s e.hall (if e.job.isSome then 9 else 8) 7 0 0 0 .xlat (addrWord e.va) [])
      else (none, notifyEvent { s with egress := s.egress.filter (fun k => k.id != e.id) } e.ctx .xlat (addrWord e.va) 0 [])

/-- The egresses of a hall, in order, whose horizons are reached leave (R126). -/
def leaveEgress (h : Nat) : List Egress → State → State
  | [], s => s
  | e :: es, s =>
    if e.hall ≠ h then leaveEgress h es s
    else
      match e.needs s with
      | none => s
      | some ids =>
        if !mayLeave s e.ctx ids then s
        else
          match egressReach e s with
          | (none, s) => s
          | (some s, _) =>
            leaveEgress h es { hostPut s e.ctx e.host e.data with egress := s.egress.filter (fun k => k.id != e.id) }

/-- Every hall's. -/
def leaveAll (s : State) : State := (s.egress.map (·.hall)).dedup.foldl (fun s h => leaveEgress h s.egress s) s

/-- HORIZON_REACHED (R126): the checks that an egress waits for pass, and the hall's egresses up to it leave; or one check
passes. -/
def horizonReached (s : State) (id : Nat) : State :=
  match s.egress.find? (fun e => e.id == id) with
  | some e =>
    if integPending s e.ctx then s
    else
      let ids := (e.needs s).getD []
      leaveEgress e.hall s.egress { s with checks := s.checks.filter (fun c => !ids.contains c.id) }
  | none => { s with checks := s.checks.filter (fun c => c.id != id) }

def execHorizonReached (id : Nat) (s : State) : Out := .next (horizonReached s id)

/-- The halls that have received a line whose check is under way. -/
def receivers (s : State) (ctx : Word) (line : Nat) : List Nat :=
  (((s.checks.filter (fun k => k.ctx == ctx && k.line == line)).map (·.hall)).filter (· < 48)).dedup

/-- INTEG_FAIL: a check under way fails (R126, R408). Every hall that received the line freezes, and their context ends. -/
def integFail (s : State) (id : Nat) : State :=
  match s.checks.find? (fun c => c.id == id) with
  | none => s
  | some c =>
    let info := addrWord (128 * c.line % 2 ^ 48)
    let stop (s : State) (h : Nat) : State := writeEvent (holdTask s h) (freezeEvent s h 8 7 0 0 0 .integ info [])
    let s := (receivers s c.ctx c.line).foldl stop (s.updCtx c.ctx fun k => { k with integ := true })
    terminate s c.ctx Cause.integ.code

def execIntegFail (id : Nat) (s : State) : Out := .next (integFail s id)

end Sys2Proof.Machine
end

