-- ==== Sys2Proof/Machine/Links.lean ====
section
/-! DEFINITION. What arrives from the host and from other packages, and the link outbox (spec/05 R120 to R123, spec/14
R359, spec/18 R436, R438 to R445). -/

namespace Sys2Proof.Machine

/-! ## Produces and pod messages that arrive (R122, R359, R373, R443) -/

/-- The hall of a dispatcher whose mailbox takes writes: it runs and is not held (R123). -/
def liveDispatcher (s : State) (ctx : Word) : Option Nat :=
  match dispatcherHall s ctx with
  | some h => if (s.hall h).res == .running && !(s.hall h).held then some h else none
  | none => none

/-- One word produced from the host, at its turn at the bank port and in the Mirror; false while it waits. -/
def deliverHost (s : State) (stamp : Nat) (ctx : Word) (vf word v : Nat) : Bool × State :=
  match liveDispatcher s ctx with
  | none => (true, s)
  | some h =>
    let x := s.hall h
    let off := mailboxOff x word
    if portBusyAt s h off 4 stamp then (false, s)
    else
    match logEvent s ctx ⟨nodeOfScratch x h off, 60 * 1024 + vf % 64, 1, 8, off, BitVec.ofNat 64 v⟩ with
    | .go s => (true, produceNow s h off v)
    | .stall s => (false, s)
    | .diverge i s => (true, freeze s h 8 7 0 0 0 .mrdiv i [])

/-- The ranges a message writes at its target: data or RED word, and produced word. -/
def podInside (m : PodMsg) (x : Hall) : Bool :=
  (m.kind == 3 || scratchOk x m.doff (max 4 m.data.length)) && (m.kind == 0 || m.kind == 2 || scratchOk x m.poff 4)

/-- A message performs at its target hall (R443): data, then the produce or the RED; nothing at all where a range lies
outside the scratchpad or in a lens-mode facet. A dispatcher's hall that is held takes no produce (R123, R415), and word
1023 of its mailbox takes none of a message's: the RSC alone produces it (R120; log 65). -/
def deliverPod (s : State) (stamp : Nat) (ctx : Word) (m : PodMsg) : Bool × State :=
  let h := m.hall.val
  let x := s.hall h
  if x.ctx? ≠ some ctx ∨ x.res ≠ .running ∨ !podInside m x then (true, s)
  else
    let store (s : State) : State :=
      if m.kind = 0 ∨ m.kind = 1 then
        (endCarry s (keyOfScratch h m.doff) m.data.length).updHall h fun x => x.put m.doff m.data
      else s
    let busy := (m.kind != 3 && portBusyAt s h m.doff (max 4 m.data.length) stamp)
      || ((m.kind == 1 || m.kind == 3) && portBusyAt s h m.poff 4 stamp)
    let src := 61 * 1024 + m.fromPkg.val
    let pval := m.pval.toNat
    let log (e : LogEv) (k : State → State) : Bool × State :=
      match logEvent s ctx e with
      | .go s => (true, k (store s))
      | .stall s => (false, s)
      | .diverge i s => (true, freeze s h 8 7 0 0 0 .mrdiv i [])
    if busy then (false, s)
    else if m.kind = 0 then (true, store s)
    else if m.kind = 2 then
      if x.badAt m.doff 4 then (true, freeze s h 8 7 0 0 0 .memerr (addrWord (ownBase + m.doff)) [])
      else log ⟨nodeOfScratch x h m.doff, src, 2, 0xA, ownBase + m.doff, BitVec.ofNat 64 pval⟩ fun s =>
        (endCarry s (keyOfScratch h m.doff) 4).updHall h fun x => x.put m.doff (leBytes 4 (cval x.scratch m.doff 4 + pval))
    else if x.bind.any (fun b => b.task.va == dispVA) && (x.held || m.poff == mailboxOff x 1023) then (true, store s)
    else log ⟨nodeOfScratch x h m.poff, src, 1, 9, m.poff, BitVec.ofNat 64 pval⟩ fun s => produceNow s h m.poff pval

/-- Two arrivals that keep their order: writes of one function, and messages from one hall to one hall (R122, R444). -/
def Arrival.ordered : Arrival → Arrival → Bool
  | .host c f _ _, .host c' f' _ _ => c == c' && f == f'
  | .pod c m, .pod c' m' => c == c' && m.fromPkg == m'.fromPkg && m.fromHall == m'.fromHall && m.hall == m'.hall
  | .word h off _, .word h' off' _ => h == h' && off == off'
  | .notice c _, .notice c' _ => c == c'
  | _, _ => false

/-- A session notice is produced once the dispatcher is resident (R107). -/
def deliverNotice (s : State) (stamp : Nat) (ctx : Word) (v : Nat) : Bool × State :=
  match s.ctx? ctx, dispatcherHall s ctx with
  | none, _ => (true, s)
  | some _, none => (false, s)
  | some _, some h =>
    let off := mailboxOff (s.hall h) 1023
    if portBusyAt s h off 4 stamp then (false, s) else (true, produceNow s h off v)

def deliver (s : State) (stamp : Nat) : Arrival → Bool × State
  | .host c vf w v => deliverHost s stamp c vf w v
  | .pod c m => deliverPod s stamp c m
  | .word h off v => if portBusyAt s h off 4 stamp then (false, s) else (true, produceNow s h off v)
  | .notice c v => deliverNotice s stamp c v

/-- Arrivals perform in order; one that waits holds back those ordered behind it alone (R395). -/
def drain : List (Nat × Arrival) → List Arrival → State → State
  | [], _, s => s
  | a :: as, waiting, s =>
    let put (s : State) : State := { s with arrivals := s.arrivals ++ [a] }
    if waiting.any (fun w => w.ordered a.2) then drain as waiting (put s)
    else
      match deliver s a.1 a.2 with
      | (true, s) => drain as waiting s
      | (false, s) => drain as (a.2 :: waiting) (put s)

def drainArrivals (s : State) : State := if s.arrivals = [] then s else drain s.arrivals [] { s with arrivals := [] }

/-- The context behind a mailbox slot (R121); none once its dispatcher has executed EXIT (R123). -/
def slotContext (s : State) (vf slot : Nat) : Option Ctx :=
  match s.ctxs.find? (fun p => p.2.vf == vf && p.2.slot == slot) with
  | some (_, c) => if s.tasks.any (fun t => t.id == ⟨c.id, dispVA⟩) then some c else none
  | none => none

/-- Mailbox words of a write whose four byte enables are all set, in rising order (R121, R122). -/
def producedWords (off : Nat) (data : List Byte) (be : List Bool) : List (Nat × Nat) :=
  let en (a : Nat) : Bool := off ≤ a && a - off < data.length && be.getD (a - off) false
  ((List.range ((off + data.length) / 4 + 1)).filter (fun w =>
    w < 1023 && (List.range 4).all (fun i => en (4 * w + i)))).map
    (fun w => (w, leNat ((data.drop (4 * w - off)).take 4)))

/-- HOST_PRODUCE (R121, R122, R410, R435). -/
def hostProduce (s : State) (vf slot off : Nat) (data : List Byte) (be : List Bool) (ide : Bool) : State :=
  let f := s.vf vf
  if s.phase ≠ .running ∨ f.fenced ∨ (f.tdi = .run ∧ !ide) then s
  else
    match slotContext s vf slot with
    | none => s
    | some c => drainArrivals ((producedWords off data be).foldl (fun s w => s.arrive (.host c.id vf w.1 w.2)) s)

def execHostProduce (vf : Nat) (slot : Fin 16) (off : Nat) (data : List Byte) (be : List Bool) (ide : Bool) (s : State) :
    Out := .next (hostProduce s vf slot.val off data be ide)

/-- What the host reads in a context slot (R121, R123, R410): the F bits of the mailbox. -/
def hostView (s : State) (vf slot off : Nat) : Byte :=
  if (s.vf vf).fenced || off < 0x1000 || 0x1080 ≤ off then 0
  else
    match slotContext s vf slot with
    | none => 0
    | some c =>
      match liveDispatcher s c.id with
      | none => 0xFF
      | some h =>
        let x := s.hall h
        BitVec.ofNat 8 (((List.range 8).map (fun i =>
          b2n (x.full.contains (x.size / 4 - 1024 + 8 * (off - 0x1000) + i)) * 2 ^ i)).sum)

/-- A pod message arrives (R440, R443): its sender must be a present peer of the context bound to the target hall. -/
def podRemoteWrite (s : State) (m : PodMsg) : State :=
  match s.ctx? (s.ctxOf m.hall.val) with
  | none => s
  | some c =>
    if s.phase = .running ∧ c.present.contains (m.fromPkg.val, m.fromCtx)
        ∧ s.links.any (fun l => l.2.1 == m.fromPkg.val)
    then drainArrivals (s.arrive (.pod c.id m)) else s

def execPodRemoteWrite (m : PodMsg) (s : State) : Out := .next (podRemoteWrite s m)

/-! ## The link outbox (R441 to R444) -/

/-- Scratch offset of an outbox slot. -/
def outboxOff (x : Hall) (slot : Nat) : Nat := x.size - 8192 + 64 * slot

/-- w15 of a slot is full. -/
def slotFull (x : Hall) (slot : Nat) : Bool := x.full.contains ((outboxOff x slot + 60) / 4)

/-- The slots of pod contexts whose w15 is full join their hall's order of filling, and those emptied leave it. -/
def noteOutbox (s : State) : State :=
  let podCtx (x : Hall) : Bool := (x.ctx?.bind s.ctx?).any (fun c => c.peers != [])
  if s.ctxs.all (fun p => p.2.peers == []) then s
  else { s with halls := s.halls.map (fun p =>
    (p.1, if podCtx p.2 then
      let kept := p.2.outq.filter (slotFull p.2)
      { p.2 with outq := kept ++ (List.range 64).filter (fun k => slotFull p.2 k && !kept.contains k) }
    else p.2)) }

/-- Fields of a descriptor (R442). -/
def dSrc (w : List Nat) : Nat := w.getD 0 0 + w.getD 1 0 * 2 ^ 32
def dKind (w : List Nat) : Nat := nbits (w.getD 3 0) 16 4
def dHall (w : List Nat) : Nat := nbits (w.getD 3 0) 8 6
def dPkg (w : List Nat) : Nat := nbits (w.getD 3 0) 0 6

/-- R442: a value outside its limit. -/
def outboxBad (w : List Nat) : Bool :=
  let g (i : Nat) : Nat := w.getD i 0
  let k := dKind w
  let len := g 2
  nbits (g 1) 24 8 != 0
  || (if k ≤ 1 then len < 4 || 65536 < len || len % 4 != 0 else len != 0)
  || nbits (g 3) 20 12 != 0 || 3 < k || nbits (g 3) 14 2 != 0 || 48 ≤ dHall w || nbits (g 3) 6 2 != 0
  || g 4 % 4 != 0 || (k == 3 && g 4 != 0)
  || g 5 % 4 != 0 || ((k == 0 || k == 2) && g 5 != 0)
  || (k == 0 && g 6 != 0)
  || (List.range 7).any (fun i => g (7 + i) != 0)
  || nbits (g 15) 16 16 != 0x5044

/-- The source of a PUT (R443): any failure but INTEG is the status SRC. -/
def outboxRead (s : State) (g : Nat) (w : List Nat) : Moved (List Byte) :=
  match readPieces g (w.getD 2 0 / 64 + 2) (dSrc w) (w.getD 2 0) s with
  | .ok bs s => .ok bs s
  | .trap c i s | .freeze c i s => if c = .integ then .stops [] (freeze s g 8 7 0 0 0 c i []) else .fails [] s
  | .wait s => .stops [] s

/-- The engine takes the next slot of a hall: as LDE it empties w15, with a release at pod scope of every write of the hall,
its posted REDs among them, and it reads the descriptor and the source. Whether the target hall is bound to the peer's
context, which comes before the source's checks, the far end knows (log 7). -/
def outboxTake (s : State) (g slot : Nat) : State :=
  let x := s.hall g
  match x.bind, s.ctx? (s.ctxOf g) with
  | some _, some c =>
    if x.res ≠ .running ∨ c.peers = [] ∨ x.outq.head? ≠ some slot ∨ x.posted ≠ []
        ∨ 8 ≤ (s.sends.filter (fun p => p.1 == g)).length then s
    else
      match release s g true with
      | .trap k i s | .freeze k i s => freeze s g 8 7 0 0 0 k i []
      | .wait s => s
      | .ok _ s =>
        let off := outboxOff x slot
        let w := (List.range 16).map (fun i => cval x.scratch (off + 4 * i) 4)
        let put := decide (dKind w < 2)
        let past := horizon s g
        let own (s : State) : List Nat :=
          if put then lineChecks s g (sourceLines s g ((pieces (w.getD 2 0) (dSrc w) (w.getD 2 0)).map (·.1))) else []
        let take (status : Nat) (data : List Byte) (s : State) : State :=
          { s.updHall g fun x => { x.setFull ((off + 60) / 4) 1 false with outq := x.outq.drop 1 } with
            sends := s.sends ++ [(g, ⟨slot, w.map (BitVec.ofNat 32), data, none, status, c.id, false, past ++ own s⟩)] }
        if outboxBad w then take 1 [] s
        else if !c.present.any (fun p => p.1 == dPkg w) then take 2 [] s
        else
          let (k, s) := s.draw
          if !Config.freeBool k then take 2 [] s
          else if !put then take 0 [] s
          else
            match outboxRead s g w with
            | .ok data s => take 0 data s
            | .fails _ s => take 3 [] s
            | .stops _ s => s
  | _, _ => s

def execLinkOutboxTake (hall : HallId) (slot : Fin 64) (s : State) : Out := .next (outboxTake s hall.val slot.val)

/-- The status is stored in w14 and set full as STF.w does. -/
def sendStatus (s : State) (g : Nat) (j : LinkSend) (cause : Nat) : State :=
  let s := { s with sends := s.sends.filter (fun p => p != (g, j)) }
  if !j.gone && (s.hall g).bind.isSome then
    produce s g (outboxOff (s.hall g) j.slot + 56) (cause * 2 ^ 24 + (lget j.words 15).toNat % 2 ^ 16)
  else s

/-- The target of a send. -/
def LinkSend.target (j : LinkSend) : Nat × Nat := let w := j.words.map BitVec.toNat; (dPkg w, dHall w)

/-- An earlier send of the hall to the same target has still to perform (R444). -/
def sendBehind (s : State) (g : Nat) (j : LinkSend) : Bool :=
  (s.sends.takeWhile (fun p => p != (g, j))).any (fun p => p.1 == g && p.2.status == 0 && p.2.target == j.target)

/-- A link's runs of a send have verified (R438): its data in flits of 256 bytes, its descriptor in one, 32 to a run at most.
DESIGN CHOICE (log 81): a send's flits share no run with another's. -/
def closeRuns (s : State) (l : Nat) (j : LinkSend) : State :=
  let runs := ((j.data.length + 255) / 256 + 32) / 32
  { s with linkRuns := mset s.linkRuns l ((mget s.linkRuns l (0, 0)).1 + runs, 0) }

/-- LINK_SEND_COMPLETE: a send begins on an admitted link once its horizon is reached (R443); the next time it has ended.
What the far end answered is the far end's: `remote` for REMOTE, and a free choice between OK and NOTARGET (log 7). -/
def linkSendComplete (s : State) (g slot : Nat) (remote : Bool) : State :=
  match s.sends.find? (fun p => p.1 == g && p.2.slot == slot) with
  | none => s
  | some (_, j) =>
    if j.status ≠ 0 then sendStatus s g j j.status
    else
      match j.link with
      | none =>
        if !mayLeave s j.ctx j.checks then s
        else
          match (s.links.filter (fun l => l.2.1 == j.target.1)).map (·.1) with
          | [] => sendStatus s g j 4
          | l :: ls =>
            let (k, s) := s.draw
            let i := (Config.freeWord k).toNat % (ls.length + 1)
            { s with sends := s.sends.map (fun p => if p == (g, j) then (g, { j with link := some ((l :: ls).getD i l) }) else p) }
      | some l =>
        if sendBehind s g j then s
        else
          let s := closeRuns s l j
          if remote then sendStatus s g j 5
          else
          let (k, s) := s.draw
          sendStatus s g j (if Config.freeBool k then 2 else 0)

def execLinkSendComplete (hall : HallId) (slot : Fin 64) (remote : Bool) (s : State) : Out :=
  .next (linkSendComplete s hall.val slot.val remote)

/-! ## Links that fail, and ATS (R436, R438, R443, R445) -/

/-- LINKDOWN: sends that have begun on the link end, and the system ring is told. -/
def linkDown (s : State) (l : Nat) : State :=
  if (mfind s.links l).isNone then s
  else
    let s := { s with links := mdel s.links l, linkRuns := mdel s.linkRuns l
                      sends := s.sends.map (fun (p : Nat × LinkSend) => if p.2.link = some l then (p.1, { p.2 with status := 4 }) else p) }
    match s.systemCtx? with
    | some c => writeEvent s ⟨Cause.linkdown.code, 2, 63, 0, 0, 0, 0, 0, BitVec.ofNat 64 l, 0, c.id, []⟩
    | none => s

def execLinkdown (link : Fin 8) (s : State) : Out := .next (linkDown s link.val)

/-- The tag of a run of an admitted link fails (R438): the run is discarded and sent again; after 3 failures of one run the
link goes down. -/
def linkTagFails (s : State) (l : Nat) : State :=
  if (mfind s.links l).isNone then s
  else
    let r := mget s.linkRuns l (0, 0)
    if 2 ≤ r.2 then linkDown s l else { s with linkRuns := mset s.linkRuns l (r.1, r.2 + 1) }

/-- DIE_LINK_FAILURE: every context is terminated and the package stops (R445). -/
def dieLinkFailure (s : State) : State :=
  { (s.ctxs.map (fun p => p.2.id)).foldl (fun s c => terminate s c 0) s with phase := .stopped }

def execDieLinkFailure (s : State) : Out := .next (dieLinkFailure s)

/-- The tag of a run of the die-to-die link or of a base-die link fails (R445): the run is sent again up to 3 times, and the
next failure stops the package. -/
def dieTagFails (s : State) : State :=
  if 3 ≤ s.dieFails then dieLinkFailure { s with dieFails := 0 } else { s with dieFails := s.dieFails + 1 }

/-- ATS_INVALIDATION: translations of host pages that meet [ha, ha + len) are gone. It completes at once: a request's TLPs are
finished in the step that makes it, so none that used the translation is under way; an egress that waits makes its request
when it leaves, and translates again then (R436). -/
def execAtsInvalidation (ha len : Nat) (s : State) : Out :=
  .next { s with ats := s.ats.filter (fun p => !(65536 * p < ha + len && ha < 65536 * p + 65536)) }

/-- PRI_RESPONSE: the host answers the hall's Page Request; a refusal raises XLAT for the access that needed the page, when
it is made again. -/
def priResponse (s : State) (h : Nat) (ok : Bool) : State :=
  let x := s.hall h
  match x.pri with
  | some (p, false) =>
    if ok then { s.setHall h { x with pri := none } with ats := sins s.ats p }
    else s.setHall h { x with pri := some (p, true) }
  | _ => s

def execPriResponse (hall : HallId) (ok : Bool) (s : State) : Out := .next (priResponse s hall.val ok)

end Sys2Proof.Machine
end

