-- ==== Sys2Proof/Machine/SysRegs.lean ====
section
/-! DEFINITION. System registers: SYSR and the SYSW rows (spec/08 R202 to R204, spec/16 R419, spec/15 R387 to R390,
spec/12 R324, spec/10 R261). -/

namespace Sys2Proof.Machine

/-- `mx.flags` (R324), assembled from the three nodes. -/
def mxFlagsOf (x : Hall) : Word :=
  let bit (i : Nat) : Nat := b2n (x.node i).sat * 2 ^ i + b2n (x.node i).zro * 2 ^ (4 + i)
    + b2n ((x.node i).elog.getLsbD 63) * 2 ^ (8 + i)
  BitVec.ofNat 64 (bit 0 + bit 1 + bit 2)

def MirrorMode.code : MirrorMode → Word | .off => 0 | .record => 1 | .replay => 2

/-- `hall.id` (R419). -/
def hallIdWord (h : Nat) : Word := BitVec.ofNat 64 (h + posOf h * 2 ^ 8 + galleryOf h % 4 * 2 ^ 11 + dieOf h * 2 ^ 13)

/-- The value of a register that is not per node. -/
def sysValue (s : State) (h : Nat) (r : SysReg) : Word :=
  let x := s.hall h
  let c : Ctx := (s.ctx? (s.ctxOf h)).getD default
  match r with
  | .hallId => hallIdWord h
  | .hallSplit => BitVec.ofNat 64 x.split
  | .ctxId => c.id
  | .kdCur => BitVec.ofNat 64 c.kd
  | .ctxPtroot => c.ptroot
  | .ctxStarve => c.starve
  | .ctxFpol => c.fpol
  | .trapCause => x.trap.cause
  | .trapInfo => x.trap.info
  | .trapPc => x.trap.pc.zeroExtend 64
  | .trapVec => x.trap.vec.zeroExtend 64
  | .trapAct => BitVec.ofNat 64 (b2n x.trap.act + 2 * b2n x.trap.frz)
  | .trapK0 => x.trap.k0
  | .trapK1 => x.trap.k1
  | .wdogPeriod => x.wdogPeriod
  | .wdogCount => x.wdogCount
  | .ctxEvbase => c.evbase
  | .ctxEvsize => c.evsize
  | .ctxEvhead => c.evhead
  | .ctxEvtail => c.evtail
  | .ctxEvlost => c.evlost
  | .ctxSpillbase => c.spillbase
  | .ctxSpillslots => c.spillslots
  | .ctxVc => c.vc
  | .ctxMode => c.mirror.mode.code
  | .ctxLogbase => c.mirror.base
  | .ctxLogsize => c.mirror.size
  | .ctxLoghead => c.mirror.head
  | .ctxLogtail => c.mirror.tail
  | .ctxRacectl => c.racectl
  | .seqLc => x.lc
  | .seqLs => x.ls.zeroExtend 64
  | .seqLe => x.le.zeroExtend 64
  | .seqRestarts => x.restarts.zeroExtend 64
  | .facetSeed => 0
  | .ctxArctl => c.arctl
  | .mxFlags => mxFlagsOf x
  | .mxElog0 => (x.node 0).elog
  | .mxElog1 => (x.node 1).elog
  | .mxElog2 => (x.node 2).elog
  | .l2Waymask => BitVec.ofNat 64 (s.mask s.maskLast)

/-- The selector's rule (R202): a scratch-mode facet for `facet.seed`, else 0. -/
def selectorOk (s : State) (h : Nat) (r : SysReg) (sl : Word) : Bool :=
  if r = .facetSeed then (s.hall h).split ≤ sl.toNat && sl.toNat < 48 else sl == 0

/-- A read of a system register (R202); a read of a ring pointer acquires at package scope (R390). -/
def sysRead (s : State) (h : Nat) (r : SysReg) (sl : Word) : Res Word :=
  if !selectorOk s h r sl then .trap .access 0 s
  else if r = .facetSeed then .ok (((s.hall h).facet sl.toNat).seed.zeroExtend 64) s
  else
    let v := sysValue s h r
    .ok v (if r = .ctxLoghead ∨ r = .ctxLogtail then acquire s h true [] else s)

/-- SYSR at the point of execution: one read serves both views of a B-marked word (R202). -/
def sysrEff (h : Nat) (hd : SHdr) (a c : Reg) (r : SysReg) (s : State) : Res (Option Nat) :=
  let x := s.hall h
  let doA := hd.mark = .b ∧ holds hd x.a
  let doC := holds hd x.c
  let put (v : Word) (s : State) : State := s.updHall h fun x =>
    { x with c := if doC then x.c.setReg a v else x.c, a := if doA then x.a.setReg a v else x.a }
  if doC then
    cStart s h [c] [a] fun s => (sysRead s h r (x.c.reg c)).andThen fun v s => .ok none (put v s)
  else if doA then (sysRead s h r (x.a.reg c)).andThen fun v s => .ok none (put v s)
  else .ok none s

def execSysr (h : SHdr) (a c : Reg) (r : SysReg) (s : State) : Out :=
  .next (match s.cur with
    | .seq g => settle g { h with mark := .c } false id (s.hall g).pc (sysrEff g h a c r s)
    | .addr g => if h.mark = .b then s else aheadWord g h [c] [a] id (fun _ => none) s
    | _ => s)

/-! ## Writes -/

/-- The executing context, for a write to a register named `ctx.`. -/
def withCtx (s : State) (g : Nat) (f : Ctx → Ctx) : Res Unit := .ok () (s.updCtx (s.ctxOf g) f)

/-- A SYSW row: its selector check, then its write of `sv` (R203). -/
def syswWord (h : SHdr) (b c : Reg) (r : SysReg) (k : Nat → Word → Word → State → Res Unit) (s : State) : State :=
  cWord h [b, c] [] (fun g s =>
    if selectorOk s g r (s.rc g c) then k g (s.rc g b) (s.rc g c) s else .trap .access 0 s) s

/-- A write that only the system context may make (R92, R419). -/
def sysOnly (g : Nat) (s : State) (k : Res Unit) : Res Unit :=
  if s.isSystem (s.ctxOf g) then k else .trap .priv 0 s

/-- Writable bits of `ctx.fpol`: causes 1 to 0x10. -/
def fpolMask : Word := 0x1FFFE

/-- The registers without a row of their own (R419). -/
def syswEff (r : SysReg) (g : Nat) (v : Word) (s : State) : Res Unit :=
  match r with
  | .trapPc => .ok () (s.updHall g fun x => { x with trap := { x.trap with pc := v.truncate 17 } })
  | .trapVec => .ok () (s.updHall g fun x => { x with trap := { x.trap with vec := v.truncate 17 &&& 0x1FFF9 } })
  | .trapK0 => .ok () (s.updHall g fun x => { x with trap := { x.trap with k0 := v } })
  | .trapK1 => .ok () (s.updHall g fun x => { x with trap := { x.trap with k1 := v } })
  | .wdogPeriod =>
    .ok () (if 0x10000 ≤ v ∧ v ≤ 0x10000000 then s.updHall g fun x => { x with wdogPeriod := v } else s)
  | .ctxStarve => withCtx s g fun c => { c with starve := v }
  | .ctxArctl => withCtx s g fun c => { c with arctl := v &&& 1 }
  | .ctxPtroot => withCtx s g fun c => { c with ptroot := v &&& 0xFFFFFFFF0000 }
  | .ctxFpol => withCtx s g fun c => { c with fpol := v &&& fpolMask }
  | .ctxSpillbase => withCtx s g fun c => { c with spillbase := v &&& 0xFFFFFFFFFF800000 }
  | .ctxSpillslots => withCtx s g fun c => { c with spillslots := if v ≤ 4096 then v else c.spillslots }
  | _ => .ok () s

/-- Registers that only the system context writes (R419). -/
def SysReg.systemOnly (r : SysReg) : Bool :=
  match r with
  | .ctxPtroot | .ctxFpol | .ctxSpillbase | .ctxSpillslots | .l2Waymask => true
  | _ => false

def execSysw (h : SHdr) (b c : Reg) (r : SysReg) (s : State) : Out :=
  .next (cWord h [b, c] [] (fun g s =>
    if SysReg.systemOnly r && !s.isSystem (s.ctxOf g) then .trap .priv 0 s
    else if selectorOk s g r (s.rc g c) then syswEff r g (s.rc g b) s else .trap .access 0 s) s)

/-- A write of 0 ends the active loop (R204). -/
def execSyswSeqLc (h : SHdr) (b c : Reg) (s : State) : Out :=
  .next (syswWord h b c .seqLc (fun g v _ s => .ok () (s.updHall g fun x => { x with lc := v })) s)

/-- A write of 0 stores 1 (R204). -/
def nonzeroSeed (v : Word) : BitVec 32 := if v.truncate 32 = (0 : BitVec 32) then 1 else v.truncate 32

def execSyswFacetSeed (h : SHdr) (b c : Reg) (s : State) : Out :=
  .next (syswWord h b c .facetSeed (fun g v sl s => .ok () (s.updHall g fun x =>
    x.setFacet sl.toNat { x.facet sl.toNat with seed := nonzeroSeed v })) s)

/-- R261: the domain in [63:52], its mask in [13:0]; other bits raise ILL, after PRIV and before the selector's
ACCESS (R13, R94). -/
def waymaskEff (g : Nat) (v sl : Word) (s : State) : Res Unit :=
  sysOnly g s (if nbits v.toNat 14 38 != 0 then .trap .ill 0x24 s
    else if sl != 0 then .trap .access 0 s
    else .ok () { s with masks := mset s.masks (nbits v.toNat 52 12) (nbits v.toNat 0 14)
                         maskLast := nbits v.toNat 52 12 })

def execSyswL2Waymask (h : SHdr) (b c : Reg) (s : State) : Out :=
  .next (cWord h [b, c] [] (fun g s => waymaskEff g (s.rc g b) (s.rc g c) s) s)

/-- The ring's VA in [55:6]; head and tail become 0 (R419). -/
def execSyswEvBase (h : SHdr) (b c : Reg) (s : State) : Out :=
  .next (syswWord h b c .ctxEvbase (fun g v _ s =>
    withCtx s g fun k => { k with evbase := v &&& 0xFFFFFFFFFFFFC0, evhead := 0, evtail := 0 }) s)

/-- A power of two from 2^4 to 2^16, or 0 (R419). -/
def evSizeOk (v : Word) : Bool := v == 0 || (16 ≤ v.toNat && v.toNat ≤ 65536 && v &&& (v - 1) == 0)

def execSyswEvSize (h : SHdr) (b c : Reg) (s : State) : Out :=
  .next (syswWord h b c .ctxEvsize (fun g v _ s =>
    withCtx s g fun k => { k with evsize := if evSizeOk v then v else k.evsize }) s)

/-- Software frees records: old tail ≤ v ≤ head (R405). -/
def execSyswEvTail (h : SHdr) (b c : Reg) (s : State) : Out :=
  .next (syswWord h b c .ctxEvtail (fun g v _ s =>
    withCtx s g fun k => { k with evtail := if k.evtail ≤ v ∧ v ≤ k.evhead then v else k.evtail }) s)

/-- A write of 0 clears (R419). -/
def execSyswEvLost (h : SHdr) (b c : Reg) (s : State) : Out :=
  .next (syswWord h b c .ctxEvlost (fun g v _ s =>
    withCtx s g fun k => { k with evlost := if v = 0 then 0 else k.evlost }) s)

/-- The tail in RECORD (R390): a release at package scope, after the hall's posted REDs (R364); any other write is ignored. -/
def logTailEff (g : Nat) (v : Word) (s : State) : Res Unit :=
  match s.ctx? (s.ctxOf g) with
  | none => .ok () s
  | some c =>
    let m := c.mirror
    if m.mode = .record ∧ m.tail ≤ v ∧ v ≤ m.head then
      if (s.hall g).posted ≠ [] then .wait s else
      (release s g true).andThen fun _ s => .ok () (s.updCtx c.id fun c => { c with mirror := { c.mirror with tail := v } })
    else .ok () s

def execSyswLogTail (h : SHdr) (b c : Reg) (s : State) : Out :=
  .next (syswWord h b c .ctxLogtail (fun g v _ s => logTailEff g v s) s)

/-- The head in REPLAY (R390): a release likewise. -/
def logHeadEff (g : Nat) (v : Word) (s : State) : Res Unit :=
  match s.ctx? (s.ctxOf g) with
  | none => .ok () s
  | some c =>
    let m := c.mirror
    if m.mode = .replay ∧ m.head ≤ v ∧ v ≤ m.tail + m.size then
      if (s.hall g).posted ≠ [] then .wait s else
      (release s g true).andThen fun _ s => .ok () (s.updCtx c.id fun c => { c with mirror := { c.mirror with head := v } })
    else .ok () s

def execSyswLogHead (h : SHdr) (b c : Reg) (s : State) : Out :=
  .next (syswWord h b c .ctxLoghead (fun g v _ s => logHeadEff g v s) s)

/-- EN in bit 0 (R386). -/
def execSyswRacectl (h : SHdr) (b c : Reg) (s : State) : Out :=
  .next (syswWord h b c .ctxRacectl (fun g v _ s => withCtx s g fun k => { k with racectl := v &&& 1 }) s)

/-- SAT and ZRO take the written bits; an ELV bit written 0 clears that node's log (R324). -/
def mxFlagsNode (v : Word) (i : Nat) (n : MxNode) : MxNode :=
  { n with sat := v.getLsbD i, zro := v.getLsbD (4 + i), elog := if v.getLsbD (8 + i) then n.elog else 0 }

def execSyswMxFlags (h : SHdr) (b c : Reg) (s : State) : Out :=
  .next (syswWord h b c .mxFlags (fun g v _ s => .ok () (s.updHall g fun x =>
    ([0, 1, 2] : List Nat).foldl (fun x i => x.setNode i (mxFlagsNode v i (x.node i))) x)) s)

end Sys2Proof.Machine
end

