-- ==== Sys2Proof/Machine/Migration.lean ====
section
/-! DEFINITION. Tier migration, retired rows and compressed writes that find no sectors (spec/10 R266, R269, R270,
R274, R275). -/

namespace Sys2Proof.Machine

/-! ## Frames -/

/-- Nothing of the package lies in a frame: no leaf of a context names it, no table of one lies there, empty or not, none
of its units is written, no byte is stored, and it holds no retired row. -/
def frameFree (s : State) (pa n : Nat) : Bool :=
  let inside (a : Nat) : Bool := pa ≤ a && a < pa + n
  !s.mem.any (fun c => inside c.1)
  && !s.prot.any (fun p => inside (256 * p.1))
  && !s.retired.any (fun r => inside (2048 * r))
  && !s.pmovs.any (fun j => j.pages.any (fun p => inside p.dst))
  && s.ctxs.all (fun p => (leafEntries s p.2).all (fun a =>
      let w := entryAt s a
      pteHO w || ptePA w + 0x200000 ≤ pa || pa + n ≤ ptePA w)
    && (tableSpans s p.2).all (fun t => t.1 + t.2 ≤ pa || pa + n ≤ t.1))

/-- First address and number of bytes of a tier (R262). -/
def tierSpan (far : Bool) : Nat × Nat := if far then (tierF, physEnd - tierF) else (0, tierF)

/-- Fresh space of a tier: which frame the manager gives, or that it gives none, is its own choice (log 13). -/
def freshFrame (s : State) (far : Bool) (n : Nat) : Option Nat × State :=
  let (k, s) := s.draw
  let t := tierSpan far
  let pa := t.1 + (Config.freeWord k).toNat % (t.2 / n) * n
  (if frameFree s pa n then some pa else none, s)

/-- A frame for each of a list of pages, or none at all. -/
def freshFrames (far : Bool) : List PmovPage → State → Option (List PmovPage) × State
  | [], s => (some [], s)
  | p :: ps, s =>
    match freshFrame s far (pageBytes p.big) with
    | (none, s) => (none, s)
    | (some d, s) =>
      match freshFrames far ps s with
      | (some l, s') =>
        if l.any (fun q => q.dst < d + pageBytes p.big && d < q.dst + pageBytes q.big) then (none, s')
        else (some ({ p with dst := d } :: l), s')
      | (none, s') => (none, s')

/-! ## PMOV (R274) -/

/-- The context whose tables PMOV reads, owning every domain: the system context moves pages of any owner (R255, R274). -/
def pmovCtx (s : State) (c : Ctx) : Ctx :=
  { c with domains := c.domains ++ s.ctxs.flatMap (fun p => ⟨p.2.kd, .plain, false, false, 0⟩
      :: p.2.domains.map (fun d => { d with kind := if d.kind = .lens then .lens else .plain, adapt := false })) }

/-- The pages mapped in a 2 MiB range, with their leaves; none outside the translated space (R250). -/
def rangePages (s : State) (c : Ctx) (va : Nat) : List (PmovPage × Word) :=
  if ownBase ≤ va then []
  else
    match walk s (pmovCtx s c) va with
    | some (w, true) => [(⟨va, ptePA w, 0, true⟩, w)]
    | _ => (List.range 32).filterMap (fun i =>
        (walk s (pmovCtx s c) (va + 65536 * i)).map (fun l => (⟨va + 65536 * i, ptePA l.1, 0, false⟩, l.1)))

def pmovStatus (cause info : Nat) : Word := BitVec.ofNat 64 (cause * 2 ^ 56 + info % 2 ^ 32)

/-- A page lies in a tier. -/
def inTier (far : Bool) (pa : Nat) : Bool := decide (tierF ≤ pa) == far

/-- A page that an operation in flight names: an in-array operation's operand, or the range of a running copy. -/
def engineNames (s : State) (pa n : Nat) : Bool :=
  s.arrays.any (fun j => (j.dst :: j.srcs).any (fun v => (List.range j.n).any (fun i =>
    match rowPA s j.hall (v + 2048 * i) with
    | some (p, _) => pa ≤ p && p < pa + n
    | none => false)))

/-- Two migrations overlap. -/
def pmovBusy (s : State) (ps : List PmovPage) (va : Nat) (ctx : Word) : Bool :=
  s.pmovs.any (fun j => (j.va == va && s.ctxOf j.hall == ctx) || j.pages.any (fun q => ps.any (fun p => p.src == q.src)))

def pmovEff (g : Nat) (a b : Reg) (far : Bool) (s : State) : Res Unit :=
  sysOnly g s <|
    let va := (s.rc g b).toNat
    if va % 0x200000 ≠ 0 then .trap .align (addrWord va) s
    else
      match s.ctx? (s.ctxOf g) with
      | none => .ok () s
      | some c =>
        let all := rangePages s c va
        let todo := (all.map (·.1)).filter (fun p => !inTier far p.src)
        let now (cause : Nat) (s : State) : Res Unit := .ok () (complete s g a.val (pmovStatus cause 0))
        if pmovBusy s (all.map (·.1)) va c.id then .wait s
        else if all = [] then now 5 s
        else if all.any (fun p => pteLN p.2 || pteAR p.2 || pteHO p.2) then now 3 s
        else if todo = [] then now 2 s
        else if todo.any (fun p => engineNames s p.src (pageBytes p.big)) then .wait s
        else
          match freshFrames far todo s with
          | (none, s) => now 4 s
          | (some ps, s) =>
            let j : PmovJob := ⟨s.ids, g, a.val, va, ps, 0, 0, 0, 0⟩
            .ok () (setPending { s with ids := s.ids + 1, pmovs := s.pmovs ++ [j] } g a)

def execPmov (h : SHdr) (a b : Reg) (far : Bool) (s : State) : Out :=
  .next (cWord h [b] [a] (fun g s => pmovEff g a b far s) s)

/-! ## The move (R270) -/

/-- L1 lines of a page in every hall. -/
def pageLines (s : State) (pa n : Nat) : List (Nat × L1Line) :=
  s.halls.flatMap (fun p => (p.2.l1.filter (fun l => !l.host && pa ≤ l.line * 128 && l.line * 128 < pa + n)).map
    (fun l => (p.1, l)))

/-- Dirty lines of a page go back, checked as L1 write-backs are (R384); `none` while one waits. -/
def pageFlush : List (Nat × L1Line) → State → Option State
  | [], s => some s
  | (h, l) :: ls, s =>
    match writeBackLine s h l with
    | .ok _ s => pageFlush ls (s.updHall h fun x => { x with l1 := x.l1.erase l })
    | .trap c i s | .freeze c i s => pageFlush ls (freeze s h 8 7 0 0 0 c i [])
    | .wait _ => none

/-- The leaf word with another PA. -/
def withPA (w : Word) (pa : Nat) : Word :=
  BitVec.ofNat 64 (w.toNat - nbits w.toNat 12 32 * 2 ^ 12 + nbits pa 16 32 * 2 ^ 12)

/-- An address of the source page as one of the target page. -/
def moveAddr (src dst n a : Nat) : Nat := if src ≤ a ∧ a < src + n then a - src + dst else a

/-- The key of a place on the source page as one on the target page. -/
def moveKey (src dst n a : Nat) : Nat :=
  if 2 ^ 61 ≤ a ∧ a < 2 ^ 62 then 2 ^ 61 + moveAddr src dst n (a - 2 ^ 61) else moveAddr src dst n a

/-- The entries of a moved page's blocks: fresh seeds, and sectors elsewhere where the page is compressed (R265, R270). -/
def moveBlocks (src dst : Nat) : List (Nat × BlockEntry) → State → State
  | [], s => s
  | (b, e) :: bs, s =>
    let s := moveBlocks src dst bs s
    let (k, s) := s.draw
    let (k', s) := s.draw
    let b' := b - src / 4096 + dst / 4096
    let sec := soundSectors s e.cls (if e.sec = BitVec.ofNat 39 (8 * b) then 8 * b' else (Config.freeWord k').toNat % 2 ^ 39)
    { s with blocks := mset (mdel s.blocks b) b' { e with seed := (Config.random k).truncate 32, sec := sec } }

/-- What a hall keeps of a moved page follows it; its lines and cached translations of the page leave. -/
def Hall.movePage (src dst n : Nat) (x : Hall) : Hall :=
  let ahead (a : Ahead) : Ahead :=
    { a with load := a.load.map (fun l => { l with place := moveKey src dst n l.place }) }
  let snap (r : RowSnap) : RowSnap := { r with row := moveAddr (src / 2048) (dst / 2048) (n / 2048) r.row }
  { x with
    l1 := x.l1.filter (fun l => l.host || l.line * 128 < src || src + n ≤ l.line * 128)
    tlb := x.tlb.filter (fun e => pteHO e.leaf || ptePA e.leaf + pageBytes e.big ≤ src || src + n ≤ ptePA e.leaf)
    au := { x.au with queue := x.au.queue.map ahead }
    posted := x.posted.map (fun p => { p with place := moveKey src dst n p.place })
    units := x.units.map (fun u => (u.1, { u.2 with snaps := u.2.snaps.map snap })) }

/-- The page's contents and their metadata take their new place, and every leaf and cached translation follows; the
source is free (R257, R270). -/
def switchPage (s : State) (src dst n : Nat) : State :=
  let leaves := s.ctxs.flatMap (fun p => (leafEntries s p.2).filter (fun a =>
    !pteHO (entryAt s a) && src ≤ ptePA (entryAt s a) && ptePA (entryAt s a) < src + n))
  let cells := (s.mem.filter (fun c => src ≤ c.1 && c.1 < src + n)).map (fun c => (c.1 - src + dst, c.2))
  let units := (s.prot.filter (fun p => src ≤ 256 * p.1 && 256 * p.1 < src + n)).map (fun p => (p.1 - src / 256 + dst / 256, p.2))
  let m := leaves.foldl (fun m a => cwrite m a (leBytes 8 (withPA (entryAt s a) (moveAddr src dst n (ptePA (entryAt s a)))).toNat)) s.mem
  let m := cells.foldl (fun m c => cset m c.1 c.2) (cclear m src n)
  let lines := (s.l2.filter (fun l => src ≤ l.line * 128 && l.line * 128 < src + n)).map (·.line)
  let s := moveBlocks src dst (s.blocks.filter (fun b => src ≤ 4096 * b.1 && 4096 * b.1 < src + n)) (lines.foldl l2Drop s)
  { s with
    mem := m
    prot := units.foldl (fun q u => mset q u.1 u.2) (s.prot.filter (fun p => 256 * p.1 < src || src + n ≤ 256 * p.1))
    carries := s.carries.map (fun k => { k with addr := moveKey src dst n k.addr })
    checks := s.checks.map (fun k => { k with line := moveAddr (src / 128) (dst / 128) (n / 128) k.line })
    squeezed := s.squeezed.map (fun q => { q with line := moveAddr (src / 128) (dst / 128) (n / 128) q.line })
    halls := s.halls.map (fun p => (p.1, p.2.movePage src dst n)) }

/-- A migration's last page is done: its status, a release at hall scope (R274). -/
def pmovEnd (s : State) (j : PmovJob) : State :=
  let s := { s with pmovs := s.pmovs.filter (fun k => k.id != j.id) }
  complete s j.hall j.reg (if j.lost = 0 then pmovStatus 0 j.moved else pmovStatus 1 j.lost.toNat)

/-- The page under way is done; the next one starts with a clear filter. -/
def pmovNext (s : State) (j : PmovJob) (rest : List PmovPage) : State :=
  let j := { j with pages := rest, dirty := 0, pass := 0 }
  if rest = [] then pmovEnd s j else { s with pmovs := s.pmovs.map (fun k => if k.id == j.id then j else k) }

/-- The mask of a page's 64 KiB units among the low 32 of its range. -/
def unitMask (j : PmovJob) (p : PmovPage) : BitVec 32 :=
  if p.big then BitVec.allOnes 32 else BitVec.ofNat 32 (2 ^ ((p.va - j.va) / 65536))

/-- PMOV_COMPLETE: a pass over the page under way ends. With writes since it began, a further pass follows the first two
and the page is abandoned after the last; with none, the page is switched. -/
def pmovComplete (s : State) (h id : Nat) : State :=
  match s.pmovs.find? (fun j => j.id == id && j.hall == h) with
  | none => s
  | some j =>
    match j.pages with
    | [] => pmovEnd s j
    | p :: rest =>
      if j.dirty ≠ 0 then
        if j.pass < 2 then
          { s with pmovs := s.pmovs.map (fun k => if k.id == id then { k with dirty := 0, pass := k.pass + 1 } else k) }
        else pmovNext s { j with lost := j.lost ||| unitMask j p } rest
      else
        match pageFlush ((pageLines s p.src (pageBytes p.big)).filter (fun q => q.2.dirty != 0)) s with
        | none => s
        | some s => pmovNext (switchPage s p.src p.dst (pageBytes p.big)) { j with moved := j.moved + 1 } rest

def execPmovComplete (hall : HallId) (id : Nat) (s : State) : Out := .next (pmovComplete s hall.val id)

/-! ## Retired rows (R269) -/

/-- The array page that holds a physical address, when a context maps one. -/
def arrayPageOf (s : State) (pa : Nat) : Option Nat :=
  s.ctxs.findSome? (fun p => ((leafEntries s p.2).map (entryAt s)).findSome? (fun w =>
    if !pteHO w && pteAR w && ptePA w ≤ pa && pa < ptePA w + 0x200000 then some (ptePA w) else none))

/-- The row-seed entries of a moved array page: the live ones under fresh seeds, the versions kept (log 13). -/
def moveRows (src dst : Nat) : Nat → State → State
  | 0, s => s
  | i + 1, s =>
    let s := moveRows src dst i s
    match mfind s.rows (src / 2048 + i) with
    | none => s
    | some r =>
      let (k, s) := s.draw
      { s with rows := mset (mdel s.rows (src / 2048 + i)) (dst / 2048 + i) { r with seed := (Config.random k).truncate 32 } }

/-- A retired row's array page moves whole, once no in-array operation on it is in flight, and leaves its flight; while
one is, while a write-back waits or while no frame is free, it stays to be moved. -/
def moveRetired (s : State) (row : Nat) : State :=
  match arrayPageOf s (2048 * row) with
  | none => { s with retiring := sdel s.retiring row }
  | some page =>
    if engineNames s page 0x200000 then s
    else
      match pageFlush ((pageLines s page 0x200000).filter (fun q => q.2.dirty != 0)) s with
      | none => s
      | some s =>
        match freshFrame s false 0x200000 with
        | (none, s) => s
        | (some d, s) =>
          let s := moveRows page d 1024 (switchPage s page d 0x200000)
          { s with leftFlight := sins (sdel s.leftFlight page) d
                   retiring := s.retiring.filter (fun r => 2048 * r < page || page + 0x200000 ≤ 2048 * r) }

/-- The rows whose array pages are still to be moved are tried again. -/
def retirePending (s : State) : State := s.retiring.foldl moveRetired s

/-- The live sectors of blocks in a retired row move elsewhere, which no read sees (R269); where to, the spec leaves to
the controller (log 47). -/
def moveSectors (s : State) : State :=
  let s' := { s with free := s.free + 1 }
  { s' with blocks := s.blocks.map (fun b =>
      if b.2.cls ≠ 0 ∧ sectorsRetired s b.2.cls b.2.sec.toNat then
        (b.1, { b.2 with sec := soundSectors s b.2.cls (((Config.freeWord s.free).toNat + 8 * b.1) % 2 ^ 39) })
      else b) }

/-- ROW_RETIRE: the row goes out of use, and the system context is told (log 66). -/
def rowRetire (s : State) (row : Nat) : State :=
  let t := reportSystem (moveSectors { s with retired := sins s.retired row })
  if (arrayPageOf s (2048 * row)).isNone then t else moveRetired { t with retiring := sins t.retiring row } row

/-- The completion of an array operation, after which a page that waited for it moves (R269). -/
def arrayEnds (s : State) (h id : Nat) : State :=
  let t := arrayComplete s h id
  if t.arrays.length < s.arrays.length then retirePending t else t

def execArrayOpComplete (hall : HallId) (id : Nat) (s : State) : Out := .next (arrayEnds s hall.val id)

/-- The system context's raw diagnostic read of one protection unit: a row that holds no live sector is zeros, with status
NOTLIVE (R267), as one of an array page that was never written is; else what DRAM holds. No instruction or request of the
spec makes it (log 55). -/
def diagnosticRead (s : State) (unit : Nat) : List Byte × Bool :=
  let elided := match mfind s.rows (unit / 8), mfind s.blocks (unit / 16) with
    | some r, _ => !r.live
    | none, some b => b.cls == 0
    | none, none => (arrayPageOf s (256 * unit)).isSome
  if elided then (List.replicate 256 0, true) else (unitRead s 0 false (256 * unit) 256, false)

def execRowRetire (row : Nat) (s : State) : Out := .next (rowRetire s row)

/-! ## Compressed writes (R266) -/

/-- Each write that waits for sectors is an event for the system context, once (R266; log 66). -/
def tellSqueezed (s : State) : State :=
  let n := (s.squeezed.filter (fun q => !q.told)).length
  n.fold (fun _ _ s => reportSystem s) { s with squeezed := s.squeezed.map (fun q => { q with told := true }) }

/-- The write of a waiting line is taken back (R266). While nothing else has written its protection unit since, the unit,
its metadata and the block's entry stand as before, the entry as long as it names no domain that another unit has left
and no zero block that holds data; else the bytes of the write alone go back to what its domain saw there. -/
def undoSqueezed (s : State) (q : Squeezed) : State :=
  let u := q.line / 2
  let off := q.line % 2 * 128
  let now := cread s.mem (256 * u) 256
  let old := match q.unit with
    | some m => if m.kd = q.kd then m.ver else 0
    | none => 0
  let alone := mfind s.prot u = some ⟨q.kd, false, if q.kd = 0 then 0 else old + 1⟩
    ∧ (List.range 256).all (fun i =>
        (decide (off ≤ i) && decide (i < off + 128) && q.mask.getLsbD (i - off)) || lget now i == lget q.seen i)
  if alone then
    let b := u / 16
    let m := cwrite s.mem (256 * u) q.body
    let others := s.prot.any (fun p => p.1 / 16 == b && p.1 != u && p.2.kd == q.kd)
    let zero := m.all (fun c => c.1 < 4096 * b || 4096 * b + 4096 ≤ c.1)
    { s with
      mem := m
      prot := match q.unit with
        | some p => mset s.prot u p
        | none => mdel s.prot u
      blocks := match q.entry with
        | some e => if (e.kd ≠ q.kd ∧ others) ∨ (e.cls = 0 ∧ !zero) then s.blocks else mset s.blocks b e
        | none => if others then s.blocks else mdel s.blocks b }
  else { s with mem := mergeLine s.mem (q.line * 128) (BitVec.ofNat 1024 (leNat ((q.seen.drop off).take 128))) q.mask 128 }

/-- COMPRESSED_WRITE_TIMEOUT: after 2^20 ticks without sectors the block returns to its previous contents and the write
ends with MEMERR for the writing context: the hall freezes, and where it no longer runs the context, or an engine or the
RSC wrote, the context's handler receives it (log 66). -/
def squeezedTimeout (s : State) (id : Nat) : State :=
  match s.squeezed.find? (fun q => q.id == id) with
  | none => s
  | some q =>
    if s.tick < q.since + 2 ^ 20 then s
    else
      let s := undoSqueezed s q
      let s : State := { s with
        squeezed := s.squeezed.filter (fun r => r.id != id)
        halls := s.halls.map (fun p => (p.1, { p.2 with
                          l1 := p.2.l1.filter (fun l => l.host || l.line != q.line || l.dirty != 0) })) }
      if q.hall < 48 ∧ s.ctxOf q.hall = q.ctx ∧ (s.hall q.hall).bind.isSome then
        freeze s q.hall 8 7 0 0 0 .memerr (addrWord q.va) []
      else notifyEvent s q.ctx .memerr (addrWord q.va) 0 []

def execCompressedWriteTimeout (id : Nat) (s : State) : Out := .next (squeezedTimeout s id)

/-- Sectors are added in time: the write stands. -/
def squeezedServed (s : State) (id : Nat) : State :=
  { s with squeezed := s.squeezed.filter (fun r => r.id != id) }

end Sys2Proof.Machine
end

