-- ==== Sys2Proof/Machine/System.lean ====
section
/-! DEFINITION. The instructions of the system context (spec/16 R406, R420 to R422), the timers of the Mirror and the
watchdog (spec/15 R396, spec/16 R416, R417), and the failures that fence a hall (spec/16 R409). -/

namespace Sys2Proof.Machine

/-! ## CTXSV, CTXLD and LOGCTL (R420) -/

/-- A status word: CAUSE in [63:56]. -/
def ctxStatus (cause : Nat) : Word := BitVec.ofNat 64 (cause * 2 ^ 56)

/-- The status arrives at once. -/
def answer (g : Nat) (a : Reg) (cause : Nat) (s : State) : Res Unit := .ok () (complete s g a.val (ctxStatus cause))

/-- The mould: privilege, then NOCTX and FINAL, then the effect on the named context. -/
def onContext (g : Nat) (a b : Reg) (s : State) (k : Ctx → Res Unit) : Res Unit :=
  sysOnly g s <|
    match s.ctx? (s.rc g b) with
    | none => answer g a 1 s
    | some c => if c.vf = 0 then answer g a 1 s else if c.terminating || c.integ then answer g a 5 s else k c

/-- A task of a context, by its record's address; a held dispatcher by that of R119. -/
def namedTask (s : State) (c : Ctx) (va : Word) : Option Task := s.task? ⟨c.id, va.toNat⟩

/-- R411 on a task as it stands, whatever R145 says. -/
def beginSave (s : State) (id : TaskId) : State :=
  match s.task? id with
  | some t => if t.saving s then s else startSave s t
  | none => s

/-- A task that CTXSV may save. -/
def Task.savable (t : Task) (s : State) : Bool :=
  (t.state == .running || t.state == .triggered || t.stopped) && !t.saving s && !t.saved

/-- CTXSV.task (R420): the named task is saved; where one of its instances executes EXIT, once no instance does (R415). -/
def ctxsvTaskEff (g : Nat) (a b c : Reg) (s : State) : Res Unit :=
  onContext g a b s fun k =>
    match namedTask s k (s.rc g c) with
    | none => answer g a 2 s
    | some t =>
      if !t.savable s then answer g a 2 s
      else if freeSlots s k < t.onHalls.length then answer g a 3 s
      else
        let n := (g, a.val, ((s.hall g).bind.map (·.task)).getD default, false)
        let leaving := t.onHalls.any (fun h => (s.hall h).atExit)
        let s := (setPending s g a).updTask t.id fun t => { t with
          notify := t.notify ++ [n], preempting := t.preempting || leaving, freezePt := t.freezePt && !leaving }
        .ok () (if leaving then s else beginSave s t.id)

/-- CTXSV.task (R420). -/
def execCtxsvTask (h : SHdr) (a b c : Reg) (s : State) : Out :=
  .next (cWord h [b, c] [a] (fun g s => ctxsvTaskEff g a b c s) s)

/-- A task that is dispatched and not yet running is stopped as soon as it starts. -/
def parkTask (s : State) (id : TaskId) : State :=
  match s.task? id with
  | none => s
  | some t =>
    if t.state = .dispatched then s.updTask id fun t => { t with preempting := true, freezePt := false }
    else beginSave s id

def ctxsvCtxEff (g : Nat) (a b : Reg) (s : State) : Res Unit :=
  onContext g a b s fun k =>
    let mine := s.tasks.filter (fun t => t.id.ctx == k.id && t.onHalls != [])
    let todo := mine.filter (fun t => !t.saving s)
    if k.parked then answer g a 4 s
    else if freeSlots s k < (todo.map (fun t => t.onHalls.length)).sum then answer g a 3 s
    else
      let s := s.setCtx { k with parked := true }
      if mine = [] then
        let (d, s) := s.draw
        .ok () (complete s g a.val (BitVec.ofNat 64 ((Config.freeWord d).toNat % 2 ^ 32)))
      else
        let n := (g, a.val, ((s.hall g).bind.map (·.task)).getD default, true)
        let s := mine.foldl (fun s t => s.updTask t.id fun t => { t with notify := t.notify ++ [n] }) (setPending s g a)
        .ok () (todo.foldl (fun s t => parkTask s t.id) s)

/-- CTXSV.ctx (R420): the context is parked, its dispatcher included. -/
def execCtxsvCtx (h : SHdr) (a b : Reg) (s : State) : Out :=
  .next (cWord h [b] [a] (fun g s => ctxsvCtxEff g a b s) s)

/-- CTXLD.ctx: the context is unparked; its tasks are READY with their entry times. -/
def ctxldCtxEff (g : Nat) (a b : Reg) (s : State) : Res Unit :=
  onContext g a b s fun k =>
    if !k.parked then answer g a 4 s else answer g a 0 (s.setCtx { k with parked := false })

def execCtxldCtx (h : SHdr) (a b : Reg) (s : State) : Out :=
  .next (cWord h [b] [a] (fun g s => ctxldCtxEff g a b s) s)

/-- A held task is resolved to resume (R406): pre-empted as it stands, or READY at once when it is saved already (R409). -/
def resume (s : State) (t : Task) : State :=
  if t.saved then s.updTask t.id fun t => { t with state := .queued, held := false }
  else
    let s := t.onHalls.foldl (fun s h => s.updHall h fun x => { x with wdogFired := x.wdogFired && x.hold }) s
    beginSave s t.id

def ctxldResEff (g : Nat) (a b c : Reg) (s : State) : Res Unit :=
  onContext g a b s fun k =>
    match namedTask s k (s.rc g c) with
    | none => answer g a 2 s
    | some t =>
      if !t.stopped || t.saving s then answer g a 2 s
      else if freeSlots s k < t.onHalls.length then answer g a 3 s
      else answer g a 0 (resume s t)

/-- CTXLD.res (R406, R420). -/
def execCtxldRes (h : SHdr) (a b c : Reg) (s : State) : Out :=
  .next (cWord h [b, c] [a] (fun g s => ctxldResEff g a b c s) s)

def ctxldKillEff (g : Nat) (a b : Reg) (s : State) : Res Unit :=
  onContext g a b s fun k => answer g a 0 (terminate s k.id 0)

/-- CTXLD.kill (R407, R420). -/
def execCtxldKill (h : SHdr) (a b : Reg) (s : State) : Out :=
  .next (cWord h [b] [a] (fun g s => ctxldKillEff g a b s) s)

/-- R388: the ring's size, its alignment, and its pages. -/
def ringOk (s : State) (c : Ctx) (base size : Nat) : Bool :=
  (List.range 17).any (fun k => size == 2 ^ (k + 10)) && base % (32 * size) == 0 && base + 32 * size ≤ ownBase
  && (List.range (max 1 (32 * size / 65536))).all (fun i =>
    match devicePage s c (base + 65536 * i) true with
    | some (_, leaf) => !pteLN leaf && !pteAR leaf && pteKD leaf != 0
        && (pteKD leaf == c.kd || c.domains.any (fun d => d.kd == pteKD leaf))
    | none => false)

/-- A Mirror as a change of mode leaves it (R388). -/
def Mirror.restart (mode : MirrorMode) (base size : Word) (now : Nat) : Mirror where
  mode := mode
  base := base
  size := size
  head := 0
  tail := 0
  seqs := []
  used := []
  stalled := []
  waits := []
  quiet := now

/-- Partial merge runs are discarded. -/
def Hall.dropRuns (x : Hall) : Hall :=
  { x with merges := x.merges.map (fun p => (p.1, { p.2 with run := [], owed := false, replay := [] })) }

/-- A context gets a Mirror mode and ring (R388). -/
def setMode (s : State) (c : Ctx) (mode : MirrorMode) (base size : Word) : State :=
  let s := s.setMirror c.id (.restart mode (base &&& 0xFFFFFFFFFFFFFF) size s.tick)
  { s with saves := s.saves.map (fun v => if v.ctx == c.id then { v with hall := v.hall.dropRuns } else v)
           halls := s.halls.map (fun p => (p.1, if p.2.ctx? == some c.id then p.2.dropRuns else p.2)) }

def logctlEff (mode : MirrorMode) (g : Nat) (a b c d : Reg) (s : State) : Res Unit :=
  onContext g a b s fun k =>
    if s.tasks.any (fun t => t.id.ctx == k.id && (t.state == .running || t.state == .triggered)) then answer g a 4 s
    else if !ringOk s k (s.rc g c).toNat (s.rc g d).toNat then answer g a 6 s
    else answer g a 0 (setMode s k mode (s.rc g c) (s.rc g d))

/-- LOGCTL.off: the ring it names is checked as in the other modes (R388, R420). -/
def execLogctlOff (h : SHdr) (a b c d : Reg) (s : State) : Out :=
  .next (cWord h [b, c, d] [a] (fun g s => logctlEff .off g a b c d s) s)

def execLogctlRec (h : SHdr) (a b c d : Reg) (s : State) : Out :=
  .next (cWord h [b, c, d] [a] (fun g s => logctlEff .record g a b c d s) s)

def execLogctlRep (h : SHdr) (a b c d : Reg) (s : State) : Out :=
  .next (cWord h [b, c, d] [a] (fun g s => logctlEff .replay g a b c d s) s)

/-- LOGCTL.flush (R167, R420): the one form of a tenant. It waits while a run finds no record (R394). -/
def logctlFlushEff (g : Nat) (a : Reg) (s : State) : Res Unit :=
  let s := ((s.hall g).merges.map (·.1)).foldl (flushRun 64 g) s
  if (s.ctx? (s.ctxOf g)).any (fun c => c.mirror.mode == .record) && !(s.hall g).runsWritten then .wait s
  else answer g a 0 s

def execLogctlFlush (h : SHdr) (a : Reg) (s : State) : Out :=
  .next (cWord h [] [a] (fun g s => logctlFlushEff g a s) s)

/-! ## TLBI and HALT (R421, R422) -/

/-- A translation that TLBI removes: one that maps a byte of [va, va + n), or any with ALL. -/
def TlbEntry.removed (e : TlbEntry) (va n : Nat) (all : Bool) : Bool :=
  all || (n != 0 && e.va < va + n && va < e.va + pageBytes e.big)

/-- The cached translations of a context that are to be removed leave every hall. -/
def dropTranslations (s : State) (ctx : Word) (va n : Nat) (all : Bool) : State :=
  { s with halls := s.halls.map (fun p =>
      (p.1, if p.2.ctx? == some ctx || (p.2.bind.isNone && p.2.lastCtx == ctx)
        then { p.2 with tlb := p.2.tlb.filter (fun e => !e.removed va n all) } else p.2)) }

/-- A host store that has not left yet used a translation that is to be removed; no other access is under way between
two steps. -/
def usesRemoved (s : State) (ctx : Word) (va n : Nat) (all : Bool) : Bool :=
  s.egress.any (fun e => e.ctx == ctx && (s.hall e.hall).tlb.any (fun t =>
    t.removed va n all && pteHO t.leaf && ptePA t.leaf ≤ e.host && e.host < ptePA t.leaf + pageBytes t.big))

/-- TLBI: a release at package scope, then the removal, once the accesses that used what is removed have performed; pages
that the context maps no more leave it (R430). -/
def tlbiEff (g : Nat) (b c d : Reg) (all : Bool) (s : State) : Res Unit :=
  sysOnly g s <|
    match s.ctx? (s.rc g d) with
    | none => .ok () s
    | some k =>
      if (s.hall g).posted ≠ [] || usesRemoved s k.id (s.rc g b).toNat (s.rc g c).toNat all then .wait s
      else (release s g true).andThen fun _ s =>
        .ok () (releaseUnmapped (dropTranslations s k.id (s.rc g b).toNat (s.rc g c).toNat all) k)

def execTlbi (h : SHdr) (b c d : Reg) (all : Bool) (s : State) : Out :=
  .next (cWord h [b, c, d] [] (fun g s => tlbiEff g b c d all s) s)

/-- The contexts that HALT ends. -/
def tenants (s : State) : List Word := (s.ctxs.filter (fun p => p.2.vf != 0)).map (fun p => p.2.id)

/-- HALT (R422): tenants end, the boot KEM key is destroyed, and the halls of the system context stop as by EXIT. -/
def haltPackage (g : Nat) (s : State) : State :=
  let sys := s.ctxOf g
  let s := (tenants s).foldl (fun s c => terminate s c 0) s
  let s := { s with phase := .halted, rsc := { s.rsc with kem := none } }
  let hs := hallsOf s sys
  let s := hs.foldl (fun s h => s.updHall h fun x => { x with exiting := true }) s
  hs.foldl (fun s h => if (s.hall h).res == .running && !(s.hall h).held then exitRun h s else s) s

def haltWord (g : Nat) (h : SHdr) (s : State) : State :=
  let x := s.hall g
  if holds h x.c then
    if s.isSystem (s.ctxOf g) then haltPackage g s else raise s g .priv 0 x.pc
  else computeWord g h [] [] false id (fun s => .ok none s) s

def execHalt (h : SHdr) (s : State) : Out :=
  .next (match s.cur with
    | .seq g => haltWord g h s
    | .addr g => aheadWord g h [] [] id (fun _ => none) s
    | _ => s)

/-! ## Timers of the Mirror (R396) -/

/-- Halls of a context that run. -/
def runsOn (s : State) (ctx : Word) : Bool :=
  s.halls.any (fun p => p.2.ctx? == some ctx && p.2.res == .running && !p.2.held)

/-- A timer of R396 runs: REPLAY, records left, and the context neither frozen nor saved. -/
def timersRun (s : State) (c : Ctx) : Bool :=
  c.mirror.mode == .replay && c.mirror.head != c.mirror.tail && runsOn s c.id

/-- The index of the record a place waits for: its next by sequence number, or a slot that does not translate. -/
def nextRecord (s : State) (c : Ctx) (node : Nat) : Nat → Word → Option Word
  | 0, _ => none
  | n + 1, i =>
    if c.mirror.used.contains i.toNat then nextRecord s c node n (i + 1)
    else
      match ringRead s c i with
      | none => some i
      | some r =>
        let l1 := (r.getD 1 0).toNat
        if nbits l1 48 16 == node && nbits l1 0 32 == c.mirror.seq node then some i else nextRecord s c node n (i + 1)

/-- The record that a merge switch's choices come from, by the key of its timer (R167). -/
def mergeIndex (s : State) (h key : Nat) : Option Word :=
  let out := key / 65536 - 1
  let box := key % 65536 - (0x5000 + 80 * h)
  (mfind (s.hall h).merges (swKey (box / 8) (box % 8) (out / 4) (out % 4))).bind
    (fun m => if m.replay = [] then none else some m.index)

/-- The record that a place waits for: of a switch with a run under way that run's, else the place's next. -/
def awaited (s : State) (c : Ctx) (key src : Nat) : Option Word :=
  (if key < 65536 then none else mergeIndex s (src / 1024) key).orElse fun _ =>
    nextRecord s c (key % 65536) c.mirror.window c.mirror.tail

/-- A place, or a merge switch of it, has waited 2^20 ticks for its recorded event while it is ready to act. -/
def placeTimeout (s : State) (ctx : Word) (node : Nat) : State :=
  match s.ctx? ctx with
  | none => s
  | some c =>
    match c.mirror.waits.find? (fun w => w.1 % 65536 == node && w.2.1 + 2 ^ 20 ≤ s.tick) with
    | none => s
    | some (key, _, src) =>
      match awaited s c key src with
      | none => s
      | some i =>
        if !timersRun s c then s
        else
          let s := s.setMirror c.id { c.mirror with waits := mdel c.mirror.waits key }
          placeDiverges s c.id node src i

def execMrdivPlaceTimeout (ctx : Word) (node : BitVec 16) (s : State) : Out := .next (placeTimeout s ctx node.toNat)

/-- The record at tail has stayed for 2^20 ticks with neither consumption nor progress. -/
def tailTimeout (s : State) (ctx : Word) : State :=
  match s.ctx? ctx with
  | none => s
  | some c =>
    if !timersRun s c || s.tick < c.mirror.quiet + 2 ^ 20 then s else freezeContext s c.id .mrdiv c.mirror.tail

def execMrdivTailTimeout (ctx : Word) (s : State) : Out := .next (tailTimeout s ctx)

/-! ## The watchdog (R416, R417) -/

/-- The hall's binding counts towards its watchdog. -/
def Hall.watched (x : Hall) : Bool :=
  (x.res == .running || x.res == .binding) && (!x.held || x.wdogFired)

/-- WDOG arises at the word at the point of execution, which is not performed. -/
def wdogExpiry (s : State) (h : Nat) : State :=
  let x := s.hall h
  if !x.watched || x.wdogFired || x.wdogCount < x.wdogPeriod then s
  else raise (s.setHall h { x with wdogCount := 0, wdogFired := true }) h .wdog 0 x.pc

def execWdogExpiry (hall : HallId) (s : State) : Out := .next (wdogExpiry s hall.val)

/-- A hall is fenced and its context ends (R409). -/
def fenceAndEnd (s : State) (h : Nat) (code : Nat) : State :=
  let ctx := s.ctxOf h
  let va := match (s.hall h).bind with | some b => b.task.va | none => 0
  terminate (fenceHall s h ctx va) ctx code

/-- The period expires a second time before ERET or a resolution. -/
def wdogSecondExpiry (s : State) (h : Nat) : State :=
  let x := s.hall h
  if !x.watched || !x.wdogFired || x.wdogCount < x.wdogPeriod then s else fenceAndEnd s h Cause.wdog.code

def execWdogSecondExpiry (hall : HallId) (s : State) : Out := .next (wdogSecondExpiry s hall.val)

/-! ## Failures that fence a hall (R409) -/

/-- The hall of an island (R448). -/
def islandHall (i : Nat) : Option Nat := if i % 64 < 48 then some (24 * (i / 64) + i % 64 / 2) else none

/-- An island of a hall fails: nothing is saved. The rule speaks of no other island. -/
def islandFailure (s : State) (i : Nat) : State :=
  match islandHall i with
  | some h => fenceAndEnd s h Cause.fenced.code
  | none => s

def execIslandFailure (island : Fin 128) (s : State) : Out := .next (islandFailure s island.val)

/-- An uncorrectable error in a hall's control state: MEMERR, a save that may succeed, and the fence (R409, R415). -/
def controlStateMemerr (s : State) (h : Nat) (saved : Bool) : State :=
  let ctx := s.ctxOf h
  match (s.hall h).bind with
  | none => fenceHall s h 0 0
  | some b =>
    let saving := (s.hall h).res == .saving
    let s := freeze s h 8 7 0 0 0 .memerr 0 []
    match s.task? b.task with
    | none => fenceHall s h ctx b.task.va
    | some t =>
      if saved && !saving && (s.hall h).res == .running && slotsFor s t then
        beginSave (s.updTask t.id fun t => { t with fencing := some h }) t.id
      else terminate (fenceHall s h ctx b.task.va) ctx Cause.memerr.code

def execControlStateMemerr (hall : HallId) (saved : Bool) (s : State) : Out :=
  .next (controlStateMemerr s hall.val saved)

end Sys2Proof.Machine
end

