-- ==== Sys2Proof/Machine/Management.lean ====
section
/-! DEFINITION. The management mailbox, sealed weights, contexts, TDISP, boot and power (spec/05 R101 to R119, spec/06
R128, R130, spec/16 R410, spec/18 R432 to R450). -/

namespace Sys2Proof.Machine

/-! ## Requests (R433, R434) -/

/-- A request is being processed: a CLOSE that waits for accepted requests. -/
def requestBusy (s : State) : Bool := s.ctxs.any (fun p => p.2.sessions.any (fun x => x.closer.isSome))

/-- A request reaches the RSC: not while another is processed, nor before the mailbox opens; in recovery, and once the
package has stopped, only RECOVER and COUNTERS are answered (R445, R447). -/
def request (s : State) (code : Nat) (k : State → State) : State :=
  if requestBusy s then s
  else
    let t := { s with rsc := { s.rsc with code := code } }
    match s.phase with
    | .running | .halted => k t
    | .recovery | .stopped => if code = 0x21 ∨ code = 0x40 then k t else s
    | .boot => s

/-- A request is answered once its output stands in the host's buffer; where the host gives no translation of it the model
answers STATUS 2 (log 82). -/
def answerBuffer (s : State) (tag : Word) (buf : Nat) (bs : List Byte) (a : Answer) (k : State → State) : State :=
  match toBuffer s buf bs with
  | (true, s) => respond (k s) tag 0 a
  | (false, s) => respond s tag 2 .none

/-- A key domain that no context uses, chosen by the RSC (R106; log 7). -/
def takeDomain (s : State) : Option (Nat × State) :=
  let used := s.domainsInUse
  match ((List.range 4095).map (· + 1)).filter (fun d => !used.contains d) with
  | [] => none
  | d :: ds =>
    let (k, s) := s.draw
    some ((d :: ds).getD ((Config.freeWord k).toNat % (ds.length + 1)) d, s)

/-- The RSC creates an adapter domain for each context that may train adapters and has none yet, while a domain is free
(R106, R328); `withinCap` holds it to ADAPTMAX. -/
def makeAdapters (s : State) : State :=
  s.ctxs.foldl (fun s p =>
    if p.2.domains.any (·.adapt) && !p.2.domains.any (fun d => d.kind == .adapter) then
      match takeDomain s with
      | some (kd, s) => s.updCtx p.2.id fun c => { c with domains := c.domains ++ [⟨kd, .adapter, false, false, 0⟩] }
      | none => s
    else s) s

/-- ASCII text as bytes. -/
def ascii (t : String) : List Byte := t.toList.map (fun c => BitVec.ofNat 8 c.toNat)

/-! ## Reports, sessions and final reports (R104 to R107, R431) -/

/-- REPORT: all ones for CTXID asks for a device report. -/
def reportRequest (s : State) (tag : Word) (buf : Nat) (ctx : Word) (nonce : Digest) : State :=
  let send (peers : Nat) (libdig poldig : Digest) : State :=
    answerBuffer s tag buf (signedReport (reportHead s 1 (digestBytes nonce) ctx peers libdig poldig s.rsc.ek)) .none certify
  if ctx = BitVec.allOnes 64 then send 0 0 0
  else
    match s.ctx? ctx with
    | some c => send c.peerMask c.libdig c.poldig
    | none => respond s tag 2 .none

def execReport (tag : Word) (buf : Nat) (ctx : Word) (nonce : Digest) (s : State) : Out :=
  .next (request s 0x01 fun s => reportRequest s tag buf ctx nonce)

/-- Step 3 of R105: 40 bytes, of which 32 are the key and 8 the identifier. -/
def sessionSecret (ss : Digest) (ct : List Byte) (ctx : Word) : List Byte :=
  Config.shake (ascii "ETODIN-E2-SESSION" ++ digestBytes ss ++ digestBytes (Config.shake256 ct) ++ leBytes 8 ctx.toNat) 40

/-- OPEN (R105 to R107). A SID that the boot has already given is refused, for none is used again (R431). The session notice
waits for a resident dispatcher (log 57). -/
def openRequest (s : State) (tag ctx : Word) (ct : List Byte) : State :=
  if ct.length ≠ 1568 then respond s tag 1 .none
  else
    match s.ctx? ctx, s.rsc.kem.bind (fun dk => Config.kemDecaps dk ct) with
    | some c, some ss =>
      let x := sessionSecret ss ct ctx
      let key : Digest := BitVec.ofNat 256 (leNat (x.take 32))
      let sid : Word := BitVec.ofNat 64 (leNat ((x.drop 32).take 8))
      if s.rsc.sids.contains sid then respond s tag 2 .refuse
      else
      match lowestFree (c.sessions.map (·.handle)) 0 256, takeDomain s with
      | some h, some (skd, s) =>
        let s := { s with rsc := { s.rsc with sids := sid :: s.rsc.sids } }
        let ses : Session := ⟨h, key, sid, 1, 1, skd, 0, 0, false, none⟩
        let s := s.setCtx { c with sessions := c.sessions ++ [ses], domains := c.domains ++ [⟨skd, .session, false, false, 0⟩] }
        let s := drainArrivals (s.arrive (.notice ctx (h + 1)))
        let mac := (Config.gcmSeal key (gcmNonce 3 0) (leBytes 8 sid.toNat ++ leBytes 8 ctx.toNat) []).2
        respond s tag 0 (.accept sid mac)
      | _, _ => respond s tag 2 .refuse
    | _, _ => respond s tag 2 .refuse

def execOpenSession (tag ctx : Word) (ct : List Byte) (s : State) : Out :=
  .next (request s 0x02 fun s => openRequest s tag ctx ct)

/-- The context and session with a SID. -/
def sessionBySid (s : State) (sid : Word) : Option (Ctx × Session) :=
  s.ctxs.findSome? (fun p => (p.2.sessions.find? (fun x => x.sid == sid)).map (fun x => (p.2, x)))

/-- CLOSE (R431): authentic only with the tag of direction 3 and counter 1. -/
def closeRequest (s : State) (tag : Word) (buf : Nat) (sid : Word) (mac : BitVec 128) : State :=
  match sessionBySid s sid with
  | none => respond s tag 2 .none
  | some (c, x) =>
    let want := (Config.gcmSeal x.key (gcmNonce 3 1) (Config.closeAad sid c.id) []).2
    if x.closing || fitBytes 16 want != leBytes 16 mac.toNat then respond s tag 2 .none
    else
      closeIfDone (updSession s c.id x.handle fun x => { x with closing := true, closer := some (tag, buf) }) c.id x.handle

def execClose (tag : Word) (buf : Nat) (sid : Word) (mac : BitVec 128) (s : State) : Out :=
  .next (request s 0x03 fun s => closeRequest s tag buf sid mac)

/-- FINALS (R431, R434). -/
def finalsRequest (s : State) (tag : Word) (buf : Nat) : State :=
  match s.rsc.finals with
  | [] => respond s tag 2 (.held 0 s.rsc.lost)
  | f :: fs =>
    answerBuffer s tag buf (finalReport s f) (.held fs.length s.rsc.lost) fun s =>
      certify { s with rsc := { s.rsc with finals := fs } }

def execFinals (tag : Word) (buf : Nat) (s : State) : Out := .next (request s 0x05 fun s => finalsRequest s tag buf)

/-! ## Sealed weights (R115 to R117) -/

/-- All bytes of a field are zero. -/
def zeros (bs : List Byte) (off n : Nat) : Bool := ((bs.drop off).take n).all (· == 0)

/-- R116. -/
def policyOk (p : List Byte) : Bool :=
  let nlib := fieldOf p 9 1
  fieldOf p 0 2 == 1 && fieldOf p 2 2 < 8 && fieldOf p 8 1 < 128 && 1 ≤ nlib && nlib ≤ 16 && zeros p 0xA 6
  && zeros p (0x110 + 32 * nlib) (32 * (16 - nlib)) && zeros p 0x318 8

/-- The header of a bundle (R115), with its policy. -/
def bundleOk (h : List Byte) : Bool :=
  let len := fieldOf h 8 8
  fieldOf h 0 4 == 0x42444C31 && fieldOf h 4 2 == 1 && zeros h 6 2 && len % 65536 == 0 && 65536 ≤ len
  && fieldOf h 0x10 4 == (len + 0xFFFFF) / 0x100000 && zeros h 0x14 12 && zeros h 0x990 112
  && policyOk ((h.drop 0x670).take 800)

/-- Step 3 of R117. -/
def measOk (s : State) (p : List Byte) : Bool :=
  fieldOf p 4 4 ≤ (Config.fwsvn s.rsc.flash).toNat && (!nbit (fieldOf p 2 2) 0 || !Config.lifeDebug)
  && (List.range 7).all (fun k => !nbit (fieldOf p 8 1) k
      || (p.drop (0x10 + 32 * k)).take 32 == digestBytes (s.rsc.meas.getD k 0))

/-- Step 4 of R117. -/
def libAllowed (c : Ctx) (p : List Byte) : Bool :=
  (List.range (fieldOf p 9 1)).any (fun i => (p.drop (0x110 + 32 * i)).take 32 == digestBytes c.libdig)

/-- The key that opens WRAP (R115). -/
def bundleKek (ss : Digest) (ct : List Byte) : Digest :=
  Config.shake256 (ascii "ETODIN-E2-BUNDLE" ++ digestBytes ss ++ digestBytes (Config.shake256 ct))

/-- Step 2 of R117: BK. -/
def bundleKey (s : State) (h : List Byte) : Option Digest :=
  let ct := (h.drop 0x20).take 1568
  let wrap := (h.drop 0x640).take 48
  match s.rsc.kem.bind (fun dk => Config.kemDecaps dk ct) with
  | none => none
  | some ss => (Config.gcmOpen (bundleKek ss ct) (gcmNonce 4 0) (h.take 0x20 ++ (h.drop 0x670).take 800) (wrap.take 32)
      (wrap.drop 32)).map (fun k => BitVec.ofNat 256 (leNat (fitBytes 32 k)))

/-- `n` fresh 2 MiB frames of tier N. -/
def lensFrames : Nat → State → Option (List Nat) × State
  | 0, s => (some [], s)
  | n + 1, s =>
    match freshFrame s false 0x200000 with
    | (none, s) => (none, s)
    | (some f, s) =>
      match lensFrames n s with
      | (some fs, s) => if fs.contains f then (none, s) else (some (f :: fs), s)
      | (none, s) => (none, s)

/-- Step 6 of R117: chunk `c` of `n` in all. A chunk that the host gives no translation of does not verify (log 82). -/
def loadChunks (h : List Byte) (bk : Digest) (host len : Nat) (frames : List Nat) (leaf : Nat → Word) :
    Nat → Nat → State → Option State
  | 0, _, s => some s
  | n + 1, c, s =>
    let k := min 0x100000 (len - c * 0x100000)
    let (reached, s) := atsSpan s (host + 0xA00 + c * 0x100040) (k + 16)
    let bs := cread s.hostMem (host + 0xA00 + c * 0x100040) (k + 16)
    match reached, Config.gcmOpen bk (gcmNonce 5 c) (h.take 0x20 ++ leBytes 8 c) (bs.take k) (bs.drop k) with
    | false, _ | _, none => none
    | true, some pt =>
      let pa := frames.getD (c / 2) 0 + c % 2 * 0x100000
      let w := leaf (frames.getD (c / 2) 0)
      loadChunks h bk host len frames leaf n (c + 1) (physWrite s pa w (fitBytes k pt))

/-- The table an entry points to; a fresh one where there is none. R117 names no source of tables and no failure at step 7:
the model takes a frame of tier N, and the load ends with NOSPACE where none is free (log 60). -/
def tableAt (s : State) (a : Nat) : Option Nat × State :=
  let w := entryAt s a
  if pteV w && !pteLeaf w then (some (pteNext w), s)
  else
    match freshFrame s false 0x200000 with
    | (none, s) => (none, s)
    | (some f, s) => (some f, physWrite s a 0 (leBytes 8 (2 ^ 63 + f)))

/-- Install one 2 MiB leaf. -/
def installLeaf (s : State) (root va : Nat) (leaf : Word) : Option State :=
  match tableAt s (root + 8 * nbits va 43 13) with
  | (some t1, s) =>
    match tableAt s (t1 + 8 * nbits va 30 13) with
    | (some t2, s) => some (physWrite s (t2 + 8 * nbits va 21 9) 0 (leBytes 8 leaf.toNat))
    | (none, _) => none
  | (none, _) => none

def installAll (root : Nat) (leaf : Nat → Word) : Nat → List Nat → State → Option State
  | _, [], s => some s
  | va, f :: fs, s => (installLeaf s root va (leaf f)).bind (installAll root leaf (va + 0x200000) fs)

/-- No page of a range is mapped. -/
def unmapped (s : State) (c : Ctx) (base n : Nat) : Bool :=
  (List.range (n / 65536)).all (fun i => (walk s c (base + 65536 * i)).isNone)

/-- Steps 1 to 7 of R117 on a context: how the load ends, and the state after it where it succeeds. -/
def loadBundle (s : State) (c : Ctx) (host base : Nat) (h : List Byte) : LoadResult × State :=
  let p := (h.drop 0x670).take 800
  let len := fieldOf h 8 8
  match bundleKey s h with
  | none => (.badKey, s)
  | some bk =>
    if !measOk s p then (.badMeas, s)
    else if !libAllowed c p then (.badLib, s)
    else
      match takeDomain s with
      | none => (.noSpace, s)
      | some (kd, s) =>
        match lensFrames ((len + 0x1FFFFF) / 0x200000) s with
        | (none, s) => (.noSpace, s)
        | (some frames, s) =>
          -- WR and AR of the leaves are stated nowhere (log 7)
          let (k, s) := s.draw
          let (k', s) := s.draw
          let leaf (f : Nat) : Word := BitVec.ofNat 64 (2 ^ 63 + 2 ^ 62 + 2 ^ 61 + b2n (Config.freeBool k) * 2 ^ 60
            + b2n (Config.freeBool k') * 2 ^ 57 + kd * 2 ^ 44 + f / 65536 * 4096)
          let flags := fieldOf p 2 2
          let d : Domain := ⟨kd, .lens, nbit flags 1, nbit flags 2, if nbit flags 2 then fieldOf p 0x310 8 else 0⟩
          match loadChunks h bk host len frames leaf (fieldOf h 0x10 4) 0 s with
          | none => (.badChunk, s)
          | some t =>
            match installAll (nbits c.ptroot.toNat 0 48) leaf base frames t with
            | none => (.noSpace, s)
            | some t => (.ok, makeAdapters (t.updCtx c.id fun c =>
                { c with domains := c.domains ++ [d], policies := c.policies ++ p }))

/-- BUNDLE (R117). The rule gives no result for a base that is not aligned, a range in use or a header the host gives no
translation of: the model answers STATUS 2 with no result, the base before step 1 and the range, which needs LEN, after it
(logs 61, 82). -/
def bundleRequest (s : State) (tag ctx : Word) (host base : Nat) : State :=
  match s.ctx? ctx with
  | none => respond s tag 2 .none
  | some c =>
    if base % 0x200000 ≠ 0 then respond s tag 2 .none
    else
      match atsSpan s host 0xA00 with
      | (false, s) => respond s tag 2 .none
      | (true, s) =>
        let h := cread s.hostMem host 0xA00
        let span := (fieldOf h 8 8 + 0x1FFFFF) / 0x200000 * 0x200000
        if !bundleOk h then respond s tag 2 (.result .badForm)
        else if ownBase < base + span ∨ !unmapped s c base span then respond s tag 2 .none
        else
          match loadBundle s c host base h with
          | (.ok, s) => respond s tag 0 (.result .ok)
          | (r, s) => respond s tag 2 (.result r)

def execBundle (tag ctx : Word) (host : Nat) (base : Word) (s : State) : Out :=
  .next (request s 0x04 fun s => bundleRequest s tag ctx host base.toNat)

/-! ## Contexts and halls (R119, R128, R130) -/

/-- Power level of an island; 15 where none has been set (log 4). -/
def islandLevel (s : State) (i : Nat) : Nat := mget s.islands i 15

/-- The first island of a hall. -/
def hallIsland (h : Nat) : Nat := 64 * (h / 24) + 2 * (h % 24)

def hallOff (s : State) (h : Nat) : Bool := islandLevel s (hallIsland h) == 0

def maskHalls (m : BitVec 48) : List Nat := (List.range 48).filter (fun h => m.getLsbD h)

/-- Sum of the quotas of all contexts on a die. -/
def quotaSum (s : State) (d : Nat) : Nat := (s.ctxs.map (fun p => p.2.quota.getD d 0)).sum

/-- A quota that R130 allows on a die; 0 stands where the context holds no hall. -/
def quotaOk (s : State) (m : BitVec 48) (d q : Nat) : Bool :=
  if (maskHalls m).any (fun h => dieOf h == d) then 1 ≤ q && q ≤ 1024 && quotaSum s d + q ≤ 1024 else true

/-- A request that is malformed: numbers outside the ranges of their registers (R419). -/
def createMalformed (b : CreateBody) : Bool :=
  48 < b.vf || 4096 < b.spillSlots || b.spillBase.toNat % 0x800000 != 0 || !evSizeOk (BitVec.ofNat 64 b.evSize)

/-- What R119, R128, R130 and R435 ask of a context. There is one system context. The slot of R121 is the request's, for
R434's body names none (log 64). -/
def createAllowed (s : State) (b : CreateBody) : Bool :=
  let f := s.vf b.vf
  let hs := maskHalls b.halls
  s.phase == .running && f.tdi == .unlocked && !f.fenced && hs != [] && b.halls &&& ~~~ f.halls == 0
  && hs.all (fun h => (s.hall h).res != .fenced && !hallOff s h)
  && !s.ctxs.any (fun p => p.2.vf == b.vf && (p.2.slot == b.slot.val || b.vf == 0))
  && quotaOk s b.halls 0 b.quota0 && quotaOk s b.halls 1 b.quota1
  && (match b.library[b.dispIdx]? with
      | some img => let k := imageKernel img; k.idle && k.hmin == 1 && k.hmax == 1
      | none => false)

/-- Peers whose RSC confirms the context (R440): over an admitted link; what the peer answers is its own (log 7). -/
def confirmPeers : List (Nat × Word) → State → List (Nat × Word) × State
  | [], s => ([], s)
  | p :: ps, s =>
    let (k, s) := s.draw
    let ok := s.links.any (fun l => l.2.1 == p.1) && Config.freeBool k
    let (r, s) := confirmPeers ps s
    (if ok then p :: r else r, s)

/-- The CTXID of a new context: the RSC's choice, never one given before (log 7). -/
def nameContext (s : State) : Word × State :=
  let (k, s) := s.draw
  (((Config.freeWord k) &&& 0xFFFFFFFF00000000) ||| BitVec.ofNat 64 ((s.ctxids + 1) % 2 ^ 32), { s with ctxids := s.ctxids + 1 })

def newContext (b : CreateBody) (id : Word) (kd : Nat) (present : List (Nat × Word)) (now : Nat) : Ctx where
  id := id
  vf := b.vf
  slot := b.slot.val
  halls := b.halls
  kd := kd
  ptroot := b.ptroot &&& 0xFFFFFFFF0000
  starve := 0
  fpol := b.fpol &&& fpolMask
  evbase := 0
  evsize := BitVec.ofNat 64 b.evSize
  evhead := 0
  evtail := 0
  evlost := 0
  spillbase := b.spillBase
  spillslots := BitVec.ofNat 64 b.spillSlots
  vc := 1
  racectl := 1
  arctl := 0
  mirror := .restart .off 0 0 now
  clocks := []
  tensors := []
  library := b.library
  libdig := Config.manifestDigest (b.library.map (·.digest))
  policies := []
  domains := []
  sessions := []
  quota := (List.range 2).map (fun d =>
    if (maskHalls b.halls).any (fun h => dieOf h == d) then (if d = 0 then b.quota0 else b.quota1) else 0)
  dispIdx := b.dispIdx
  parked := false
  terminating := false
  integ := false
  tags := []
  peers := b.peers
  present := present

/-- The dispatcher as a hall task of priority 3 (R119); ARG0 is set when it starts. -/
def dispatcherTask (c : Ctx) : Task :=
  newTask ⟨c.id, dispVA⟩ (c.dispIdx * 2 ^ 48 + 2 ^ 45 + 3 * 2 ^ 43) 0 [0, 0, 0, c.id.toNat, 0, 0]

/-- CTX_CREATE (R119): the RSC admits the dispatcher kernel, and the Landing takes the dispatcher. -/
def createRequest (s : State) (tag : Word) (b : CreateBody) : State :=
  if createMalformed b then respond s tag 1 .none
  else if !createAllowed s b then respond s tag 2 .none
  else
    match takeDomain s with
    | none => respond s tag 2 .none
    | some (kd, s) =>
      let (id, s) := nameContext s
      let (present, s) := confirmPeers b.peers s
      let c := newContext b id kd present s.tick
      match admitKernel (s.setCtx c) id (galleryOf c.home) b.dispIdx with
      | .error _ => respond s tag 2 .none
      | .ok (_, t) =>
        let t := { t with tasks := t.tasks ++ [(dispatcherTask c).ready t (dieOf c.home) []], orders := t.orders + 1 }
        respond t tag 0 (.context id)

def execCtxCreate (tag : Word) (body : CreateBody) (s : State) : Out :=
  .next (request s 0x10 fun s => createRequest s tag body)

/-- CTX_DESTROY (R407). -/
def destroyRequest (s : State) (tag ctx : Word) : State :=
  match s.ctx? ctx with
  | none => respond s tag 2 .none
  | some _ => respond (terminate s ctx 0) tag 0 .none

def execCtxDestroy (tag ctx : Word) (s : State) : Out := .next (request s 0x11 fun s => destroyRequest s tag ctx)

/-- R128: halls that change hands may lie in no other function and in no context of this one. -/
def hallsAllowed (s : State) (vf : Nat) (m : BitVec 48) : Bool :=
  let f := s.vf vf
  f.tdi == .unlocked && !f.fenced
  && s.vfs.all (fun p => p.1 == vf || p.2.halls &&& m == 0)
  && (maskHalls m).all (fun h => (s.hall h).res != .fenced && !hallOff s h)
  && s.ctxs.all (fun p => p.2.vf != vf || p.2.halls &&& (f.halls ^^^ m) == 0)

/-- HALLS (R128, R435). -/
def hallsRequest (s : State) (tag : Word) (vf : Nat) (m : BitVec 48) : State :=
  if 48 < vf then respond s tag 1 .none
  else if !hallsAllowed s vf m then respond s tag 2 .none
  else respond (s.setVf vf { s.vf vf with halls := m }) tag 0 .none

def execHalls (tag : Word) (vf : Nat) (mask : BitVec 48) (s : State) : Out :=
  .next (request s 0x12 fun s => hallsRequest s tag vf mask)

/-! ## Islands and counters (R434, R448, R449) -/

/-- A hall's two islands go off and on together; what it held is gone, and a fenced hall stays fenced (R15, R143). On
which level the island comes that ISLAND did not name, R449 does not say: the model gives both the level named (log 58). -/
def powerHall (s : State) (h level : Nat) : State :=
  let x := s.hall h
  let s := if level = 0 then spillL1 s h (x.ctx?.getD x.lastCtx) else s
  let i := hallIsland h
  { s.setHall h { Hall.reset with res := if x.res = .fenced then .fenced else .idle } with islands := mset (mset s.islands i level) (i + 1) level }

/-- ISLAND (R449). -/
def islandRequest (s : State) (tag : Word) (i level : Nat) : State :=
  match islandHall i with
  | some h =>
    if level = 0 then
      if s.vfs.any (fun p => p.2.halls.getLsbD h) || (s.hall h).res != .idle then respond s tag 2 .none
      else respond (powerHall s h 0) tag 0 .none
    else if islandLevel s i = 0 then respond (powerHall s h level) tag 0 .none
    else respond { s with islands := mset s.islands i level } tag 0 .none
  | none =>
    if level = 0 then respond s tag 2 .none else respond { s with islands := mset s.islands i level } tag 0 .none

def execIsland (tag : Word) (isl : Fin 128) (level : Fin 16) (s : State) : Out :=
  .next (request s 0x20 fun s => islandRequest s tag isl.val level.val)

/-- ISLAND_THROTTLE (R449): the firmware lowers a level, never to off, and COUNTERS reports it. -/
def execIslandThrottle (isl : Fin 128) (level : Fin 16) (s : State) : Out :=
  .next (if level.val = 0 ∨ islandLevel s isl.val ≤ level.val then s
    else { s with islands := mset s.islands isl.val level.val, lowered := s.lowered ++ [(isl.val, level.val)] })

/-- COUNTERS (R434): the layout is the firmware's (log 5). -/
def countersRequest (s : State) (tag : Word) (buf sel : Nat) : State :=
  let bytes := Config.counterBytes sel (s.l2.map (fun l => (l.line % 384, l.kd))) s.throttled s.retired.length s.fences s.lowered
  answerBuffer s tag buf bytes .none id

def execCounters (tag : Word) (buf sel : Nat) (s : State) : Out :=
  .next (request s 0x21 fun s => countersRequest s tag buf sel)

/-! ## Pod admission (R439) -/

/-- The identity of this package and its LIFE, as SPDM compares them (R103, R104, R439; log 82). -/
def localIdentity : Word := (Config.shake256 Config.identityKey).truncate 64

def localLife : Word := if Config.lifeDebug then 2 else 1

/-- The four conditions of R439 on the far end that a draw names (log 7). -/
def peerFits (s : State) (k : Nat) : Bool :=
  Config.peerChain k && Config.peerIdentity k != localIdentity && Config.peerLife k == localLife
  && Config.peerMeasures k == s.rsc.meas.take 6

/-- Links whose peer is admitted, with the number and identity it gives. -/
def probe : List Nat → State → List (Nat × Nat × Word) × State
  | [], s => ([], s)
  | l :: ls, s =>
    let (k, s) := s.draw
    let (r, s) := probe ls s
    (if peerFits s k then (l, (Config.freeWord k).toNat % 64, Config.peerIdentity k) :: r else r, s)

/-- POD: two links that name one number for different identities are both refused. -/
def podRequest (s : State) (tag : Word) (mask : BitVec 8) (pkg : Nat) : State :=
  if s.phase ≠ .running then respond s tag 2 .none
  else
    let asked := (List.range 8).filter (fun l => mask.getLsbD l && (mfind s.links l).isNone)
    let (found, s) := probe asked { s with pkg := pkg }
    let all := s.links ++ found
    let clash (p : Nat × Nat × Word) : Bool := all.any (fun q => q.2.1 == p.2.1 && q.2.2 != p.2.2)
    let links := (found.filter (fun p => !clash p)).foldl (fun m p => mset m p.1 p.2)
      (s.links.filter (fun p => !clash p))
    respond { s with links := links
                     linkRuns := links.map (fun p => (p.1, mget s.linkRuns p.1 (0, 0))) } tag 0 .none

def execPod (tag : Word) (links : BitVec 8) (pkg : Fin 64) (s : State) : Out :=
  .next (request s 0x30 fun s => podRequest s tag links pkg.val)

/-! ## TDISP and function reset (R410, R435, R437) -/

/-- Contexts of a function. -/
def contextsOf (s : State) (vf : Nat) : List Word := (s.ctxs.filter (fun p => p.2.vf == vf)).map (fun p => p.2.id)

def endContexts (s : State) (vf : Nat) : State := (contextsOf s vf).foldl (fun s c => terminate s c 0) s

/-- A virtual function's TDISP state moves only along the arcs of R435; a fenced one waits for its reset. -/
def onInterface (s : State) (vf : Nat) (k : Vf → State) : State :=
  let f := s.vf vf
  if vf = 0 ∨ 48 < vf ∨ f.fenced then s else k f

/-- What the report of a function's interface names for a user: the CTXIDs of its context slots (R435). The TDISP message
that carries it is the host's. -/
def interfaceReport (s : State) (vf : Nat) : List (Nat × Word) :=
  (s.ctxs.filter (fun p => p.2.vf == vf)).map (fun p => (p.2.slot, p.2.id))

/-- A report of a function's interface is asked for (R435). -/
def reportInterface (s : State) (vf : Nat) : State :=
  if s.phase = .running then { s with rsc := { s.rsc with interfaces := interfaceReport s vf } } else s

def execLockInterface (vf : Nat) (s : State) : Out :=
  .next (onInterface s vf fun f => if f.tdi = .unlocked then s.setVf vf { f with tdi := .locked } else s)

def execStartInterface (vf : Nat) (s : State) : Out :=
  .next (onInterface s vf fun f => if f.tdi = .locked then s.setVf vf { f with tdi := .run } else s)

def execStopInterface (vf : Nat) (s : State) : Out :=
  .next (onInterface s vf fun f => (endContexts s vf).setVf vf { f with tdi := .unlocked })

/-- VF_FENCE (R410): its contexts end, its halls are scrubbed and returned unassigned, and the system ring is told. -/
def vfFence (s : State) (vf : Nat) : State :=
  onInterface s vf fun _ =>
    let s := (endContexts s vf).setVf vf ⟨0, .error, true⟩
    writeEvent { s with fences := s.fences + 1 }
      ⟨Cause.fenced.code, 4, 63, 0, 0, 0, 0, 0, BitVec.ofNat 64 vf, 0, 0, []⟩

def execVfFence (vf : Nat) (s : State) : Out := .next (vfFence s vf)

/-- FUNCTION_LEVEL_RESET (R437). -/
def functionReset (s : State) (vf : Nat) : State :=
  if vf = 0 ∨ 48 < vf then s else (endContexts s vf).setVf vf Vf.reset

def execFunctionLevelReset (vf : Nat) (s : State) : Out := .next (functionReset s vf)

/-! ## Boot and power (R102, R103, R446, R447, R450) -/

/-- The package as a reset leaves it: what the host, the module's flash and the fuses hold stays, and so do the model's own
counters of free choices. -/
def resetPackage (s : State) : State :=
  { State.reset with turns := s.turns, free := s.free, ids := s.ids, hostMem := s.hostMem
                     fuseSvn := s.fuseSvn, rsc := { Rsc.reset with flash := s.rsc.flash } }

/-- Extend a slot with a component (R102). -/
def extendSlot (m : List Digest) (k : Nat) (c : List Byte) : List Digest :=
  m.set k (Config.shake256 (digestBytes (m.getD k 0) ++ digestBytes (Config.shake256 c)))

/-- Slots 0 to `n` − 1 extended in order. -/
def measure (flash : List Byte) : Nat → List Digest → List Digest
  | 0, m => m
  | n + 1, m => extendSlot (measure flash n m) n
      (if n = 6 then leBytes 8 Config.lifecycle.toNat else Config.component flash n)

/-- What the boot ROM asks of the firmware in flash: its key against the fused digest, and its FWSVN against the fused
minimum (R446). -/
def firmwareFits (s : State) : Bool :=
  Config.shake256 (Config.firmwareKey s.rsc.flash) == Config.fusedKeyDigest && s.fuseSvn.toNat ≤ (Config.fwsvn s.rsc.flash).toNat

/-- How many components verify, of the six that carry a signature; `fail` names the first whose signature does not. -/
def verified (s : State) (fail : BootFail) : Nat :=
  if !firmwareFits s then 0 else (fail.map (fun k => min 6 k.val)).getD 6

/-- The boot (R446): with every component verified, the slots, the boot nonce and the boot KEM key (R103), else the
recovery state (R447). -/
def boot (s : State) (fail : BootFail) : State :=
  let blank : List Digest := List.replicate 8 0
  let n := verified s fail
  if n < 6 then { s with phase := .recovery, rsc := { s.rsc with meas := measure s.rsc.flash n blank } }
  else
    let (k, s) := s.draw
    let (k', s) := s.draw
    let dk := Config.random k'
    { s with phase := .running
             rsc := { s.rsc with meas := measure s.rsc.flash 7 blank, nonce := Config.random k, kem := some dk
                                 ek := Config.kemPublic dk } }

/-- PACKAGE_RESET. -/
def execPackageReset (fail : BootFail) (s : State) : Out := .next (boot (resetPackage s) fail)

/-- POWER_LOSS: the whole package is reset; the boot ROM runs next. -/
def execPowerLoss (s : State) : Out := .next (resetPackage s)

/-- RECOVER: the image goes to flash, the RSC responds, and the package is reset; what stands in the response area stays
(log 82). -/
def recoverRequest (s : State) (tag : Word) (image : List Byte) : State :=
  if s.phase = .recovery ∨ s.phase = .stopped then
    let r := (respond s tag 0 .none).rsc
    let t := resetPackage { s with rsc := { s.rsc with flash := image } }
    { t with rsc := { t.rsc with code := r.code, status := r.status, reply := r.reply, answer := r.answer, response := r.response } }
  else respond s tag 2 .none

/-- RECOVER with the image that the host's buffer holds. -/
def execRecover (tag : Word) (image : List Byte) (s : State) : Out :=
  .next (request s 0x40 fun s => recoverRequest s tag image)

/-- The image is read from the host's buffer, through ATS. -/
def recoverBuffer (s : State) (tag : Word) (buf len : Nat) : State :=
  match atsSpan s buf len with
  | (true, s) => recoverRequest s tag (cread s.hostMem buf len)
  | (false, s) => respond s tag 2 .none

/-! ## The mailbox (R433, R434) -/

/-- The request in the request area is submitted. DESIGN CHOICE (log 82): each field of a body takes eight bytes, a nonce 32,
a ciphertext 1568 and a tag 16, in the order of R434, and an image's length follows its buffer. -/
def submit (s : State) : State :=
  let area := s.rsc.area
  let code := cval area 0 2
  let len := cval area 4 4
  let tag : Word := BitVec.ofNat 64 (cval area 8 8)
  let g (i : Nat) : Nat := cval area (16 + 8 * i) 8
  let w (i : Nat) : Word := BitVec.ofNat 64 (g i)
  let go (want : Nat) (fits : Bool) (k : State → State) : State :=
    request s code fun s => if cval area 2 2 ≠ 0 ∨ len ≠ want ∨ !fits then respond s tag 1 .none else k s
  match code with
  | 0x01 => go 48 true fun s => reportRequest s tag (g 0) (w 1) (BitVec.ofNat 256 (cval area 32 32))
  | 0x02 => go 1576 true fun s => openRequest s tag (w 0) (cread area 24 1568)
  | 0x03 => go 32 true fun s => closeRequest s tag (g 0) (w 1) (BitVec.ofNat 128 (cval area 32 16))
  | 0x04 => go 32 true fun s => bundleRequest s tag (w 1) (g 2) (g 3)
  | 0x05 => go 8 true fun s => finalsRequest s tag (g 0)
  | 0x10 =>
    let body := Config.createBody (cread area 16 (min len 0x7FEC))
    go (min len 0x7FEC) body.isSome fun s => body.elim s (createRequest s tag)
  | 0x11 => go 8 true fun s => destroyRequest s tag (w 0)
  | 0x12 => go 16 (g 1 < 2 ^ 48) fun s => hallsRequest s tag (g 0) (BitVec.ofNat 48 (g 1))
  | 0x20 => go 16 (g 0 < 128 && g 1 < 16) fun s => islandRequest s tag (g 0) (g 1)
  | 0x21 => go 16 true fun s => countersRequest s tag (g 0) (g 1)
  | 0x30 => go 16 (g 0 < 256 && g 1 < 64) fun s => podRequest s tag (BitVec.ofNat 8 (g 0)) (g 1)
  | 0x40 => go 16 true fun s => recoverBuffer s tag (g 0) (g 1)
  | _ => request s code fun s => respond s tag 3 .none

/-- A host write to BAR 0 of the physical function: the bytes of the request area, unless a request is being processed, and
then the submission where it reaches 0x7FFC. -/
def mailboxWrite (s : State) (off : Nat) (data : List Byte) : State :=
  if requestBusy s then s
  else
    let area := cwrite s.rsc.area off (data.take (0x7FFC - off))
    let s := { s with rsc := { s.rsc with area := area } }
    if off ≤ 0x7FFF ∧ 0x7FFC < off + data.length then submit s else s

/-- What the host reads at an offset of BAR 0 (R433). -/
def mailboxView (s : State) (off : Nat) : Byte :=
  if off < 0x7FFC then cget s.rsc.area off
  else if 0x8000 ≤ off ∧ off < 0xFFFC then s.rsc.response.getD (off - 0x8000) 0
  else if 0xFFFC ≤ off ∧ off < 0x10000 then (leBytes 4 s.rsc.reply.toNat).getD (off - 0xFFFC) 0
  else 0

/-! ## What the host and the operator do beside the requests (R431, R432, R435) -/

/-- An AtomicOp of the host on a mailbox slot (R432). DESIGN CHOICE (log 83): it reads what a host read of the slot gives
and produces its result as a host write would (R121, R122). -/
def hostAtomic (s : State) (vf slot off : Nat) (op : HostAtomic) (n a b : Nat) (ide : Bool) : State :=
  let old := leNat ((List.range n).map (fun i => hostView s vf slot (off + i)))
  let put (v : Nat) : State := hostProduce s vf slot off (leBytes n v) (List.replicate n true) ide
  if off % n ≠ 0 then s
  else
    match op with
    | .fetchAdd => put (old + a)
    | .swap => put a
    | .cas => if old = a % 2 ^ (8 * n) then put b else s

/-- The operator asks for a session to close (R431): as a CLOSE, but its final report waits in the queue. -/
def operatorClose (s : State) (ctx : Word) (h : Nat) : State :=
  if s.phase ≠ .running ∨ (sessionOf s ctx h).all (·.closing) then s
  else closeIfDone (updSession s ctx h fun x => { x with closing := true, closer := none }) ctx h

def hostTurn (s : State) (a : HostAct) : State :=
  match a with
  | .mailbox off data => mailboxWrite s off data
  | .atomic vf slot off op dbl a b ide => hostAtomic s vf slot off op (if dbl then 8 else 4) a b ide
  | .interfaceReport vf => reportInterface s vf
  | .closeSession ctx h => operatorClose s ctx h

end Sys2Proof.Machine
end

