-- ==== Sys2Proof/Machine/SeqControl.lean ====
section
/-! DEFINITION. Control words, NOP, YIELD, BEAT and the traps raised on purpose (spec/08 R196 to R201, spec/14 R372,
spec/16 R401, R402). -/

namespace Sys2Proof.Machine

/-- The target check of R197, then the transfer. -/
def jumpTo (h : Nat) (t : Int) (k : State → State) (s : State) : Res (Option Nat) :=
  if t % 8 ≠ 0 then .trap .align 0 s
  else if t < 0 ∨ ((s.hall h).length : Int) ≤ t then .trap .access 0 s
  else .ok (some t.toNat) (k s)

/-- Where BR and CALL go (R198). -/
def branchTarget (pc : Nat) (imm : BitVec 34) : Int := (pc : Int) + 8 * imm.toInt

/-- A control word: the C view decides, the address unit predicts from its working copy (R184, R198). -/
def controlWord (hd : SHdr) (srcs dst : List Reg) (eff : Nat → State → Res (Option Nat))
    (guess : AddrUnit → Option (Nat × AddrUnit)) (s : State) : State :=
  match s.cur with
  | .seq h => computeWord h hd srcs dst true id (eff h) s
  | .addr h => aheadWord h hd srcs dst id guess s
  | _ => s

/-- A prediction stays a natural number; a target below 0 is never fetched. -/
def guessAt (t : Int) (u : AddrUnit) : Option (Nat × AddrUnit) := some (t.toNat, u)

def execBr (h : SHdr) (imm : BitVec 34) (s : State) : Out :=
  .next (controlWord h [] [] (fun g s => jumpTo g (branchTarget (s.hall g).pc imm) id s)
    (fun u => guessAt (branchTarget u.pc imm) u) s)

/-- JMP computes sb + 8·sc exactly (R198). DESIGN CHOICE (unsafe, log 80): R198 names no extension of the two registers, and
both enter the sum as unsigned numbers. -/
def jmpTarget (b c : Word) : Int := (b.toNat : Int) + 8 * (c.toNat : Int)

def execJmp (h : SHdr) (b c : Reg) (s : State) : Out :=
  .next (controlWord h [b, c] [] (fun g s => jumpTo g (jmpTarget (s.rc g b) (s.rc g c)) id s)
    (fun u => guessAt (jmpTarget (u.view.reg b) (u.view.reg c)) u) s)

/-- CALL writes the link in both views (R198). -/
def linkBoth (g : Nat) (a : Reg) (s : State) : State :=
  s.updHall g fun x => { x with c := x.c.setReg a (BitVec.ofNat 64 (x.pc + 8)), a := x.a.setReg a (BitVec.ofNat 64 (x.pc + 8)) }

def execCall (h : SHdr) (a : Reg) (imm : BitVec 34) (s : State) : Out :=
  .next (controlWord h [] [a] (fun g s => jumpTo g (branchTarget (s.hall g).pc imm) (linkBoth g a) s)
    (fun u => guessAt (branchTarget u.pc imm)
      { u with view := u.view.setReg a (BitVec.ofNat 64 (u.pc + 8)), poison := u.poison &&& ~~~ regBits [a] }) s)

def execRet (h : SHdr) (b : Reg) (s : State) : Out :=
  .next (controlWord h [b] [] (fun g s => jumpTo g ((s.rc g b).toNat : Int) id s)
    (fun u => guessAt ((u.view.reg b).toNat : Int) u) s)

/-- LOOP on the compute unit (R199). -/
def loopEff (g : Nat) (a : Reg) (imm : BitVec 28) (s : State) : Res (Option Nat) :=
  let x := s.hall g
  let le := x.pc + 8 * imm.toNat
  if x.length ≤ le then .trap .access 0 s
  else
    let n := s.rc g a
    if n = 0 then .ok (some (le + 8)) (s.setHall g { x with lc := 0 })
    else .ok (some (x.pc + 8)) (s.setHall g { x with lc := n, ls := off17 (x.pc + 8), le := off17 le })

/-- The decision of a LOOP against the prediction (R187): another trip count, or a LOOP taken in one unit only, gives the
word a prediction that no decision meets. -/
def Hall.judged (decided : Option Word) (x : Hall) : Hall :=
  match x.au.queue with
  | q :: qs => if q.off = x.pc ∧ q.trip ≠ decided then { x with au := { x.au with queue := { q with taken := some 1 } :: qs } } else x
  | [] => x

def execLoop (h : SHdr) (a : Reg) (imm : BitVec 28) (s : State) : Out :=
  .next (controlWord h [a] []
    (fun g s => (loopEff g a imm s).andThen fun t s => .ok t (s.updHall g (Hall.judged (some (s.rc g a)))))
    (fun u =>
      let le := u.pc + 8 * imm.toNat
      let n := u.view.reg a
      if n = 0 then some (le + 8, { u with lc := 0 })
      else some (u.pc + 8, { u with lc := n, ls := u.pc + 8, le := le }))
    (match s.cur with
     | .seq g => if holds h (s.hall g).c then s else s.updHall g (Hall.judged none)
     | _ => s))

/-- NOP: no effect in any view (R196). -/
def execNop (h : SHdr) (s : State) : Out := .next (plainWord h [] [] id (fun _ s => .ok none s) s)

/-- A word that marks a freeze point when its guards hold (R201). -/
def execYield (h : SHdr) (s : State) : Out :=
  .next (match s.cur with
    | .seq g => computeWord g { h with y := h.y || holds h (s.hall g).c } [] [] false id (fun s => .ok none s) s
    | .addr g => aheadWord g h [] [] id (fun _ => none) s
    | _ => s)

/-- BEAT sets the hall's watchdog count to 0 (R372). -/
def execBeat (h : SHdr) (s : State) : Out :=
  .next (cWord h [] [] (fun g s => .ok () (s.updHall g fun x => { x with wdogCount := 0 })) s)

/-- TRAP raises cause 0x20 at the word itself (R402). -/
def execTrap (h : SHdr) (code : BitVec 8) (s : State) : Out :=
  .next (cWord h [] [] (fun _ s => .trap .trap (code.zeroExtend 64) s) s)

/-- BKPT raises cause 0x21 at the word itself (R402). -/
def execBkpt (h : SHdr) (tag : BitVec 8) (s : State) : Out :=
  .next (cWord h [] [] (fun _ s => .trap .bkpt (tag.zeroExtend 64) s) s)

/-- ERET with the local handler active (R401): a new restart of the hall at trap.pc or after it. -/
def eretWord (h : SHdr) (back : Nat → State → State) (s : State) : State :=
  match s.cur with
  | .seq g =>
    let x := s.hall g
    if holds h x.c then
      if x.trap.act then
        let s := back g (s.updHall g fun x => { x with wdogCount := 0, wait := .none, atYield := h.y })
        s
      else raise s g .access 0 x.pc
    else computeWord g h [] [] false id (fun s => .ok none s) s
  | .addr g => aheadWord g h [] [] id (fun _ => none) s
  | _ => s

def execEret (h : SHdr) (nx : Bool) (s : State) : Out :=
  .next (eretWord h (fun g s => returnFrom s g ((s.hall g).trap.pc.toNat + if nx then 8 else 0)) s)

def execEretEsc (h : SHdr) (s : State) : Out := .next (eretWord h (fun g s => returnEscalate s g) s)

end Sys2Proof.Machine
end

