-- ==== Sys2Proof/Machine/Dispatch.lean ====
section
/-! DEFINITION. One arm per instruction: a direct call of its meaning. -/

namespace Sys2Proof.Machine

def exec (i : Instr) (s : State) : Host.Outcome State Fault Refusal :=
  match i with
  | .add h a b c => Sys2Proof.Machine.execAdd h a b c s
  | .sub h a b c => Sys2Proof.Machine.execSub h a b c s
  | .mul h a b c => Sys2Proof.Machine.execMul h a b c s
  | .mulh h a b c u => Sys2Proof.Machine.execMulh h a b c u s
  | .div h a b c u => Sys2Proof.Machine.execDiv h a b c u s
  | .rem h a b c u => Sys2Proof.Machine.execRem h a b c u s
  | .and h a b c => Sys2Proof.Machine.execAnd h a b c s
  | .or h a b c => Sys2Proof.Machine.execOr h a b c s
  | .xor h a b c => Sys2Proof.Machine.execXor h a b c s
  | .andn h a b c => Sys2Proof.Machine.execAndn h a b c s
  | .shl h a b c => Sys2Proof.Machine.execShl h a b c s
  | .shr h a b c => Sys2Proof.Machine.execShr h a b c s
  | .sra h a b c => Sys2Proof.Machine.execSra h a b c s
  | .min h a b c u => Sys2Proof.Machine.execMin h a b c u s
  | .max h a b c u => Sys2Proof.Machine.execMax h a b c u s
  | .clz h a b => Sys2Proof.Machine.execClz h a b s
  | .popc h a b => Sys2Proof.Machine.execPopc h a b s
  | .bfx h a b c sx => Sys2Proof.Machine.execBfx h a b c sx s
  | .bfi h a b c d => Sys2Proof.Machine.execBfi h a b c d s
  | .sel h a b c p => Sys2Proof.Machine.execSel h a b c p s
  | .cmp h p b c k cond => Sys2Proof.Machine.execCmp h p b c k cond s
  | .mad h a b c d => Sys2Proof.Machine.execMad h a b c d s
  | .lea h a b c x32 sh => Sys2Proof.Machine.execLea h a b c x32 sh s
  | .addi h a b imm => Sys2Proof.Machine.execAddi h a b imm s
  | .muli h a b imm => Sys2Proof.Machine.execMuli h a b imm s
  | .andi h a b imm => Sys2Proof.Machine.execAndi h a b imm s
  | .ori h a b imm => Sys2Proof.Machine.execOri h a b imm s
  | .xori h a b imm => Sys2Proof.Machine.execXori h a b imm s
  | .shli h a b n => Sys2Proof.Machine.execShli h a b n s
  | .shri h a b n => Sys2Proof.Machine.execShri h a b n s
  | .srai h a b n => Sys2Proof.Machine.execSrai h a b n s
  | .cmpi h a b imm => Sys2Proof.Machine.execCmpi h a b imm s
  | .movi h a imm => Sys2Proof.Machine.execMovi h a imm s
  | .movhi h a imm => Sys2Proof.Machine.execMovhi h a imm s
  | .sysr h a c r => Sys2Proof.Machine.execSysr h a c r s
  | .sysw h b c r => Sys2Proof.Machine.execSysw h b c r s
  | .syswSeqLc h b c => Sys2Proof.Machine.execSyswSeqLc h b c s
  | .syswFacetSeed h b c => Sys2Proof.Machine.execSyswFacetSeed h b c s
  | .syswL2Waymask h b c => Sys2Proof.Machine.execSyswL2Waymask h b c s
  | .syswEvBase h b c => Sys2Proof.Machine.execSyswEvBase h b c s
  | .syswEvSize h b c => Sys2Proof.Machine.execSyswEvSize h b c s
  | .syswEvTail h b c => Sys2Proof.Machine.execSyswEvTail h b c s
  | .syswEvLost h b c => Sys2Proof.Machine.execSyswEvLost h b c s
  | .syswLogTail h b c => Sys2Proof.Machine.execSyswLogTail h b c s
  | .syswLogHead h b c => Sys2Proof.Machine.execSyswLogHead h b c s
  | .syswRacectl h b c => Sys2Proof.Machine.execSyswRacectl h b c s
  | .syswMxFlags h b c => Sys2Proof.Machine.execSyswMxFlags h b c s
  | .nop h => Sys2Proof.Machine.execNop h s
  | .br h imm => Sys2Proof.Machine.execBr h imm s
  | .jmp h b c => Sys2Proof.Machine.execJmp h b c s
  | .call h a imm => Sys2Proof.Machine.execCall h a imm s
  | .ret h b => Sys2Proof.Machine.execRet h b s
  | .loop h a imm => Sys2Proof.Machine.execLoop h a imm s
  | .yield h => Sys2Proof.Machine.execYield h s
  | .exit h => Sys2Proof.Machine.execExit h s
  | .trap h code => Sys2Proof.Machine.execTrap h code s
  | .ld h a b sz sx off => Sys2Proof.Machine.execLd h a b sz sx off s
  | .st h a b sz off => Sys2Proof.Machine.execSt h a b sz off s
  | .ldx h a b c sz sx sh => Sys2Proof.Machine.execLdx h a b c sz sx sh s
  | .stx h a b c sz sh => Sys2Proof.Machine.execStx h a b c sz sh s
  | .ldf h a b dbl off => Sys2Proof.Machine.execLdf h a b dbl off s
  | .lde h a b dbl off => Sys2Proof.Machine.execLde h a b dbl off s
  | .ste h a b dbl off => Sys2Proof.Machine.execSte h a b dbl off s
  | .stf h a b dbl off => Sys2Proof.Machine.execStf h a b dbl off s
  | .festF h b c => Sys2Proof.Machine.execFestF h b c s
  | .festE h b c => Sys2Proof.Machine.execFestE h b c s
  | .feWaitServe hall word => Sys2Proof.Machine.execFeWaitServe hall word s
  | .pfx h b c l2 lines => Sys2Proof.Machine.execPfx h b c l2 lines s
  | .flush h b c => Sys2Proof.Machine.execFlush h b c s
  | .inval h b c wb => Sys2Proof.Machine.execInval h b c wb s
  | .amadd h a b c y => Sys2Proof.Machine.execAmadd h a b c y s
  | .amand h a b c y => Sys2Proof.Machine.execAmand h a b c y s
  | .amor h a b c y => Sys2Proof.Machine.execAmor h a b c y s
  | .amxor h a b c y => Sys2Proof.Machine.execAmxor h a b c y s
  | .ammin h a b c y u => Sys2Proof.Machine.execAmmin h a b c y u s
  | .ammax h a b c y u => Sys2Proof.Machine.execAmmax h a b c y u s
  | .amswp h a b c y => Sys2Proof.Machine.execAmswp h a b c y s
  | .amcas h a b c d p y => Sys2Proof.Machine.execAmcas h a b c d p y s
  | .amincw h a b c y => Sys2Proof.Machine.execAmincw h a b c y s
  | .amfab h a b c d p y => Sys2Proof.Machine.execAmfab h a b c d p y s
  | .red h b c y op => Sys2Proof.Machine.execRed h b c y op s
  | .redPerform hall => Sys2Proof.Machine.execRedPerform hall s
  | .amfadd h a b c y => Sys2Proof.Machine.execAmfadd h a b c y s
  | .fence h ord scp => Sys2Proof.Machine.execFence h ord scp s
  | .bar h fab => Sys2Proof.Machine.execBar h fab s
  | .gbar h a => Sys2Proof.Machine.execGbar h a s
  | .gbarGenerationComplete gal unit => Sys2Proof.Machine.execGbarGenerationComplete gal unit s
  | .trig h => Sys2Proof.Machine.execTrig h s
  | .triggerWalk die => Sys2Proof.Machine.execTriggerWalk die s
  | .mark h b => Sys2Proof.Machine.execMark h b s
  | .beat h => Sys2Proof.Machine.execBeat h s
  | .spawn h b xd => Sys2Proof.Machine.execSpawn h b xd s
  | .cfgld h a b => Sys2Proof.Machine.execCfgld h a b s
  | .cfgrel h b => Sys2Proof.Machine.execCfgrel h b s
  | .pusht h a b c d e ch => Sys2Proof.Machine.execPusht h a b c d e ch s
  | .popt h a b c d e ch k => Sys2Proof.Machine.execPopt h a b c d e ch k s
  | .ctltSend h line => Sys2Proof.Machine.execCtltSend h line s
  | .ctltConsume h line => Sys2Proof.Machine.execCtltConsume h line s
  | .cpy h a b c d => Sys2Proof.Machine.execCpy h a b c d s
  | .cpyT h a b c => Sys2Proof.Machine.execCpyT h a b c s
  | .copyComplete hall id => Sys2Proof.Machine.execCopyComplete hall id s
  | .copyFaultPark hall id => Sys2Proof.Machine.execCopyFaultPark hall id s
  | .cpyc h a b ch => Sys2Proof.Machine.execCpyc h a b ch s
  | .chainRecord hall ch => Sys2Proof.Machine.execChainRecord hall ch s
  | .cpym h a b c d g => Sys2Proof.Machine.execCpym h a b c d g s
  | .cpyqCount h a => Sys2Proof.Machine.execCpyqCount h a s
  | .cpyqChain h a ch => Sys2Proof.Machine.execCpyqChain h a ch s
  | .cpyqGq h a b => Sys2Proof.Machine.execCpyqGq h a b s
  | .cpyqGset h a b => Sys2Proof.Machine.execCpyqGset h a b s
  | .cpyqGres h a b => Sys2Proof.Machine.execCpyqGres h a b s
  | .acpy h a b c d => Sys2Proof.Machine.execAcpy h a b c d s
  | .afill h a b c d => Sys2Proof.Machine.execAfill h a b c d s
  | .aand h a b c d e => Sys2Proof.Machine.execAand h a b c d e s
  | .aor h a b c d e => Sys2Proof.Machine.execAor h a b c d e s
  | .axor h a b c d e => Sys2Proof.Machine.execAxor h a b c d e s
  | .anot h a b c d => Sys2Proof.Machine.execAnot h a b c d s
  | .arrayOpComplete hall id => Sys2Proof.Machine.execArrayOpComplete hall id s
  | .pmov h a b far => Sys2Proof.Machine.execPmov h a b far s
  | .pmovComplete hall id => Sys2Proof.Machine.execPmovComplete hall id s
  | .tdef h a b c d e => Sys2Proof.Machine.execTdef h a b c d e s
  | .tdrop h a => Sys2Proof.Machine.execTdrop h a s
  | .mma acc accum tr al bl tida tidb ks ta ct => Sys2Proof.Machine.execMma acc accum tr al bl tida tidb ks ta ct s
  | .mmag acc accum tr bl tida tidb ks ct => Sys2Proof.Machine.execMmag acc accum tr bl tida tidb ks ct s
  | .mxz acc all ct => Sys2Proof.Machine.execMxz acc all ct s
  | .mxrd acc tidc epi ct => Sys2Proof.Machine.execMxrd acc tidc epi ct s
  | .mxld acc tidc ct => Sys2Proof.Machine.execMxld acc tidc ct s
  | .mxepi acc tidc epi ct => Sys2Proof.Machine.execMxepi acc tidc epi ct s
  | .facetCycle hall n => Sys2Proof.Machine.execFacetCycle hall n s
  | .starvationUrgent hall n slot => Sys2Proof.Machine.execStarvationUrgent hall n slot s
  | .fadd f d x y fmt => Sys2Proof.Machine.execFadd f d x y fmt s
  | .fsub f d x y fmt => Sys2Proof.Machine.execFsub f d x y fmt s
  | .fmul f d x y fmt => Sys2Proof.Machine.execFmul f d x y fmt s
  | .ffma f d x y z fmt => Sys2Proof.Machine.execFfma f d x y z fmt s
  | .fmin f d x y fmt => Sys2Proof.Machine.execFmin f d x y fmt s
  | .fmax f d x y fmt => Sys2Proof.Machine.execFmax f d x y fmt s
  | .fsgn f d x y op fmt => Sys2Proof.Machine.execFsgn f d x y op fmt s
  | .fcmp f d x y cond all fmt => Sys2Proof.Machine.execFcmp f d x y cond all fmt s
  | .esel f d x y z => Sys2Proof.Machine.execEsel f d x y z s
  | .fexp2 f d x fmt => Sys2Proof.Machine.execFexp2 f d x fmt s
  | .flog2 f d x fmt => Sys2Proof.Machine.execFlog2 f d x fmt s
  | .frcp f d x fmt => Sys2Proof.Machine.execFrcp f d x fmt s
  | .frsq f d x fmt => Sys2Proof.Machine.execFrsq f d x fmt s
  | .fsqrt f d x fmt => Sys2Proof.Machine.execFsqrt f d x fmt s
  | .ftanh f d x fmt => Sys2Proof.Machine.execFtanh f d x fmt s
  | .fsigm f d x fmt => Sys2Proof.Machine.execFsigm f d x fmt s
  | .iadd f d x y imm => Sys2Proof.Machine.execIadd f d x y imm s
  | .isub f d x y imm => Sys2Proof.Machine.execIsub f d x y imm s
  | .imul f d x y imm => Sys2Proof.Machine.execImul f d x y imm s
  | .imad f d x y z imm => Sys2Proof.Machine.execImad f d x y z imm s
  | .imin f d x y u => Sys2Proof.Machine.execImin f d x y u s
  | .imax f d x y u => Sys2Proof.Machine.execImax f d x y u s
  | .iand f d x y imm => Sys2Proof.Machine.execIand f d x y imm s
  | .ior f d x y imm => Sys2Proof.Machine.execIor f d x y imm s
  | .ixor f d x y imm => Sys2Proof.Machine.execIxor f d x y imm s
  | .ishl f d x y imm => Sys2Proof.Machine.execIshl f d x y imm s
  | .ishr f d x y sg => Sys2Proof.Machine.execIshr f d x y sg s
  | .icmp f d x y cond all => Sys2Proof.Machine.execIcmp f d x y cond all s
  | .iclmp f d x y z u => Sys2Proof.Machine.execIclmp f d x y z u s
  | .cvt f d x y mode fmt dir sc => Sys2Proof.Machine.execCvt f d x y mode fmt dir sc s
  | .merge f o ic k => Sys2Proof.Machine.execMerge f o ic k s
  | .split f o x y imm => Sys2Proof.Machine.execSplit f o x y imm s
  | .tsum f d x fmt int => Sys2Proof.Machine.execTsum f d x fmt int s
  | .tmax f d x fmt int u => Sys2Proof.Machine.execTmax f d x fmt int u s
  | .tmin f d x fmt int u => Sys2Proof.Machine.execTmin f d x fmt int u s
  | .mov f d x imm => Sys2Proof.Machine.execMov f d x imm s
  | .drop f ic => Sys2Proof.Machine.execDrop f ic s
  | .hdr f d x kind lvl lot tag kt bl => Sys2Proof.Machine.execHdr f d x kind lvl lot tag kt bl s
  | .scl f d x fmt => Sys2Proof.Machine.execScl f d x fmt s
  | .iota f d x imm => Sys2Proof.Machine.execIota f d x imm s
  | .bcast f d x j => Sys2Proof.Machine.execBcast f d x j s
  | .fld f d ak inc len wid => Sys2Proof.Machine.execFld f d ak inc len wid s
  | .fst f x ak inc sf => Sys2Proof.Machine.execFst f x ak inc sf s
  | .fldf f d ak inc len wid => Sys2Proof.Machine.execFldf f d ak inc len wid s
  | .flde f d ak inc len wid => Sys2Proof.Machine.execFlde f d ak inc len wid s
  | .fste f x ak inc => Sys2Proof.Machine.execFste f x ak inc s
  | .fldx f d ak y sh wid => Sys2Proof.Machine.execFldx f d ak y sh wid s
  | .fstx f x ak z sh => Sys2Proof.Machine.execFstx f x ak z sh s
  | .famo f d x ak op u => Sys2Proof.Machine.execFamo f d x ak op u s
  | .ainc f ak x y imm => Sys2Proof.Machine.execAinc f ak x y imm s
  | .pset f x test l => Sys2Proof.Machine.execPset f x test l s
  | .send f line => Sys2Proof.Machine.execSend f line s
  | .waitc f line => Sys2Proof.Machine.execWaitc f line s
  | .scan ib0 ob0 tid seg root => Sys2Proof.Machine.execScan ib0 ob0 tid seg root s
  | .scanb ib0 ob0 tid ext root => Sys2Proof.Machine.execScanb ib0 ob0 tid ext root s
  | .scand ib0 ob0 ext root => Sys2Proof.Machine.execScand ib0 ob0 ext root s
  | .isect ib0 ib1 ob0 ob1 => Sys2Proof.Machine.execIsect ib0 ib1 ob0 ob1 s
  | .union ib0 ib1 ob0 ob1 => Sys2Proof.Machine.execUnion ib0 ib1 ob0 ob1 s
  | .rept ib0 ib1 ob0 => Sys2Proof.Machine.execRept ib0 ib1 ob0 s
  | .rdce ib0 ob0 lvl fmt => Sys2Proof.Machine.execRdce ib0 ob0 lvl fmt s
  | .crdw ib0 ob0 tid seg cnt => Sys2Proof.Machine.execCrdw ib0 ob0 tid seg cnt s
  | .ctr lvl n trig fin => Sys2Proof.Machine.execCtr lvl n trig fin s
  | .agen ib0 ob0 lvl tid dir map use lotk ct => Sys2Proof.Machine.execAgen ib0 ob0 lvl tid dir map use lotk ct s
  | .mport ib0 ob0 tid dir lotk trig done ct => Sys2Proof.Machine.execMport ib0 ob0 tid dir lotk trig done ct s
  | .gath ib0 ob0 ob1 tid any addr => Sys2Proof.Machine.execGath ib0 ob0 ob1 tid any addr s
  | .scat ib0 ib1 tid add addr ct => Sys2Proof.Machine.execScat ib0 ib1 tid add addr ct s
  | .unitFaultWithhold hall x y => Sys2Proof.Machine.execUnitFaultWithhold hall x y s
  | .sdec h a b c d e => Sys2Proof.Machine.execSdec h a b c d e s
  | .sdecComplete id => Sys2Proof.Machine.execSdecComplete id s
  | .senc h a b c d e => Sys2Proof.Machine.execSenc h a b c d e s
  | .sencComplete id => Sys2Proof.Machine.execSencComplete id s
  | .useinc h b c => Sys2Proof.Machine.execUseinc h b c s
  | .usesig h a b c d => Sys2Proof.Machine.execUsesig h a b c d s
  | .usesigComplete id => Sys2Proof.Machine.execUsesigComplete id s
  | .iwait h => Sys2Proof.Machine.execIwait h s
  | .horizonReached id => Sys2Proof.Machine.execHorizonReached id s
  | .integFail id => Sys2Proof.Machine.execIntegFail id s
  | .eret h nx => Sys2Proof.Machine.execEret h nx s
  | .eretEsc h => Sys2Proof.Machine.execEretEsc h s
  | .ctxsvTask h a b c => Sys2Proof.Machine.execCtxsvTask h a b c s
  | .ctxsvCtx h a b => Sys2Proof.Machine.execCtxsvCtx h a b s
  | .ctxldCtx h a b => Sys2Proof.Machine.execCtxldCtx h a b s
  | .ctxldRes h a b c => Sys2Proof.Machine.execCtxldRes h a b c s
  | .ctxldKill h a b => Sys2Proof.Machine.execCtxldKill h a b s
  | .logctlOff h a b c d => Sys2Proof.Machine.execLogctlOff h a b c d s
  | .logctlRec h a b c d => Sys2Proof.Machine.execLogctlRec h a b c d s
  | .logctlRep h a b c d => Sys2Proof.Machine.execLogctlRep h a b c d s
  | .logctlFlush h a => Sys2Proof.Machine.execLogctlFlush h a s
  | .tlbi h b c d all => Sys2Proof.Machine.execTlbi h b c d all s
  | .wait h a b c => Sys2Proof.Machine.execWait h a b c s
  | .waitTimeout hall => Sys2Proof.Machine.execWaitTimeout hall s
  | .bkpt h tag => Sys2Proof.Machine.execBkpt h tag s
  | .halt h => Sys2Proof.Machine.execHalt h s
  | .landingDecision die => Sys2Proof.Machine.execLandingDecision die s
  | .reservationLapse ctx task => Sys2Proof.Machine.execReservationLapse ctx task s
  | .bindingComplete hall => Sys2Proof.Machine.execBindingComplete hall s
  | .preempt ctx task => Sys2Proof.Machine.execPreempt ctx task s
  | .configFetch hall node => Sys2Proof.Machine.execConfigFetch hall node s
  | .configFetchComplete hall node how => Sys2Proof.Machine.execConfigFetchComplete hall node how s
  | .switchTokenPass hall x y port track => Sys2Proof.Machine.execSwitchTokenPass hall x y port track s
  | .mergeChoice hall x y port track => Sys2Proof.Machine.execMergeChoice hall x y port track s
  | .mrdivPlaceTimeout ctx node => Sys2Proof.Machine.execMrdivPlaceTimeout ctx node s
  | .mrdivTailTimeout ctx => Sys2Proof.Machine.execMrdivTailTimeout ctx s
  | .wdogExpiry hall => Sys2Proof.Machine.execWdogExpiry hall s
  | .wdogSecondExpiry hall => Sys2Proof.Machine.execWdogSecondExpiry hall s
  | .islandFailure island => Sys2Proof.Machine.execIslandFailure island s
  | .controlStateMemerr hall saved => Sys2Proof.Machine.execControlStateMemerr hall saved s
  | .rowRetire row => Sys2Proof.Machine.execRowRetire row s
  | .compressedWriteTimeout id => Sys2Proof.Machine.execCompressedWriteTimeout id s
  | .hostProduce vf slot off data be ide => Sys2Proof.Machine.execHostProduce vf slot off data be ide s
  | .linkOutboxTake hall slot => Sys2Proof.Machine.execLinkOutboxTake hall slot s
  | .podRemoteWrite m => Sys2Proof.Machine.execPodRemoteWrite m s
  | .linkSendComplete hall slot remote => Sys2Proof.Machine.execLinkSendComplete hall slot remote s
  | .linkdown link => Sys2Proof.Machine.execLinkdown link s
  | .dieLinkFailure => Sys2Proof.Machine.execDieLinkFailure s
  | .atsInvalidation ha len => Sys2Proof.Machine.execAtsInvalidation ha len s
  | .priResponse hall ok => Sys2Proof.Machine.execPriResponse hall ok s
  | .lockInterface vf => Sys2Proof.Machine.execLockInterface vf s
  | .startInterface vf => Sys2Proof.Machine.execStartInterface vf s
  | .stopInterface vf => Sys2Proof.Machine.execStopInterface vf s
  | .vfFence vf => Sys2Proof.Machine.execVfFence vf s
  | .functionLevelReset vf => Sys2Proof.Machine.execFunctionLevelReset vf s
  | .report tag buf ctx nonce => Sys2Proof.Machine.execReport tag buf ctx nonce s
  | .openSession tag ctx ct => Sys2Proof.Machine.execOpenSession tag ctx ct s
  | .close tag buf sid mac => Sys2Proof.Machine.execClose tag buf sid mac s
  | .bundle tag ctx host base => Sys2Proof.Machine.execBundle tag ctx host base s
  | .finals tag buf => Sys2Proof.Machine.execFinals tag buf s
  | .ctxCreate tag body => Sys2Proof.Machine.execCtxCreate tag body s
  | .ctxDestroy tag ctx => Sys2Proof.Machine.execCtxDestroy tag ctx s
  | .halls tag vf mask => Sys2Proof.Machine.execHalls tag vf mask s
  | .island tag isl level => Sys2Proof.Machine.execIsland tag isl level s
  | .counters tag buf sel => Sys2Proof.Machine.execCounters tag buf sel s
  | .pod tag links pkg => Sys2Proof.Machine.execPod tag links pkg s
  | .recover tag image => Sys2Proof.Machine.execRecover tag image s
  | .islandThrottle isl level => Sys2Proof.Machine.execIslandThrottle isl level s
  | .packageReset fail => Sys2Proof.Machine.execPackageReset fail s
  | .powerLoss => Sys2Proof.Machine.execPowerLoss s
  | .scratchLineFill hall id => Sys2Proof.Machine.execScratchLineFill hall id s
  | .l1WriteBack hall line => Sys2Proof.Machine.execL1WriteBack hall line s

end Sys2Proof.Machine
end

