-- ==== Sys2Proof/Machine/Agents.lean ====
section
/-! DEFINITION. The turn of each agent: what it fetches and which meaning it runs; the tick of the reference counter with
the timers that fall due; and what upsets do (log 1). -/

namespace Sys2Proof.Machine

/-! ## Words -/

/-- The block of code at an offset in the sequencer's configuration store (R172 to R174): it is fetched before its first
word, and a poisoned one freezes the hall. -/
def withSeqConfig (s : State) (h pc : Nat) (k : Out) : Out :=
  match (s.hall h).config (codeNode (pc / 4096)) with
  | .ok => k
  | .missing => .next (configFetch s h (codeNode (pc / 4096)))
  | .poisoned => .next (poisonFault s h 8 7)

/-- The compute unit's turn (R181): the word at PC; a word that is no sequencer word raises ILL, and PC = LENGTH raises
ACCESS (R93, R94, R197). A hall that HALT has stopped only ends (R422). -/
def seqTurn (s : State) (h : Nat) : Out :=
  let x := s.hall h
  if x.res ≠ .running ∨ x.held then .next s
  else if x.exiting then .next (exitRun h s)
  else if x.length ≤ x.pc then .next (raise s h .access 0 x.pc)
  else withSeqConfig s h x.pc
    (match fetchFor .seq (codeAt x x.pc) with
     | some i => exec i { s with cur := .seq h }
     | none => .next (raise s h .ill (opOf (codeAt x x.pc)) x.pc))

/-- The address unit's turn (R185, R186): loads that wait are asked for again; then its next word, where it stops at an
illegal word, at LENGTH and at no word. -/
def addrTurn (s : State) (h : Nat) : Out :=
  let s := if (s.hall h).res = .running ∧ (s.hall h).held = false then fillPending s h else s
  let x := s.hall h
  if x.res ≠ .running ∨ x.held ∨ x.exiting ∨ x.config (codeNode (x.au.pc / 4096)) ≠ .ok ∨ x.length ≤ x.au.pc ∨ x.au.pc % 8 ≠ 0 then .next s
  else
    match fetchFor .seq (codeAt x x.au.pc) with
    | some i => exec i { s with cur := .addr h }
    | none => .next s

/-- A node runs a word: its configuration is the one used last (R173). -/
def mxRun (s : State) (h m : Nat) (i : Instr) : Out :=
  exec i { s.updHall h (fun x => x.useStore (boxOf 8 (2 * m))) with cur := .mx h m }

/-- The node's next word in acceptance order. -/
def mxInOrder (s : State) (h m : Nat) : Out :=
  match mxNext s h m with
  | .inl i => mxRun s h m i
  | .inr s => .next s

/-- A matrix node's turn; which of two words under way goes on, a result beside a product, is free (R322). -/
def mxTurn (s : State) (h m : Nat) : Out :=
  match mxAhead s h m with
  | none => mxInOrder s h m
  | some i =>
    let (k, s) := s.draw
    if Config.freeBool k then mxRun s h m i else mxInOrder s h m

/-- The turn of a prism unit, AG tile or memory port. -/
def unitTurn (s : State) (h px py : Nat) : Out :=
  match unitNext s h px py with
  | .inl (i, s) => exec i { s with cur := .unit h px py }
  | .inr s => .next s

/-- The next rule that FACET_CYCLE chose fires (R221); a hall that has stopped since fires none. -/
def fireTurn (s : State) (h n slot : Nat) : Out :=
  if !(s.hall h).active then .next s
  else
    match fetchFor .facet (lget ((s.hall h).facet n).pool slot) with
    | some i => exec i { s with cur := .facet h n slot }
    | none => .next s

/-- The turn of one agent. -/
def runAgent (s : State) (a : Agent) : Out :=
  match a with
  | .seq h => if h < 48 then seqTurn s h else .fault .noUnit
  | .addr h => if h < 48 then addrTurn s h else .fault .noUnit
  | .mx h m => if h < 48 ∧ m < 3 then mxTurn s h m else .fault .noUnit
  | .unit h x y => if h < 48 ∧ x < 10 ∧ y < 8 then unitTurn s h x y else .fault .noUnit
  | .facet h n _ => if h < 48 ∧ n < 48 then .next s else .fault .noUnit
  | .env => .next s

/-! ## The tick (R2) -/

/-- An idle-legal wait (R416): in a kernel with IDLE, on a word of the hall's own idle window; one whose word is full
waits for the Mirror, and a stall is no progress (R394). -/
def idleWait (x : Hall) (h : Nat) : Bool :=
  x.wait == .fe && (x.bind.map (fun b => b.kernel.idle)).getD false
  && x.feq.any (fun w => w.hall == h && w.op != .ste && x.size - 4096 ≤ w.off && !feReady x w.op w.off w.size)

/-- The watchdog counts (R416, R417). -/
def tickHall (h : Nat) (x : Hall) : Hall :=
  if x.watched then { x with wdogCount := if idleWait x h && !x.held then 0 else x.wdogCount + 1 } else x

/-- Some hall of a context has made forward progress since the last tick. -/
def progressed (s : State) (ctx : Word) : Bool :=
  s.halls.any (fun p => p.2.ctx? == some ctx && p.2.res == .running && !p.2.held && p.2.wdogCount == 0)

/-- The timers of R396: those that do not run are put off by the tick. -/
def tickMirror (s : State) (c : Ctx) : Ctx :=
  let m := c.mirror
  if m.mode ≠ .replay then c
  else if !timersRun s c then
    { c with mirror := { m with waits := m.waits.map (fun p => (p.1, (p.2.1 + 1, p.2.2))), quiet := m.quiet + 1 } }
  else if progressed s c.id then { c with mirror := { m with quiet := s.tick } }
  else c

/-- The events whose time has come. -/
def dueEvents (s : State) : List Instr :=
  s.halls.flatMap (fun p => (p.2.feq.filter (fun w => w.op == .wait && w.limit != 0 && w.since + w.limit ≤ s.tick)).map
    (fun w => Instr.waitTimeout (Fin.ofNat 48 w.hall)))
  ++ (s.tasks.filter (fun t => t.holding && t.resStart + 2 ^ 22 ≤ s.tick)).map
    (fun t => Instr.reservationLapse t.id.ctx (addrWord t.id.va))
  ++ (s.halls.filter (fun (p : Nat × Hall) => p.2.watched && p.2.wdogPeriod ≤ p.2.wdogCount)).map
    (fun (p : Nat × Hall) => if p.2.wdogFired then Instr.wdogSecondExpiry (Fin.ofNat 48 p.1) else Instr.wdogExpiry (Fin.ofNat 48 p.1))
  ++ s.ctxs.flatMap (fun p =>
    if !timersRun s p.2 then []
    else (p.2.mirror.waits.filter (fun (w : Nat × Nat × Nat) => w.2.1 + 2 ^ 20 ≤ s.tick)).map
        (fun (w : Nat × Nat × Nat) => Instr.mrdivPlaceTimeout p.2.id (BitVec.ofNat 16 w.1))
      ++ (if p.2.mirror.quiet + 2 ^ 20 ≤ s.tick then [Instr.mrdivTailTimeout p.2.id] else []))
  ++ (s.squeezed.filter (fun q => q.since + 2 ^ 20 ≤ s.tick)).map (fun q => Instr.compressedWriteTimeout q.id)

/-- Checks that began 2^12 ticks ago have passed (R264), and what waited for them alone leaves (R126). -/
def endChecks (s : State) : State := leaveAll { s with checks := s.checks.filter (fun c => s.tick < c.since + 2 ^ 12) }

/-- The reference counter advances: counters count, checks end, configuration fetches that are due end (R173), what waits for
a frame or for a report is tried again, and the events that fall due come next. -/
def tickTurn (s : State) : State :=
  let s := (List.range 48).foldl fetchesDue { s with tick := s.tick + 1 }
  let s := { s with ctxs := s.ctxs.map (fun (p : Nat × Ctx) => (p.1, tickMirror s p.2)) }
  let s := { s with halls := s.halls.map (fun (p : Nat × Hall) => (p.1, tickHall p.1 p.2)) }
  let s := retirePending (tellSqueezed (endChecks (makeAdapters s)))
  { s with turns := (dueEvents s).map Turn.event ++ s.turns }

/-! ## Upsets (R263, R266, R323, R409, R438, R445, R446) -/

/-- What the physical world does to stored data, to links and to fuses. -/
def applyUpset (s : State) (u : Upset) : State :=
  match u with
  | .ecc unit =>
    match mfind s.prot unit with
    | some m => { s with prot := mset s.prot unit { m with ecc := true } }
    | none => s
  | .scratch h w => s.updHall (h % 48) fun x => if w < x.size / 4 then { x with bad := sins x.bad w } else x
  | .matrix h m side pos =>
    s.updHall (h % 48) fun x => let n := x.node (m % 3); x.setNode (m % 3) { n with badElem := (side, pos) :: n.badElem }
  | .sectors id => squeezedServed s id
  | .hotRow kd => { s with throttled := mset s.throttled kd (mget s.throttled kd 0 + 1) }
  | .bootFails _ => s
  | .linkTag l => linkTagFails s l
  | .dieTag => dieTagFails s
  | .dieRun => { s with dieFails := 0 }
  | .fuseSvn v => { s with fuseSvn := if v.toNat < s.fuseSvn.toNat then s.fuseSvn else v }

/-! ## Turns -/

/-- After every turn: what has arrived and can be served is (R357, R359), control tokens that wait go on as they can (R169,
R173), victims at a freeze point stop (R145), and slots of link outboxes that have filled are noted (R444). -/
def settleTurn (o : Out) : Out :=
  match o with
  | .next s => .next (noteOutbox (stopAtFreeze (flowControl (drainArrivals s))))
  | o => o

/-- A turn of the schedule. An event turn runs a row of the opcode table that no word encodes. -/
def runTurn (s : State) (t : Turn) : Out :=
  match t with
  | .tick => .next (tickTurn s)
  | .run a => runAgent s a
  | .event i => if i.unit = none then exec i { s with cur := .env } else .refused .notAnEvent
  | .upset u => .next (applyUpset s u)
  | .host a => .next (hostTurn { s with cur := .env } a)

/-- The boot ROM runs before anything else (R446); an upset at the head of the schedule may fail a component. -/
def bootTurn (s : State) : Out :=
  match s.turns with
  | .upset (.bootFails p) :: ts => execPackageReset (some p) { s with turns := ts, cur := .env }
  | _ => execPackageReset none { s with cur := .env }

/-- What happens next: the boot, then the rules a facet has chosen, then the schedule's next turn; with an empty schedule
the open constant of Config says whose turn it is. -/
def nextTurn (s : State) : Out :=
  match s.phase, s.firing, s.turns with
  | .boot, _, _ => bootTurn s
  | _, (h, n, slot) :: rest, _ => fireTurn { s with firing := rest } h n slot
  | _, [], t :: ts => runTurn { s with turns := ts } t
  | _, [], [] => runTurn { s with free := s.free + 1 } (Config.freeTurn s.free)

/-! ## A word placed where the next step fetches it -/

/-- A kernel whose only section is a code section of one word. -/
def wordKernel (w : Word) : Kernel where
  lp := false
  idle := false
  frz := false
  split := 8
  hmin := 1
  hmax := 1
  size := 0
  sections := [⟨1, 1, 0, [w]⟩]
  routes := []
  ctl := []

/-- The task whose one instance runs a placed word: the word's hall is its hall 0. -/
def wordTask : TaskId := ⟨1, 0x1000⟩

/-- The system context, with hall 0. -/
def wordCtx : Ctx := { newContext ⟨0, 0, 1, [], 0, 1, 0, 0, 0, 0, 0, 0, []⟩ 1 1 [] 0 with id := 1 }

/-- Hall 0 running that task, every store holding its entry. -/
def wordHall (w : Word) : Hall :=
  let x := Hall.syncAu { Hall.reset with
    res := .running, bind := some ⟨wordTask, 0, 0, 1, wordKernel w⟩, lastCtx := 1
    stores := (List.range 80).map (fun n => (n, [⟨1, false⟩])) }
  x

/-- The task's record in the Landing. -/
def wordRecord : Task :=
  { newTask wordTask (2 ^ 45) 0 [] with state := .running, granted := [0] }

/-- Where a unit of each kind lies (R17). -/
def unitPlace : UnitKind → Nat × Nat
  | .ag => (0, 1)
  | .mp => (0, 0)
  | .prism => (7, 0)
  | .facet => (2, 0)
  | .matrix => (8, 0)
  | .seq => (8, 7)

/-- A state in which the next step runs a word at the unit its opcode names (log 2). -/
def placeWord (s : State) (w : Word) : State :=
  let base : State := { s with
    phase := .running, firing := [], ctxs := mset s.ctxs 1 wordCtx
    tasks := wordRecord :: s.tasks.filter (fun t => t.id != wordTask) }
  let k := unitOfOp (nbits w.toNat 56 8)
  let p := unitPlace k
  match k with
  | .seq => { base.setHall 0 (wordHall w) with turns := [.run (.seq 0)] }
  | .facet => { base.setHall 0 ((wordHall 0).setFacet 8 { Facet.reset 8 with pool := [w], installed := true }) with
      turns := [], firing := [(0, 8, 0)] }
  | .matrix =>
    let t : Token := ⟨mkHdr 0 0 3 1 0 false, w.zeroExtend 256, false, 1, true⟩
    { base.setHall 0 ((wordHall 0).setNode 0 { MxNode.reset with ins := [[t], [], [], []] }) with turns := [.run (.mx 0 0)] }
  | .prism | .ag | .mp =>
    let gen := match fetchFor .ag w with | some (.agen ..) => true | _ => false
    { base.setHall 0 ((wordHall 0).setUnit (boxOf p.1 p.2) { PUnit.reset with words := [w], installed := true, inPass := gen })
      with turns := [.run (.unit 0 p.1 p.2)] }

end Sys2Proof.Machine
end

