-- ==== Sys2Proof/Machine/Step.lean ====
section
/-! DEFINITION. One step of the package, and a word placed where the next step fetches it (logs 1 and 2). -/

namespace Sys2Proof.Machine

/-- One step. -/
def step (s : State) : Out := settleTurn (nextTurn s)

/-- The state in which `step` fetches and runs the word `w`: every instruction of this hardware is one word of 64 bits. -/
def State.withFetchWord (s : State) (nbits w : Nat) : State := placeWord s (BitVec.ofNat 64 (w % 2 ^ nbits))

end Sys2Proof.Machine
end

