-- ==== Sys2Proof/Safety.lean ====
section
/-! DEFINITION. The terms in which claims speak: who executes, what a word needs in order to complete, how a word that
completes leaves its hall, and what "unchanged" means for each kind of state. -/

namespace Sys2Proof.Machine

/-! ## Sequencer words -/

/-- No register of the list is pending, and none holds a completion that the C view has not yet read (R182). -/
def Hall.Settled (x : Hall) (rs : List Reg) : Prop :=
  ∀ r ∈ rs, r ≠ 0 → x.pend.getLsbD r.val = false ∧ x.fresh.getLsbD r.val = false

/-- The compute unit of hall `h` is at a C-marked word whose guards hold and whose registers `rs` are settled. -/
structure AtWord (s : State) (h : Nat) (hd : SHdr) (rs : List Reg) : Prop where
  cur : s.cur = .seq h
  mark : hd.mark = .c
  guards : holds hd (s.hall h).c = true
  regs : (s.hall h).Settled rs

/-- The compute unit of hall `h` is at a control word (B-marked, R75) whose guards hold. -/
structure AtControl (s : State) (h : Nat) (hd : SHdr) (rs : List Reg) : Prop where
  cur : s.cur = .seq h
  mark : hd.mark = .b
  guards : holds hd (s.hall h).c = true
  regs : (s.hall h).Settled rs

/-- A word that falls through retires (R200, R416). -/
def Hall.stepped (hd : SHdr) (x : Hall) : Hall := x.retire (x.pc + 8) false false hd.y

/-- The hall's word falls through and retires, in a state its effect has made. -/
def State.stepped (t : State) (h : Nat) (hd : SHdr) : State := t.updHall h (Hall.stepped hd)

/-- The hall's C-view register takes a value and the word retires. -/
def State.steppedWith (t : State) (h : Nat) (hd : SHdr) (a : Reg) (v : Word) : State :=
  t.updHall h fun x => Hall.stepped hd { x with c := x.c.setReg a v }

/-- A word of both units writes `f` of each view's registers where its mark and its guards in that view say so
(R181, R184), and retires. -/
def Hall.wrote (hd : SHdr) (f : View → View) (x : Hall) : Hall :=
  Hall.stepped hd
    { x with c := if hd.mark ≠ .a ∧ holds hd x.c then f x.c else x.c
             a := if hd.mark ≠ .c ∧ holds hd x.a then f x.a else x.a }

/-- The destination and the source registers of the integer instructions and immediate forms that write a scalar
register (R190, R195). -/
def registerWord : Instr → Option (SHdr × Reg × List Reg)
  | .add h a b c | .sub h a b c | .mul h a b c | .mulh h a b c _ | .div h a b c _ | .rem h a b c _ | .and h a b c
  | .or h a b c | .xor h a b c | .andn h a b c | .shl h a b c | .shr h a b c | .sra h a b c | .min h a b c _
  | .max h a b c _ | .bfx h a b c _ | .sel h a b c _ | .lea h a b c _ _ => some (h, a, [b, c])
  | .bfi h a b c d | .mad h a b c d => some (h, a, [b, c, d])
  | .clz h a b | .popc h a b | .addi h a b _ | .muli h a b _ | .andi h a b _ | .ori h a b _ | .xori h a b _
  | .shli h a b _ | .shri h a b _ | .srai h a b _ | .cmpi h a b _ => some (h, a, [b])
  | .movi h a _ => some (h, a, [])
  | .movhi h a _ => some (h, a, [a])
  | _ => none

/-- Words whose address part accesses memory: the run-ahead loads and prefetches (R185, R186). -/
def runAheadAccess : Instr → Bool
  | .ld .. | .ldx .. | .pfx .. => true
  | _ => false

/-! ## Scratch accesses -/

/-- An aligned access of `n` bytes of hall `h` at offset `off` of its own scratch window (R250, R251): inside the
scratchpad, outside every lens-mode facet, with no posted RED of the hall and no uncorrectable error, in a context whose
race detection is off. -/
structure OwnScratch (s : State) (h off n : Nat) (k : Ctx) : Prop where
  ctx : s.ctx? (s.ctxOf h) = some k
  races : k.racectl.getLsbD 0 = false
  inside : off + n ≤ (s.hall h).size
  aligned : off % n = 0
  lens : (s.hall h).lens = []
  posted : (s.hall h).posted = []
  sound : (s.hall h).bad = []
  split : 0 < (s.hall h).split ∧ (s.hall h).split ≤ 48

/-- The hall's own scratch is open to its engines: no lens-mode facet, no uncorrectable error, race detection off. -/
structure OpenScratch (s : State) (h : Nat) (k : Ctx) : Prop where
  ctx : s.ctx? (s.ctxOf h) = some k
  races : k.racectl.getLsbD 0 = false
  lens : (s.hall h).lens = []
  sound : (s.hall h).bad = []
  split : 0 < (s.hall h).split ∧ (s.hall h).split ≤ 48

/-- The scratch words of the access are full. -/
def FullWords (x : Hall) (off n : Nat) : Prop := ∀ w, off < 4 * w + 4 → 4 * w < off + n → w ∈ x.full

/-- No request of a sequencer or a facet waits at the bank ports of hall `h`, nor the hall itself, and no produce or message
from outside waits for the Mirror or at a port (R357, R359). -/
structure NoWaiters (s : State) (h : Nat) : Prop where
  requests : (s.hall h).feq = []
  facets : ∀ n i, lget ((s.hall h).facet n).arrive i = none
  hall : (s.hall h).wait = .none
  outside : s.arrivals = []

/-! ## Facet firings -/

/-- Slot `slot` of scratch-mode facet `n` of hall `h` fires a word whose channels stand (R218) and whose sources are
there, in a context whose race detection is off, in a hall with no uncorrectable error. -/
structure AtRule (s : State) (h n slot : Nat) (f : FHdr) (need : Nat) (srcs : List Opnd) (k : Ctx) : Prop where
  cur : s.cur = .facet h n slot
  chans : ((s.hall h).facet n).chansStand f need = true
  present : srcs.all ((s.hall h).facet n).present = true
  ctx : s.ctx? (s.ctxOf h) = some k
  races : k.racectl.getLsbD 0 = false
  sound : (s.hall h).bad = []
  heads : ((s.hall h).facet n).headerFault srcs = none

/-- Sources whose lead is no control token, with no STREAM, LENS or ALIGN fault among them and a destination of `w`-bit
elements. -/
structure CleanElements (x : Hall) (n : Nat) (d : Opnd) (srcs : List Opnd) (fw : Option Nat) (sh : Shape) (w : Nat) :
    Prop where
  data : ∀ t, (x.facet n).lead srcs = some t → isData t = true
  stream : (x.facet n).streamFault srcs fw = none
  lens : srcLens x n (x.facet n) srcs = false
  aligned : firstAlign (x.facet n) ((d, w) :: srcs.map (fun k => (k, sh.w))) = none

/-- The firing's effect on its hall is `put`, then its predicate, its dequeues and the resources it holds (R219, R221,
R222); beside the hall only access records change, and what releases had left at written words ends (R354). -/
def State.Fired (s : State) (h n slot : Nat) (f : FHdr) (srcs : List Opnd) (c : Bool) (put : Hall → Hall) (t : State) : Prop :=
  ∃ r l, (∀ k ∈ l, k ∈ s.carries) ∧
    t = finishFiring f srcs h n slot c ((s.hall h).firingHeld n slot) ({ s with recs := r, carries := l }.updHall h put)

/-! ## Forms of the state's tables -/

/-- A table's keys rise strictly. -/
def Rising {α : Type} (m : Map α) : Prop := (m.map (·.1)).Pairwise (· < ·)

/-- Every context's record stands under its own CTXID, in rising order. -/
def State.ContextsKeyed (s : State) : Prop := Rising s.ctxs ∧ ∀ p ∈ s.ctxs, p.2.id.toNat = p.1

/-! ## What stays unchanged -/

/-- Every byte of device memory and of host memory reads as before. -/
def SameMemory (s t : State) : Prop :=
  (∀ a, cget t.mem a = cget s.mem a) ∧ (∀ a, cget t.hostMem a = cget s.hostMem a)

/-- Every byte and every F bit of every hall's scratch is as before. -/
def SameScratch (s t : State) : Prop :=
  ∀ g, (∀ o, cget (t.hall g).scratch o = cget (s.hall g).scratch o) ∧ (t.hall g).full = (s.hall g).full

/-- Two states differ at most in one hall. -/
structure OnlyHall (h : Nat) (s t : State) : Prop where
  rest : t = { s with halls := t.halls }
  others : ∀ g, g ≠ h → t.hall g = s.hall g

/-- What of a hall no word that only computes in registers touches: its binding, the loop bounds, pending marks, trap
and watchdog registers, its scratch and caches, its fabric, and its engines and queues. -/
structure SameBesideRegisters (x y : Hall) : Prop where
  binding : y.res = x.res ∧ y.bind = x.bind ∧ y.lastCtx = x.lastCtx ∧ y.bound = x.bound ∧ y.held = x.held
    ∧ y.hold = x.hold ∧ y.exiting = x.exiting ∧ y.pri = x.pri
  loop : y.ls = x.ls ∧ y.le = x.le
  pend : y.pend = x.pend
  trap : y.trap = x.trap ∧ y.wdogPeriod = x.wdogPeriod ∧ y.wdogFired = x.wdogFired
  memory : y.split = x.split ∧ y.scratch = x.scratch ∧ y.full = x.full ∧ y.bad = x.bad ∧ y.l1 = x.l1 ∧ y.tlb = x.tlb
  fabric : y.facets = x.facets ∧ y.mx = x.mx ∧ y.units = x.units ∧ y.seqIns = x.seqIns ∧ y.seqOuts = x.seqOuts
    ∧ y.seqCi = x.seqCi ∧ y.links = x.links ∧ y.merges = x.merges ∧ y.stores = x.stores ∧ y.fetch = x.fetch
  engines : y.copies = x.copies ∧ y.chains = x.chains ∧ y.outq = x.outq ∧ y.feq = x.feq ∧ y.posted = x.posted
    ∧ y.fenceRel = x.fenceRel ∧ y.seen = x.seen

/-- Beside one hall, an access to its scratch changes no more than what releases leave at words and the contexts' clocks. -/
structure OnlyAccess (h : Nat) (s t : State) : Prop where
  rest : t = { s with halls := t.halls, carries := t.carries, ctxs := t.ctxs }
  others : ∀ g, g ≠ h → t.hall g = s.hall g

/-- What of a hall no scalar memory access touches: its binding, the loop bounds, trap and watchdog registers, its split
and cached translations, its fabric, and its engines. -/
structure SameBesideAccess (x y : Hall) : Prop where
  binding : y.res = x.res ∧ y.bind = x.bind ∧ y.lastCtx = x.lastCtx ∧ y.bound = x.bound ∧ y.held = x.held
    ∧ y.hold = x.hold ∧ y.exiting = x.exiting ∧ y.pri = x.pri
  loop : y.ls = x.ls ∧ y.le = x.le
  trap : y.trap = x.trap ∧ y.wdogPeriod = x.wdogPeriod ∧ y.wdogFired = x.wdogFired
  memory : y.split = x.split ∧ y.bad = x.bad ∧ y.tlb = x.tlb
  fabric : y.facets = x.facets ∧ y.mx = x.mx ∧ y.units = x.units ∧ y.seqIns = x.seqIns ∧ y.seqOuts = x.seqOuts
    ∧ y.seqCi = x.seqCi ∧ y.links = x.links ∧ y.merges = x.merges ∧ y.stores = x.stores ∧ y.fetch = x.fetch
  engines : y.copies = x.copies ∧ y.chains = x.chains ∧ y.outq = x.outq ∧ y.fenceRel = x.fenceRel

/-- Every byte of a canonical memory is as its list says, and nothing else is listed: the form of both memories and of
every hall's scratch. -/
def State.MemoryForm (s : State) : Prop :=
  Memory.wf s.mem = true ∧ Memory.wf s.hostMem = true ∧ ∀ h, Memory.wf (s.hall h).scratch = true

/-- Every byte memory of the state is in its canonical form, the scratch of sealed instances among them. -/
def State.StoredForm (s : State) : Prop := s.MemoryForm ∧ ∀ v ∈ s.saves, Memory.wf v.hall.scratch = true

end Sys2Proof.Machine
end

