-- ==== Sys2Proof/Certificates/Slice0/Obligations.lean ====
section
/-! DEFINITION. The statements about the machine. Each is a Prop; the numbered rules it formalises, or the sections it
rests on, stand in its docstring and in OBLIGATIONS.json. -/

open Sys2Proof Sys2Proof.Machine

/-! ## Integer instructions, immediate forms, control (spec/08) -/

/-- R190 to R194: under every mark, an integer instruction whose registers are settled completes, with its result in
the view or views its mark and guards name. CLZ, POPC, BFX, BFI and CMP stand in ImmediatesAndBitFieldsComplete. -/
def Obligations.IntegerInstructionsComplete : Prop :=
  ∀ (s : State) (h : Nat) (hd : SHdr) (a b c d : Reg), s.cur = .seq h → (s.hall h).Settled [a, b, c, d] →
    let did (f : View → Word) : Out := .next (s.updHall h (Hall.wrote hd fun v => v.setReg a (f v)))
    exec (.add hd a b c) s = did (fun v => v.reg b + v.reg c)
    ∧ exec (.sub hd a b c) s = did (fun v => v.reg b - v.reg c)
    ∧ exec (.mul hd a b c) s = did (fun v => v.reg b * v.reg c)
    ∧ exec (.mulh hd a b c true) s = did (fun v => BitVec.ofNat 64 ((v.reg b).toNat * (v.reg c).toNat / 2 ^ 64))
    ∧ exec (.mulh hd a b c false) s = did (fun v => BitVec.ofInt 64 ((v.reg b).toInt * (v.reg c).toInt / 2 ^ 64))
    ∧ exec (.div hd a b c true) s = did (fun v => if v.reg c = 0 then BitVec.allOnes 64 else v.reg b / v.reg c)
    ∧ exec (.div hd a b c false) s = did (fun v => if v.reg c = 0 then BitVec.allOnes 64
        else BitVec.ofInt 64 ((v.reg b).toInt.tdiv (v.reg c).toInt))
    ∧ exec (.rem hd a b c true) s = did (fun v => v.reg b % v.reg c)
    ∧ exec (.rem hd a b c false) s = did (fun v => if v.reg c = 0 then v.reg b
        else BitVec.ofInt 64 ((v.reg b).toInt - (v.reg b).toInt.tdiv (v.reg c).toInt * (v.reg c).toInt))
    ∧ exec (.and hd a b c) s = did (fun v => v.reg b &&& v.reg c)
    ∧ exec (.or hd a b c) s = did (fun v => v.reg b ||| v.reg c)
    ∧ exec (.xor hd a b c) s = did (fun v => v.reg b ^^^ v.reg c)
    ∧ exec (.andn hd a b c) s = did (fun v => v.reg b &&& ~~~ v.reg c)
    ∧ exec (.shl hd a b c) s = did (fun v => v.reg b <<< (v.reg c).toNat)
    ∧ exec (.shr hd a b c) s = did (fun v => v.reg b >>> (v.reg c).toNat)
    ∧ exec (.sra hd a b c) s = did (fun v => (v.reg b).sshiftRight (v.reg c).toNat)
    ∧ exec (.min hd a b c true) s = did (fun v => BitVec.ofNat 64 (min (v.reg b).toNat (v.reg c).toNat))
    ∧ exec (.min hd a b c false) s = did (fun v => BitVec.ofInt 64 (min (v.reg b).toInt (v.reg c).toInt))
    ∧ exec (.max hd a b c true) s = did (fun v => BitVec.ofNat 64 (max (v.reg b).toNat (v.reg c).toNat))
    ∧ exec (.max hd a b c false) s = did (fun v => BitVec.ofInt 64 (max (v.reg b).toInt (v.reg c).toInt))
    ∧ exec (.mad hd a b c d) s = did (fun v => v.reg b * v.reg c + v.reg d)
    ∧ (∀ sh, exec (.lea hd a b c false sh) s = did (fun v => v.reg b + v.reg c <<< sh.val))
    ∧ (∀ sh, exec (.lea hd a b c true sh) s = did (fun v => v.reg b + ((v.reg c).truncate 32).signExtend 64 <<< sh.val))
    ∧ (∀ p, exec (.sel hd a b c p) s = did (fun v => if v.pred p then v.reg b else v.reg c))

/-- R195: the immediate forms, under every mark. R190, R193, R194: the bit-field and counting instructions and CMP, by
what each bit or predicate of the result is. -/
def Obligations.ImmediatesAndBitFieldsComplete : Prop :=
  (∀ (s : State) (h : Nat) (hd : SHdr) (a b : Reg) (imm : BitVec 28) (n : Fin 64),
     s.cur = .seq h → (s.hall h).Settled [a, b] →
     let did (f : View → Word) : Out := .next (s.updHall h (Hall.wrote hd fun v => v.setReg a (f v)))
     exec (.addi hd a b imm) s = did (fun v => v.reg b + imm.signExtend 64)
     ∧ exec (.muli hd a b imm) s = did (fun v => v.reg b * imm.signExtend 64)
     ∧ exec (.andi hd a b imm) s = did (fun v => v.reg b &&& imm.signExtend 64)
     ∧ exec (.ori hd a b imm) s = did (fun v => v.reg b ||| imm.signExtend 64)
     ∧ exec (.xori hd a b imm) s = did (fun v => v.reg b ^^^ imm.signExtend 64)
     ∧ exec (.shli hd a b n) s = did (fun v => v.reg b <<< n.val)
     ∧ exec (.shri hd a b n) s = did (fun v => v.reg b >>> n.val)
     ∧ exec (.srai hd a b n) s = did (fun v => (v.reg b).sshiftRight n.val)
     ∧ exec (.cmpi hd a b imm) s = did (fun v => if (v.reg b).toInt < imm.toInt then BitVec.allOnes 64
         else if (v.reg b).toInt = imm.toInt then 0 else 1)
     ∧ (∀ j : BitVec 34, exec (.movi hd a j) s = did (fun _ => j.signExtend 64))
     ∧ (∀ j : BitVec 30, exec (.movhi hd a j) s = did (fun v => j ++ (v.reg a).truncate 34)))
  ∧ (∀ (s : State) (h : Nat) (hd : SHdr) (a b c d : Reg), s.cur = .seq h → (s.hall h).Settled [a, b, c, d] →
       let did (f : View → Word) : Out := .next (s.updHall h (Hall.wrote hd fun v => v.setReg a (f v)))
       (∃ f, exec (.clz hd a b) s = did f ∧ ∀ v, ∃ n : Nat, n ≤ 64 ∧ f v = BitVec.ofNat 64 n ∧
         (∀ i, 64 - n ≤ i → (v.reg b).getLsbD i = false) ∧ (n < 64 → (v.reg b).getLsbD (63 - n) = true))
       ∧ (∃ f, exec (.popc hd a b) s = did f ∧ ∀ v,
         f v = BitVec.ofNat 64 ((List.range 64).countP fun i => (v.reg b).getLsbD i))
       ∧ (∃ f, exec (.bfx hd a b c false) s = did f ∧ ∀ v i, i < 64 → (f v).getLsbD i =
         (decide (i ≤ ((v.reg c).extractLsb' 8 6).toNat) && (v.reg b).getLsbD (((v.reg c).extractLsb' 0 6).toNat + i)))
       ∧ (∃ f, exec (.bfx hd a b c true) s = did f ∧ ∀ v i, i < 64 → (f v).getLsbD i =
         (v.reg b).getLsbD (((v.reg c).extractLsb' 0 6).toNat + min i ((v.reg c).extractLsb' 8 6).toNat))
       ∧ (∃ f, exec (.bfi hd a b c d) s = did f ∧ ∀ v i, i < 64 → (f v).getLsbD i =
         (let pos := ((v.reg c).extractLsb' 0 6).toNat
          if pos ≤ i ∧ i ≤ pos + ((v.reg c).extractLsb' 8 6).toNat then (v.reg b).getLsbD (i - pos) else (v.reg d).getLsbD i))
       ∧ ∀ p k cond, exec (.cmp hd p b c k cond) s = .next (s.updHall h (Hall.wrote hd fun v =>
         let x := v.reg b; let y := v.reg c
         let o := match cond with
           | .eq => x == y | .ne => x != y | .lt => x.slt y | .ge => y.sle x | .le => x.sle y | .gt => y.slt x
           | .ltu => x.ult y | .geu => y.ule x | .leu => x.ule y | .gtu => y.ult x
         v.setPred p (match k with | .set => o | .and => v.pred p && o | .or => v.pred p || o))))

/-- R182, R190, R195, R200: what every turn at a register word leaves unchanged. Only the hall's destination register
in either view changes, beside its place (PC, LC), its run-ahead, its watchdog count and the marks of a first read.
R10: a register word whose destination is s0 changes no register of either view. R182: a word of the C view that reads
or would write a pending register waits where it is. -/
def Obligations.RegisterWordsFrame : Prop :=
  (∀ (s t : State) (h : Nat) (i : Instr) (hd : SHdr) (a : Reg) (srcs : List Reg),
     s.cur = .seq h → registerWord i = some (hd, a, srcs) → exec i s = .next t →
     SameMemory s t ∧ SameScratch s t ∧ OnlyHall h s t
     ∧ (∀ r, r ≠ a → (t.hall h).c.reg r = (s.hall h).c.reg r ∧ (t.hall h).a.reg r = (s.hall h).a.reg r)
     ∧ (t.hall h).c.preds = (s.hall h).c.preds ∧ (t.hall h).a.preds = (s.hall h).a.preds
     ∧ SameBesideRegisters (s.hall h) (t.hall h))
  ∧ (∀ (s t : State) (h : Nat) (i : Instr) (hd : SHdr) (srcs : List Reg),
       s.cur = .seq h → registerWord i = some (hd, 0, srcs) → exec i s = .next t →
       (∀ r, (t.hall h).c.reg r = (s.hall h).c.reg r ∧ (t.hall h).a.reg r = (s.hall h).a.reg r)
       ∧ (t.hall h).c.reg 0 = 0 ∧ (t.hall h).a.reg 0 = 0)
  ∧ (∀ (s : State) (h : Nat) (i : Instr) (hd : SHdr) (a : Reg) (srcs : List Reg),
       s.cur = .seq h → registerWord i = some (hd, a, srcs) → hd.mark ≠ .a → holds hd (s.hall h).c = true →
       (∃ r ∈ a :: srcs, r ≠ 0 ∧ (s.hall h).pend.getLsbD r.val = true) → exec i s = .next s)

/-- R183, R185: at every sequencer word but a run-ahead load or prefetch, the address unit's turn changes nothing but
the address unit itself. R186, R188: an A-marked LD or LDX that the address unit passes takes an entry of the load queue:
the data, which reach its working copy, "no effect" where its guard is false, a recorded fault, or nothing yet while a
scratch word of the access is empty; the last two leave the destination poisoned. An unfilled entry takes the data once
they are there. At the word both views receive the entry's value, its fault is raised precisely, and an unfilled entry
makes the word wait. R187: an own store over the bytes of an entry discards the entries of later words; a control word
decided otherwise than predicted empties the queue and restarts the address unit, which is counted. R272: PFX takes no
entry and changes no register. -/
def Obligations.AddressUnitChangesOnlyItself : Prop :=
  (∀ (s : State) (h : Nat) (i : Instr), s.cur = .addr h → i.unit = some .seq → runAheadAccess i = false →
    ∃ t, exec i s = .next t ∧ OnlyHall h s t ∧ t.hall h = { s.hall h with au := (t.hall h).au })
  ∧ (∀ (s : State) (h : Nat) (hd : SHdr) (a b c : Reg) (sz : Sz) (sx : Bool) (off : BitVec 25) (sh : Fin 8) (o : Nat) (k : Ctx),
       hd.mark = .a →
       let x := s.hall h
       let u := x.au
       let n := match sz with | .b => 1 | .h => 2 | .w => 4 | .d => 8
       let v := leNat ((List.range n).map fun j => cget x.scratch (o + j))
       let value : Word := if sx then (BitVec.ofNat (8 * n) v).signExtend 64 else BitVec.ofNat 64 v
       let at_ (w : View) (i : Instr) (va : Nat) : Prop :=
         (i = .ld hd a b sz sx off ∧ va = (w.reg b + off.signExtend 64).toNat)
         ∨ (i = .ldx hd a b c sz sx sh ∧ va = (w.reg b + (w.reg c <<< sh.val)).toNat)
       (∀ (i : Instr) (va : Nat), s.cur = .addr h → u.queue.length ≤ 256 → u.loopFull = false → u.loads < 64 →
         (∀ r ∈ [b, c], r ≠ 0 → u.poison.getLsbD r.val = false) → at_ u.view i va →
         let enters (fill : Fill) (w : View) (poisoned : Bool) : Prop := ∃ t q l, exec i s = .next t
           ∧ OnlyHall h { s with recs := t.recs } t ∧ t.hall h = { x with au := (t.hall h).au }
           ∧ (t.hall h).au.queue = u.queue ++ [q] ∧ q.off = u.pc ∧ q.load = some l ∧ l.dst = a.val ∧ l.addr = va
           ∧ l.size = n ∧ l.fill = fill ∧ (t.hall h).au.view = w
           ∧ (a ≠ 0 → (t.hall h).au.poison.getLsbD a.val = poisoned)
           ∧ ∀ r : Reg, r ≠ a → (t.hall h).au.poison.getLsbD r.val = u.poison.getLsbD r.val
         (holds hd u.view = false → enters .noEffect u.view (u.poison.getLsbD a.val))
         ∧ (holds hd u.view = true → va % n ≠ 0 → enters (.fault .align (BitVec.ofNat 64 va)) u.view true)
         ∧ (holds hd u.view = true → va = 0x00FE000000000000 + o → OwnScratch s h o n k →
           (FullWords x o n → enters (.value (BitVec.ofNat 64 v)) (u.view.setReg a value) false)
           ∧ (¬ FullWords x o n → enters .pending u.view true)))
       ∧ (∀ (q : Ahead) (l : LoadEntry) (w : Word), OwnScratch s h o n k → FullWords x o n → u.queue = [q] → q.load = some l →
         l.fill = .pending → l.dst = a.val → l.addr = 0x00FE000000000000 + o → l.size = n → l.sx = sx →
         ((fillPending s h).hall h).au.queue = [{ q with load := some { l with fill := .value (BitVec.ofNat 64 v) } }]
         ∧ (u.poison.getLsbD a.val = true → ((fillPending s h).hall h).au.view = u.view.setReg a value))
       ∧ (∀ (i : Instr) (va : Nat) (q : Ahead) (qs : List Ahead) (l : LoadEntry), s.cur = .seq h → holds hd x.a = true →
         x.Settled [a] → at_ x.a i va → u.queue = q :: qs → q.off = x.pc → q.load = some l → l.addr = va → l.size = n →
         (∀ w : Word, l.fill = .value w →
           let got : Word := if sx then (BitVec.ofNat (8 * n) w.toNat).signExtend 64 else BitVec.ofNat 64 w.toNat
           exec i s = .next (s.updHall h fun x =>
             Hall.stepped hd { x with c := x.c.setReg a got, a := x.a.setReg a got }))
         ∧ (∀ z inf, l.fill = .fault z inf → exec i s = .next (raise s h z inf x.pc))
         ∧ (l.fill = .pending → va = 0x00FE000000000000 + o → OwnScratch s h o n k → ¬ FullWords x o n → exec i s = .next s)))
  ∧ (∀ (s : State) (h : Nat) (hd : SHdr) (a b : Reg) (sz : Sz) (off : BitVec 25) (o : Nat) (k : Ctx) (q : Ahead) (l : LoadEntry),
       AtWord s h hd [a, b] →
       let x := s.hall h
       let n := match sz with | .b => 1 | .h => 2 | .w => 4 | .d => 8
       OwnScratch s h o n k → ownsT0 s (s.ctxOf h) (0x00FE000000000000 + o) n = false → portBusy s h o n = false →
       x.c.reg b + off.signExtend 64 = BitVec.ofNat 64 (0x00FE000000000000 + o) →
       q ∈ x.au.queue → q.load = some l → l.place < keyOfScratch h o + n → keyOfScratch h o < l.place + l.size →
       ∃ t, exec (.st hd a b sz off) s = .next t ∧ (t.hall h).au.queue = [] ∧ (t.hall h).au.pc = (t.hall h).pc
         ∧ (t.hall h).au.view = (t.hall h).a ∧ (t.hall h).au.poison = 0 ∧ (t.hall h).restarts = x.restarts)
  ∧ (∀ (x : Hall) (next : Nat) (taken y : Bool) (q : Ahead) (qs : List Ahead), x.au.queue = q :: qs → q.off = x.pc →
       let z := x.retire next taken true y
       (q.taken ≠ (if taken then some next else none) → z.restarts = x.restarts + 1 ∧ z.au.queue = [] ∧ z.au.pc = z.pc
         ∧ z.au.view = x.a ∧ z.au.poison = 0)
       ∧ (q.taken = (if taken then some next else none) → q.next = z.pc → z.restarts = x.restarts ∧ z.au.queue = qs))
  ∧ (∀ (s : State) (h : Nat) (hd : SHdr) (b c : Reg) (l2 : Bool) (lines : Fin 256), s.cur = .addr h →
       let x := s.hall h
       ∃ t, exec (.pfx hd b c l2 lines) s = .next t ∧ (t.hall h).c = x.c ∧ (t.hall h).a = x.a ∧ (t.hall h).pc = x.pc
         ∧ (t.hall h).held = x.held ∧ (t.hall h).au.view = x.au.view ∧ (t.hall h).au.loads = x.au.loads ∧ SameScratch s t)

/-- R198, R199: the control words whose guards hold and whose target the check of R197 allows. R200: where the point of
execution stands after a word that falls through or transfers control, and LC. A LOOP is first judged against the address
unit's prediction of it (R187). -/
def Obligations.ControlWordsTransfer : Prop :=
  (∀ (s : State) (h : Nat) (hd : SHdr) (a b c : Reg) (n : Nat), AtControl s h hd [a, b, c] →
     8 * n < (s.hall h).length →
     let x := s.hall h
     let go (f : Hall → Hall) : Out := .next (s.updHall h fun x => Hall.retire (f x) (8 * n) true true hd.y)
     (∀ imm : BitVec 34, ((x.pc : Int) + 8 * imm.toInt = 8 * (n : Int)) → exec (.br hd imm) s = go id)
     ∧ (∀ imm : BitVec 34, ((x.pc : Int) + 8 * imm.toInt = 8 * (n : Int)) → exec (.call hd a imm) s =
         go fun x => { x with c := x.c.setReg a (BitVec.ofNat 64 (x.pc + 8)), a := x.a.setReg a (BitVec.ofNat 64 (x.pc + 8)) })
     ∧ ((x.c.reg b).toNat + 8 * (x.c.reg c).toNat = 8 * n → exec (.jmp hd b c) s = go id)
     ∧ ((x.c.reg b).toNat = 8 * n → exec (.ret hd b) s = go id)
     ∧ (∀ imm : BitVec 28, x.pc + 8 * imm.toNat < x.length →
         (x.c.reg a = 0 → exec (.loop hd a imm) s =
           .next (s.updHall h fun x =>
             Hall.retire (Hall.judged (some 0) { x with lc := 0 }) (x.pc + 8 * imm.toNat + 8) true true hd.y))
         ∧ (x.c.reg a ≠ 0 → exec (.loop hd a imm) s =
           .next (s.updHall h fun x =>
             Hall.retire (Hall.judged (some (x.c.reg a)) { x with lc := x.c.reg a, ls := BitVec.ofNat 17 (x.pc + 8)
                                                                  le := BitVec.ofNat 17 (x.pc + 8 * imm.toNat) })
               (x.pc + 8) true true hd.y))))
  ∧ (∀ (x : Hall) (next : Nat) (taken ctl y : Bool),
       let back := x.lc ≠ 0 ∧ x.pc = x.le.toNat ∧ taken = false ∧ next = x.le.toNat + 8
       (back ∧ x.lc ≠ 1 → (x.retire next taken ctl y).pc = x.ls.toNat ∧ (x.retire next taken ctl y).lc = x.lc - 1)
       ∧ (back ∧ x.lc = 1 → (x.retire next taken ctl y).pc = next ∧ (x.retire next taken ctl y).lc = 0)
       ∧ (¬ back → (x.retire next taken ctl y).pc = next ∧ (x.retire next taken ctl y).lc = x.lc))

/-- R197: a target that is no multiple of 8 raises ALIGN; else one outside the code section raises ACCESS. R197: a
control word whose guard is false falls through and checks nothing. -/
def Obligations.ControlTargetsAreChecked : Prop :=
  (∀ (s : State) (h : Nat) (hd : SHdr) (a b c : Reg) (imm : BitVec 34), AtControl s h hd [a, b, c] →
     let x := s.hall h
     let out (t : Int) : Out := .next (if t % 8 ≠ 0 then raise s h .align 0 x.pc else raise s h .access 0 x.pc)
     let bad (t : Int) : Prop := t % 8 ≠ 0 ∨ t < 0 ∨ (x.length : Int) ≤ t
     let br : Int := (x.pc : Int) + 8 * imm.toInt
     let jmp : Int := ((x.c.reg b).toNat : Int) + 8 * ((x.c.reg c).toNat : Int)
     (bad br → exec (.br hd imm) s = out br ∧ exec (.call hd a imm) s = out br)
     ∧ (bad jmp → exec (.jmp hd b c) s = out jmp)
     ∧ (bad (x.c.reg b).toNat → exec (.ret hd b) s = out (x.c.reg b).toNat)
     ∧ (∀ off : BitVec 28, x.length ≤ x.pc + 8 * off.toNat → exec (.loop hd a off) s = .next (raise s h .access 0 x.pc)))
  ∧ (∀ (s : State) (h : Nat) (hd : SHdr) (a b c : Reg) (imm : BitVec 34) (off : BitVec 28),
       s.cur = .seq h → hd.mark = .b → holds hd (s.hall h).c = false →
       let out : Out := .next (s.updHall h fun x => Hall.retire x (x.pc + 8) false true hd.y)
       exec (.br hd imm) s = out ∧ exec (.call hd a imm) s = out ∧ exec (.jmp hd b c) s = out ∧ exec (.ret hd b) s = out
       ∧ exec (.loop hd a off) s =
           .next (s.updHall h fun x => Hall.retire (Hall.judged none x) (x.pc + 8) false true hd.y))

/-- R196, R201, R372: NOP and YIELD only pass, YIELD marking a freeze point; BEAT sets the watchdog count to 0 (as does
the retirement of any word, R416). R402: TRAP and BKPT raise causes 0x20 and 0x21 at the word itself, with the code or
tag as information. -/
def Obligations.PassingWordsAndTrapsComplete : Prop :=
  (∀ (s : State) (h : Nat) (hd : SHdr),
     (s.cur = .seq h → exec (.nop hd) s = .next (s.stepped h hd))
     ∧ (AtWord s h hd [] → exec (.yield hd) s = .next (s.updHall h fun x => Hall.retire x (x.pc + 8) false false true)
         ∧ exec (.beat hd) s = .next ((s.updHall h fun x => { x with wdogCount := 0 }).stepped h hd)
         ∧ ∀ t, exec (.beat hd) s = .next t → (t.hall h).wdogCount = 0))
  ∧ (∀ (s : State) (h : Nat) (hd : SHdr) (code : BitVec 8), AtWord s h hd [] →
       exec (.trap hd code) s = .next (raise s h .trap (code.zeroExtend 64) (s.hall h).pc)
       ∧ exec (.bkpt hd code) s = .next (raise s h .bkpt (code.zeroExtend 64) (s.hall h).pc)
       ∧ Cause.trap.code = 0x20 ∧ Cause.bkpt.code = 0x21)

/-! ## Exceptions (spec/16) -/

/-- R400: a precise trap that the local handler takes. The three trap registers and the handler's offset are set; no
scalar register, predicate or loop register changes, and the load queue is empty. R400, R403: a trap that is not taken
locally escalates: the hall keeps its registers and its place, and is held with its task frozen, unless the cause
terminates the context. A task still in BINDING is held and freezes as it starts (R131). -/
def Obligations.ExceptionEntry : Prop :=
  (∀ (s : State) (h : Nat) (c : Cause) (info : Word) (pc : Nat),
     let x := s.hall h
     let target := (x.trap.vec.extractLsb' 3 14).toNat * 8
     c ≠ .integ → x.trap.vec.getLsbD 0 = true → x.trap.act = false → target < x.length →
     let y := (raise s h c info pc).hall h
     y.trap = { x.trap with cause := BitVec.ofNat 64 c.code, info := info, pc := BitVec.ofNat 17 pc, act := true
                            frz := decide (c = .wdog) }
     ∧ y.pc = target ∧ y.c = x.c ∧ y.a = x.a ∧ y.lc = x.lc ∧ y.ls = x.ls ∧ y.le = x.le
     ∧ y.au.queue = [] ∧ y.au.view = x.a ∧ y.held = x.held ∧ y.facets = x.facets ∧ y.scratch = x.scratch)
  ∧ (∀ (s : State) (h : Nat) (c : Cause) (info : Word) (pc : Nat) (b : Binding) (k : Ctx) (tk : Task),
       let x := s.hall h
       (x.trap.vec.getLsbD 0 = false ∨ x.trap.act = true ∨ x.length ≤ (x.trap.vec.extractLsb' 3 14).toNat * 8) →
       x.bind = some b → s.ctx? b.task.ctx = some k → s.task? b.task = some tk →
       c ≠ .integ → (1 ≤ c.code ∧ c.code ≤ 0x10 → k.fpol.getLsbD c.code = false) →
       let t := raise s h c info pc
       (t.hall h).held = true ∧ (t.hall h).pc = x.pc ∧ (t.hall h).c = x.c ∧ (t.hall h).a = x.a ∧ (t.hall h).trap = x.trap
       ∧ ∃ tk', t.task? b.task = some tk' ∧ tk'.held = true
         ∧ tk'.state = if tk.state = .dispatched then .dispatched else .frozen)

/-- R401: the return from an exception. Execution restarts at the saved offset, or after it with NX; ACT and FRZ are
cleared and the fabric hold ends; registers and predicates stay. R401: ERET outside the local handler raises ACCESS;
ERET.esc inside it hands the saved trap to escalation, with execution to restart at the saved offset. R70: the place stays
a multiple of 8 where software wrote an offset that is none (log 29). -/
def Obligations.ExceptionReturn : Prop :=
  (∀ (s : State) (h : Nat) (hd : SHdr) (nx : Bool), AtWord s h hd [] → (s.hall h).trap.act = true →
     let x := s.hall h
     let target := x.trap.pc.toNat + if nx then 8 else 0
     target % 8 = 0 → target < x.length →
     ∃ t, exec (.eret hd nx) s = .next t ∧ OnlyHall h s t
       ∧ (t.hall h).pc = target ∧ (t.hall h).trap = { x.trap with act := false, frz := false } ∧ (t.hall h).hold = false
       ∧ (t.hall h).c = x.c ∧ (t.hall h).a = x.a ∧ (t.hall h).lc = x.lc ∧ (t.hall h).scratch = x.scratch
       ∧ (t.hall h).au.queue = [])
  ∧ (∀ (s : State) (h : Nat) (hd : SHdr) (nx : Bool), AtWord s h hd [] →
       let x := s.hall h
       (x.trap.act = false → exec (.eret hd nx) s = .next (raise s h .access 0 x.pc)
         ∧ exec (.eretEsc hd) s = .next (raise s h .access 0 x.pc))
       ∧ ∀ (b : Binding) (k : Ctx) (tk : Task) (c : Cause), x.trap.act = true → x.bind = some b →
         s.ctx? b.task.ctx = some k → s.task? b.task = some tk → x.trap.cause = BitVec.ofNat 64 c.code → c ≠ .integ →
         c.code ≤ 0x21 → (c.code ≤ 0x10 → k.fpol.getLsbD c.code = false) →
         ∃ t tk', exec (.eretEsc hd) s = .next t ∧ (t.hall h).held = true
           ∧ (x.trap.pc.toNat % 8 = 0 → (t.hall h).pc = x.trap.pc.toNat) ∧ (t.hall h).pc % 8 = 0
           ∧ (t.hall h).trap = { x.trap with act := false } ∧ (t.hall h).c = x.c ∧ (t.hall h).a = x.a
           ∧ t.task? b.task = some tk' ∧ tk'.held = true
           ∧ tk'.state = if tk.state = .dispatched then .dispatched else .frozen)

/-! ## System registers (spec/08 R202 to R204, spec/16 R419) -/

/-- R202, R419: SYSR of each register that is not per node, from the state that holds it; R324: `mx.flags` from the three
matrix nodes; R261: `l2.waymask` gives the mask of the domain written last (log 24). A read of a ring pointer of
the Mirror is an acquire at package scope (R390). R202: one read of a B-marked SYSR serves both views, each as its guards
say. R202, R204: `facet.seed` takes a scratch-mode facet as its selector;
a selector that names a cache-mode facet or no facet, or a non-zero selector of any other register, raises ACCESS. -/
def Obligations.SystemRegisterReads : Prop :=
  (∀ (s : State) (h : Nat) (hd : SHdr) (a c : Reg) (k : Ctx), h < 48 → AtWord s h hd [a, c] → (s.hall h).c.reg c = 0 →
     s.ctx? (s.ctxOf h) = some k →
     let x := s.hall h
     let both : SHdr := { hd with mark := .b }
     let gives (r : SysReg) (v : Word) : Prop := exec (.sysr hd a c r) s = .next (s.steppedWith h hd a v)
       ∧ exec (.sysr both a c r) s = .next (s.updHall h fun x =>
           Hall.stepped hd { x with c := x.c.setReg a v, a := if holds hd x.a then x.a.setReg a v else x.a })
     gives .hallId (BitVec.ofNat 64 (h ||| (h % 6) <<< 8 ||| (h / 6 % 4) <<< 11 ||| (h / 24) <<< 13))
     ∧ gives .hallSplit (BitVec.ofNat 64 x.split) ∧ gives .ctxId k.id ∧ gives .kdCur (BitVec.ofNat 64 k.kd)
     ∧ gives .ctxPtroot k.ptroot ∧ gives .ctxStarve k.starve ∧ gives .ctxFpol k.fpol
     ∧ gives .trapCause x.trap.cause ∧ gives .trapInfo x.trap.info ∧ gives .trapPc (x.trap.pc.zeroExtend 64)
     ∧ gives .trapVec (x.trap.vec.zeroExtend 64)
     ∧ gives .trapAct ((if x.trap.act then 1 else 0) ||| if x.trap.frz then 2 else 0)
     ∧ gives .trapK0 x.trap.k0 ∧ gives .trapK1 x.trap.k1
     ∧ gives .wdogPeriod x.wdogPeriod ∧ gives .wdogCount x.wdogCount
     ∧ gives .ctxEvbase k.evbase ∧ gives .ctxEvsize k.evsize ∧ gives .ctxEvhead k.evhead ∧ gives .ctxEvtail k.evtail
     ∧ gives .ctxEvlost k.evlost ∧ gives .ctxSpillbase k.spillbase ∧ gives .ctxSpillslots k.spillslots
     ∧ gives .ctxVc k.vc ∧ gives .ctxLogbase k.mirror.base ∧ gives .ctxLogsize k.mirror.size
     ∧ gives .ctxMode (match k.mirror.mode with | .off => 0 | .record => 1 | .replay => 2)
     ∧ gives .ctxRacectl k.racectl ∧ gives .ctxArctl k.arctl
     ∧ gives .seqLc x.lc ∧ gives .seqLs (x.ls.zeroExtend 64) ∧ gives .seqLe (x.le.zeroExtend 64)
     ∧ gives .seqRestarts (x.restarts.zeroExtend 64)
     ∧ (∃ w, gives .mxFlags w ∧ ∀ j, j < 64 → w.getLsbD j =
         (if j < 3 then (x.node j).sat else if 4 ≤ j ∧ j < 7 then (x.node (j - 4)).zro
          else if 8 ≤ j ∧ j < 11 then (x.node (j - 8)).elog.getLsbD 63 else false))
     ∧ gives .l2Waymask (BitVec.ofNat 64 (s.mask s.maskLast))
     ∧ gives .mxElog0 (x.node 0).elog ∧ gives .mxElog1 (x.node 1).elog ∧ gives .mxElog2 (x.node 2).elog
     ∧ exec (.sysr hd a c .ctxLoghead) s = .next ((acquire s h true []).steppedWith h hd a k.mirror.head)
     ∧ exec (.sysr hd a c .ctxLogtail) s = .next ((acquire s h true []).steppedWith h hd a k.mirror.tail))
  ∧ (∀ (s : State) (h : Nat) (hd : SHdr) (a c : Reg), AtWord s h hd [a, c] →
       let x := s.hall h
       let n := (x.c.reg c).toNat
       (x.split ≤ n → n < 48 →
         exec (.sysr hd a c .facetSeed) s = .next (s.steppedWith h hd a ((x.facet n).seed.zeroExtend 64)))
       ∧ (n < x.split ∨ 48 ≤ n → exec (.sysr hd a c .facetSeed) s = .next (raise s h .access 0 x.pc))
       ∧ ∀ r, r ≠ .facetSeed → n ≠ 0 → exec (.sysr hd a c r) s = .next (raise s h .access 0 x.pc))
  ∧ (∀ (s : State) (h : Nat) (hd : SHdr) (a c : Reg) (r : SysReg), s.cur = .seq h → hd.mark = .b →
       let x := s.hall h
       holds hd x.c = false →
       (holds hd x.a = false → exec (.sysr hd a c r) s = .next (s.stepped h hd))
       ∧ (holds hd x.a = true → x.a.reg c = 0 → r ≠ .facetSeed → r ≠ .ctxLoghead → r ≠ .ctxLogtail →
           exec (.sysr hd a c r) s = .next (s.updHall h fun x =>
             Hall.stepped hd { x with a := x.a.setReg a (sysValue s h r) })))

/-- R203, R419: SYSW of the registers of a hall, by a tenant or the system context. R204: a write of `facet.seed`
stores the low 32 bits, and 1 for a write of 0. A write of wdog.period outside its range is ignored (R416). -/
def Obligations.HallRegisterWrites : Prop :=
  (∀ (s : State) (h : Nat) (hd : SHdr) (b c : Reg), AtWord s h hd [b, c] → (s.hall h).c.reg c = 0 →
     let v := (s.hall h).c.reg b
     let sets (i : Instr) (f : Hall → Hall) : Prop := exec i s = .next ((s.updHall h f).stepped h hd)
     sets (.sysw hd b c .trapPc) (fun x => { x with trap := { x.trap with pc := v.truncate 17 } })
     ∧ sets (.sysw hd b c .trapVec) (fun x => { x with trap := { x.trap with vec := v.truncate 17 &&& ~~~ 6 } })
     ∧ sets (.sysw hd b c .trapK0) (fun x => { x with trap := { x.trap with k0 := v } })
     ∧ sets (.sysw hd b c .trapK1) (fun x => { x with trap := { x.trap with k1 := v } })
     ∧ (2 ^ 16 ≤ v.toNat → v.toNat ≤ 2 ^ 28 → sets (.sysw hd b c .wdogPeriod) (fun x => { x with wdogPeriod := v }))
     ∧ (v.toNat < 2 ^ 16 ∨ 2 ^ 28 < v.toNat → exec (.sysw hd b c .wdogPeriod) s = .next (s.stepped h hd))
     ∧ sets (.syswSeqLc hd b c) (fun x => { x with lc := v })
     ∧ ∃ t, exec (.syswMxFlags hd b c) s = .next t ∧ OnlyHall h s t ∧ ∀ i, i < 3 → (t.hall h).node i =
         { (s.hall h).node i with sat := v.getLsbD i, zro := v.getLsbD (4 + i)
                                  elog := if v.getLsbD (8 + i) then ((s.hall h).node i).elog else 0 })
  ∧ (∀ (s : State) (h : Nat) (hd : SHdr) (b c : Reg), AtWord s h hd [b, c] →
       let n := ((s.hall h).c.reg c).toNat
       let v : BitVec 32 := ((s.hall h).c.reg b).truncate 32
       (s.hall h).split ≤ n → n < 48 →
       ∃ t, exec (.syswFacetSeed hd b c) s = .next t ∧ OnlyHall h s t
         ∧ (t.hall h).facet n = { (s.hall h).facet n with seed := if v = 0 then 1 else v }
         ∧ ∀ m, m ≠ n → (t.hall h).facet m = (s.hall h).facet m)

/-- R203, R405, R386, R296, R419: SYSW of the registers of a context that tenants may write. R390: the ring pointer
that software owns in the Mirror's mode moves within its bound, as a release at package scope, which waits for posted
REDs (R364); any other write is ignored. R92, R203, R261, R419: the registers that only the system context may write: its own copies and the way masks;
a tenant's write raises PRIV. That ctx.ptroot and ctx.spillbase mask their low bits, and that ctx.spillslots above 4096
and ctx.evtail outside its bounds are ignored, are the model's readings (log 24). -/
def Obligations.ContextRegisterWrites : Prop :=
  (∀ (s : State) (h : Nat) (hd : SHdr) (b c : Reg) (k : Ctx), AtWord s h hd [b, c] → (s.hall h).c.reg c = 0 →
     s.ctx? (s.ctxOf h) = some k →
     let v := (s.hall h).c.reg b
     let sets (i : Instr) (f : Ctx → Ctx) : Prop := exec i s = .next ((s.updCtx (s.ctxOf h) f).stepped h hd)
     let nothing (i : Instr) : Prop := exec i s = .next ((s.updCtx (s.ctxOf h) id).stepped h hd)
     sets (.sysw hd b c .ctxStarve) (fun k => { k with starve := v })
     ∧ sets (.sysw hd b c .ctxArctl) (fun k => { k with arctl := v &&& 1 })
     ∧ sets (.syswRacectl hd b c) (fun k => { k with racectl := v &&& 1 })
     ∧ sets (.syswEvBase hd b c) (fun k => { k with evbase := v &&& 0x00FFFFFFFFFFFFC0, evhead := 0, evtail := 0 })
     ∧ (v = 0 ∨ (∃ n, 4 ≤ n ∧ n ≤ 16 ∧ v = BitVec.ofNat 64 (2 ^ n)) →
         sets (.syswEvSize hd b c) (fun k => { k with evsize := v }))
     ∧ (v ≠ 0 → (∀ n, 4 ≤ n → n ≤ 16 → v ≠ BitVec.ofNat 64 (2 ^ n)) → nothing (.syswEvSize hd b c))
     ∧ (k.evtail.toNat ≤ v.toNat → v.toNat ≤ k.evhead.toNat → sets (.syswEvTail hd b c) (fun k => { k with evtail := v }))
     ∧ (v.toNat < k.evtail.toNat ∨ k.evhead.toNat < v.toNat → nothing (.syswEvTail hd b c))
     ∧ (v = 0 → sets (.syswEvLost hd b c) (fun k => { k with evlost := 0 }))
     ∧ (v ≠ 0 → nothing (.syswEvLost hd b c)))
  ∧ (∀ (s : State) (h : Nat) (hd : SHdr) (b c : Reg) (k : Ctx), AtWord s h hd [b, c] → (s.hall h).c.reg c = 0 →
       s.ctx? (s.ctxOf h) = some k → k.id = s.ctxOf h →
       let v := (s.hall h).c.reg b
       let m := k.mirror
       let free := (s.hall h).posted = []
       (∀ u clk, free → m.mode = .record → m.tail.toNat ≤ v.toNat → v.toNat ≤ m.head.toNat → release s h true = .ok clk u →
         (u.hall h).pc = (s.hall h).pc → exec (.syswLogTail hd b c) s =
           .next ((u.updCtx (s.ctxOf h) fun k => { k with mirror := { k.mirror with tail := v } }).stepped h hd))
       ∧ (m.mode ≠ .record ∨ v.toNat < m.tail.toNat ∨ m.head.toNat < v.toNat →
           exec (.syswLogTail hd b c) s = .next (s.stepped h hd))
       ∧ (¬ free → m.mode = .record → m.tail.toNat ≤ v.toNat → v.toNat ≤ m.head.toNat → exec (.syswLogTail hd b c) s = .next s)
       ∧ (¬ free → m.mode = .replay → m.head.toNat ≤ v.toNat → v.toNat ≤ (m.tail + m.size).toNat →
           exec (.syswLogHead hd b c) s = .next s)
       ∧ (∀ u clk, free → m.mode = .replay → m.head.toNat ≤ v.toNat → v.toNat ≤ (m.tail + m.size).toNat → release s h true = .ok clk u →
         (u.hall h).pc = (s.hall h).pc → exec (.syswLogHead hd b c) s =
           .next ((u.updCtx (s.ctxOf h) fun k => { k with mirror := { k.mirror with head := v } }).stepped h hd))
       ∧ (m.mode ≠ .replay ∨ v.toNat < m.head.toNat ∨ (m.tail + m.size).toNat < v.toNat →
           exec (.syswLogHead hd b c) s = .next (s.stepped h hd)))
  ∧ (∀ (s : State) (h : Nat) (hd : SHdr) (b c : Reg), AtWord s h hd [b, c] →
       let v := (s.hall h).c.reg b
       let sets (i : Instr) (f : Ctx → Ctx) : Prop := exec i s = .next ((s.updCtx (s.ctxOf h) f).stepped h hd)
       (s.isSystem (s.ctxOf h) = false →
         (∀ r, r = .ctxPtroot ∨ r = .ctxFpol ∨ r = .ctxSpillbase ∨ r = .ctxSpillslots →
           exec (.sysw hd b c r) s = .next (raise s h .priv 0 (s.hall h).pc))
         ∧ exec (.syswL2Waymask hd b c) s = .next (raise s h .priv 0 (s.hall h).pc))
       ∧ (s.isSystem (s.ctxOf h) = true → (s.hall h).c.reg c = 0 →
         sets (.sysw hd b c .ctxPtroot) (fun k => { k with ptroot := v &&& 0x0000FFFFFFFF0000 })
         ∧ sets (.sysw hd b c .ctxFpol) (fun k => { k with fpol := v &&& 0x1FFFE })
         ∧ sets (.sysw hd b c .ctxSpillbase) (fun k => { k with spillbase := v &&& ~~~ 0x7FFFFF })
         ∧ (v.toNat ≤ 4096 → sets (.sysw hd b c .ctxSpillslots) (fun k => { k with spillslots := v }))
         ∧ (v.extractLsb' 14 38 = 0 → exec (.syswL2Waymask hd b c) s =
             .next (State.stepped { s with masks := mset s.masks (v.extractLsb' 52 12).toNat (v.extractLsb' 0 14).toNat
                                           maskLast := (v.extractLsb' 52 12).toNat } h hd)))
       ∧ (s.isSystem (s.ctxOf h) = true →
         (v.extractLsb' 14 38 ≠ 0 → exec (.syswL2Waymask hd b c) s = .next (raise s h .ill 0x24 (s.hall h).pc))
         ∧ (v.extractLsb' 14 38 = 0 → (s.hall h).c.reg c ≠ 0 →
             exec (.syswL2Waymask hd b c) s = .next (raise s h .access 0 (s.hall h).pc))))

/-! ## Loads, stores and full/empty accesses (spec/10, spec/14) -/

/-- R251, R271: plain loads and stores in the hall's own scratch window. A load takes the little-endian bytes, zero- or
sign-extended, and waits while one of its words is empty; a store replaces exactly its bytes and leaves every F bit. R357: a store to words for which an earlier
request now stands to be served waits. -/
def Obligations.ScratchLoadsAndStores : Prop :=
  ∀ (s : State) (h : Nat) (hd : SHdr) (a b c : Reg) (sz : Sz) (sx : Bool) (off : BitVec 25) (sh : Fin 8) (o : Nat) (k : Ctx),
    AtWord s h hd [a, b, c] → s.MemoryForm →
    let x := s.hall h
    let n := match sz with | .b => 1 | .h => 2 | .w => 4 | .d => 8
    let v := leNat ((List.range n).map fun j => cget x.scratch (o + j))
    let value : Word := if sx then (BitVec.ofNat (8 * n) v).signExtend 64 else BitVec.ofNat 64 v
    let loads (i : Instr) : Prop := OwnScratch s h o n k →
      (FullWords x o n → ∃ t, exec i s = .next t ∧ OnlyHall h { s with recs := t.recs } t
        ∧ t.hall h = Hall.stepped hd { x with c := x.c.setReg a value })
      ∧ (¬ FullWords x o n → exec i s = .next s)
    let stores (i : Instr) : Prop := OwnScratch s h o n k → ownsT0 s (s.ctxOf h) (0x00FE000000000000 + o) n = false →
      (portBusy s h o n = true → exec i s = .next s)
      ∧ (portBusy s h o n = false →
        ∃ t, exec i s = .next t ∧ OnlyHall h { s with recs := t.recs, carries := t.carries } t
          ∧ (t.hall h).full = x.full ∧ (t.hall h).c = x.c ∧ (t.hall h).a = x.a
          ∧ (t.hall h).pc = (Hall.stepped hd x).pc
          ∧ (∀ j, j < n → cget (t.hall h).scratch (o + j) = (x.c.reg a).extractLsb' (8 * j) 8)
          ∧ (∀ j, j < o ∨ o + n ≤ j → cget (t.hall h).scratch j = cget x.scratch j))
    (x.c.reg b + off.signExtend 64 = BitVec.ofNat 64 (0x00FE000000000000 + o) →
      loads (.ld hd a b sz sx off) ∧ stores (.st hd a b sz off))
    ∧ (x.c.reg b + (x.c.reg c <<< sh.val) = BitVec.ofNat 64 (0x00FE000000000000 + o) →
      loads (.ldx hd a b c sz sx sh) ∧ stores (.stx hd a b c sz sh))

/-- R258, R271: plain loads and stores of a device page whose line the hall's L1 holds in the page's domain: the load
takes the line's bytes where the line holds them all; the store changes the line and marks its bytes dirty; neither touches memory. The hint of the word
stays with the line (R76). -/
def Obligations.LineLoadsAndStores : Prop :=
  ∀ (s : State) (h : Nat) (hd : SHdr) (a b c : Reg) (sz : Sz) (sx : Bool) (off : BitVec 25) (sh : Fin 8) (ea pa : Nat)
      (leaf : Word) (l : L1Line),
    AtWord s h hd [a, b, c] →
    let x := s.hall h
    let n := match sz with | .b => 1 | .h => 2 | .w => 4 | .d => 8
    ea % n = 0 → x.posted = [] → resolve s h .seq ea n = .ok (.dev pa leaf) s → pa % 128 + n ≤ 128 →
    pteLN leaf = false → l1Find x false (pa / 128) = some l → l.kd = pteKD leaf →
    let v := l.data.toNat / 2 ^ (8 * (pa % 128)) % 2 ^ (8 * n)
    let value : Word := if sx then (BitVec.ofNat (8 * n) v).signExtend 64 else BitVec.ofNat 64 v
    let loads (i : Instr) : Prop := (∀ j, j < n → l.valid.getLsbD (pa % 128 + j) = true) →
      exec i s = .next ((noteHint s h false (pa / 128) hd.ch).steppedWith h hd a value)
    let stores (i : Instr) : Prop :=
      pteWR leaf = true → s.pmovs = [] → ownsT0 s (s.ctxOf h) ea n = false → ownsT0At s (s.ctxOf h) pa n = false →
      ∃ t l', exec i s = .next t ∧ OnlyHall h { s with l2 := t.l2 } t ∧ SameMemory s t ∧ SameScratch s t
        ∧ SameBesideAccess x (t.hall h) ∧ (t.hall h).c = x.c ∧ (t.hall h).a = x.a ∧ (t.hall h).pc = (Hall.stepped hd x).pc
        ∧ l1Find (t.hall h) false (pa / 128) = some l'
        ∧ (∀ j, j < n → lineByte l'.data (pa % 128 + j) = (x.c.reg a).extractLsb' (8 * j) 8)
        ∧ (∀ j, j < 128 → j < pa % 128 ∨ pa % 128 + n ≤ j → lineByte l'.data j = lineByte l.data j)
        ∧ (∀ j, j < 128 → l'.dirty.getLsbD j = (l.dirty.getLsbD j || (decide (pa % 128 ≤ j) && decide (j < pa % 128 + n))))
    ((x.c.reg b + off.signExtend 64).toNat = ea → loads (.ld hd a b sz sx off) ∧ stores (.st hd a b sz off))
    ∧ ((x.c.reg b + (x.c.reg c <<< sh.val)).toNat = ea → loads (.ldx hd a b c sz sx sh) ∧ stores (.stx hd a b c sz sh))

/-- R271, R356, R363: an access that is not naturally aligned raises ALIGN with its address, before any effect. -/
def Obligations.MisalignedAccessesTrap : Prop :=
  ∀ (s : State) (h : Nat) (hd : SHdr) (a b c d : Reg) (sz : Sz) (sx dbl : Bool) (off : BitVec 25) (p : Pred) (y : Sync),
    AtWord s h hd [a, b, c, d] →
    let x := s.hall h
    let n := match sz with | .b => 1 | .h => 2 | .w => 4 | .d => 8
    let m := if dbl then 8 else 4
    let ea := (x.c.reg b + off.signExtend 64).toNat
    let out (va : Nat) : Out := .next (raise s h .align (BitVec.ofNat 64 va) x.pc)
    (ea % n ≠ 0 → exec (.ld hd a b sz sx off) s = out ea ∧ exec (.st hd a b sz off) s = out ea)
    ∧ (ea % m ≠ 0 → x.wait = .none → exec (.ldf hd a b dbl off) s = out ea ∧ exec (.lde hd a b dbl off) s = out ea
        ∧ exec (.ste hd a b dbl off) s = out ea ∧ exec (.stf hd a b dbl off) s = out ea)
    ∧ ((x.c.reg b).toNat % (if y.dbl then 8 else 4) ≠ 0 →
        let va := (x.c.reg b).toNat
        exec (.amadd hd a b c y) s = out va ∧ exec (.amand hd a b c y) s = out va ∧ exec (.amor hd a b c y) s = out va
        ∧ exec (.amxor hd a b c y) s = out va ∧ exec (.amswp hd a b c y) s = out va
        ∧ exec (.amfadd hd a b c y) s = out va ∧ exec (.amincw hd a b c y) s = out va
        ∧ exec (.amcas hd a b c d p y) s = out va ∧ exec (.amfab hd a b c d p y) s = out va
        ∧ (∀ u, exec (.ammin hd a b c y u) s = out va ∧ exec (.ammax hd a b c y u) s = out va)
        ∧ ∀ op, exec (.red hd b c y op) s = out va)

/-- R355, R356, R358: full/empty accesses of the hall's own scratch with no request waiting and the Mirror off. LDF
takes full words and leaves them full; LDE empties them; STE and STF store and fill; FEST sets the F bits alone. -/
def Obligations.FullEmptyAccessesComplete : Prop :=
  ∀ (s : State) (h : Nat) (hd : SHdr) (a b c : Reg) (dbl : Bool) (off : BitVec 25) (o : Nat) (k : Ctx),
    AtWord s h hd [a, b, c] → s.MemoryForm → NoWaiters s h → k.mirror.mode = .off →
    let x := s.hall h
    let n := if dbl then 8 else 4
    OwnScratch s h o n k →
    let word (w : Nat) : Prop := o ≤ 4 * w ∧ 4 * w < o + n
    let value : Word := BitVec.ofNat 64 (leNat ((List.range n).map fun j => cget x.scratch (o + j)))
    let stored (t : State) : Prop := (∀ j, j < n → cget (t.hall h).scratch (o + j) = (x.c.reg a).extractLsb' (8 * j) 8)
      ∧ (∀ j, j < o ∨ o + n ≤ j → cget (t.hall h).scratch j = cget x.scratch j) ∧ (t.hall h).c = x.c
    let same (t : State) : Prop := ∀ j, cget (t.hall h).scratch j = cget x.scratch j
    let passed (t : State) : Prop := (t.hall h).pc = (Hall.stepped hd x).pc ∧ OnlyAccess h s t
      ∧ SameBesideAccess x (t.hall h) ∧ (t.hall h).a = x.a ∧ (t.hall h).l1 = x.l1
    (x.c.reg b + off.signExtend 64 = BitVec.ofNat 64 (0x00FE000000000000 + o) →
      (FullWords x o n →
        (∃ t, exec (.ldf hd a b dbl off) s = .next t ∧ passed t ∧ same t ∧ (t.hall h).c = x.c.setReg a value
          ∧ ∀ w, w ∈ (t.hall h).full ↔ w ∈ x.full)
        ∧ ∃ t, exec (.lde hd a b dbl off) s = .next t ∧ passed t ∧ same t ∧ (t.hall h).c = x.c.setReg a value
          ∧ ((∀ w, x.full.count w ≤ 1) → ∀ w, w ∈ (t.hall h).full ↔ w ∈ x.full ∧ ¬ word w))
      ∧ ((∀ w, word w → w ∉ x.full) → ∃ t, exec (.ste hd a b dbl off) s = .next t ∧ passed t ∧ stored t
          ∧ ∀ w, w ∈ (t.hall h).full ↔ w ∈ x.full ∨ word w)
      ∧ ∃ t, exec (.stf hd a b dbl off) s = .next t ∧ passed t ∧ stored t
          ∧ ∀ w, w ∈ (t.hall h).full ↔ w ∈ x.full ∨ word w)
    ∧ (x.c.reg b = BitVec.ofNat 64 (0x00FE000000000000 + o) → ∀ m, (x.c.reg c).toNat = m → 0 < m → o + 4 * m ≤ x.size →
      (∃ t, exec (.festF hd b c) s = .next t ∧ passed t ∧ same t ∧ (t.hall h).c = x.c
        ∧ ∀ w, w ∈ (t.hall h).full ↔ w ∈ x.full ∨ (o / 4 ≤ w ∧ w < o / 4 + m))
      ∧ ∃ t, exec (.festE hd b c) s = .next t ∧ passed t ∧ same t ∧ (t.hall h).c = x.c
        ∧ ((∀ w, x.full.count w ≤ 1) → ∀ w, w ∈ (t.hall h).full ↔ w ∈ x.full ∧ ¬ (o / 4 ≤ w ∧ w < o / 4 + m)))

/-! ## Atomics, waits, ordering (spec/14) -/

/-- R360 to R362: every atomic on a word of the hall's own scratch, whatever its ordering and scope: it returns the old
value and stores the new one; a compare that fails stores nothing. L1 lines, host stores still to leave (R353), earlier
requests at the word (R357) and the Mirror stand aside. -/
def Obligations.AtomicsComplete : Prop :=
  ∀ (s : State) (h : Nat) (hd : SHdr) (a b c d : Reg) (p : Pred) (y : Sync) (o : Nat) (k : Ctx),
    AtWord s h hd [a, b, c, d] → s.MemoryForm → k.mirror.mode = .off → (s.hall h).l1 = [] →
    let x := s.hall h
    let n := if y.dbl then 8 else 4
    OwnScratch s h o n k → portBusy s h o n = false → hostPending s h = false →
    x.c.reg b = BitVec.ofNat 64 (0x00FE000000000000 + o) →
    let old := leNat ((List.range n).map fun j => cget x.scratch (o + j))
    let v := (x.c.reg c).toNat % 2 ^ (8 * n)
    let e := (x.c.reg d).toNat % 2 ^ (8 * n)
    let sgn (z : Nat) : Int := (BitVec.ofNat (8 * n) z).toInt
    let does (i : Instr) (new : Nat) (view : View) : Prop := ∃ t, exec i s = .next t
      ∧ (t.hall h).pc = (Hall.stepped hd x).pc ∧ (t.hall h).c = view ∧ (t.hall h).a = x.a ∧ (t.hall h).full = x.full
      ∧ OnlyAccess h s t ∧ SameBesideAccess x (t.hall h)
      ∧ (∀ j, j < n → cget (t.hall h).scratch (o + j) = BitVec.ofNat 8 (new / 256 ^ j))
      ∧ ∀ j, j < o ∨ o + n ≤ j → cget (t.hall h).scratch j = cget x.scratch j
    let got := x.c.setReg a (BitVec.ofNat 64 old)
    does (.amadd hd a b c y) ((old + v) % 2 ^ (8 * n)) got
    ∧ does (.amand hd a b c y) (old &&& v) got
    ∧ does (.amor hd a b c y) (old ||| v) got
    ∧ does (.amxor hd a b c y) (old ^^^ v) got
    ∧ does (.ammin hd a b c y true) (min old v) got
    ∧ does (.ammax hd a b c y true) (max old v) got
    ∧ does (.ammin hd a b c y false) (if sgn old < sgn v then old else v) got
    ∧ does (.ammax hd a b c y false) (if sgn old < sgn v then v else old) got
    ∧ does (.amswp hd a b c y) v got
    ∧ does (.amfadd hd a b c y) (faddN n old v) got
    ∧ does (.amincw hd a b c y) (if old < v then old + 1 else 0) got
    ∧ does (.amcas hd a b c d p y) (if old = e then v else old) (got.setPred p (decide (old = e)))
    ∧ does (.amfab hd a b c d p y) (if old + v ≤ e then old + v else old) (got.setPred p (decide (old + v ≤ e)))

/-- R364: RED is posted with its operand and code offset, and writes no register; the oldest posted RED of a hall then
performs at its word, with no earlier request at it (R357), whichever of the seven operations it is. R29: a RED to T0 of a
spawned task raises ACCESS at the word and posts nothing. -/
def Obligations.PostedReductions : Prop :=
  ∀ (s : State) (h : Nat) (hd : SHdr) (b c : Reg) (y : Sync) (op : RedOp) (o : Nat) (k : Ctx),
    s.MemoryForm → k.mirror.mode = .off →
    let x := s.hall h
    let n := if y.dbl then 8 else 4
    (AtWord s h hd [b, c] → OwnScratch s h o n k → x.c.reg b = BitVec.ofNat 64 (0x00FE000000000000 + o) → x.l1 = [] →
      hostPending s h = false → ∃ t q, exec (.red hd b c y op) s = .next t ∧ (t.hall h).posted = [q] ∧ q.addr = 0x00FE000000000000 + o
        ∧ q.dbl = y.dbl ∧ q.op = op ∧ q.value = BitVec.ofNat 64 ((x.c.reg c).toNat % 2 ^ (8 * n)) ∧ q.off = x.pc
        ∧ OnlyAccess h s t ∧ SameBesideAccess x (t.hall h) ∧ (t.hall h).c = x.c ∧ (t.hall h).a = x.a
        ∧ (t.hall h).scratch = x.scratch ∧ (t.hall h).full = x.full ∧ (t.hall h).pc = (Hall.stepped hd x).pc)
    ∧ (∀ (pa : Nat) (leaf : Word), AtWord s h hd [b, c] → (x.c.reg b).toNat % n = 0 →
        locate s h .seq (x.c.reg b).toNat n = .ok (.dev pa leaf) s → pteLN leaf = false → pteWR leaf = true →
        ownsT0 s (s.ctxOf h) (x.c.reg b).toNat n = true →
        exec (.red hd b c y op) s = .next (raise s h .access (x.c.reg b) x.pc))
    ∧ ∀ (g : HallId) (q : Posted), g.val = h → x.posted = [q] → x.held = false → q.dbl = y.dbl →
      q.value.toNat < 2 ^ (8 * n) → q.addr = 0x00FE000000000000 + o →
      OwnScratch (s.updHall h fun x => { x with posted := [] }) h o n k → portBusy s h o n = false →
      let old := leNat ((List.range n).map fun j => cget x.scratch (o + j))
      let v := q.value.toNat
      let sgn (z : Nat) : Int := (BitVec.ofNat (8 * n) z).toInt
      let new : Nat := match q.op with
        | .add => old + v | .fadd => faddN n old v | .and => old &&& v | .or => old ||| v | .xor => old ^^^ v
        | .min => if sgn old < sgn v then old else v
        | .max => if sgn old < sgn v then v else old
      ∃ t, exec (.redPerform g) s = .next t ∧ (t.hall h).posted = []
        ∧ (∀ j, j < n → cget (t.hall h).scratch (o + j) = BitVec.ofNat 8 (new / 256 ^ j))
        ∧ (∀ j, j < o ∨ o + n ≤ j → cget (t.hall h).scratch j = cget x.scratch j) ∧ OnlyAccess h s t ∧ SameBesideAccess x (t.hall h)
        ∧ (t.hall h).c = x.c ∧ (t.hall h).a = x.a ∧ (t.hall h).full = x.full ∧ (t.hall h).pc = x.pc

/-- R357, R418: a waiting access whose condition comes to hold is served and its word retires; a WAIT whose limit has
passed gives 0 while its word is empty, and 1 where the word is full and was not yet served; a WAIT on a full word gives 1
and leaves it full. -/
def Obligations.WaitsAreServedOrExpire : Prop :=
  (∀ (s : State) (g : HallId) (hd : SHdr) (a b c : Reg) (o : Nat) (k : Ctx) (w : FeWaiter), s.MemoryForm → k.mirror.mode = .off →
    let h := g.val
    let x := s.hall h
    let kept (t : State) : Prop := OnlyAccess h s t ∧ SameBesideAccess x (t.hall h) ∧ (t.hall h).a = x.a
      ∧ (t.hall h).scratch = x.scratch
    (AtWord s h hd [a, b, c] → NoWaiters s h → OwnScratch s h o 4 k → x.c.reg b = BitVec.ofNat 64 (0x00FE000000000000 + o) →
      FullWords x o 4 → ∃ t, exec (.wait hd a b c) s = .next t ∧ (t.hall h).c = x.c.setReg a 1 ∧ (t.hall h).full = x.full
        ∧ kept t ∧ (t.hall h).pc = (Hall.stepped hd x).pc)
    ∧ (x.feq = [w] → w.hall = h → w.off = o → w.size = 4 → (∀ n i, lget (x.facet n).arrive i = none) → s.arrivals = [] →
      x.held = false → OwnScratch s h o 4 k → FullWords x o 4 → w.op = .ldf ∨ w.op = .lde →
      ∃ t, exec (.feWaitServe g (o / 4)) s = .next t ∧ kept t ∧ (t.hall h).feq = [] ∧ (t.hall h).wait = .none
        ∧ (w.op = .ldf → (t.hall h).full = x.full) ∧ (w.op = .lde → (t.hall h).full = sdel x.full (o / 4))
        ∧ (t.hall h).c = x.c.setReg (Fin.ofNat 64 w.reg) (BitVec.ofNat 64 (leNat ((List.range 4).map fun j => cget x.scratch (o + j))))
        ∧ (t.hall h).pc = (x.retire (x.pc + 8) false false w.y).pc))
  ∧ (∀ (s : State) (g : HallId) (p : Nat) (w : FeWaiter),
    let h := g.val
    let x := s.hall h
    waiterOf s h = some (p, w) → w.op = .wait → w.limit ≠ 0 → w.since + w.limit ≤ s.tick → x.wait = .fe → x.held = false →
    let ends (v : Word) : Prop := ∃ t, exec (.waitTimeout g) s = .next t ∧ t = { s with halls := t.halls, ctxs := t.ctxs }
      ∧ (∀ f, (t.hall f).feq = (s.hall f).feq.filter (fun q => q.hall ≠ h))
      ∧ (∀ f, f ≠ h → t.hall f = { s.hall f with feq := (t.hall f).feq })
      ∧ SameBesideAccess x (t.hall h) ∧ (t.hall h).a = x.a ∧ (t.hall h).scratch = x.scratch ∧ (t.hall h).full = x.full
      ∧ (t.hall h).c = x.c.setReg (Fin.ofNat 64 w.reg) v ∧ (t.hall h).wait = .none
      ∧ (t.hall h).pc = (x.retire (x.pc + 8) false false w.y).pc
    ((s.hall p).fullAt w.off 4 = false → ends 0)
    ∧ ((s.hall p).fullAt w.off 4 = true → w.size = 4 → (s.hall p).badAt w.off 4 = false →
        (∀ q, s.ctx? (s.ctxOf p) = some q → q.mirror.mode = .off) → ends 1))

/-- R367 to R371: FENCE, BAR, GBAR of a hall task, and MARK, in a hall with nothing posted, no host store still to leave,
nothing in its L1 and the Mirror off. A release at gallery scope or wider steps the hall's own clock entry. R370: an instance of a gallery task
arrives and waits; the generation completes when every instance has arrived or exited, each arrival receiving the
generation's number plus one and retiring. R383: such a release increments the hall's own entry. -/
def Obligations.OrderingWordsComplete : Prop :=
  (∀ (s : State) (h : Nat) (hd : SHdr) (a : Reg) (ord : Ord) (scp : Scope) (fab : Bool) (k : Ctx) (b : Binding),
     AtWord s h hd [a] →
     let x := s.hall h
     s.ctx? (s.ctxOf h) = some k → k.id = s.ctxOf h → k.mirror.mode = .off → x.posted = [] → hostPending s h = false →
     x.l1 = [] → x.bind = some b →
     let passed (t : State) : Prop := (t.hall h).pc = (Hall.stepped hd x).pc ∧ (t.hall h).scratch = x.scratch
       ∧ (t.hall h).full = x.full ∧ SameMemory s t
     (∃ t, exec (.fence hd ord scp) s = .next t ∧ passed t ∧ (t.hall h).c = x.c
       ∧ (ord = .rel ∨ ord = .ar → scp ≠ .facet → scp ≠ .hall → ∃ k', t.ctx? (s.ctxOf h) = some k' ∧
           (h < (k.clock h).length → (k.clock h).getD h 0 + 1 < 2 ^ 32 →
             (k.clock h).getD h 0 + 1 ≤ (k'.clock h).getD h 0)))
     ∧ (x.copies = [] → x.chains = [] → x.mx = [] → x.links = [] → s.arrays = [] → s.pmovs = [] →
         (∀ c, lget x.seqOuts c = []) → (fab = true → quiescent s h = true) →
         ∃ t, exec (.bar hd fab) s = .next t ∧ passed t ∧ (t.hall h).c = x.c ∧ (t.hall h).au.queue = [])
     ∧ ((∀ tk, s.task? b.task = some tk → tk.unit = none) →
         ∃ t, exec (.gbar hd a) s = .next t ∧ passed t ∧ (t.hall h).c = x.c.setReg a 0)
     ∧ (∀ tk n, s.task? b.task = some tk → tk.unit = some n →
         let key := 3 * (h / 6) + n
         let u := s.bar key
         u.task = some tk.id → tk.id = b.task → (∀ r ∈ u.arrived, r.1 ≠ b.inst) →
         (∃ i, i < tk.halls ∧ i ≠ b.inst ∧ tk.retired.getD i false = false ∧ ∀ r ∈ u.arrived, r.1 ≠ i) →
         ∃ t, exec (.gbar hd a) s = .next t ∧ (t.bar key).arrived = u.arrived ++ [(b.inst, a.val, hd.y)]
           ∧ (t.bar key).gen = u.gen ∧ (∀ j, j ≠ key → t.bar j = s.bar j) ∧ (t.hall h).wait = .gbar ∧ (t.hall h).c = x.c
           ∧ (t.hall h).pc = x.pc ∧ (t.hall h).scratch = x.scratch ∧ (t.hall h).full = x.full ∧ SameMemory s t)
     ∧ exec (.mark hd a) s = .next (s.stepped h hd))
  ∧ (∀ (s : State) (gal : Fin 8) (unit : Fin 3) (u : BarUnit) (t : Task) (k : Ctx),
       let key := 3 * gal.val + unit.val
       s.bar key = u → u.task = some t.id → s.task? t.id = some t → s.ctx? t.id.ctx = some k → k.mirror.mode = .off →
       t.state = .running → (∀ h ∈ t.onHalls, (s.hall h).held = false) →
       u.arrived ≠ [] → (u.arrived.map (·.1)).Nodup → (u.arrived.map fun r => t.granted.getD r.1 0).Nodup →
       (∀ i, i < t.halls → t.retired.getD i false = true ∨ ∃ r ∈ u.arrived, r.1 = i) →
       ∃ t', exec (.gbarGenerationComplete gal unit) s = .next t'
         ∧ (t'.bar key).gen = u.gen + 1 ∧ (t'.bar key).arrived = []
         ∧ ∀ r ∈ u.arrived, let h := t.granted.getD r.1 0
           (t'.hall h).c = (s.hall h).c.setReg (Fin.ofNat 64 r.2.1) ((u.gen + 1).zeroExtend 64)
           ∧ (t'.hall h).wait = .none ∧ (t'.hall h).pc = ((s.hall h).retire ((s.hall h).pc + 8) false false r.2.2).pc)

/-- R272: a prefetch completes whatever its lines are, and changes no register and no scratch word; where every line of
the L1 is clean it changes no memory, and one of scratch has no effect at all. R273: FLUSH makes every line clean and
keeps it; INVAL of everything empties the L1. R258, R266, R269: a dirty line of a plain page leaves the L1 and its dirty
bytes reach memory; a row that no array page holds goes out of use, which the system context is told; a compressed write
that has waited 2^20 ticks ends with its protection unit as before, where nothing else has written the unit since, else
with the bytes of the write as before, and with MEMERR for its hall where that still runs the context, else
for the context's handler; before that it waits. A retired row's live sectors move elsewhere. That the row of no array page
retires alone is the model's reading (log 13), and so are where sectors move (log 47) and the form of the reports (log 66). -/
def Obligations.CachesWriteBack : Prop :=
  (∀ (s : State) (h : Nat) (hd : SHdr) (b c : Reg) (l2 : Bool) (lines : Fin 256), AtWord s h hd [b, c] →
     let x := s.hall h
     let first := (x.c.reg b + x.c.reg c).toNat / 128 * 128
     (0x00FE000000000000 ≤ first → first + 128 * 256 ≤ 0x00FE000100000000 →
       exec (.pfx hd b c l2 lines) s = .next (s.stepped h hd))
     ∧ (∃ t, exec (.pfx hd b c l2 lines) s = .next t ∧ (t.hall h).pc = (Hall.stepped hd x).pc ∧ (t.hall h).c = x.c
         ∧ (t.hall h).a = x.a ∧ (t.hall h).held = x.held ∧ SameScratch s t
         ∧ ((∀ l ∈ x.l1, l.dirty = 0) → SameMemory s t))
     ∧ ((∀ l ∈ x.l1, l.dirty = 0) → exec (.flush hd b c) s = .next (s.stepped h hd)
         ∧ (2 ^ 32 < (x.c.reg c).toNat → exec (.inval hd b c true) s = .next ((s.updHall h fun y => { y with l1 := [] }).stepped h hd)))
     ∧ (2 ^ 32 < (x.c.reg c).toNat →
       (∀ u, writeBackAll s h x.l1 = .ok () u → (u.hall h).pc = x.pc →
         exec (.flush hd b c) s = .next ((u.updHall h fun y => { y with l1 := y.l1.map fun l => { l with dirty := 0 } }).stepped h hd)
         ∧ exec (.inval hd b c true) s = .next ((u.updHall h fun y => { y with l1 := [] }).stepped h hd))
       ∧ exec (.inval hd b c false) s = .next ((s.updHall h fun y => { y with l1 := [] }).stepped h hd))
     ∧ (x.c.reg c = 0 → ∃ t, exec (.flush hd b c) s = .next t ∧ (t.hall h).l1 = x.l1 ∧ SameMemory s t))
  ∧ (∀ (s : State) (h : Nat) (hd : SHdr) (b c : Reg) (l2 : Bool) (lines : Fin 256), s.cur = .seq h → hd.mark = .a →
       ∃ t, exec (.pfx hd b c l2 lines) s = .next t ∧ (t.hall h).pc = (Hall.stepped hd (s.hall h)).pc
         ∧ (t.hall h).c = (s.hall h).c ∧ (t.hall h).a = (s.hall h).a ∧ SameScratch s t)
  ∧ (∀ (s : State) (g : HallId) (line id row : Nat) (l : L1Line) (k : Ctx) (q : Squeezed), s.MemoryForm →
       let h := g.val
       let x := s.hall h
       (l1Find x false line = some l → l.dirty ≠ 0 → l.cp = false → l.ar = false → l.line = line → s.squeezed = [] →
         l2Hit s line l.kd = true → unverified s line = false → (∀ p, mfind s.prot (line / 2) = some p → p.kd = l.kd) →
         s.ctx? (s.ctxOf h) = some k → k.racectl.getLsbD 0 = false →
         ∃ t, exec (.l1WriteBack g line) s = .next t ∧ l1Find (t.hall h) false line = none
           ∧ (∀ i, i < 128 → cget t.mem (128 * line + i) =
               if l.dirty.getLsbD i then lineByte l.data i else cget s.mem (128 * line + i))
           ∧ (∀ i, i < 128 * line ∨ 128 * line + 128 ≤ i → cget t.mem i = cget s.mem i)
           ∧ (t.hall h).c = x.c ∧ (t.hall h).pc = x.pc)
       ∧ (arrayPageOf s (2048 * row) = none → ∃ u, exec (.rowRetire row) s = .next (reportSystem u)
           ∧ u = { s with retired := sins s.retired row, blocks := u.blocks, free := u.free }
           ∧ u.blocks.map (·.1) = s.blocks.map (·.1)
           ∧ ∀ b e, mfind s.blocks b = some e → ∃ sec, mfind u.blocks b = some { e with sec := sec }
             ∧ ((∀ r ∈ u.retired, 4 * r + 4 ≤ e.sec.toNat ∨ e.sec.toNat + e.cls ≤ 4 * r) → sec = e.sec))
       ∧ (s.squeezed = [q] → q.id = id → q.hall = h →
         (s.tick < q.since + 2 ^ 20 → exec (.compressedWriteTimeout id) s = .next s)
         ∧ (q.since + 2 ^ 20 ≤ s.tick → q.seen.length = 256 → q.body.length = 256 →
           let n := q.line / 2
           let off := q.line % 2 * 128
           let hit (i : Nat) : Prop := off ≤ i ∧ i < off + 128 ∧ q.mask.getLsbD (i - off) = true
           let ver : BitVec 32 := if q.kd = 0 then 0
             else match q.unit with | some m => if m.kd = q.kd then m.ver + 1 else 1 | none => 1
           let alone := mfind s.prot n = some ⟨q.kd, false, ver⟩
             ∧ ∀ i, i < 256 → hit i ∨ cget s.mem (256 * n + i) = q.seen.getD i 0
           ∃ t u, exec (.compressedWriteTimeout id) s = .next t ∧ u.squeezed = []
             ∧ (alone → (∀ i, i < 256 → cget u.mem (256 * n + i) = q.body.getD i 0) ∧ (∀ m, q.unit = some m → mfind u.prot n = some m)
               ∧ (∀ m, m ≠ n → mfind u.prot m = mfind s.prot m)
               ∧ ∀ e, q.entry = some e → e.kd = q.kd → e.cls ≠ 0 → mfind u.blocks (n / 16) = some e)
             ∧ (¬ alone → u.prot = s.prot ∧ u.blocks = s.blocks ∧ ∀ i, i < 256 →
                 (hit i → cget u.mem (256 * n + i) = q.seen.getD i 0) ∧ (¬ hit i → cget u.mem (256 * n + i) = cget s.mem (256 * n + i)))
             ∧ (∀ i, i < 256 * n ∨ 256 * n + 256 ≤ i → cget u.mem i = cget s.mem i)
             ∧ (s.ctxOf h = q.ctx → x.bind ≠ none → t = freeze u h 8 7 0 0 0 .memerr (BitVec.ofNat 64 q.va) [])
             ∧ (s.ctxOf h ≠ q.ctx ∨ x.bind = none → t = notifyEvent u q.ctx .memerr (BitVec.ofNat 64 q.va) 0 []))))

/-! ## Launch (spec/02, spec/06) and tokens of the sequencer (spec/08) -/

/-- R153, R155: TRIG sets the instance's trigger bit when its record has ETRIG, once; without ETRIG it only passes.
EXIT of an instance that waits for nothing unbinds its hall, whose registers stand as they were; the task retires with its
last instance. R32, R33: one
step of a successor walk decrements PRED of its entry's record by one; a spawned task whose last predecessor this was
becomes READY. -/
def Obligations.TriggersAndExitComplete : Prop :=
  (∀ (s : State) (h : Nat) (hd : SHdr) (b : Binding) (tk : Task) (k : Ctx), AtWord s h hd [] →
     let x := s.hall h
     x.bind = some b → s.task? b.task = some tk → s.ctx? b.task.ctx = some k → k.mirror.mode = .off → x.posted = [] →
     hostPending s h = false → x.l1 = [] → b.inst < tk.trig.length → b.inst < tk.retired.length →
     (tk.etrig = true → tk.trig.getD b.inst false = false → ∃ t tk', exec (.trig hd) s = .next t
       ∧ t.task? b.task = some tk' ∧ tk'.trig = tk.trig.set b.inst true ∧ (t.hall h).pc = (Hall.stepped hd x).pc
       ∧ (t.hall h).c = x.c ∧ SameMemory s t)
     ∧ (tk.etrig = false ∨ tk.trig.getD b.inst false = true → exec (.trig hd) s = .next (s.stepped h hd))
     ∧ (exitReady s h = true → tk.unit = none → x.feq = [] → x.res = .running → x.merges = [] →
       (tk.retired.set b.inst true).all id = false → ∃ t tk', exec (.exit hd) s = .next t
         ∧ (t.hall h).res = .idle ∧ (t.hall h).bind = none ∧ (t.hall h).lastCtx = b.task.ctx
         ∧ (t.hall h).c = x.c ∧ (t.hall h).a = x.a
         ∧ t.task? b.task = some tk' ∧ tk'.retired = tk.retired.set b.inst true ∧ SameMemory s t)
     ∧ (exitReady s h = true → tk.unit = none → x.feq = [] → x.res = .running → x.merges = [] →
       (tk.retired.set b.inst true).all id = true → ∃ t, exec (.exit hd) s = .next t
         ∧ (t.hall h).res = .idle ∧ (t.hall h).bind = none ∧ (t.hall h).c = x.c ∧ (t.hall h).a = x.a ∧ t.task? b.task = none))
  ∧ (∀ (s : State) (die : Fin 2) (w : Walk) (k : Ctx) (e pa : Nat) (leaf : Word) (tk : Task), s.MemoryForm →
       s.walks = [w] → w.die = die.val → s.ctx? w.task.ctx = some k → k.id = w.task.ctx → k.mirror.mode = .off → w.next < w.nsucc →
       walkEntry s k w = some e → walkTarget s k e = some (pa, leaf) → pteAR leaf = false → s.pmovs = [] →
       (∀ p, mfind s.prot (pa / 256) = some p → p.kd = pteKD leaf) →
       w.firstBad = none → w.firstDrop = none →
       (∀ q ∈ s.tasks, q.id.ctx = k.id → q.id.va % 65536 = e % 65536 → q.id = ⟨k.id, e⟩) →
       let t0 := cval s.mem pa 8
       0 < t0 / 2 ^ 16 % 2 ^ 16 → quotaFree s k (targetDie s k w.die) = true → s.task? ⟨k.id, e⟩ = some tk →
       ∃ u, exec (.triggerWalk die) s = .next u ∧ cval u.mem pa 8 = t0 - 2 ^ 16
         ∧ (∀ a, a < pa ∨ pa + 8 ≤ a → cget u.mem a = cget s.mem a)
         ∧ (w.next + 1 = w.nsucc → u.walks = []) ∧ (w.next + 1 < w.nsucc → u.walks = [{ w with next := w.next + 1 }])
         ∧ (t0 / 2 ^ 16 % 2 ^ 16 = 1 → nbit t0 41 = true → ∃ tk', u.task? ⟨k.id, e⟩ = some tk' ∧ tk'.state = .queued))

/-- R28, R29, R133: SPAWN of a record that passes every check, with room in the Landing: SP is set in T0 and the task
is READY when PRED = 0, else it waits. -/
def Obligations.SpawnCompletes : Prop :=
  ∀ (s : State) (h : Nat) (hd : SHdr) (b : Reg) (xd : Bool) (k : Ctx) (img : LibImage) (leaf : Word) (big : Bool),
    AtWord s h hd [b] → s.MemoryForm →
    let x := s.hall h
    let va := (x.c.reg b).toNat
    let pa := ptePA leaf + va % pageBytes big
    let t0 := cval s.mem pa 8
    let t (i : Nat) := cval s.mem (pa + 8 * i) 8
    va % 64 = 0 → va < 0x00FE000000000000 → translate s h .seq va = .ok (leaf, big) s →
    pteHO leaf = false → pteWR leaf = true → pteLN leaf = false → pteAR leaf = false → l2Hit s (pa / 128) (pteKD leaf) = true →
    devicePage s k va true = some (pa, leaf) → (∀ p, mfind s.prot (pa / 256) = some p → p.kd = pteKD leaf) →
    hostPending s h = false → s.squeezed = [] → s.pmovs = [] → x.l1 = [] → x.posted = [] →
    s.ctx? (s.ctxOf h) = some k → k.id = s.ctxOf h → k.mirror.mode = .off →
    recordFieldsOk t0 (t 1) (t 2) (t 3) = true → (t0Nsucc t0 = 0 ∨ t 1 % 8 = 0) →
    k.library[t0Kidx t0]? = some img → imageAdmits img (t0Halls t0) = true → roomFor s k (t0Halls t0) = true →
    quotaFree s k (targetDie s k (if xd then 1 - dieOf h else dieOf h)) = true →
    s.task? ⟨k.id, va⟩ = none →
    ∃ u tk, exec (.spawn hd b xd) s = .next u ∧ u.task? ⟨k.id, va⟩ = some tk
      ∧ tk.kidx = t0 / 2 ^ 48 % 2 ^ 16 ∧ tk.halls = t0 / 2 ^ 45 % 8 ∧ tk.prio = t0 / 2 ^ 43 % 4
      ∧ (t0 / 2 ^ 16 % 2 ^ 16 = 0 → tk.state = .queued ∧ tk.entry = s.tick ∧ tk.die = targetDie s k (if xd then 1 - dieOf h else dieOf h))
      ∧ (t0 / 2 ^ 16 % 2 ^ 16 ≠ 0 → tk.state = .waiting)
      ∧ cval u.mem pa 8 = t0 + 2 ^ 41
      ∧ (∀ a, a < pa ∨ pa + 8 ≤ a → cget u.mem a = cget s.mem a) ∧ (u.hall h).c = x.c

/-- R149 to R152: CFGLD gives the tag of the configuration the admission yields, or raises the cause of the step that
failed; a first admission stores one new entry within the cache's 2 MiB, under the context's CTAG, the lowest that no other
context holds where it has none yet, and the lowest CVER from 1 that is free for it; CFGREL of an own tag marks its entries released; a foreign tag raises PRIV. -/
def Obligations.ConfigurationWordsComplete : Prop :=
  ∀ (s : State) (h : Nat) (hd : SHdr) (a b : Reg) (k : Ctx), AtWord s h hd [a, b] → s.ctx? (s.ctxOf h) = some k →
    let x := s.hall h
    let v := (x.c.reg b).toNat
    (∀ j ∈ cacheOf s (galleryOf h), (cacheOf s (galleryOf h)).find? (fun i => i.ctx == s.ctxOf h && i.kidx == v && !i.released)
        = some j → v < 2 ^ 16 → ∃ t, exec (.cfgld hd a b) s = .next t ∧ (t.hall h).c = x.c.setReg a (j.tag.zeroExtend 64)
          ∧ (t.hall h).pc = (Hall.stepped hd x).pc ∧ SameMemory s t)
    ∧ (∀ c step, v < 2 ^ 16 → admitKernel s (s.ctxOf h) (galleryOf h) v = .error (c, step) →
        exec (.cfgld hd a b) s = .next (raise s h c (BitVec.ofNat 64 (step + v * 2 ^ 16)) x.pc))
    ∧ (∀ tag u, v < 2 ^ 16 → k.id = s.ctxOf h → (∀ t, mfind k.tags (galleryOf h) = some t → t < 256) →
        admitKernel s (s.ctxOf h) (galleryOf h) v = .ok (tag, u) →
        (cacheOf s (galleryOf h)).find? (fun i => i.ctx == s.ctxOf h && i.kidx == v && !i.released) = none →
        let gal := galleryOf h
        let ct := tag.toNat / 256
        let ver := tag.toNat % 256
        exec (.cfgld hd a b) s = .next (u.steppedWith h hd a (tag.zeroExtend 64))
        ∧ (∃ kept conf, cacheOf u gal = kept ++ [conf] ∧ conf.ctx = s.ctxOf h ∧ conf.kidx = v ∧ conf.tag = tag
            ∧ conf.released = false ∧ (∀ j ∈ kept, j ∈ cacheOf s gal)
            ∧ ((cacheOf u gal).map (·.kernel.size)).foldl (· + ·) 0 ≤ 0x200000
            ∧ 1 ≤ ver ∧ (∀ j ∈ kept, j.tag ≠ tag)
            ∧ ∀ n, 1 ≤ n → n < ver → ∃ j ∈ kept, j.tag.toNat / 256 = ct ∧ j.tag.toNat % 256 = n)
        ∧ (∃ k', u.ctx? (s.ctxOf h) = some k' ∧ mfind k'.tags gal = some ct)
        ∧ (∀ t, mfind k.tags gal = some t → ct = t)
        ∧ (mfind k.tags gal = none → (∀ p ∈ s.ctxs, p.2.id ≠ s.ctxOf h → mfind p.2.tags gal ≠ some ct)
            ∧ ∀ n, n < ct → ∃ p ∈ s.ctxs, p.2.id ≠ s.ctxOf h ∧ mfind p.2.tags gal = some n)
        ∧ SameMemory s u)
    ∧ (v < 2 ^ 19 → s.isSystem (s.ctxOf h) = true ∨ mfind k.tags (v / 2 ^ 16) = some (v / 2 ^ 8 % 2 ^ 8) →
        ∃ t, exec (.cfgrel hd b) s = .next t ∧ (t.hall h).c = x.c ∧ (t.hall h).pc = (Hall.stepped hd x).pc
          ∧ ∀ j ∈ cacheOf t (v / 2 ^ 16), j.tag = BitVec.ofNat 16 v → j.released = true)
    ∧ (s.isSystem (s.ctxOf h) = false → mfind k.tags (v / 2 ^ 16 % 8) ≠ some (v / 2 ^ 8 % 2 ^ 8) →
        exec (.cfgrel hd b) s = .next (raise s h .priv 0 x.pc))

/-- R205 to R208: PUSHT appends one token made of the header and the payload registers; a header R205 refuses raises
STREAM and pushes nothing; POPT takes or reads the head token; CTLT adds or takes one control token. R170: on an output with no route
the token stays there. -/
def Obligations.SequencerTokensComplete : Prop :=
  ∀ (s : State) (h : Nat) (hd : SHdr) (a b c d e : Reg) (ch : Chan) (line : Fin 2), AtWord s h hd [a, b, c, d, e] →
    let x := s.hall h
    let hw := x.c.reg a
    let bits (hi lo : Nat) : Nat := hw.toNat / 2 ^ lo % 2 ^ (hi + 1 - lo)
    let bad : Prop := bits 63 16 ≠ 0 ∨ bits 2 0 ≠ 0 ∨ (bits 11 10 = 3 ∧ 3 < bits 9 7)
      ∨ (bits 15 14 = 2 ∧ (bits 11 10 ≠ 0 ∨ bits 6 5 ≠ 0))
    let n := (bits 9 7 + 1) * 8 * 2 ^ bits 11 10
    let p := x.c.reg e ++ x.c.reg d ++ x.c.reg c ++ x.c.reg b
    (bad → exec (.pusht hd a b c d e ch) s = .next (raise s h .stream 0 x.pc))
    ∧ (¬ bad → x.posted = [] → lget x.seqOuts ch.val = [] → x.seqOuts.length = 4 →
        ∃ t tok, exec (.pusht hd a b c d e ch) s = .next t ∧ OnlyHall h s t ∧ lget (t.hall h).seqOuts ch.val = [tok]
          ∧ tok.hdr = hw.truncate 16 ∧ (∀ i, i < 256 → tok.pay.getLsbD i = (decide (i < n) && p.getLsbD i))
          ∧ tok.lens = false ∧ (∀ bd, x.bind = some bd → tok.tag = bd.tag) ∧ (t.hall h).c = x.c)
    ∧ (∀ tok rest kp, lget x.seqIns ch.val = tok :: rest → x.seqIns.length = 4 →
        ∃ t, exec (.popt hd a b c d e ch kp) s = .next t
          ∧ lget (t.hall h).seqIns ch.val = (if kp then tok :: rest else rest)
          ∧ (t.hall h).c = ((((x.c.setReg a (tok.hdr.zeroExtend 64)).setReg b (tok.pay.extractLsb' 0 64)).setReg c
              (tok.pay.extractLsb' 64 64)).setReg d (tok.pay.extractLsb' 128 64)).setReg e (tok.pay.extractLsb' 192 64)
          ∧ (t.hall h).pc = (Hall.stepped hd x).pc)
    ∧ (∀ px py l, x.posted = [] → x.ctlDests 8 7 line.val = [(px, py, l)] → nodeAt px py ≠ .ce →
        l < (x.ctlAt px py).length → x.ctlCount px py l ≤ 14 → x.ctlGate 8 7 line.val = none → x.ctlHeld 8 7 line.val = 0 →
        ∃ t, exec (.ctltSend hd line) s = .next t ∧ OnlyHall h s t ∧ (t.hall h).ctlCount px py l = x.ctlCount px py l + 1)
    ∧ (x.posted = [] → x.ctlDests 8 7 line.val = [] → x.ctlHeld 8 7 line.val = 0 →
        ∃ t, exec (.ctltSend hd line) s = .next t ∧ OnlyHall h s t ∧ (t.hall h).ctlHeld 8 7 line.val = 1)
    ∧ (0 < x.ctlCount 8 7 line.val →
        ∃ t, exec (.ctltConsume hd line) s = .next t ∧ (t.hall h).ctlCount 8 7 line.val = x.ctlCount 8 7 line.val - 1
          ∧ (t.hall h).pc = (Hall.stepped hd x).pc)

/-! ## Copies, arrays, migration (spec/10, spec/11) -/

/-- R278, R280 to R284, R291, R292: a copy whose checks hold is accepted: the engine holds it with no byte moved, its
token register is pending, and nothing has been copied yet. A length of 2^32 or more raises ACCESS. R291, R293: what
each query of the engine and of the group table answers, and what it changes. That CPYQ.count excludes itself is the
model's reading (log 25). -/
def Obligations.CopiesAreAcceptedAndQueried : Prop :=
  (∀ (s : State) (h : Nat) (hd : SHdr) (a b c d : Reg) (grp : Fin 64) (tk : Task), AtWord s h hd [a, b, c, d] →
     inFlight s h < 512 → (s.hall h).posted = [] →
     let x := s.hall h
     let dst := (x.c.reg b).toNat
     let src := (x.c.reg c).toNat
     let len := (x.c.reg d).toNat
     let td := tensorOf s (s.ctxOf h) dst
     let ts := tensorOf s (s.ctxOf h) src
     let grpMembers := members tk (mcGroup s tk.id grp.val)
     let accepted (i : Instr) (kind : CopyKind) (src dst len : Nat) : Prop := ∃ t j, exec i s = .next t
       ∧ (t.hall h).copies = x.copies ++ [j] ∧ j.kind = kind ∧ j.reg = a.val ∧ j.chain = none ∧ j.src = src ∧ j.dst = dst
       ∧ j.len = len ∧ j.ch = hd.ch ∧ j.done = 0 ∧ j.parked = false ∧ (t.hall h).c = x.c
       ∧ (a ≠ 0 → (t.hall h).pend.getLsbD a.val = true) ∧ (t.hall h).pc = (Hall.stepped hd x).pc
       ∧ SameMemory s t ∧ SameScratch s t
     (len = 0 ∨ copyCheck (refillRanges s h .seq [dst, src] len) h .seq src (some dst) len = none →
       accepted (.cpy hd a b c d) .bytes src dst len)
     ∧ (∀ f, len ≠ 0 → copyCheck (refillRanges s h .seq [dst, src] len) h .seq src (some dst) len = some f →
       exec (.cpy hd a b c d) s = .next (raise (refillRanges s h .seq [dst, src] len) h f.1 f.2 x.pc))
     ∧ (2 ^ 32 ≤ len → exec (.cpy hd a b c d) s = .next (raise s h .access 0 x.pc))
     ∧ (dst < 256 → src < 256 → td.valid = true → ts.valid = true → td.fmt = ts.fmt → td.sfmt = 0 → ts.sfmt = 0 →
       td.dims = ts.dims → td.w2 = ts.w2 → td.lens = false → ts.lens = false →
       tensorCheck (refill s h .seq ((ts.allBytes ++ td.allBytes).map (fun v => v / 65536 * 65536)).dedup) h ts td dst = none →
       accepted (.cpyT hd a b c) (.tensor ts td) ts.base td.base ts.count)
     ∧ (256 ≤ dst ∨ 256 ≤ src ∨ td.valid = false ∨ ts.valid = false →
       exec (.cpyT hd a b c) s = .next (raise s h .access 0 x.pc))
     ∧ (hallTask s h = some tk → (mcGroup s tk.id grp.val).quiesced = false →
       (len = 0 ∨ multiCheck (refillRanges s h .seq [src] len) h .seq tk grpMembers src dst len = none) →
       accepted (.cpym hd a b c d grp) (.multicast grp.val grpMembers) src dst (if grpMembers = [] then 0 else len)))
  ∧ (∀ (s : State) (h : Nat) (hd : SHdr) (a b : Reg) (ch : Fin 8) (tk : Task), AtWord s h hd [a, b] → inFlight s h < 512 →
       (s.hall h).posted = [] → hallTask s h = some tk →
       let x := s.hall h
       let v := (x.c.reg b).toNat
       let grp := v % 64
       let m := mcGroup s tk.id grp
       let gives (i : Instr) (w : Word) (post : State → Prop) : Prop := ∃ t, exec i s = .next t ∧ (t.hall h).c = x.c.setReg a w
         ∧ (t.hall h).pc = (Hall.stepped hd x).pc ∧ SameMemory s t ∧ SameScratch s t ∧ post t
       let table (n : McGroup) (t : State) : Prop := mcGroup t tk.id grp = n
         ∧ ∀ t' e, t' ≠ tk.id ∨ e ≠ grp → mcGroup t t' e = mcGroup s t' e
       gives (.cpyqCount hd a) (BitVec.ofNat 64 (inFlight s h)) (fun t => t.groups = s.groups)
       ∧ gives (.cpyqChain hd a ch) (BitVec.ofNat 64 ((if (x.chain ch.val).active then 2 ^ 63 else 0) + (x.chain ch.val).ptr % 2 ^ 56))
           (fun t => t.groups = s.groups)
       ∧ (v < 2 ^ 14 → v / 64 % 4 = 0 →
         (groupJobs s tk grp = [] → gives (.cpyqGq hd a b) 0 (table { m with quiesced := true }))
         ∧ (groupJobs s tk grp ≠ [] → ∃ t j, exec (.cpyqGq hd a b) s = .next t ∧ (t.hall h).copies = x.copies ++ [j]
             ∧ j.kind = .quiesce grp (groupJobs s tk grp) ∧ j.reg = a.val ∧ table { m with quiesced := true } t
             ∧ (t.hall h).c = x.c ∧ (a ≠ 0 → (t.hall h).pend.getLsbD a.val = true))
         ∧ (m.quiesced = true → gives (.cpyqGset hd a b) 0 (table ⟨BitVec.ofNat 6 (v / 256), true⟩))
         ∧ (m.quiesced = false → gives (.cpyqGset hd a b) 1 (table m))
         ∧ gives (.cpyqGres hd a b) 0 (table { m with quiesced := false }))
       ∧ (2 ^ 14 ≤ v ∨ v / 64 % 4 ≠ 0 → ∀ i, i = .cpyqGq hd a b ∨ i = .cpyqGset hd a b ∨ i = .cpyqGres hd a b →
           exec i s = .next (raise s h .access 0 x.pc)))

/-- R282, R286: a copy between two ranges of the hall's own scratch moves its next destination line whole, in the order
R282 gives: the line's bytes are the source's before the step, every scratch word they touch becomes full, and no other
byte changes, where no full/empty request waits at its words (R357). A line that faults freezes the hall, and the copy
parks with its counter. R278, R279, R293: the
completion write of a finished copy whose data has left (R285): the token register takes DONE with the length, the register is no longer pending,
and the copy leaves the engine. A group's quiesce ends with 0 once none of its copies is left. -/
def Obligations.CopiesMoveAndComplete : Prop :=
  (∀ (s : State) (g : HallId) (id : Nat) (j : CopyJob), s.MemoryForm →
     let h := g.val
     let x := s.hall h
     x.copy? id = some j → j.done < j.len → j.parked = false → x.res = .running → x.held = false → x.hold = false →
     (∀ (o p : Nat) (k : Ctx), OpenScratch s h k →
       portBusy s h (p + (j.chunk h [j.dst]).1) (j.chunk h [j.dst]).2 = false → j.kind = .bytes → j.src = 0x00FE000000000000 + o →
       j.dst = 0x00FE000000000000 + p → o + j.len ≤ x.size → p + j.len ≤ x.size → s.pmovs = [] →
       (∀ tk ∈ s.tasks, 0x00FE000100000000 ≤ tk.id.va ∨ tk.id.va + 8 ≤ 0x00FE000000000000) →
       let at_ := (j.chunk h [j.dst]).1
       let n := (j.chunk h [j.dst]).2
       (p ≤ o ∨ o + j.len ≤ p → at_ = j.done ∧ n = min (j.len - j.done) (128 - (p + j.done) % 128))
       ∧ (o < p → p < o + j.len → at_ + n = j.len - j.done)
       ∧ ∃ t, exec (.scratchLineFill g id) s = .next t
         ∧ (t.hall h).copies = x.copies.map (fun q => if q.id = id then { j with done := j.done + n } else q)
         ∧ (∀ i, i < n → cget (t.hall h).scratch (p + at_ + i) = cget x.scratch (o + at_ + i))
         ∧ (∀ i, i < p + at_ ∨ p + at_ + n ≤ i → cget (t.hall h).scratch i = cget x.scratch i)
         ∧ (∀ w, w ∈ (t.hall h).full ↔ w ∈ x.full ∨ (p + at_ < 4 * w + 4 ∧ 4 * w < p + at_ + n))
         ∧ (t.hall h).c = x.c ∧ (t.hall h).pc = x.pc ∧ (t.hall h).pend = x.pend ∧ SameMemory s t)
     ∧ (∀ (c : Cause) (i : Word) (u : State) (b : Binding) (k : Ctx) (tk : Task), copyLine s h j = .trap c i u →
       x.bind = some b → s.ctx? b.task.ctx = some k → s.task? b.task = some tk → c ≠ .integ →
       (1 ≤ c.code → c.code ≤ 0x10 → k.fpol.getLsbD c.code = false) →
       ∃ t, exec (.copyFaultPark g id) s = .next t ∧ (t.hall h).held = true ∧ (t.hall h).c = x.c ∧ (t.hall h).pend = x.pend
         ∧ (t.hall h).pc = x.pc ∧ (t.hall h).copies = x.copies.map (fun q => if q.id = id then { j with parked := true } else q)))
  ∧ (∀ (s : State) (g : HallId) (id : Nat) (j : CopyJob),
       let h := g.val
       let x := s.hall h
       let r : Reg := Fin.ofNat 64 j.reg
       x.copy? id = some j → j.parked = false → j.len ≤ j.done → j.chain = none → x.res = .running → x.held = false →
       x.hold = false → (∀ e ∈ s.egress, e.job ≠ some j.id) →
       let done (v : Word) : Prop := ∃ t, exec (.copyComplete g id) s = .next t ∧ OnlyHall h s t
         ∧ (t.hall h).c = x.c.setReg r v ∧ (t.hall h).copies = x.copies.filter (fun q => q.id ≠ id)
         ∧ (r ≠ 0 → (t.hall h).pend.getLsbD r.val = false) ∧ (t.hall h).pc = x.pc ∧ (t.hall h).scratch = x.scratch
         ∧ (t.hall h).full = x.full
       ((∀ grp js, j.kind ≠ .quiesce grp js) → done (BitVec.ofNat 64 (j.len % 2 ^ 32)))
       ∧ (∀ grp js, j.kind = .quiesce grp js → (∀ p ∈ s.halls, ∀ q ∈ p.2.copies, q.id ∉ js) → done 0))

/-- R289, R290: CPYC starts an idle channel at an aligned head, answers BUSY on a running one and DONE where the kept
pointer is 0; a channel that reads a record it does not own ends with IDLE, one that reads a malformed record with
FORM; a record of length 0 is begun at once; the end of a record writes its status, clears OWN and goes on to NEXT or
ends. The records lie in the hall's own scratch. -/
def Obligations.ChainsFollowTheirRecords : Prop :=
  ∀ (s : State) (g : HallId) (hd : SHdr) (a b : Reg) (ch : Fin 8) (o : Nat) (k : Ctx), s.MemoryForm →
    let h := g.val
    let x := s.hall h
    let cc := x.chain ch.val
    let head := (x.c.reg b).toNat
    (AtWord s h hd [a, b] → inFlight s h < 512 → x.posted = [] →
      (cc.active = true → ∃ t, exec (.cpyc hd a b ch) s = .next t ∧ (t.hall h).c = x.c.setReg a (0x0100000000000000)
        ∧ (t.hall h).chains = x.chains ∧ (t.hall h).pc = (Hall.stepped hd x).pc)
      ∧ (cc.active = false → head % 64 ≠ 0 → exec (.cpyc hd a b ch) s = .next (raise s h .align (x.c.reg b) x.pc))
      ∧ (cc.active = false → head = 0 → cc.ptr = 0 → ∃ t, exec (.cpyc hd a b ch) s = .next t ∧ (t.hall h).c = x.c.setReg a 0
        ∧ (t.hall h).pc = (Hall.stepped hd x).pc)
      ∧ (cc.active = false → head % 64 = 0 → (head ≠ 0 ∨ cc.ptr ≠ 0) → ∃ t, exec (.cpyc hd a b ch) s = .next t
        ∧ (t.hall h).c = x.c ∧ (a ≠ 0 → (t.hall h).pend.getLsbD a.val = true)
        ∧ (t.hall h).chain ch.val = ⟨true, if head = 0 then cc.ptr else head, a.val, 0, 0, 0, none, []⟩
        ∧ (t.hall h).pc = (Hall.stepped hd x).pc))
    ∧ (OpenScratch s h k → k.id = s.ctxOf h → x.res = .running → x.held = false → x.hold = false → cc.active = true → cc.job = none → cc.got = [] →
      cc.ptr = 0x00FE000000000000 + o → o % 64 = 0 → o + 64 ≤ x.size →
      let q (i : Nat) := leNat ((List.range 8).map fun n => cget x.scratch (o + 8 * i + n))
      let ends (cause : Nat) : Prop := ∃ t, exec (.chainRecord g ch) s = .next t ∧ SameMemory s t ∧ SameScratch s t
        ∧ (t.hall h).c = x.c.setReg (Fin.ofNat 64 cc.reg) (BitVec.ofNat 64 (cause * 2 ^ 56 + cc.count % 2 ^ 32))
        ∧ ((t.hall h).chain ch.val).active = false ∧ ((t.hall h).chain ch.val).ptr = cc.ptr
      (q 0 < 2 ^ 63 → ends 3)
      ∧ (2 ^ 63 ≤ q 0 → (q 0 / 2 ^ 56 % 2 ^ 6 ≠ 0 ∨ q 0 % 64 ≠ 0 ∨ 2 ^ 56 ≤ q 1 ∨ 2 ^ 56 ≤ q 2 ∨ 2 ^ 38 ≤ q 3
          ∨ (q 0 / 2 ^ 62 % 2 = 0 ∧ 2 ^ 32 ≤ q 3)) → ends 2)
      ∧ (q 0 / 2 ^ 56 = 0x80 → q 0 % 64 = 0 → q 1 < 2 ^ 56 → q 2 < 2 ^ 56 → q 3 = 0 →
        ∃ t j, exec (.chainRecord g ch) s = .next t ∧ (t.hall h).copies = x.copies ++ [j] ∧ j.kind = .bytes ∧ j.src = q 1
          ∧ j.dst = q 2 ∧ j.len = 0 ∧ j.chain = some ch.val ∧ ((t.hall h).chain ch.val).job = some j.id
          ∧ ((t.hall h).chain ch.val).next = q 0 % 2 ^ 56 ∧ SameMemory s t ∧ SameScratch s t))
    ∧ (OpenScratch s h k → k.id = s.ctxOf h → x.res = .running → x.held = false → x.hold = false → cc.active = true →
      cc.ptr = 0x00FE000000000000 + o → o % 64 = 0 → o + 64 ≤ x.size → x.l1 = [] → portBusy s h (o + 32) 8 = false →
      portBusy s h (o + 7) 1 = false → hostPending s h = false → (∀ tk ∈ s.tasks, 0x00FE000100000000 ≤ tk.id.va ∨ tk.id.va + 8 ≤ 0x00FE000000000000) →
      ∀ j id, x.copy? id = some j → j.parked = false → j.len ≤ j.done → j.kind = .bytes → j.chain = some ch.val →
      (∀ e ∈ s.egress, e.job ≠ some j.id) → ∃ t, exec (.copyComplete g id) s = .next t
        ∧ (∀ i, i < 8 → cget (t.hall h).scratch (o + 32 + i) = BitVec.ofNat 8 (j.len % 2 ^ 32 / 256 ^ i))
        ∧ cget (t.hall h).scratch (o + 7) = BitVec.ofNat 8 (cc.top % 128)
        ∧ (∀ i, i ≠ o + 7 → (i < o + 32 ∨ o + 40 ≤ i) → cget (t.hall h).scratch i = cget x.scratch i)
        ∧ (cc.next ≠ 0 → (t.hall h).chain ch.val = { cc with ptr := cc.next, count := cc.count + 1, job := none }
          ∧ (t.hall h).c = x.c)
        ∧ (cc.next = 0 → ((t.hall h).chain ch.val).active = false ∧ ((t.hall h).chain ch.val).ptr = 0
          ∧ (t.hall h).c = x.c.setReg (Fin.ofNat 64 cc.reg) (BitVec.ofNat 64 ((cc.count + 1) % 2 ^ 32))))

/-- R277, R297, R298: an array instruction whose checks hold is accepted with its token pending and nothing moved, its
source rows taken as they stand (R302); the checks use the sequencer's translations (R257), and the
first check that fails is raised. R299, R300: the rejected shapes write nothing and say why; an operation on one row
unit of pages that are no array pages, over no T0 of a spawned task (R29) and with race detection off, takes the fallback
path with reason 001, and its row holds the operation's result byte by byte. -/
def Obligations.ArrayOperationsComplete : Prop :=
  (∀ (s : State) (h : Nat) (hd : SHdr) (a b c d e : Reg) (k : Ctx), AtWord s h hd [a, b, c, d, e] → inFlight s h < 512 →
     (s.hall h).posted = [] → s.ctx? (s.ctxOf h) = some k →
     let x := s.hall h
     let dst := (x.c.reg b).toNat
     let n := (x.c.reg c).toNat
     let goes (i : Instr) (op : ArrOp) (srcs : List Nat) (pat : Word) : Prop :=
       let u : State := if n ≤ 1024 ∧ ∀ v ∈ dst :: srcs, v % 2048 = 0 ∧ v + operandBytes v n ≤ 0x00FE000000000000
         then refill s h .seq ((dst :: srcs).flatMap fun v => pagesOf v (operandBytes v n)) else s
       (arrayCheck u h k op dst n srcs = none →
         (k.racectl.getLsbD 0 = true → arrayRejects n (dst :: srcs) = false → ∃ r, rowRaces h false n srcs u = .ok () r) → ∃ t j, exec i s = .next t ∧ t.arrays = s.arrays ++ [j] ∧ j.op = op
         ∧ j.hall = h ∧ j.reg = a.val ∧ j.ctx = k.id ∧ j.dst = dst ∧ j.n = n ∧ j.srcs = srcs ∧ j.pat = pat
         ∧ (arrayRejects n (dst :: srcs) = false →
             j.rows = srcs.map fun v => (List.range n).map fun i => srcRow u h (v + 2048 * i))
         ∧ (t.hall h).c = x.c ∧ (a ≠ 0 → (t.hall h).pend.getLsbD a.val = true) ∧ (t.hall h).pc = (Hall.stepped hd x).pc
         ∧ SameMemory s t ∧ SameScratch s t)
       ∧ (∀ f, arrayCheck u h k op dst n srcs = some f → exec i s = .next (raise u h f.1 f.2 x.pc))
       ∧ (dst % 2048 ≠ 0 → exec i s = .next (raise s h .align (x.c.reg b) x.pc))
     let src (r : Reg) : Nat := (x.c.reg r).toNat
     goes (.acpy hd a b c d) .acpy [src d] 0 ∧ goes (.afill hd a b c d) .afill [] (x.c.reg d)
     ∧ goes (.aand hd a b c d e) .aand [src d, src e] 0 ∧ goes (.aor hd a b c d e) .aor [src d, src e] 0
     ∧ goes (.axor hd a b c d e) .axor [src d, src e] 0 ∧ goes (.anot hd a b c d) .anot [src d] 0)
  ∧ (∀ (s : State) (g : HallId) (id : Nat) (j : ArrayJob) (k : Ctx), s.MemoryForm →
       let h := g.val
       let x := s.hall h
       s.arrays.find? (fun q => q.id == id && q.hall == h) = some j → s.ctx? j.ctx = some k → s.retiring = [] →
       let r : Reg := Fin.ofNat 64 j.reg
       let finished (t : State) (v : Word) : Prop := exec (.arrayOpComplete g id) s = .next t ∧ (t.hall h).c = x.c.setReg r v
         ∧ t.arrays = s.arrays.filter (fun q => q.id ≠ id) ∧ (r ≠ 0 → (t.hall h).pend.getLsbD r.val = false)
         ∧ (t.hall h).pc = x.pc ∧ SameScratch s t
       let vas := j.dst :: j.srcs
       let passes : Prop := ∃ v ∈ vas, 0x200000 < v % 0x200000 + 2048 * j.n
       let overlaps : Prop := anyPair (partOverlap j.n) vas = true
       (passes → ∃ t, finished t 0x0102000000000000 ∧ SameMemory s t)
       ∧ (¬ passes → overlaps → ∃ t, finished t 0x0202000000000000 ∧ SameMemory s t)
       ∧ (¬ passes → ¬ overlaps → j.n = 0 → ∃ t, finished t 0x0002000000000000 ∧ SameMemory s t)
       ∧ (∀ (pa : Nat) (leaf : Word) (q0 q1 : SrcRow), ¬ passes → ¬ overlaps → j.n = 1 → s.pmovs = [] →
         s.ctxOf h = j.ctx → k.racectl.getLsbD 0 = false → j.dst % 2048 = 0 → rowsOwned s h j.ctx j.dst 1 = false →
         rowPA s h j.dst = some (pa, leaf) → pteAR leaf = false →
         (j.op = .afill → j.pat = 0 → allCompressed s h j.dst j.n = false) →
         j.rows = (match j.op with | .afill => [] | .acpy | .anot => [[q0]] | _ => [[q0], [q1]]) →
         (∀ r ∈ j.rows.flatten, r.live = true ∧ r.fault = none) → q0.data.length = 2048 → q1.data.length = 2048 →
         let r0 := q0.data
         let r1 := q1.data
         ∃ t, finished t 0x0001100000000001
           ∧ (∀ i, i < 2048 → cget t.mem (pa + i) = match j.op with
               | .acpy => r0.getD i 0 | .anot => ~~~ r0.getD i 0 | .aand => r0.getD i 0 &&& r1.getD i 0
               | .aor => r0.getD i 0 ||| r1.getD i 0 | .axor => r0.getD i 0 ^^^ r1.getD i 0
               | .afill => j.pat.extractLsb' (8 * (i % 8)) 8)
           ∧ ∀ i, i < pa ∨ pa + 2048 ≤ i → cget t.mem i = cget s.mem i))

/-- R305, R306: TDEF of an entry that passes its checks writes it whole; TDROP makes it zero; a number above 255 raises
ACCESS, an entry that fails a check raises CFG. No other entry changes. -/
def Obligations.TensorTableWrites : Prop :=
  ∀ (s : State) (h : Nat) (hd : SHdr) (a b c d e : Reg) (k : Ctx), AtWord s h hd [a, b, c, d, e] →
    s.ctx? (s.ctxOf h) = some k → k.id = s.ctxOf h →
    let x := s.hall h
    let n := (x.c.reg a).toNat
    let ent : Tensor := ⟨x.c.reg b, x.c.reg c, x.c.reg d, x.c.reg e⟩
    let writes (i : Instr) (w : Tensor) : Prop := ∃ t, exec i s = .next t ∧ tensorOf t (s.ctxOf h) n = w
      ∧ (∀ m, m ≠ n → tensorOf t (s.ctxOf h) m = tensorOf s (s.ctxOf h) m) ∧ (t.hall h).c = x.c
      ∧ (t.hall h).pc = (Hall.stepped hd x).pc ∧ SameMemory s t ∧ SameScratch s t
    (n < 256 → ent.defOk = true → writes (.tdef hd a b c d e) ent) ∧ (n < 256 → writes (.tdrop hd a) Tensor.zero)
    ∧ (256 ≤ n → exec (.tdef hd a b c d e) s = .next (raise s h .access 0 x.pc)
        ∧ exec (.tdrop hd a) s = .next (raise s h .access 0 x.pc))
    ∧ (n < 256 → ent.defOk = false → ∃ i, exec (.tdef hd a b c d e) s = .next (raise { s with free := s.free + 1 } h .cfg i x.pc))

/-- R274: PMOV outside the system context raises PRIV, and of a range that is not aligned ALIGN; its early answers for
a range with no page, with a page that may not move, and with nothing to move; else it is accepted with its token
pending (or answers that no space was found, which the spec leaves to the manager). R270, R274: a pass that met writes
is followed by a further one, and after the third the page is abandoned; a pass without writes switches the page: its
bytes stand in the new frame, every leaf entry that named the source names the new frame at the same offset, no hall keeps
a cached translation of the source (R257), every other byte of memory outside those entries stays, the page counts as
moved, and the last page's end writes the status. Which frame is free is the manager's choice, and so is that the freed
source frame reads as zero (log 13). -/
def Obligations.MigrationsComplete : Prop :=
  (∀ (s : State) (h : Nat) (hd : SHdr) (a b : Reg) (far : Bool) (k : Ctx), AtWord s h hd [a, b] →
     s.ctx? (s.ctxOf h) = some k →
     let x := s.hall h
     let va := (x.c.reg b).toNat
     let all := rangePages s k va
     let todo := (all.map (·.1)).filter (fun p => !inTier far p.src)
     let answers (t : State) (cause : Nat) : Prop := exec (.pmov hd a b far) s = .next t
       ∧ (t.hall h).c = x.c.setReg a (BitVec.ofNat 64 (cause * 2 ^ 56)) ∧ t.pmovs = s.pmovs
       ∧ (t.hall h).pc = (Hall.stepped hd x).pc ∧ SameMemory s t
     let movable : Prop := ∀ p ∈ all, pteLN p.2 = false ∧ pteAR p.2 = false ∧ pteHO p.2 = false
     (s.isSystem (s.ctxOf h) = false → exec (.pmov hd a b far) s = .next (raise s h .priv 0 x.pc))
     ∧ (s.isSystem (s.ctxOf h) = true → va % 0x200000 ≠ 0 →
         exec (.pmov hd a b far) s = .next (raise s h .align (x.c.reg b) x.pc))
     ∧ (s.isSystem (s.ctxOf h) = true → va % 0x200000 = 0 → s.pmovs = [] →
       (all = [] → ∃ t, answers t 5)
       ∧ (all ≠ [] → ¬ movable → ∃ t, answers t 3)
       ∧ (all ≠ [] → movable → todo = [] → ∃ t, answers t 2)
       ∧ (movable → todo ≠ [] → s.arrays = [] → (∃ t, answers t 4) ∨ ∃ t j, exec (.pmov hd a b far) s = .next t
           ∧ t.pmovs = [j] ∧ j.hall = h ∧ j.reg = a.val ∧ j.va = va ∧ j.pages.map (·.src) = todo.map (·.src)
           ∧ j.dirty = 0 ∧ j.pass = 0 ∧ j.moved = 0 ∧ j.lost = 0 ∧ (t.hall h).c = x.c
           ∧ (a ≠ 0 → (t.hall h).pend.getLsbD a.val = true) ∧ (t.hall h).pc = (Hall.stepped hd x).pc ∧ SameMemory s t)))
  ∧ (∀ (s : State) (g : HallId) (id : Nat) (j : PmovJob) (p : PmovPage) (rest : List PmovPage), s.MemoryForm →
       s.pmovs = [j] → j.id = id → j.hall = g.val → j.pages = p :: rest →
       let h := g.val
       let x := s.hall h
       let n := if p.big then 0x200000 else 0x10000
       let r : Reg := Fin.ofNat 64 j.reg
       let status (moved : Nat) (lost : BitVec 32) : Word :=
         if lost = 0 then BitVec.ofNat 64 (moved % 2 ^ 32) else BitVec.ofNat 64 (2 ^ 56 + lost.toNat)
       (j.dirty ≠ 0 → j.pass < 2 →
         exec (.pmovComplete g id) s = .next { s with pmovs := [{ j with dirty := 0, pass := j.pass + 1 }] })
       ∧ (j.dirty ≠ 0 → 2 ≤ j.pass → ∃ t, exec (.pmovComplete g id) s = .next t ∧ SameMemory s t
         ∧ (rest ≠ [] → t.pmovs = [{ j with pages := rest, dirty := 0, pass := 0, lost := j.lost ||| unitMask j p }])
         ∧ (rest = [] → t.pmovs = [] ∧ (t.hall h).c = x.c.setReg r (status j.moved (j.lost ||| unitMask j p))))
       ∧ (j.dirty = 0 → (∀ q ∈ s.halls, q.2.l1 = []) → (p.src + n ≤ p.dst ∨ p.dst + n ≤ p.src) →
         (∀ q ∈ s.ctxs, ∀ e ∈ leafEntries s q.2, (e + 8 ≤ p.src ∨ p.src + n ≤ e) ∧ (e + 8 ≤ p.dst ∨ p.dst + n ≤ e)) →
         (∀ i, i < n → cget s.mem (p.dst + i) = 0) → p.src % 65536 = 0 → p.dst % 65536 = 0 → p.dst + n ≤ 2 ^ 48 →
         let named (e : Nat) : Prop := (∃ q ∈ s.ctxs, e ∈ leafEntries s q.2) ∧ pteHO (entryAt s e) = false
           ∧ p.src ≤ ptePA (entryAt s e) ∧ ptePA (entryAt s e) < p.src + n
         ∃ t, exec (.pmovComplete g id) s = .next t
           ∧ (∀ i, i < n → cget t.mem (p.dst + i) = cget s.mem (p.src + i) ∧ cget t.mem (p.src + i) = 0)
           ∧ (∀ e, named e → ptePA (entryAt t e) = p.dst + (ptePA (entryAt s e) - p.src))
           ∧ (∀ f e, e ∈ (t.hall f).tlb → pteHO e.leaf = true ∨ ptePA e.leaf + pageBytes e.big ≤ p.src
               ∨ p.src + n ≤ ptePA e.leaf)
           ∧ (∀ a, (a < p.src ∨ p.src + n ≤ a) → (a < p.dst ∨ p.dst + n ≤ a) → (∀ e, named e → a < e ∨ e + 8 ≤ a) →
               cget t.mem a = cget s.mem a)
           ∧ (rest ≠ [] → t.pmovs = [{ j with pages := rest, dirty := 0, pass := 0, moved := j.moved + 1 }])
           ∧ (rest = [] → t.pmovs = [] ∧ (t.hall h).c = x.c.setReg r (status (j.moved + 1) j.lost))))

/-! ## Matrix nodes (spec/12) -/

/-- R309, R310, R313: a matrix word that passes the checks of R310 leaves `i0`, is counted, and becomes the word under
way with the entries it names read once; a word that fails one freezes the hall, and the node keeps what it holds.
R316, R317, R318, R319, R321: the other turns of a word under way. MXZ clears its tile, or all 16; MXLD of a full latch
of INT32 elements makes an INT tile of them; MXRD and MXEPI push the next eight results of an INT tile as INT32,
saturated; MXEPI clears the tile after its last; a row index of 0xFFFFFFFF gathers a row of zeros; a word whose effects
are done ends, the next accepted one takes its place, and with CT one control token leaves on `co0`. R322: MXRD is accepted
beside a product or load under way, and its results leave before that ends. -/
def Obligations.MatrixWordsComplete : Prop :=
  (∀ (s : State) (h m : Nat) (acc : Fin 16) (accum tr al bl ta all ct : Bool) (ida idb idc ks epi : BitVec 8),
     s.cur = .mx h m → ((s.hall h).node m).busy = none →
     let x := s.hall h
     let n := x.node m
     let ent (i : Nat) := tensorOf s (s.ctxOf h) i
     let goes (i : Instr) (ea eb ec : Nat) : Prop :=
       (mxCheck s h m i (ent ea) (ent eb) (ent ec) = none → ∃ t b, exec i s = .next t ∧ OnlyHall h s t
         ∧ (t.hall h).node m = { n with ins := n.ins.set 0 ((lget n.ins 0).drop 1)
                                        delivered := n.delivered.set 0 (lget n.delivered 0 + 1)
                                        accepted := n.accepted + 1, busy := some b }
         ∧ b.word = i ∧ b.index = n.accepted ∧ b.entA = ent ea ∧ b.entB = ent eb ∧ b.entC = ent ec ∧ b.step = 0
         ∧ b.count = 0 ∧ b.idx = [])
       ∧ (∀ (c : Cause) (bd : Binding) (k : Ctx) (tk : Task), mxCheck s h m i (ent ea) (ent eb) (ent ec) = some c →
         x.bind = some bd → s.ctx? bd.task.ctx = some k → s.task? bd.task = some tk → c ≠ .integ →
         k.fpol.getLsbD c.code = false →
         ∃ t, exec i s = .next t ∧ (t.hall h).held = true ∧ (t.hall h).node m = n)
     goes (.mma acc accum tr al bl ida idb ks ta ct) ida.toNat idb.toNat 0
     ∧ goes (.mmag acc accum tr bl ida idb ks ct) ida.toNat idb.toNat 0
     ∧ goes (.mxz acc all ct) 0 0 0 ∧ goes (.mxrd acc idc epi ct) 0 0 idc.toNat
     ∧ goes (.mxld acc idc ct) 0 0 idc.toNat ∧ goes (.mxepi acc idc epi ct) 0 0 idc.toNat)
  ∧ (∀ (s : State) (h m : Nat) (acc : Fin 16) (accum tr al bl ta all ct : Bool) (ida idb idc ks : BitVec 8) (b : MxBusy),
       s.cur = .mx h m → m < 3 →
       let x := s.hall h
       let n := x.node m
       n.busy = some b → n.tiles.length = 16 → n.outs.length = 4 → (ct = false ∨ x.ctlRoom 8 (2 * m) 0 = true) →
       let ends (i : Instr) : Prop := ∃ t, exec i s = .next t ∧ OnlyHall h s t ∧ ((t.hall h).node m).busy = n.ahead.head?
         ∧ ((t.hall h).node m).tiles = n.tiles ∧ ((t.hall h).node m).outs = n.outs
         ∧ (ct = false → t.hall h = x.setNode m { n with busy := n.ahead.head?, ahead := n.ahead.drop 1 })
         ∧ (ct = true → ∀ px py l, x.ctlDests 8 (2 * m) 0 = [(px, py, l)] → nodeAt px py ≠ .ce → l < (x.ctlAt px py).length →
             x.ctlGate 8 (2 * m) 0 = none → (t.hall h).ctlCount px py l = x.ctlCount px py l + 1)
       let cell (y : MxTile) (q : Nat) : Int := ((mget y.cells q 0).truncate 48).toInt
       let pushes (i : Instr) : Prop := b.word = i → (n.tile acc.val).kind = .int → b.entC.fmt? = some .int32 → n.badElem = [] →
         b.count + 8 ≤ 4096 → lget n.outs 0 = [] → ∃ t tok, exec i s = .next t ∧ OnlyHall h s t
           ∧ ((t.hall h).node m).outs = n.outs.set 0 [tok] ∧ hdrKind tok.hdr = 0 ∧ hdrWid tok.hdr = 32 ∧ hdrLen tok.hdr = 8
           ∧ (∀ k, k < 8 → ((BitVec.ofNat 32 (tok.pay.toNat / 2 ^ (32 * k))).toInt =
               (let v := cell (n.tile acc.val) (b.count + k)
                if v < -(2 ^ 31) then -(2 ^ 31) else if 2 ^ 31 ≤ v then 2 ^ 31 - 1 else v)))
           ∧ ((t.hall h).node m).busy = some { b with count := b.count + 8 } ∧ ((t.hall h).node m).tiles = n.tiles
       (b.step = ks.toNat → ends (.mma acc accum tr al bl ida idb ks ta ct) ∧ ends (.mmag acc accum tr bl ida idb ks ct))
       ∧ (b.step = 0 → (all = true → ∃ t, exec (.mxz acc all ct) s = .next t ∧ OnlyHall h s t
             ∧ ∀ q, q < 16 → ((t.hall h).node m).tile q = ⟨.none, false, []⟩)
           ∧ (all = false → (n.tile acc.val).kind ≠ .f64 → (n.tile acc.val).kind ≠ .pair → ∃ t, exec (.mxz acc all ct) s = .next t
             ∧ OnlyHall h s t ∧ ((t.hall h).node m).tile acc.val = ⟨.none, false, []⟩
             ∧ ∀ q, q ≠ acc.val → ((t.hall h).node m).tile q = n.tile q))
       ∧ (b.step ≠ 0 → ends (.mxz acc all ct))
       ∧ (b.step ≠ 1 → n.latA.elems.length = 4096 → b.entC.fmt? = some .int32 → (n.tile acc.val).kind ≠ .f64 →
           (n.tile acc.val).kind ≠ .pair → ∃ t, exec (.mxld acc idc ct) s = .next t ∧ OnlyHall h s t
             ∧ (((t.hall h).node m).tile acc.val).kind = .int ∧ ((t.hall h).node m).latA.elems = []
             ∧ ∀ q, q < 4096 → cell (((t.hall h).node m).tile acc.val) q = ((n.latA.elems.getD q 0).truncate 32).toInt)
       ∧ (b.step = 1 → ends (.mxld acc idc ct))
       ∧ pushes (.mxrd acc idc 0 ct) ∧ pushes (.mxepi acc idc 0 ct)
       ∧ (b.count = 4096 → (b.word = .mxrd acc idc 0 ct → ends (.mxrd acc idc 0 ct))
           ∧ (b.word = .mxepi acc idc 0 ct → b.step ≠ 0 → ends (.mxepi acc idc 0 ct))
           ∧ (b.word = .mxepi acc idc 0 ct → b.step = 0 → (n.tile acc.val).kind ≠ .f64 → (n.tile acc.val).kind ≠ .pair → ∃ t, exec (.mxepi acc idc 0 ct) s = .next t
             ∧ ((t.hall h).node m).tile acc.val = ⟨.none, false, []⟩ ∧ ((t.hall h).node m).busy = some { b with step := 1 }))
       ∧ (b.step ≠ ks.toNat → b.idx.length = 64 → n.latA.elems.length < 4096 →
           lget b.idx (n.latA.elems.length / 64) = 0xFFFFFFFF → ∃ t, exec (.mmag acc accum tr bl ida idb ks ct) s = .next t
             ∧ OnlyHall h s t ∧ ((t.hall h).node m).latA.elems = n.latA.elems ++ List.replicate 64 0))
  ∧ (∀ (s : State) (h m : Nat) (acc : Fin 16) (ct : Bool) (idc : BitVec 8) (b w : MxBusy), s.cur = .mx h m → m < 3 →
       let n := (s.hall h).node m
       let i : Instr := .mxrd acc idc 0 ct
       let c := tensorOf s (s.ctxOf h) idc.toNat
       n.busy = some b → resultWord b.word = none → acc.val ∉ n.writes b →
       (n.ahead = [] → mxCheck s h m i (tensorOf s (s.ctxOf h) 0) (tensorOf s (s.ctxOf h) 0) c = none →
         ∃ t w, exec i s = .next t ∧ OnlyHall h s t ∧ ((t.hall h).node m).busy = some b ∧ ((t.hall h).node m).ahead = [w]
           ∧ ((t.hall h).node m).accepted = n.accepted + 1 ∧ w.word = i ∧ w.index = n.accepted ∧ w.count = 0)
       ∧ (n.ahead = [w] → w.word = i → w.index ≠ b.index → w.count + 8 ≤ 4096 → w.entC.fmt? = some .int32 →
         (n.tile acc.val).kind = .int → n.badElem = [] → n.outs.length = 4 → lget n.outs 0 = [] →
         ∃ t tok, exec i s = .next t ∧ OnlyHall h s t ∧ ((t.hall h).node m).outs = n.outs.set 0 [tok]
           ∧ ((t.hall h).node m).busy = some b ∧ ((t.hall h).node m).ahead = [{ w with count := w.count + 8 }]
           ∧ ((t.hall h).node m).tiles = n.tiles))

/-- R311, R312, R315, R316: a K-step of MMA or MMAG on INT8 operands that fill both latches: each cell (i, j) of the
tile takes the sum over k of a[i][k]·b[k][j], added to its value before where the word accumulates or a step has gone
before, and the latches are empty. The cells before lie within ±2^46, so no chunk saturates. -/
def Obligations.MatrixStepMultiplies : Prop :=
  ∀ (s : State) (h m : Nat) (acc : Fin 16) (accum tr al bl ta ct : Bool) (ida idb ks : BitVec 8) (b : MxBusy),
    s.cur = .mx h m →
    let n := (s.hall h).node m
    n.busy = some b → b.step ≠ ks.toNat → b.entA.fmt? = some .int8 → b.entB.fmt? = some .int8 →
    n.latA.elems.length = 4096 → n.latB.elems.length = 4096 → n.badElem = [] → n.tiles.length = 16 →
    (b.step ≠ 0 → (n.tile acc.val).kind = .int) →
    let tile := n.tile acc.val
    let goesOn : Prop := b.step ≠ 0 ∨ (accum = true ∧ tile.kind = .int)
    let cell (y : MxTile) (i j : Nat) : Int := ((mget y.cells (64 * i + j) 0).truncate 48).toInt
    let elemA (ta : Bool) (i k : Nat) : Int := ((n.latA.elems.getD (if ta then 64 * k + i else 64 * i + k) 0).truncate 8).toInt
    let elemB (k j : Nat) : Int := ((n.latB.elems.getD (if tr then 64 * k + j else 64 * j + k) 0).truncate 8).toInt
    let steps (i : Instr) (ta : Bool) : Prop :=
      (goesOn → ∀ i j, i < 64 → j < 64 → -(2 ^ 46) ≤ cell tile i j ∧ cell tile i j ≤ 2 ^ 46) →
      ∃ t, exec i s = .next t ∧ OnlyHall h s t
        ∧ (((t.hall h).node m).tile acc.val).kind = .int
        ∧ (∀ i j, i < 64 → j < 64 → (goesOn → cell (((t.hall h).node m).tile acc.val) i j
              = cell tile i j + ((List.range 64).map fun k => elemA ta i k * elemB k j).sum)
            ∧ (¬ goesOn → cell (((t.hall h).node m).tile acc.val) i j
              = ((List.range 64).map fun k => elemA ta i k * elemB k j).sum))
        ∧ ((t.hall h).node m).latA.elems = [] ∧ ((t.hall h).node m).latB.elems = []
        ∧ ((t.hall h).node m).sat = n.sat ∧ ((t.hall h).node m).busy = some { b with step := b.step + 1, count := 0 }
    steps (.mma acc accum tr al bl ida idb ks ta ct) ta
    ∧ (b.idx.length = 64 → steps (.mmag acc accum tr bl ida idb ks ct) false)

/-! ## Facets (spec/09) -/

/-- R215, R221, R222, R230, R232, R237, R246: an integer, select, move, broadcast or address rule whose firing meets no
fault writes, element by element, the value of its operation on its sources to its destination, then sets its predicate
and dequeues; a control token that leads passes through with its payload, and the condition is then false. -/
def Obligations.FacetIntegerRulesFire : Prop :=
  ∀ (s : State) (h n slot : Nat) (f : FHdr) (d x y z : Opnd) (imm : BitVec 10) (u all : Bool) (cond : Cond) (k : Ctx),
    let X := s.hall h
    let F := X.facet n
    let fires (i : Instr) (d : Opnd) (srcs : List Opnd) (im : BitVec 10) (c : List Nat → Bool) (fn : Nat → List (List Nat) → List Nat) : Prop :=
      AtRule s h n slot f 1 srcs k →
      let sh := F.shape srcs 32
      let es := fn sh.w (srcs.map (srcElems X n F im sh))
      (CleanElements X n d srcs none sh sh.w → ∃ t, exec i s = .next t
        ∧ s.Fired h n slot f srcs (c es) (fun X => X.putDest n d (dataHdr sh) (packElems sh.w es) false) t)
      ∧ (∀ t, F.lead srcs = some t → isData t = false → F.streamFault srcs none = none → ∃ u, exec i s = .next u
        ∧ s.Fired h n slot f srcs false (fun X => X.putDest n d t.hdr t.pay.toNat t.lens) u)
    let on1 (g : Nat → Nat) (xs : List (List Nat)) : List Nat := (lget xs 0).map g
    let on2 (g : Nat → Nat → Nat) (xs : List (List Nat)) : List Nat := List.zipWith g (lget xs 0) (lget xs 1)
    let on3 (g : Nat → Nat → Nat → Nat) (xs : List (List Nat)) : List Nat :=
      List.zipWith (fun p q => g p.1 p.2 q) (List.zip (lget xs 0) (lget xs 1)) (lget xs 2)
    let yes : List Nat → Bool := fun _ => true
    let lt (w a b : Nat) : Bool := if u then decide (a < b) else decide (sextNat a w < sextNat b w)
    fires (.iadd f d x y imm) d [x, y] imm yes (fun w => on2 fun a b => (a + b) % 2 ^ w)
    ∧ fires (.isub f d x y imm) d [x, y] imm yes (fun w => on2 fun a b => (a + (2 ^ w - b % 2 ^ w)) % 2 ^ w)
    ∧ fires (.imul f d x y imm) d [x, y] imm yes (fun w => on2 fun a b => a * b % 2 ^ w)
    ∧ fires (.imad f d x y z imm) d [x, y, z] imm yes (fun w => on3 fun a b c => (a * b + c) % 2 ^ w)
    ∧ fires (.imin f d x y u) d [x, y] 0 yes (fun w => on2 fun a b => if lt w a b then a else b)
    ∧ fires (.imax f d x y u) d [x, y] 0 yes (fun w => on2 fun a b => if lt w a b then b else a)
    ∧ fires (.iand f d x y imm) d [x, y] imm yes (fun _ => on2 fun a b => a &&& b)
    ∧ fires (.ior f d x y imm) d [x, y] imm yes (fun _ => on2 fun a b => a ||| b)
    ∧ fires (.ixor f d x y imm) d [x, y] imm yes (fun _ => on2 fun a b => a ^^^ b)
    ∧ fires (.ishl f d x y imm) d [x, y] imm yes (fun w => on2 fun a b => if w ≤ b then 0 else a * 2 ^ b % 2 ^ w)
    ∧ fires (.ishr f d x y false) d [x, y] 0 yes (fun w => on2 fun a b => if w ≤ b then 0 else a / 2 ^ b)
    ∧ fires (.ishr f d x y true) d [x, y] 0 yes (fun w => on2 fun a b => wrapInt (sextNat a w / 2 ^ min b w) w)
    ∧ fires (.icmp f d x y cond all) d [x, y] 0 (fun es => if all then es.all (· ≠ 0) else es.any (· ≠ 0))
        (fun w => on2 fun a b =>
          let sa := sextNat a w; let sb := sextNat b w
          let o : Bool := match cond with
            | .eq => decide (a = b) | .ne => decide (a ≠ b) | .lt => decide (sa < sb) | .ge => decide (sb ≤ sa)
            | .le => decide (sa ≤ sb) | .gt => decide (sb < sa) | .ltu => decide (a < b) | .geu => decide (b ≤ a)
            | .leu => decide (a ≤ b) | .gtu => decide (b < a)
          if o then 2 ^ w - 1 else 0)
    ∧ fires (.iclmp f d x y z u) d [x, y, z] 0 yes (fun w => on3 fun a b c =>
        let m := if lt w a c then a else c
        if lt w b m then m else b)
    ∧ fires (.esel f d x y z) d [x, y, z] 0 yes (fun _ => on3 fun a b c => if c = 0 then b else a)
    ∧ fires (.mov f d x imm) d [x] imm yes (fun _ => on1 id)
    ∧ fires (.iota f d x imm) d [x] imm yes (fun w xs => (List.range (lget xs 0).length).map fun j => (lget (lget xs 0) 0 + j) % 2 ^ w)
    ∧ (∀ j : Fin 8, fires (.bcast f d x j) d [x] 0 yes (fun _ xs =>
        List.replicate (lget xs 0).length (lget (lget xs 0) (j.val % (lget xs 0).length))))
    ∧ ∀ ak : Fin 4, fires (.ainc f ak x y imm) (.areg ak) [x, y] imm yes (fun _ xs => [(lget (lget xs 0) 0 + lget (lget xs 1) 0) % 2 ^ 16])

/-- R215, R221, R222, R225 to R231, R235, R236: a floating-point rule whose firing meets no fault rounds each exact
result once, to nearest; a reduction combines the elements of a token in the tree of R67. -/
def Obligations.FacetFloatRulesFire : Prop :=
  ∀ (s : State) (h n slot : Nat) (f : FHdr) (d x y z : Opnd) (fmt : FFmt) (int u all : Bool) (cond : FCond) (op : SgnOp)
    (g : Fmt) (k : Ctx),
    let X := s.hall h
    let F := X.facet n
    let fires (i : Instr) (srcs : List Opnd) (w0 : Nat) (fw : Option Nat) (out : Shape → Shape) (c : List Nat → Bool)
        (fn : Shape → List (List Nat) → List Nat) : Prop :=
      AtRule s h n slot f 1 srcs k →
      let sh := F.shape srcs w0
      let es := fn sh (srcs.map (srcElems X n F 0 sh))
      (CleanElements X n d srcs fw sh (out sh).w → ∃ t, exec i s = .next t
        ∧ s.Fired h n slot f srcs (c es) (fun X => X.putDest n d (dataHdr (out sh)) (packElems (out sh).w es) false) t)
      ∧ (∀ t, F.lead srcs = some t → isData t = false → F.streamFault srcs fw = none → ∃ u, exec i s = .next u
        ∧ s.Fired h n slot f srcs false (fun X => X.putDest n d t.hdr t.pay.toNat t.lens) u)
    let e := fmt.fmt
    let rn (v : FVal) : Nat := e.encode .rn 0 v
    let v (a : Nat) : FVal := e.decode a
    let w := e.bits
    let yes : List Nat → Bool := fun _ => true
    let on1 (i : Instr) (g : Nat → Nat) : Prop :=
      fires i [x] w (some w) id yes (fun _ xs => (lget xs 0).map g)
    let on2 (i : Instr) (c : List Nat → Bool) (g : Nat → Nat → Nat) : Prop :=
      fires i [x, y] w (some w) id c (fun _ xs => List.zipWith g (lget xs 0) (lget xs 1))
    let sign (a : Nat) : Bool := decide (2 ^ (w - 1) ≤ a % 2 ^ w)
    on2 (.fadd f d x y fmt) yes (fun a b => rn ((v a).add (v b)))
    ∧ on2 (.fsub f d x y fmt) yes (fun a b => rn ((v a).add (v b).neg))
    ∧ on2 (.fmul f d x y fmt) yes (fun a b => rn ((v a).mul (v b)))
    ∧ fires (.ffma f d x y z fmt) [x, y, z] w (some w) id yes (fun _ xs =>
        List.zipWith (fun p c => rn (((v p.1).mul (v p.2)).add (v c))) (List.zip (lget xs 0) (lget xs 1)) (lget xs 2))
    ∧ on2 (.fmin f d x y fmt) yes (fminmax e false) ∧ on2 (.fmax f d x y fmt) yes (fminmax e true)
    ∧ (op ≠ .abs → on2 (.fsgn f d x y op fmt) yes (fun a b =>
        let sg := match op with | .cpy => sign b | .neg => !sign b | .xor => sign a != sign b | .abs => false
        a % 2 ^ (w - 1) + if sg then 2 ^ (w - 1) else 0))
    ∧ on1 (.fsgn f d x y .abs fmt) (fun a => a % 2 ^ (w - 1))
    ∧ on2 (.fcmp f d x y cond all fmt) (fun es => if all then es.all (· ≠ 0) else es.any (· ≠ 0))
        (fun a b => if cond.holds (v a) (v b) then 2 ^ w - 1 else 0)
    ∧ on1 (.fexp2 f d x fmt) (fun a => rn (v a).exp2) ∧ on1 (.flog2 f d x fmt) (fun a => rn (v a).log2)
    ∧ on1 (.frcp f d x fmt) (fun a => rn (v a).recip) ∧ on1 (.frsq f d x fmt) (fun a => rn (v a).rsqrt)
    ∧ on1 (.fsqrt f d x fmt) (fun a => rn (v a).sqrt) ∧ on1 (.ftanh f d x fmt) (fun a => rn (v a).tanh)
    ∧ on1 (.fsigm f d x fmt) (fun a => rn (v a).sigm)
    ∧ fires (.scl f d x g) [x] 32 (some 32) (fun sh => { sh with w := 8 }) yes (fun _ xs => (lget xs 0).map (sclElem g))
    ∧ (let tree (i : Instr) (op : Nat → Nat → Nat → Nat) : Prop :=
        fires i [x] w (if int then none else some w) (fun sh => { sh with n := 1 }) yes
          (fun sh xs => [treeReduce (op sh.w) (lget xs 0)])
      let lt (w a b : Nat) : Bool := if u then decide (a < b) else decide (sextNat a w < sextNat b w)
      tree (.tsum f d x fmt int) (fun sw a b => if int then (a + b) % 2 ^ sw else rn ((v a).add (v b)))
      ∧ tree (.tmax f d x fmt int u) (fun sw a b => if int then (if lt sw a b then b else a) else fminmax e true a b)
      ∧ tree (.tmin f d x fmt int u) (fun sw a b => if int then (if lt sw a b then a else b) else fminmax e false a b))

/-- R215, R233, R234, R235: CVT between FP32 and a format, without scales and with them: each element is rounded once
in the word's mode, RS taking one step of the facet's seed for each element; a scale header that CVT takes from a
channel is latched, and a control token passes. -/
def Obligations.FacetConversionsFire : Prop :=
  ∀ (s : State) (h n slot : Nat) (f : FHdr) (d x y : Opnd) (mode : RMode) (fmt : Fmt) (k : Ctx),
    let X := s.hall h
    let F := X.facet n
    let slotw := fmt.slot
    let conv (g : Nat → Nat → Nat → Nat) (es : List (Nat × Nat)) : List Nat × BitVec 32 := convAll mode g F.seed es
    (∀ dir : Bool, AtRule s h n slot f 1 [x] k →
      let sh := F.shape [x] (if dir then slotw else 32)
      let ow := if dir then 32 else slotw
      let r := conv (fun r e _ => if dir then Fmt.fp32.encode mode r (fmt.decode e) else fmt.encode mode r (Fmt.fp32.decode e))
        ((srcElems X n F 0 sh x).map (·, 0))
      (CleanElements X n d [x] (some (if dir then slotw else 32)) sh ow → ¬ (ow = 64 ∧ 4 < sh.n) →
        ∃ t, exec (.cvt f d x y mode fmt dir false) s = .next t ∧ s.Fired h n slot f [x] true
          (fun X => let X := X.putDest n d (dataHdr { sh with w := ow }) (packElems ow r.1) false
            X.setFacet n { X.facet n with seed := r.2 }) t)
      ∧ (∀ t, F.lead [x] = some t → isData t = false → F.streamFault [x] (some (if dir then slotw else 32)) = none →
        ∃ u, exec (.cvt f d x y mode fmt dir false) s = .next u
          ∧ s.Fired h n slot f [x] false (fun X => X.putDest n d t.hdr t.pay.toNat t.lens) u))
    ∧ (AtRule s h n slot f 1 [x, y] k →
      let sh := F.shape [x, y] 32
      let scale := match F.tok y with | some t => t.pay.toNat % 256 | none => lget (srcElems X n F 0 sh y) 0 % 256
      let r := conv (fun r e c => scaledEncode fmt mode r e c) ((srcElems X n F 0 sh x).map (·, scale))
      (∀ t, F.lead [x, y] = some t → isData t = true) → F.streamFault [x] (some 32) = none → sh.w = 32 →
      (∀ t, F.tok y = some t → t.hdr ≠ emptyMark) → srcLens X n F [x, y] = false →
      firstAlign F ((d, 8) :: [x, y].map (fun k => (k, sh.w))) = none →
      ∃ t, exec (.cvt f d x y mode fmt false true) s = .next t ∧ s.Fired h n slot f [x, y] true
        (fun X => let X := X.putDest n d (dataHdr { sh with w := 8 }) (packElems 8 r.1) false
          X.setFacet n { X.facet n with seed := r.2 }) t)
    ∧ (∀ (c : Chan) (t : EReg), AtRule s h n slot f 1 [.deq c] k → F.tok (.deq c) = some t →
      (hdrKind t.hdr = 2 → latchScales (lget F.latch c.val) = [] → ∃ u l, exec (.cvt f d (.deq c) y mode fmt true true) s = .next u
        ∧ l.scales = (List.range (hdrLen t.hdr)).map (fun j => BitVec.ofNat 8 (payElem 8 t.pay j)) ∧ l.used = 0
        ∧ l.bl = t.hdr.getLsbD 4 ∧ l.lot = t.hdr.getLsbD 3 ∧ l.spent = false ∧ l.lens = t.lens
        ∧ s.Fired h n slot f [.deq c] false (fun X => X.setFacet n { X.facet n with latch := F.latch.set c.val (some l) }) u)
      ∧ (∀ ks l, isData t = true → latchTakes (hdrLen t.hdr) (lget F.latch c.val) = some (ks, l) →
        F.streamFault [.deq c] (some 8) = none → t.lens = false → (∀ q, l = some q → q.lens = false) → firstAlign F [(d, 32)] = none →
        let r := conv (fun r e c => Fmt.fp32.encode mode r (scaledValue fmt e c))
          ((srcElems X n F 0 t.shape (.deq c)).zip (ks.map (·.toNat)))
        ∃ u, exec (.cvt f d (.deq c) y mode fmt true true) s = .next u ∧ s.Fired h n slot f [.deq c] true
          (fun X => let X := X.putDest n d (dataHdr { t.shape with w := 32 }) (packElems 32 r.1) false
            X.setFacet n { X.facet n with seed := r.2, latch := F.latch.set c.val l }) u))

/-- R221, R237 to R240, R247, R248: the token rules. DROP discards the head token; MERGE packs tokens into its register
and pushes what is full or cannot join; SPLIT cuts a token in two; HDR gives a payload a header, or makes a stop or
done token; PSET sets a predicate from a token; SEND adds one control token at the end of its path, WAITC takes one. -/
def Obligations.FacetTokenRulesFire : Prop :=
  ∀ (s : State) (h n slot : Nat) (f : FHdr) (d x y : Opnd) (o i : Chan) (e : Fin 8) (imm : BitVec 10) (lvl : Fin 8) (lot kt bl : Bool)
    (tag : Fin 4) (line : Fin 2) (k : Ctx),
    let X := s.hall h
    let F := X.facet n
    let pushes (ts : List EReg) (X : Hall) : Hall := ts.foldl (fun X t => X.putDest n (.push o) t.hdr t.pay.toNat t.lens) X
    (∀ t, AtRule s h n slot f 1 [.deq i] k → F.tok (.deq i) = some t →
      ∃ u, exec (.drop f i) s = .next u ∧ s.Fired h n slot f [.deq i] (isData t) id u)
    ∧ (∀ t b, AtRule s h n slot f 2 [.deq i, .e e] k → F.tok (.deq i) = some t → F.tok (.e e) = some b →
      ∃ u, exec (.merge f o i e) s = .next u ∧ s.Fired h n slot f [.deq i, .e e] ((mergeStep t b).1.any isData)
        (fun X => (pushes (mergeStep t b).1 X).setFacet n
          { (pushes (mergeStep t b).1 X).facet n with e := ((pushes (mergeStep t b).1 X).facet n).e.set e.val (mergeStep t b).2 }) u)
    ∧ (∀ t, AtRule s h n slot f 2 [x, y] k → F.tok x = some t → t.hdr ≠ emptyMark →
      let m := splitCount F y imm
      let cut := isData t = true ∧ 1 ≤ m ∧ m < hdrLen t.hdr
      ∃ u, exec (.split f o x y imm) s = .next u
        ∧ (cut → s.Fired h n slot f [x, y] true (pushes [(splitToken t m).1, (splitToken t m).2]) u)
        ∧ (¬ cut → s.Fired h n slot f [x, y] false (pushes [t]) u))
    ∧ (AtRule s h n slot f 1 [] k →
      (∃ u, exec (.hdr f d x .stop lvl lot tag kt bl) s = .next u
        ∧ s.Fired h n slot f [] false (fun X => X.putDest n d (mkHdr 1 tag.val 0 1 lvl.val lot) 0 false) u)
      ∧ ∃ u, exec (.hdr f d x .done lvl lot tag kt bl) s = .next u
        ∧ s.Fired h n slot f [] false (fun X => X.putDest n d (mkHdr 3 tag.val 0 1 0 false) 0 false) u)
    ∧ (∀ t, AtRule s h n slot f 1 [x] k → F.tok x = some t → isData t = true → t.hdr ≠ emptyMark → (t.lens = false ∨ d.isAreg = false) →
      (bankAlign F d (hdrWid t.hdr) = none →
        ∃ u, exec (.hdr f d x .data lvl lot tag kt bl) s = .next u ∧ s.Fired h n slot f [x] true
          (fun X => X.putDest n d (mkHdr 0 (if kt then hdrTag t.hdr else tag.val) (widCode (hdrWid t.hdr)) (hdrLen t.hdr) 0 lot)
            t.pay.toNat t.lens) u)
      ∧ (hdrWid t.hdr = 8 → ∃ u, exec (.hdr f d x .scale lvl lot tag kt bl) s = .next u ∧ s.Fired h n slot f [x] false
          (fun X => X.putDest n d (mkHdr 2 (if kt then hdrTag t.hdr else tag.val) 0 (hdrLen t.hdr) (if bl then 1 else 0) lot)
            t.pay.toNat t.lens) u))
    ∧ (∀ t (test : PTest), AtRule s h n slot f 1 [x] k → F.tok x = some t → t.hdr ≠ emptyMark → (test = .nz → t.lens = false) →
      let kd := hdrKind t.hdr
      let o : Bool := match test with
        | .data => decide (kd = 0) | .stop => decide (kd = 1) | .scale => decide (kd = 2) | .done => decide (kd = 3)
        | .lot => t.hdr.getLsbD 3 | .lvl => decide (kd = 1) && decide (lvl.val ≤ hdrLvl t.hdr)
        | .nz => decide (kd = 0) && decide (payElem (hdrWid t.hdr) t.pay 0 ≠ 0) | .true => true
      ∃ u, exec (.pset f x test lvl) s = .next u ∧ s.Fired h n slot f [x] o id u)
    ∧ (AtRule s h n slot f 1 [] k →
      (X.ctlRoom (n / 8 + 1) (n % 8) line.val = true →
        ∃ u, exec (.send f line) s = .next u ∧ s.Fired h n slot f [] true (fun X => X.sendCtl (n / 8 + 1) (n % 8) line.val) u)
      ∧ (X.ctlCount (n / 8 + 1) (n % 8) line.val ≠ 0 →
        ∃ u, exec (.waitc f line) s = .next u ∧ s.Fired h n slot f [] true (fun X => X.takeCtl (n / 8 + 1) (n % 8) line.val) u))

/-- R241 to R245: the bank rules in a facet without the lens mark, the Mirror off. FLD reads, FST writes and sets the
words full where it says so; FLDF needs full words, FLDE empties them, FSTE needs empty ones and fills them; FLDX and
FSTX take one place for each index; FAMO writes the new values and gives the old ones. The address register moves by
the increment. -/
def Obligations.FacetBankRulesFire : Prop :=
  ∀ (s : State) (h n slot : Nat) (f : FHdr) (d x z : Opnd) (ak : Fin 4) (inc : BitVec 5) (len sh : Fin 8) (wid : Fin 4) (u : Bool)
    (op : AmoOp) (k : Ctx), k.mirror.mode = .off →
    let X := s.hall h
    let F := X.facet n
    let start := 4 * ((lget F.a ak.val).toNat % 16384)
    let moved (X : Hall) : Hall :=
      X.setFacet n { X.facet n with a := (X.facet n).a.set ak.val (lget (X.facet n).a ak.val + inc.signExtend 16) }
    let even (w : Nat) : Prop := w = 64 → (lget F.a ak.val).toNat % 2 = 0
    let data (srcs : List Opnd) : Prop := ∀ t, F.lead srcs = some t → isData t = true
    X.inLens n = false →
    (let w := 8 * 2 ^ wid.val
     let m := len.val + 1
     let ws := bankWords X n start (m * 2 ^ wid.val)
     let got (X : Hall) : Hall := moved (X.putDest n d (mkHdr 0 0 wid.val m 0 false) (bankGet X n start (m * 2 ^ wid.val)) false)
     AtRule s h n slot f 1 [] k → even w → bankAlign F d w = none →
      (∃ t, exec (.fld f d ak inc len wid) s = .next t ∧ s.Fired h n slot f [] true got t)
      ∧ ((∀ q ∈ ws, q ∈ X.full) →
        (∃ t, exec (.fldf f d ak inc len wid) s = .next t ∧ s.Fired h n slot f [] true got { t with carries := s.carries, ctxs := s.ctxs }
          ∧ (t.hall h).full = X.full)
        ∧ ∃ t, exec (.flde f d ak inc len wid) s = .next t ∧ ((∀ q, X.full.count q ≤ 1) → ∀ q, q ∈ (t.hall h).full ↔ q ∈ X.full ∧ q ∉ ws)))
    ∧ (AtRule s h n slot f 1 [x] k → data [x] → F.streamFault [x] none = none →
      let q := F.shape [x] 32
      let b := q.n * (q.w / 8)
      let ws := bankWords X n start b
      let v := packElems q.w (srcElems X n F 0 q x)
      let put (X : Hall) : Hall := moved (bankPut X n start v b)
      even q.w → bankAlign F x q.w = none →
      (∃ t, exec (.fst f x ak inc false) s = .next t ∧ s.Fired h n slot f [x] true put t)
      ∧ (∃ t, exec (.fst f x ak inc true) s = .next t ∧ (t.hall h).scratch = (bankPut X n start v b).scratch
          ∧ ∀ w, w ∈ (t.hall h).full ↔ w ∈ X.full ∨ w ∈ ws)
      ∧ ((∀ w ∈ ws, w ∉ X.full) → ∃ t, exec (.fste f x ak inc) s = .next t
          ∧ (t.hall h).scratch = (bankPut X n start v b).scratch ∧ ∀ w, w ∈ (t.hall h).full ↔ w ∈ X.full ∨ w ∈ ws))
    ∧ (AtRule s h n slot f 1 [x] k → data [x] → F.streamFault [x] none = none → srcLensOne F x = false →
      let q := F.shape [x] 32
      let w := 8 * 2 ^ wid.val
      let ps := (idxElems X n F q x).map fun j => (4 * (lget F.a ak.val).toNat + j * 2 ^ sh.val) % 65536
      (w = 64 → (∀ p ∈ ps, p % 8 = 0) ∧ q.n ≤ 4) → firstAlign F [(d, w), (x, q.w)] = none →
      ∃ t, exec (.fldx f d ak x sh wid) s = .next t ∧ s.Fired h n slot f [x] true
        (fun X => X.putDest n d (mkHdr 0 0 wid.val q.n 0 false) (packElems w (ps.map fun p => bankGet X n p (2 ^ wid.val))) false) t)
    ∧ (AtRule s h n slot f 1 [x, z] k → data [x, z] → F.streamFault [x] none = none → srcLensOne F z = false →
      let q := F.shape [x, z] 32
      (∀ t, F.tok z = some t → isData t = true ∧ hdrLen t.hdr = q.n ∧ t.hdr ≠ emptyMark) →
      let ps := (idxElems X n F q z).map fun j => (4 * (lget F.a ak.val).toNat + j * 2 ^ sh.val) % 65536
      (q.w = 64 → ∀ p ∈ ps, p % 8 = 0) → firstAlign F [(x, q.w), (z, q.w)] = none →
      ∃ t, exec (.fstx f x ak z sh) s = .next t ∧ s.Fired h n slot f [x, z] true
        (fun X' => (ps.zip (srcElems X n F 0 q x)).foldl (fun y p => bankPut y n p.1 p.2 (q.w / 8)) X') t)
    ∧ (AtRule s h n slot f 1 [x] k → data [x] → F.streamFault [x] none = none → srcLensOne F x = false →
      let q := F.shape [x] 32
      let b := q.w / 8
      let old := (List.range q.n).map fun j => bankGet X n (start + j * b) b
      (q.w = 32 ∨ (q.w = 64 ∧ op ≠ .fadd)) → even q.w → firstAlign F [(d, q.w), (x, q.w)] = none →
      ∃ t, exec (.famo f d x ak op u) s = .next t ∧ s.Fired h n slot f [x] true
        (fun X' => (((List.range q.n).zip ((srcElems X n F 0 q x).zip old)).foldl
            (fun y p => bankPut y n (start + p.1 * b) (famoElem op u q.w p.2.2 p.2.1) b) X').putDest n d (dataHdr q)
              (packElems q.w old) false) t)

/-- R218 to R223: a facet's cycle in which no slot is eligible fires nothing; one with a single eligible slot whose
resources are free fires that slot alone, or none where it needs the bank port, which an outside access may hold in the
cycle (R219; log 37). The chosen slot's starvation counter stands until the firing, which clears it with the urgent flag
(`finishFiring`, in every statement of a rule's firing); an eligible slot that is passed over counts one more, up to 1024.
A counter that has reached 1024 makes its slot urgent and counts in `ctx.starve`, each time it does. R209, R213, R214, R241: what each operand code reads as a source and writes as the destination,
element by element: a token's payload, an address register in every element, the bank from its first byte up (wrapping
at its end), the immediate, zeros and ones; a destination keeps the payload's low bits and the header. -/
def Obligations.FacetCyclesAndOperandForms : Prop :=
  (∀ (s : State) (g : HallId) (n : FacetId) (q : Fin 16) (a : Slot) (k : Ctx),
     let h := g.val
     let x := s.hall h
     let F := x.facet n.val
     x.res = .running → x.held = false → x.hold = false → x.split ≤ n.val → s.firing = [] →
     x.config (boxOf (n.val / 8 + 1) (n.val % 8)) = .ok → F.installed = true →
     (∀ c, c < 4 → ∀ t rest, lget F.ins c = t :: rest → hdrBad t.hdr = false) →
     (∀ waits, eligibleSlots h n.val F.slots s = ([], waits, s) → ∃ t, exec (.facetCycle g n) s = .next t ∧ t.firing = []
       ∧ SameMemory s t ∧ SameScratch s t ∧ ((t.hall h).facet n.val).e = F.e ∧ ((t.hall h).facet n.val).p = F.p)
     ∧ (∀ waits, eligibleSlots h n.val F.slots s = ([a], waits, s) → F.chansStand a.r.hdr (outNeed a.i) = true →
       (∀ u ∈ a.r.units, F.busy u = 0) →
       ∃ t, exec (.facetCycle g n) s = .next t
         ∧ (t.firing = [(h, n.val, a.slot)] ∨ (FUnit.bank ∈ a.r.units ∧ t.firing = []))
         ∧ SameMemory s t ∧ SameScratch s t ∧ ((t.hall h).facet n.val).e = F.e ∧ ((t.hall h).facet n.val).p = F.p
         ∧ (a.slot < F.starve.length →
           (t.firing ≠ [] → lget ((t.hall h).facet n.val).starve a.slot = lget F.starve a.slot)
           ∧ (t.firing = [] → lget ((t.hall h).facet n.val).starve a.slot = min 1024 (lget F.starve a.slot + 1))))
     ∧ (F.reached.getLsbD q.val = true → s.ctx? (s.ctxOf h) = some k → k.id = s.ctxOf h →
       ∃ t k', exec (.starvationUrgent g n q) s = .next t ∧ t.ctx? (s.ctxOf h) = some k' ∧ k'.starve = k.starve + 1
         ∧ (t.hall h).facet n.val = { F with urgent := F.urgent ||| BitVec.ofNat 16 (2 ^ q.val)
                                             reached := F.reached &&& ~~~ BitVec.ofNat 16 (2 ^ q.val) })
     ∧ (F.reached.getLsbD q.val = false → exec (.starvationUrgent g n q) s = .next s))
  ∧ (∀ (x : Hall) (n : Nat) (imm : BitVec 10) (sh : Shape) (k : Fin 8) (c : Chan) (a : Fin 4) (hdr : BitVec 16) (pay : Nat) (lens : Bool)
       (t : Token) (e : EReg),
       let F := x.facet n
       let rd (o : Opnd) (j : Nat) : Nat := (srcElems x n F imm sh o).getD j 0
       let bank (o : Nat) : Byte := cget x.scratch ((n - x.split) * 65536 + o % 65536)
       let start := 4 * ((lget F.a a.val).toNat % 16384)
       let bits := if hdrKind hdr % 2 = 0 then hdrLen hdr * hdrWid hdr else 0
       (∀ o, (srcElems x n F imm sh o).length = sh.n)
       ∧ (∀ j, j < sh.n →
         (F.e[k.val]? = some e → rd (.e k) j = e.pay.toNat / 2 ^ (sh.w * j) % 2 ^ sh.w)
         ∧ ((lget F.ins c.val).head? = some t → rd (.deq c) j = t.pay.toNat / 2 ^ (sh.w * j) % 2 ^ sh.w ∧ rd (.peek c) j = rd (.deq c) j)
         ∧ rd (.areg a) j = (lget F.a a.val).toNat % 2 ^ sh.w
         ∧ rd (.bank a) j = leNat ((List.range (sh.w / 8)).map fun b => bank (start + j * (sh.w / 8) + b))
         ∧ rd .imm j = (imm.toInt % (2 ^ sh.w : Int)).toNat ∧ rd .zero j = 0 ∧ rd .ones j = 2 ^ sh.w - 1)
       ∧ (k.val < F.e.length → ∃ p, ((x.putDest n (.e k) hdr pay lens).facet n).e[k.val]? = some ⟨hdr, p, lens⟩
           ∧ p.toNat = pay % 2 ^ 256 % 2 ^ bits)
       ∧ (c.val < F.outs.length → ∃ p, lget ((x.putDest n (.push c) hdr pay lens).facet n).outs c.val = lget F.outs c.val ++ [p]
           ∧ p.hdr = hdr ∧ p.pay.toNat = pay % 2 ^ 256 % 2 ^ bits ∧ p.lens = lens ∧ p.tag = x.tag)
       ∧ (a.val < F.a.length → lget ((x.putDest n (.areg a) hdr pay lens).facet n).a a.val
           = if hdrKind hdr = 0 then BitVec.ofNat 16 (pay % 2 ^ hdrWid hdr) else lget F.a a.val)
       ∧ (hdrKind hdr = 0 → Memory.wf x.scratch = true → ∀ j, j < 65536 →
           cget (x.putDest n (.bank a) hdr pay lens).scratch ((n - x.split) * 65536 + (start + j) % 65536)
           = if j < bits / 8 then BitVec.ofNat 8 (pay / 256 ^ j) else bank (start + j))
       ∧ x.putDest n .zero hdr pay lens = x)

/-! ## Prism units, AG tiles and memory ports (spec/13) -/

/-- R330, R338, R340: the scanners. A reference begins its fibre (the empty reference begins none); each position emits
one coordinate and one reference, SCANB only where its bit is set; a fibre ends at its last position; a closure that is
owed leaves as S0 ahead of the next reference, and a stop leaves one level up. R334: lens data of a level array, or a
lens-marked reference, freezes the hall. -/
def Obligations.ScannersStep : Prop :=
  ∀ (s : State) (h px py : Nat) (ib ob : Chan) (tid seg : BitVec 8) (ext : BitVec 16), s.cur = .unit h px py →
    nodeAt px py = .prism → ob.val < 3 →
    let u := s.unitAt h px py
    let e := ext.toNat + 1
    let sc : Instr := .scan ib ob tid seg false
    let sb : Instr := .scanb ib ob tid ext false
    let sd : Instr := .scand ib ob ext false
    let ag := portOf py
    let room : Prop := (lget u.pack ob.val).elems.length < 7 ∧ (lget u.pack (ob.val + 1)).elems.length < 7 ∧ u.pack.length = 4
    let quiet : Prop := (lget u.pack ob.val).elems = [] ∧ (lget u.pack (ob.val + 1)).elems = []
      ∧ lget u.outs ob.val = [] ∧ lget u.outs (ob.val + 1) = [] ∧ u.outs.length = 4
    let emits (i : Instr) (c r : Nat) : Prop := ∃ t, exec i s = .next t
      ∧ (lget (t.unitAt h px py).pack ob.val).elems = (lget u.pack ob.val).elems ++ [BitVec.ofNat 64 c]
      ∧ (lget (t.unitAt h px py).pack (ob.val + 1)).elems = (lget u.pack (ob.val + 1)).elems ++ [BitVec.ofNat 64 r]
      ∧ (t.unitAt h px py).pos = u.pos + 1 ∧ (t.unitAt h px py).ins = u.ins ∧ SameScratch s t
    let begins (i : Instr) (r lo hi : Nat) : Prop := ∃ t, exec i s = .next t
      ∧ t.unitAt h px py = { u.takeData ib.val with cur := some r, pos := lo, fib := hi, owed := true }
    let marks (i : Instr) (l : Nat) (v : Machine.PUnit) : Prop := ∃ t a b, exec i s = .next t
      ∧ t.unitAt h px py = { v with outs := (u.outs.set ob.val [a]).set (ob.val + 1) [b] }
      ∧ a.hdr = mkHdr 1 0 0 1 l false ∧ b.hdr = mkHdr 1 0 0 1 l false
    (∀ r, u.cur = some r → u.fib ≤ u.pos →
      ∀ i, i = sc ∨ i = sb ∨ i = sd → exec i s = .next (s.updUnit h px py fun u => { u with cur := none }))
    ∧ (∀ r, u.cur = some r → u.pos < u.fib → room →
      emits sd u.pos ((r * e + u.pos) % 2 ^ 32)
      ∧ (∀ c q, levelRead s h ag (u.ent 0) u.pos = .ok c q → q.hall h = s.hall h → SameScratch s q →
          emits sc c (u.pos % 2 ^ 32))
      ∧ (∀ w q, levelRead s h ag (u.ent 0) (r * ((e + 31) / 32) + u.pos / 32) = .ok w q → q.hall h = s.hall h →
          SameScratch s q →
          (nbit w (u.pos % 32) = true → emits sb u.pos ((r * e + u.pos) % 2 ^ 32))
          ∧ (nbit w (u.pos % 32) = false → ∃ t, exec sb s = .next t ∧ t.unitAt h px py = { u with pos := u.pos + 1 })))
    ∧ (∀ r, u.cur = none → u.head ib.val 32 false = .data r → u.owed = false →
      (r ≠ 0xFFFFFFFF → begins sd r 0 e ∧ ((u.ents.getD 0 none).isSome = true → begins sb r 0 e)
        ∧ ∀ lo hi q1 q2, (u.ents.getD 0 none).isSome = true → (u.ents.getD 1 none).isSome = true →
          levelRead s h ag (u.ent 1) r = .ok lo q1 → levelRead q1 h ag (u.ent 1) (r + 1) = .ok hi q2 →
          q1.hall h = s.hall h → q2.hall h = s.hall h → begins sc r lo hi)
      ∧ (r = 0xFFFFFFFF → ∃ t, exec sd s = .next t ∧ t.unitAt h px py = { u.takeData ib.val with owed := true }))
    ∧ (∀ r, u.cur = none → u.head ib.val 32 false = .data r → u.owed = true → quiet → marks sd 0 { u with owed := false })
    ∧ (∀ l, u.cur = none → u.head ib.val 32 false = .stop l → l < 7 → quiet →
      let v := { u.takeMark ib.val with owed := false }
      marks sd (l + 1) v ∧ ((u.ents.getD 0 none).isSome = true → marks sb (l + 1) v
        ∧ ((u.ents.getD 1 none).isSome = true → marks sc (l + 1) v)))
    ∧ (∀ r v q, u.cur = some r → u.pos < u.fib → portRead s h ag (u.ent 0) (level u.pos) = .ok (v, true) q →
      let n := u.scanNamed ib.val false
      exec sc s = .next (unitFault s h px py n.1 n.2 .lens 0))
    ∧ (∀ tok l, u.cur = none → lget u.ins ib.val = tok :: l → tok.lens = true → ∀ i, i = sc ∨ i = sb ∨ i = sd →
      let t := unitFault s h px py ib.val (lget u.delivered ib.val) .lens 0
      (t.unitAt h px py).delivered = u.delivered → exec i s = .next t)

/-- R330, R341 to R344: ISECT drops the lesser coordinate and emits equal ones with both references, UNION emits the
lesser with the empty reference; REPT repeats the reference it holds for each element, eight elements leaving as one
token; RDCE adds to its running sum and emits it at the stop of its level; CRDW stores each coordinate at the next
place. -/
def Obligations.FibreWordsStep : Prop :=
  ∀ (s : State) (h px py : Nat) (ia ib o p : Chan) (lvl : Fin 8) (g : Fmt) (tid seg : BitVec 8) (cnt : Bool),
    s.cur = .unit h px py → nodeAt px py = .prism → o.val < 3 → ia.val < 3 → ib.val < 3 →
    let u := s.unitAt h px py
    let data (c r : Nat) : Prop := u.head c 32 false = .data r
    let room (c : Nat) : Prop := (lget u.pack c).elems.length < 3 ∧ u.pack.length = 4
    let held (t : State) (c : Nat) (v : Nat) : Prop :=
      (lget (t.unitAt h px py).pack c).elems = (lget u.pack c).elems ++ [BitVec.ofNat 64 v]
    (∀ ca ra cb rb, ia.val + 1 < ib.val → data ia ca → data (ia.val + 1) ra → data ib cb → data (ib.val + 1) rb →
      u.orderOk ia ca = true → u.orderOk ib cb = true → o.val + 1 < p.val → room o → room (o.val + 1) → room p →
      (ca < cb → (∃ t, exec (.isect ia ib o p) s = .next t ∧ t.unitAt h px py = u.takePair ia (ia.val + 1) ca)
        ∧ ∃ t, exec (.union ia ib o p) s = .next t ∧ held t o ca ∧ held t (o.val + 1) ra ∧ held t p 0xFFFFFFFF)
      ∧ (cb < ca → (∃ t, exec (.isect ia ib o p) s = .next t ∧ t.unitAt h px py = u.takePair ib (ib.val + 1) cb)
        ∧ ∃ t, exec (.union ia ib o p) s = .next t ∧ held t o cb ∧ held t (o.val + 1) 0xFFFFFFFF ∧ held t p rb)
      ∧ (ca = cb → ∀ i, i = .isect ia ib o p ∨ i = .union ia ib o p →
          ∃ t, exec i s = .next t ∧ held t o ca ∧ held t (o.val + 1) ra ∧ held t p rb))
    ∧ (∀ x y, data ib y → u.cur = some x → room o →
      ∃ t, exec (.rept ia ib o) s = .next t ∧ held t o x ∧ (t.unitAt h px py).cur = some x)
    ∧ (∀ x y, data ib y → u.cur = some x → (lget u.pack o.val).elems.length = 7 → u.pack.length = 4 → lget u.outs o.val = [] →
      u.outs.length = 4 → ∃ t tok, exec (.rept ia ib o) s = .next t ∧ lget (t.unitAt h px py).outs o.val = [tok]
        ∧ hdrKind tok.hdr = 0 ∧ hdrTag tok.hdr = 0 ∧ hdrWid tok.hdr = 32 ∧ hdrLen tok.hdr = 8 ∧ hdrLot tok.hdr = false
        ∧ (∀ j, j < 7 → payElem 32 tok.pay j = ((lget u.pack o.val).elems.getD j 0).toNat % 2 ^ 32)
        ∧ payElem 32 tok.pay 7 = x % 2 ^ 32 ∧ (lget (t.unitAt h px py).pack o.val).elems = [])
    ∧ (∀ y x, data ib y → u.cur = none → data ia x →
      ∃ t, exec (.rept ia ib o) s = .next t ∧ t.unitAt h px py = { u.takeData ia with cur := some x })
    ∧ (∀ v, u.head ia g.slot true = .data v →
      (u.acc = none → ∃ t, exec (.rdce ia o lvl g) s = .next t ∧ (t.unitAt h px py).acc = some (BitVec.ofNat 64 v))
      ∧ (∀ a, u.acc = some a → ∃ t, exec (.rdce ia o lvl g) s = .next t ∧ (t.unitAt h px py).acc = some (BitVec.ofNat 64
          (if g = .int8 ∨ g = .int32 then (a.toNat + v) % 2 ^ g.slot else fop2 g FVal.add a.toNat v))))
    ∧ (u.head ia g.slot true = .stop lvl.val → u.owed = false → room o → ∃ t, exec (.rdce ia o lvl g) s = .next t
        ∧ held t o (u.acc.getD 0).toNat ∧ (t.unitAt h px py).acc = none)
    ∧ (∀ c q, data ia c → (u.ents.getD 0 none).isSome = true → u.inPass = true → u.orderOk ia c = true →
      portWrite s h (portOf py) tid.toNat (u.ent 0) (level u.pos) c = .ok () q → q.hall h = s.hall h →
      ∃ t, exec (.crdw ia o tid seg cnt) s = .next t ∧ (t.unitAt h px py).pos = u.pos + 1
        ∧ (t.unitAt h px py).ins = (u.takeData ia).ins ∧ t.mem = q.mem)
    ∧ (u.head ia 32 false = .done → (u.ents.getD 0 none).isSome = true → u.inPass = true → cnt = false →
      ∃ t, exec (.crdw ia o tid seg cnt) s = .next t ∧ (t.unitAt h px py).inPass = false
        ∧ (t.unitAt h px py).ins = (u.takeMark ia).ins)

/-- R345, R346: the counters of an AG tile start a pass, advance and carry, and end it; in a pass a read stream emits
the element its counters name, at the place the entry gives it. -/
def Obligations.AddressTilesStep : Prop :=
  ∀ (s : State) (h px py : Nat) (ib ob : Chan) (lvl : Fin 4) (n : BitVec 16) (tid mp : BitVec 8) (use : BitVec 4) (lotk : Fin 16)
    (ct : Bool), s.cur = .unit h px py → nodeAt px py = .ag →
    let u := s.unitAt h px py
    let outer : Prop := u.counters.all (fun c => c.1 ≤ lvl.val) = true
    (u.inPass = false → outer → u.startDone = false → ∃ t, exec (.ctr lvl n .once ct) s = .next t
      ∧ t.unitAt h px py = { u with startDone := true, inPass := true, pos := 0, step := 0, fib := 0, ctrs := [0, 0, 0, 0]
                                    grp := [0, 0, 0, 0], ents := List.replicate 16 none, owed := false })
    ∧ (∀ trig, u.inPass = true → u.pos = lvl.val + 1 → lget u.ctrs lvl.val < n.toNat → ∃ t, exec (.ctr lvl n trig ct) s = .next t
      ∧ t.unitAt h px py = { u with pos := 0, ctrs := u.ctrs.set lvl.val (lget u.ctrs lvl.val + 1), step := u.step + 1 })
    ∧ (∀ trig, u.inPass = true → u.pos = lvl.val + 1 → n.toNat ≤ lget u.ctrs lvl.val → ∃ t, exec (.ctr lvl n trig ct) s = .next t
      ∧ (outer → (t.unitAt h px py).pos = 5) ∧ (¬ outer → (t.unitAt h px py).pos = lvl.val + 2)
      ∧ (t.unitAt h px py).ctrs = u.ctrs.set lvl.val 0)
    ∧ (∀ trig, u.inPass = true → u.pos = 6 → outer → ∃ t, exec (.ctr lvl n trig false) s = .next t
      ∧ (t.unitAt h px py).inPass = false ∧ (t.unitAt h px py).passes = u.passes + 1)
    ∧ (let own : AgStream := ⟨ib.val, ob.val, lvl.val, tid.toNat, false, mp, use, lotk.val, ct⟩
      let i (k : Nat) : Nat := if use.getLsbD k then lget u.ctrs ((mp.toNat / 2 ^ (2 * k)) % 4) else 0
      u.streams = [own] → u.inPass = true → u.pos = 0 → (u.ents.getD lvl.val none).isSome = true → u.pack.length = 4 →
      (lget u.pack ob.val).elems.length < 3 → lotk = 0 →
      ∀ v b q, portRead s h (agTlb px py lvl.val) (u.ent lvl.val) ⟨i 0, i 1, i 2, i 3⟩ = .ok (v, b) q → q.hall h = s.hall h →
        ∃ t, exec (.agen ib ob lvl tid false mp use lotk ct) s = .next t ∧ (t.unitAt h px py).pos = 1
          ∧ (lget (t.unitAt h px py).pack ob.val).elems
            = (lget u.pack ob.val).elems ++ [BitVec.ofNat 64 (slotBits (u.ent lvl.val).fmt v)])

/-- R339, R347 to R350, R352: a memory port streams a tensor in element order, from its pass's start to its end; GATH
emits the element an index names (as its window's row access gives it, log 14), 0 for the empty reference; SCAT stores a value at its index and skips the empty
reference; a unit whose next step faults freezes its hall, which keeps the rule that a broken stream breaks (R331, R332), and one whose
next step does not is left alone. -/
def Obligations.MemoryPortsStep : Prop :=
  ∀ (s : State) (h px py : Nat) (ib ob iv : Chan) (tid : BitVec 8) (trig : Trig) (done ct : Bool), nodeAt px py = .mp →
    let u := s.unitAt h px py
    let ag := TlbAgent.mport (py / 2)
    let held (t : State) (c v : Nat) : Prop :=
      (lget (t.unitAt h px py).pack c).elems = (lget u.pack c).elems ++ [BitVec.ofNat 64 v]
    let room (c : Nat) : Prop := (lget u.pack c).elems.length < 3 ∧ u.pack.length = 4
    (s.cur = .unit h px py →
      (u.inPass = false → u.startDone = false → ∃ t, exec (.mport ib ob tid false 0 .once done ct) s = .next t
        ∧ (t.unitAt h px py).inPass = true ∧ (t.unitAt h px py).step = 0 ∧ (t.unitAt h px py).startDone = true)
      ∧ (u.inPass = true → (u.ents.getD 0 none).isSome = true →
        let e := u.ent 0
        (u.step < e.count → e.sfmt = 0 → room ob → ∀ v b q, portRead s h ag e (e.idx u.step) = .ok (v, b) q → q.hall h = s.hall h →
          ∃ t, exec (.mport ib ob tid false 0 trig done ct) s = .next t ∧ held t ob (slotBits e.fmt v)
            ∧ (t.unitAt h px py).step = u.step + 1)
        ∧ (u.step < e.count → ∀ v q, u.head ib e.fmt.slot false = .data v →
          portWrite s h ag tid.toNat e (e.idx u.step) v = .ok () q → q.hall h = s.hall h →
          ∃ t, exec (.mport ib ob tid true 0 trig done ct) s = .next t ∧ t.mem = q.mem ∧ (t.unitAt h px py).step = u.step + 1
            ∧ (t.unitAt h px py).ins = (u.takeData ib).ins)
        ∧ (e.count ≤ u.step → ∃ t, exec (.mport ib ob tid true 0 trig done false) s = .next t
            ∧ (t.unitAt h px py).inPass = false ∧ (t.unitAt h px py).passes = u.passes + 1))
      ∧ (∀ x, u.head ib 32 false = .data x → (u.ents.getD 0 none).isSome = true → u.reqs = [] → room ob →
        (x = 0xFFFFFFFF → ∃ t, exec (.gath ib ob iv tid false false) s = .next t ∧ held t ob 0
          ∧ (t.unitAt h px py).ins = (u.takeData ib).ins)
        ∧ (x ≠ 0xFFFFFFFF → x < (u.ent 0).count → ∀ v b q, gathRead h px py ib.val (u.ent 0) false x (lget u.delivered ib) s = .ok (v, b) q →
          q.unitAt h px py = { u with snaps := (q.unitAt h px py).snaps } →
          ∃ t, exec (.gath ib ob iv tid false false) s = .next t
            ∧ held t ob v ∧ (t.unitAt h px py).ins = (u.takeData ib).ins))
      ∧ (∀ x v, u.head ib 32 false = .data x → u.head iv (u.ent 0).fmt.slot false = .data v → ib ≠ iv →
        (u.ents.getD 0 none).isSome = true →
        (x = 0xFFFFFFFF → ∀ add, (add = true → (u.ent 0).fmt = .fp32 ∨ (u.ent 0).fmt = .int32) →
          ∃ t, exec (.scat ib iv tid add false ct) s = .next t ∧ t.mem = s.mem ∧ SameScratch s t
            ∧ (t.unitAt h px py).ins = ((u.takeData ib).takeData iv).ins)
        ∧ (x ≠ 0xFFFFFFFF → x < (u.ent 0).count → ∀ q, portWrite s h ag tid.toNat (u.ent 0) ((u.ent 0).idx x) v = .ok () q →
          q.hall h = s.hall h → ∃ t, exec (.scat ib iv tid false false ct) s = .next t ∧ t.mem = q.mem
            ∧ (t.unitAt h px py).ins = ((u.takeData ib).takeData iv).ins)))
    ∧ (∀ (g : HallId) (x : Col) (y : Row), g.val = h → x.val = px → y.val = py →
      (∀ q, unitNext s h px py = .inr q → exec (.unitFaultWithhold g x y) s = .next s)
      ∧ (∀ (r : State) (m : Option StreamCase) (b : Binding) (k : Ctx) (tk : Task),
        unitNext s h px py = .inl (.gath ib ob iv tid false false, r) → (r.unitAt h px py).head ib 32 false = .bad m →
        (r.hall h).bind = some b → r.ctx? b.task.ctx = some k → r.task? b.task = some tk →
        k.fpol.getLsbD (if m.isSome then Cause.stream else Cause.lens).code = false →
        ∃ t, exec (.unitFaultWithhold g x y) s = .next t ∧ (t.hall h).held = true ∧ t.unitAt h px py = r.unitAt h px py
          ∧ (∀ q, m = some q → (t.hall h).streamCase = some q)))

/-! ## Sessions and the integrity horizon (spec/05, spec/16, spec/17) -/

/-- R110, R111, R125, R423, R424, R426, R427: SDEC, SENC and USESIG whose checks hold, made with the translations that the
sequencer's buffer holds or refills for them (R257), are accepted with their token pending and nothing written yet (USESIG
with its snapshot taken and the report number advanced), once the hall's posted REDs are done; the first check that
fails is raised. USEINC adds to its session's counter, saturating. IWAIT fixes its horizon when it issues: the checks under
way of the hall's own reads, and of those of the context's other halls that happen before it; it passes once none of them
is under way and no failure is pending, and waits before. What happens before is read from R375's clocks (log 11). -/
def Obligations.SessionWordsComplete : Prop :=
  ∀ (s : State) (h : Nat) (hd : SHdr) (a b c d e : Reg) (k : Ctx), AtWord s h hd [a, b, c, d, e] →
    s.ctx? (s.ctxOf h) = some k → k.id = s.ctxOf h → k.mirror.mode = .off →
    let x := s.hall h
    let r (q : Reg) : Nat := (x.c.reg q).toNat
    let isJob (j : CryptoJob) (handle src dst len : Nat) : Prop := j.hall = h ∧ j.ctx = s.ctxOf h ∧ j.reg = a.val
      ∧ j.handle = handle ∧ j.src = src ∧ j.dst = dst ∧ j.len = len
    let accepted (t : State) : Prop := (t.hall h).c = x.c ∧ (a ≠ 0 → (t.hall h).pend.getLsbD a.val = true)
      ∧ (t.hall h).pc = (Hall.stepped hd x).pc ∧ SameMemory s t ∧ SameScratch s t
    let ud := if r b % 64 = 0 ∧ r c % 64 = 0 then checkPages s h [(r b, 80 + min (r d) (2 ^ 24)), (r c, r d)] else s
    let ue := if r c % 64 = 0 then checkPages s h [(r b, r d), (r c, 80 + min (r d) (2 ^ 24))] else s
    let us := if r c % 64 = 0 then checkPages s h [(r c, 51872), (r d, 32)] else s
    (sdecCheck ud h (r b) (r c) (r d) (r e) = none →
        (x.posted = [] → ∃ t j, exec (.sdec hd a b c d e) s = .next t
          ∧ t.sdecs = s.sdecs ++ [j] ∧ isJob j (r e) (r b) (r c) (r d) ∧ accepted t)
        ∧ (x.posted ≠ [] → exec (.sdec hd a b c d e) s = .next ud))
    ∧ (∀ f, sdecCheck ud h (r b) (r c) (r d) (r e) = some f → exec (.sdec hd a b c d e) s = .next (raise ud h f.1 f.2 x.pc))
    ∧ (r b % 64 ≠ 0 → exec (.sdec hd a b c d e) s = .next (raise s h .align (x.c.reg b) x.pc))
    ∧ (sencCheck ue h (r b) (r c) (r d) (r e) = none →
        (x.posted = [] → ∃ t j, exec (.senc hd a b c d e) s = .next t
          ∧ t.sencs = s.sencs ++ [j] ∧ isJob j (r e) (r b) (r c) (r d) ∧ j.started = false ∧ accepted t)
        ∧ (x.posted ≠ [] → exec (.senc hd a b c d e) s = .next ue))
    ∧ (∀ f, sencCheck ue h (r b) (r c) (r d) (r e) = some f → exec (.senc hd a b c d e) s = .next (raise ue h f.1 f.2 x.pc))
    ∧ (∀ f, usesigCheck us h (r b) (r c) (r d) = some f → exec (.usesig hd a b c d) s = .next (raise us h f.1 f.2 x.pc))
    ∧ (usesigCheck us h (r b) (r c) (r d) = none →
        (16 ≤ s.sigs.length ∨ x.posted ≠ [] → exec (.usesig hd a b c d) s = .next us)
        ∧ ∀ nonce u ses, s.sigs.length < 16 → x.posted = [] → engineRead us h (r d) 32 = .ok nonce u →
          u = { us with recs := u.recs } →
          nonce ≠ [] → k.session? (r b) = some ses → ∃ t j, exec (.usesig hd a b c d) s = .next t
            ∧ t.sigs = s.sigs ++ [j] ∧ isJob j (r b) (r d) (r c) 51872 ∧ j.seqno = ses.rseq + 1
            ∧ j.data = nonce ++ usageBody ses.sid (r b) false ses.count (ses.rseq + 1) ses.nrq ses.rc
            ∧ sessionOf t (s.ctxOf h) (r b) = some { ses with rseq := ses.rseq + 1 } ∧ accepted t)
    ∧ (255 < r b → exec (.useinc hd b c) s = .next (raise s h .access 0 x.pc))
    ∧ (r b ≤ 255 → sessionOpen s (s.ctxOf h) (r b) = false →
        exec (.useinc hd b c) s = .next (raise s h .session (x.c.reg b) x.pc))
    ∧ (∀ ses, r b ≤ 255 → k.session? (r b) = some ses → ses.closing = false → ∃ t, exec (.useinc hd b c) s = .next t
        ∧ sessionOf t (s.ctxOf h) (r b) = some { ses with count := min (2 ^ 64 - 1) (ses.count + r c) }
        ∧ (∀ m, m ≠ r b → sessionOf t (s.ctxOf h) m = sessionOf s (s.ctxOf h) m)
        ∧ (t.hall h).c = x.c ∧ (t.hall h).pc = (Hall.stepped hd x).pc ∧ SameMemory s t ∧ SameScratch s t)
    ∧ (let past (q : Check) : Prop := q ∈ s.checks ∧ q.ctx = s.ctxOf h
         ∧ (q.hall = h ∨ q.epoch < (s.clock (s.ctxOf h) h).getD q.hall 0)
       let passes : Prop := exec (.iwait hd) s
         = .next (((s.updHall h fun x => { x with horizon := none }).updHall h Hall.syncAu).stepped h hd)
       let waits (ids : List Nat) : Prop := exec (.iwait hd) s = .next (s.updHall h fun x => { x with horizon := some ids })
       (x.horizon = none → ((∀ q, ¬ past q) → k.integ = false → passes)
         ∧ ((∃ q, past q) ∨ k.integ = true → ∃ ids, (∀ n, n ∈ ids ↔ ∃ q, past q ∧ q.id = n) ∧ waits ids))
       ∧ (∀ ids, x.horizon = some ids → ((∀ q ∈ s.checks, q.id ∉ ids) → k.integ = false → passes)
         ∧ ((∃ q ∈ s.checks, q.id ∈ ids) ∨ k.integ = true → waits ids)))

/-- R108, R110, R112, R113, R424, R425, R427, R428: how the engines' work ends. SDEC opens an envelope in the order of
its checks and advances NRQ only when it opens; one that fails leaves zeros. SENC reads its plaintext once, then seals
it with the session's counter and advances it; USESIG signs its snapshot. Neither writes before the integrity horizon.
Each writes its status into its token register. R126, R408: a hall's egress leaves once the checks it waits for have
passed, never before an earlier one of its hall, and not at all while a failure is pending; R285: that of a copy leaves
only after all the copy's reads; a check of no egress only passes; a check that fails ends its context. The bytes of
ciphers and reports are opaque (log 5). -/
def Obligations.SessionEnginesAndHorizon : Prop :=
  (∀ (s : State) (id : Nat) (j : CryptoJob) (ses : Session) (k : Ctx), s.ctx? j.ctx = some k → k.id = j.ctx →
     k.mirror.mode = .off → k.session? j.handle = some ses → ses.closing = false → jobBound s j = true →
     let h := j.hall
     let reg : Reg := Fin.ofNat 64 j.reg
     let ended (u t : State) (cause info : Nat) : Prop :=
       (t.hall h).c = (u.hall h).c.setReg reg (BitVec.ofNat 64 (cause * 2 ^ 56 + info % 2 ^ 32))
       ∧ (reg ≠ 0 → (t.hall h).pend.getLsbD reg.val = false) ∧ (t.hall h).pc = (u.hall h).pc ∧ SameMemory u t ∧ SameScratch u t
     let open_ : Prop := (∀ q ∈ s.checks, q.id ∉ j.checks) ∧ k.integ = false
     let first (l : List CryptoJob) : Prop := (l.filter fun q => q.ctx == j.ctx && q.handle == j.handle).head? = some j
     (s.sdecs.find? (fun q => q.id == id) = some j → first s.sdecs → j.started = false → j.data = [] →
       ∀ hdr u, engineRead s h j.src 64 = .ok hdr u → u = { s with recs := u.recs } → hdr ≠ [] →
       let f (off n : Nat) : Nat := leNat ((hdr.drop off).take n)
       let form : Prop := f 0 4 = 0x4E564531 ∧ f 4 2 = 1 ∧ f 6 2 = 1 ∧ f 0x1C 36 = 0
       let mine : Prop := f 8 8 = ses.sid.toNat
       let next : Prop := f 0x10 8 = ses.nrq
       let len := f 0x18 4
       let fails (cause info : Nat) : Prop := ∃ t, exec (.sdecComplete id) s = .next t ∧ ended u t cause info
         ∧ t.sdecs = s.sdecs.filter (fun q => q.id ≠ id) ∧ sessionOf t j.ctx j.handle = some ses
       (¬ form → fails 4 0) ∧ (form → ¬ mine → fails 3 0) ∧ (form → mine → ¬ next → fails 2 ses.nrq)
       ∧ (form → mine → next → (len = 0 ∨ 2 ^ 24 < len ∨ j.len < len) → fails 5 0)
       ∧ (form → mine → next → len ≠ 0 → len ≤ 2 ^ 24 → len ≤ j.len →
         let j' := { j with data := hdr, started := true }
         let u' := setJob (setJob u { j with data := hdr }) j'
         ∀ body v n w, engineRead u' h (j.src + 64) (len + 16) = .ok body v →
         let opened := sdecOpen ses hdr (body.take len) (body.drop len)
         jobStore v j' (some ses.skd) j.dst (match opened with | some pt => fitBytes len pt | none => List.replicate len 0) = .ok n w →
         w.ctx? j.ctx = some k → jobBound w j = true → w.sdecs = u'.sdecs →
         ∃ t, exec (.sdecComplete id) s = .next t ∧ t.sdecs = s.sdecs.filter (fun q => q.id ≠ id)
           ∧ (opened.isSome = true → ended w t 0 len
               ∧ sessionOf t j.ctx j.handle = some { ses with nrq := ses.nrq + 1 })
           ∧ (opened = none → ended w t 1 0 ∧ sessionOf t j.ctx j.handle = some ses)))
     ∧ (s.sdecs.find? (fun q => q.id == id) = some j → first s.sdecs → j.started = true →
       ∀ q n w, j.work = some q → jobStore s j (some ses.skd) (j.dst + q.wrote) q.bytes = .stops n w →
         exec (.sdecComplete id) s = .next (setJob w { j with work := some { q with wrote := q.wrote + n, bytes := q.bytes.drop n } }))
     ∧ (s.sencs.find? (fun q => q.id == id) = some j → first s.sencs →
       let fails (cause : Nat) : Prop := ∃ t, exec (.sencComplete id) s = .next t ∧ ended s t cause 0
         ∧ t.sencs = s.sencs.filter (fun q => q.id ≠ id) ∧ sessionOf t j.ctx j.handle = some ses
       let j1 := { j with seqno := 1 }
       let s1 := if j.seqno = 1 then s else setJob s j1
       (j.len = 0 ∨ 2 ^ 24 < j.len → fails 5) ∧ (j.len ≠ 0 → j.len ≤ 2 ^ 24 → 2 ^ 64 ≤ ses.rc → fails 2)
       ∧ (j.len ≠ 0 → j.len ≤ 2 ^ 24 → ses.rc < 2 ^ 64 → j.started = false → ∀ pt u, engineRead s1 h j.src j.len = .ok pt u →
         let own := (lineChecks u h (jobLines u j1 j.src j.len)).filter fun c => !j.checks.contains c
         exec (.sencComplete id) s
           = .next (setJob u { j1 with data := pt, started := true, checks := j.checks ++ own }))
       ∧ (j.len ≠ 0 → j.len ≤ 2 ^ 24 → ses.rc < 2 ^ 64 → j.seqno = 1 → j.started = true → j.work = none →
         (¬ open_ → exec (.sencComplete id) s = .next s)
         ∧ (open_ → ∀ n w,
           let hdr := leBytes 4 0x4E564531 ++ leBytes 2 1 ++ leBytes 2 2 ++ leBytes 8 ses.sid.toNat ++ leBytes 8 ses.rc
             ++ leBytes 4 j.len ++ List.replicate 36 0
           let sealed := Config.gcmSeal ses.key (gcmNonce 2 ses.rc) hdr j.data
           jobStore s j none j.dst (hdr ++ fitBytes j.len sealed.1 ++ fitBytes 16 sealed.2) = .ok n w →
           w.ctx? j.ctx = some k → jobBound w j = true → w.sencs = s.sencs →
           ∃ t, exec (.sencComplete id) s = .next t ∧ ended w t 0 j.len
             ∧ t.sencs = s.sencs.filter (fun q => q.id ≠ id)
             ∧ sessionOf t j.ctx j.handle = some { ses with rc := ses.rc + 1 })))
     ∧ (s.sigs.find? (fun q => q.id == id) = some j →
       (j.data = [] → ∃ t, exec (.usesigComplete id) s = .next t ∧ ended s t 6 0)
       ∧ (j.data ≠ [] → ¬ open_ → exec (.usesigComplete id) s = .next s)
       ∧ (j.data ≠ [] → open_ → j.work = none → ∀ n w,
         jobStore (certify s) j none j.dst (signedReport (reportHead s 2 (j.data.take 32) j.ctx k.peerMask k.libdig k.poldig
           (j.data.drop 32))) = .ok n w → w.ctx? j.ctx = some k → jobBound w j = true → w.sigs = s.sigs →
         ∃ t, exec (.usesigComplete id) s = .next t ∧ ended w t 0 j.seqno ∧ t.sigs = s.sigs.filter (fun q => q.id ≠ id))))
  ∧ (∀ (s : State) (id : Nat) (k : Ctx),
       (∀ e, s.egress = [e] → e.id = id → s.ctx? e.ctx = some k →
         (k.integ = false → e.job = none → s.ats.contains (e.host / 65536) = true → ∃ t, exec (.horizonReached id) s = .next t
           ∧ t.hostMem = cwrite s.hostMem e.host e.data ∧ t.egress = [] ∧ t.mem = s.mem ∧ t.halls = s.halls
           ∧ t.checks = s.checks.filter fun c => !e.checks.contains c.id)
         ∧ (∀ n, e.job = some n → (∀ p ∈ s.halls, ∀ q ∈ p.2.copies, q.id = n → q.done < q.len) →
             exec (.horizonReached id) s = .next s)
         ∧ (k.integ = true → exec (.horizonReached id) s = .next s))
       ∧ (∀ e₁ e₂, s.egress = [e₁, e₂] → e₁.hall = e₂.hall → e₁.id ≠ id → e₂.id = id → e₂.job = none →
         (∃ c ∈ s.checks, c.id ∈ e₁.checks ∧ c.id ∉ e₂.checks) →
         ∃ t, exec (.horizonReached id) s = .next t ∧ t.egress = s.egress ∧ SameMemory s t)
       ∧ (s.egress.find? (fun e => e.id == id) = none →
         exec (.horizonReached id) s = .next { s with checks := s.checks.filter fun c => c.id ≠ id })
       ∧ (∀ c, s.checks.find? (fun c => c.id == id) = some c → s.ctx? c.ctx = some k → s.ctxOf c.hall = c.ctx →
         s.ContextsKeyed → ∃ t, exec (.integFail id) s = .next t ∧ t.ctx? c.ctx = none))

/-! ## The system context, timers and failures (spec/15, spec/16) -/

/-- R406, R407, R420: the words of the system context answer a status in their register. Outside it they raise PRIV; an
unknown context and the system context give NOCTX, one that is ending FINAL, a task that cannot be saved or resumed NOTASK,
no spill slot NOSPACE, and a context in the wrong state BUSY. CTXSV.task saves a task, and CTXSV.ctx every task that
stands on halls, with the status pending until the saves end. CTXSV.ctx of a context with nothing to save answers at once,
and its INFO is open (log 7). That LOGCTL.off too refuses a bad ring, and BUSY only for a task that runs, is the model's
reading (log 30), and so is NOSPACE of CTXLD.res with too few slots (log 72). R421, R422: TLBI of a context removes from each of its halls the cached
translations that map a byte of the range, or all of them, and no other; HALT ends every tenant, destroys the boot KEM
key and stops the package's work. Outside the system context both raise PRIV. That a save of a task is refused with
FINAL only in an ending context is the model's reading (log 16). -/
def Obligations.SystemContextWordsComplete : Prop :=
  (∀ (s : State) (h : Nat) (hd : SHdr) (a b c d : Reg), AtWord s h hd [a, b, c, d] →
     let x := s.hall h
     let gives (i : Instr) (cause : Nat) (post : State → Prop) : Prop := ∃ t, exec i s = .next t
       ∧ (t.hall h).c = x.c.setReg a (BitVec.ofNat 64 (cause * 2 ^ 56)) ∧ (t.hall h).pc = (Hall.stepped hd x).pc ∧ post t
     let saves (i : Instr) : Prop := i = .ctxsvTask hd a b c ∨ i = .ctxsvCtx hd a b
     let loads (i : Instr) : Prop := i = .ctxldCtx hd a b ∨ i = .ctxldRes hd a b c ∨ i = .ctxldKill hd a b
     let modes (i : Instr) : Prop := i = .logctlOff hd a b c d ∨ i = .logctlRec hd a b c d ∨ i = .logctlRep hd a b c d
     (s.isSystem (s.ctxOf h) = false → ∀ i, saves i ∨ loads i ∨ modes i → exec i s = .next (raise s h .priv 0 x.pc))
     ∧ (s.isSystem (s.ctxOf h) = true → s.ctx? (x.c.reg b) = none → ∀ i, saves i ∨ loads i ∨ modes i →
         gives i 1 fun t => SameMemory s t ∧ SameScratch s t)
     ∧ (∀ k, s.isSystem (s.ctxOf h) = true → s.ctx? (x.c.reg b) = some k → k.vf = 0 → ∀ i, saves i ∨ loads i ∨ modes i →
         gives i 1 fun t => SameMemory s t ∧ SameScratch s t ∧ t.ctxs = s.ctxs ∧ t.tasks = s.tasks)
     ∧ (∀ k, s.isSystem (s.ctxOf h) = true → s.ctx? (x.c.reg b) = some k → k.id = x.c.reg b → k.vf ≠ 0 →
       (k.terminating = true ∨ k.integ = true → ∀ i, saves i ∨ loads i ∨ modes i →
         gives i 5 fun t => SameMemory s t ∧ t.ctxs = s.ctxs ∧ t.tasks = s.tasks)
       ∧ (k.terminating = false → k.integ = false →
         let id : TaskId := ⟨k.id, (x.c.reg c).toNat⟩
         let none_ (t : State) : Prop := SameMemory s t ∧ t.ctxs = s.ctxs ∧ t.tasks = s.tasks
         (s.task? id = none → gives (.ctxsvTask hd a b c) 2 none_ ∧ gives (.ctxldRes hd a b c) 2 none_)
         ∧ (∀ tk, s.task? id = some tk →
           (tk.savable s = false → gives (.ctxsvTask hd a b c) 2 none_)
           ∧ (tk.savable s = true → freeSlots s k < tk.onHalls.length → gives (.ctxsvTask hd a b c) 3 none_)
           ∧ (tk.savable s = true → tk.onHalls.length ≤ freeSlots s k → k.mirror.mode = .off → h ∉ tk.onHalls → tk.onHalls ≠ [] →
             (∀ g ∈ tk.onHalls, (s.hall g).atExit = false ∧ (s.hall g).feq = []) → ∃ t tk', exec (.ctxsvTask hd a b c) s = .next t
               ∧ (a ≠ 0 → (t.hall h).pend.getLsbD a.val = true) ∧ (t.hall h).c = x.c ∧ t.task? id = some tk'
               ∧ tk'.state = .frozen ∧ ∀ g ∈ tk.onHalls, (t.hall g).res = .saving)
           ∧ (tk.stopped = false ∨ tk.saving s = true → gives (.ctxldRes hd a b c) 2 none_)
           ∧ (tk.stopped = true → tk.saving s = false → freeSlots s k < tk.onHalls.length → gives (.ctxldRes hd a b c) 3 none_)
           ∧ (tk.stopped = true → tk.saving s = false → tk.onHalls.length ≤ freeSlots s k → tk.saved = true →
             gives (.ctxldRes hd a b c) 0 fun t => SameMemory s t
               ∧ t.task? id = some { tk with state := .queued, held := false }))
         ∧ (k.parked = true → gives (.ctxsvCtx hd a b) 4 none_
           ∧ gives (.ctxldCtx hd a b) 0 fun t => SameMemory s t ∧ t.ctx? k.id = some { k with parked := false })
         ∧ (k.parked = false → gives (.ctxldCtx hd a b) 4 none_)
         ∧ (let mine := s.tasks.filter fun t => decide (t.id.ctx = k.id ∧ t.onHalls ≠ [])
            let need := ((mine.filter fun t => !t.saving s).map fun t => t.onHalls.length).sum
            (k.parked = false → freeSlots s k < need → gives (.ctxsvCtx hd a b) 3 none_)
            ∧ (k.parked = false → need ≤ freeSlots s k → mine ≠ [] → k.mirror.mode = .off → (mine.map (·.id)).Nodup →
              (mine.flatMap (·.onHalls)).Nodup → (∀ tk ∈ mine, s.task? tk.id = some tk ∧ h ∉ tk.onHalls ∧ tk.saving s = false
                ∧ ∀ g ∈ tk.onHalls, (s.hall g).feq = []) →
              ∃ t, exec (.ctxsvCtx hd a b) s = .next t ∧ (a ≠ 0 → (t.hall h).pend.getLsbD a.val = true) ∧ (t.hall h).c = x.c
                ∧ t.ctx? k.id = some { k with parked := true }
                ∧ ∀ tk ∈ mine, (tk.state ≠ .dispatched → ∀ g ∈ tk.onHalls, (t.hall g).res = .saving)
                  ∧ (tk.state = .dispatched → ∃ q, t.task? tk.id = some q ∧ q.preempting = true ∧ q.freezePt = false)))
         ∧ (k.parked = false → (∀ t ∈ s.tasks, t.id.ctx = k.id → t.onHalls = []) → ∃ t v, exec (.ctxsvCtx hd a b) s = .next t
           ∧ (t.hall h).c = x.c.setReg a v ∧ v.toNat < 2 ^ 56 ∧ t.ctx? k.id = some { k with parked := true } ∧ SameMemory s t)
         ∧ (s.ContextsKeyed → h ∉ hallsOf s k.id → (∀ t ∈ s.tasks, t.id.ctx = k.id → t.notify = []) →
           gives (.ctxldKill hd a b) 0 fun t => t.ctx? k.id = none ∧ ∀ tk ∈ t.tasks, tk.id.ctx ≠ k.id)
         ∧ ((∃ t ∈ s.tasks, t.id.ctx = k.id ∧ (t.state = .running ∨ t.state = .triggered)) → ∀ i, modes i → gives i 4 none_)
         ∧ ((∀ t ∈ s.tasks, t.id.ctx = k.id → t.state ≠ .running ∧ t.state ≠ .triggered) →
           let base := x.c.reg c
           let size := x.c.reg d
           let set (m : MirrorMode) (t : State) : Prop := SameMemory s t
             ∧ t.ctx? k.id = some { k with mirror := .restart m (base &&& 0xFFFFFFFFFFFFFF) size s.tick }
           (ringOk s k base.toNat size.toNat = true →
               gives (.logctlOff hd a b c d) 0 (set .off)
               ∧ gives (.logctlRec hd a b c d) 0 (set .record) ∧ gives (.logctlRep hd a b c d) 0 (set .replay))
           ∧ (ringOk s k base.toNat size.toNat = false → ∀ i, modes i → gives i 6 none_))))
     ∧ (x.merges = [] → gives (.logctlFlush hd a) 0 fun t => SameMemory s t ∧ SameScratch s t))
  ∧ (∀ (s : State) (h : Nat) (hd : SHdr) (b c d : Reg) (all : Bool), AtWord s h hd [b, c, d] →
       let x := s.hall h
       let va := (x.c.reg b).toNat
       let n := (x.c.reg c).toNat
       (s.isSystem (s.ctxOf h) = false → exec (.tlbi hd b c d all) s = .next (raise s h .priv 0 x.pc)
         ∧ exec (.halt hd) s = .next (raise s h .priv 0 x.pc))
       ∧ (s.isSystem (s.ctxOf h) = true →
         (s.ctx? (x.c.reg d) = none → exec (.tlbi hd b c d all) s = .next (s.stepped h hd))
         ∧ (∀ k, s.ctx? (x.c.reg d) = some k → x.posted = [] → x.l1 = [] → hostPending s h = false → (∀ e ∈ s.egress, e.ctx ≠ k.id) →
           ∃ t, exec (.tlbi hd b c d all) s = .next t
           ∧ (t.hall h).c = x.c ∧ (t.hall h).pc = (Hall.stepped hd x).pc
           ∧ ∀ g, (s.hall g).ctx? = some k.id → (t.hall g).tlb = (s.hall g).tlb.filter fun e =>
               !(all || (decide (n ≠ 0) && decide (e.va < va + n) && decide (va < e.va + if e.big then 0x200000 else 0x10000))))
         ∧ ∃ t, exec (.halt hd) s = .next t ∧ t.phase = .halted ∧ t.rsc.kem = none
           ∧ (s.ContextsKeyed → ∀ p ∈ t.ctxs, p.2.vf = 0)))

/-- R396, R417: the watchdog's first expiry raises WDOG at the word at the point of execution, its second fences the
hall and ends the context; a place of a replaying Mirror that has waited for 2^20 ticks freezes the hall it belongs to,
or for a Landing every hall of its context, and the tail every hall, with MRDIV; the hall of a place that is no part of one
is the model's reading (log 31). Before its time no timer does anything. R409, R415: an island that fails
takes its hall out of service, counted, and its context ends; an island of no hall changes nothing; an uncorrectable
error in a hall's control state that cannot be saved does the same, and one that can be saved saves the task first. That an
island of no hall changes nothing is the model's reading (log 43). -/
def Obligations.TimersAndFailures : Prop :=
  (∀ (s : State) (g : HallId) (ctx : Word) (node : BitVec 16) (k : Ctx),
     let h := g.val
     let x := s.hall h
     let due : Prop := x.watched = true ∧ x.wdogPeriod ≤ x.wdogCount
     (due ∧ x.wdogFired = false → exec (.wdogExpiry g) s =
       .next (raise (s.setHall h { x with wdogCount := 0, wdogFired := true }) h .wdog 0 x.pc))
     ∧ (¬ (due ∧ x.wdogFired = false) → exec (.wdogExpiry g) s = .next s)
     ∧ (due ∧ x.wdogFired = true → ∃ t, exec (.wdogSecondExpiry g) s = .next t ∧ (t.hall h).res = .fenced
       ∧ t.fences = s.fences + 1 ∧ (s.ContextsKeyed → t.ctx? (s.ctxOf h) = none))
     ∧ (¬ (due ∧ x.wdogFired = true) → exec (.wdogSecondExpiry g) s = .next s)
     ∧ (s.ctx? ctx = some k → k.id = ctx →
       (∀ key since src i, timersRun s k = true →
         k.mirror.waits.filter (fun w => w.1 % 65536 == node.toNat) = [(key, since, src)] → awaited s k key src = some i →
         since + 2 ^ 20 ≤ s.tick → k.fpol.getLsbD 8 = false →
         ((placeUnit node.toNat src).map (·.1) = some h → x.ctx? = some ctx →
           ∃ t, exec (.mrdivPlaceTimeout ctx node) s = .next t ∧ (t.hall h).held = true ∧ (t.hall h).c = x.c)
         ∧ (placeUnit node.toNat src = none → Rising s.halls → ∃ t, exec (.mrdivPlaceTimeout ctx node) s = .next t
           ∧ ∀ q, (s.hall q).ctx? = some ctx → (t.hall q).held = true))
       ∧ (timersRun s k = false ∨ (∀ w ∈ k.mirror.waits, w.1 % 65536 = node.toNat → s.tick < w.2.1 + 2 ^ 20) →
           exec (.mrdivPlaceTimeout ctx node) s = .next s)
       ∧ (timersRun s k = false ∨ s.tick < k.mirror.quiet + 2 ^ 20 → exec (.mrdivTailTimeout ctx) s = .next s)
       ∧ (timersRun s k = true → k.mirror.quiet + 2 ^ 20 ≤ s.tick → k.fpol.getLsbD 8 = false → Rising s.halls →
         ∃ t, exec (.mrdivTailTimeout ctx) s = .next t
           ∧ ∀ q, (s.hall q).ctx? = some ctx → (t.hall q).held = true)))
  ∧ (∀ (s : State) (isl : Fin 128) (g : HallId) (b : Binding) (tk : Task) (k : Ctx),
       let i := isl.val % 64
       let h := 24 * (isl.val / 64) + i / 2
       let x := s.hall g.val
       let ends (t : State) (q : Nat) : Prop := (t.hall q).res = .fenced ∧ (s.ContextsKeyed → t.ctx? (s.ctxOf q) = none)
       (i < 48 → ∃ t, exec (.islandFailure isl) s = .next t ∧ ends t h)
       ∧ (48 ≤ i → exec (.islandFailure isl) s = .next s)
       ∧ (x.bind = some b → s.task? b.task = some tk → s.ctx? b.task.ctx = some k → k.fpol.getLsbD 4 = false →
         (∃ t, exec (.controlStateMemerr g false) s = .next t ∧ ends t g.val)
         ∧ (x.res = .running → g.val ∈ tk.onHalls → tk.onHalls.length ≤ freeSlots s k → k.mirror.mode = .off →
           (∀ q ∈ tk.onHalls, (s.hall q).l1 = [] ∧ (s.hall q).feq = [] ∧ (s.hall q).res = .running) →
           ∃ t tk', exec (.controlStateMemerr g true) s = .next t ∧ (t.hall g.val).res = .saving
             ∧ t.task? b.task = some tk' ∧ tk'.fencing = some g.val ∧ tk'.held = true)))

/-! ## The Landing (spec/06) and the fabric (spec/07) -/

/-- R139 to R142: with one ready task that can be placed the Landing assigns the halls it chooses, whose bindings name
the instance, the kernel and the tag; a gallery task that cannot be placed reserves the best gallery from now on; with
none ready, and no context in REPLAY, nothing happens. A reservation of 2^22 ticks lapses, and so does the hold of halls
that victims have freed (R146); the task stays READY. R27, R131, R144, R145, R308, R411
to R413: BINDING of the one hall of a task that was never saved ends with the hall running at the start state, or frozen there where the task was frozen meanwhile; a chosen
victim stops and its halls are being saved; a task whose halls are saved with nothing left to wait for leaves them,
READY, one sealed image for each instance. -/
def Obligations.LandingBindsAndPreempts : Prop :=
  (∀ (s : State) (die : Fin 2) (t : Task) (k : Ctx), s.ctx? t.id.ctx = some k → s.task? t.id = some t →
     (s.phase ≠ .running ∨ readyTasks s die.val = [] ∧ (∀ p ∈ s.ctxs, p.2.mirror.mode ≠ .replay) →
       exec (.landingDecision die) s = .next s)
     ∧ (s.phase = .running → readyTasks s die.val = [t] → k.mirror.mode = .off → (∀ p ∈ s.ctxs, p.2.mirror.mode ≠ .replay) →
       (∀ hs tag u kc, placement s t [] = some hs → hs.Nodup → admitKernel s t.id.ctx (galleryOf (hs.headD 0)) t.kidx = .ok (tag, u) →
         findConf u (galleryOf (hs.headD 0)) tag = some kc → u.task? t.id = some t → (∀ r ∈ t.retired, r = false) →
         ∃ v tk, exec (.landingDecision die) s = .next v ∧ v.task? t.id = some tk ∧ tk.state = .dispatched ∧ tk.granted = hs
           ∧ (2 ≤ t.halls → ∀ q, tk.unit = some q → (v.bar (3 * galleryOf (hs.headD 0) + q)).task = some t.id)
           ∧ ∀ i g, hs[i]? = some g → (v.hall g).res = .binding
             ∧ (v.hall g).bind = some ⟨t.id, i, t.kidx, tag, kc.kernel⟩)
       ∧ (∀ kern p, placement s t [] = none → 2 ≤ t.halls → t.prio = 0 → t.state = .queued → t.lapsed = none →
         kernelInfo k t.kidx = some kern → bestOf (rankKey s k t kern) (candidates s k t kern []) = some p →
         ∃ v, exec (.landingDecision die) s = .next v
           ∧ v.task? t.id = some { t with state := .reserving, resGallery := p.1, resStart := s.tick }))
     ∧ (let holds : Prop := t.state = .reserving ∨ t.state = .queued ∧ t.resHalls ≠ []
        (holds ∧ t.resStart + 2 ^ 22 ≤ s.tick →
         ∃ v, exec (.reservationLapse t.id.ctx (BitVec.ofNat 64 t.id.va)) s = .next v
           ∧ (t.id.va < 2 ^ 64 → v.task? t.id = some { t with state := .queued, resHalls := [], lapsed := some s.dispatches }))
        ∧ (¬ (holds ∧ t.resStart + 2 ^ 22 ≤ s.tick) → t.id.va < 2 ^ 64 →
         exec (.reservationLapse t.id.ctx (BitVec.ofNat 64 t.id.va)) s = .next s)))
  ∧ (∀ (s : State) (g : HallId) (b : Binding) (t : Task) (k : Ctx),
       let h := g.val
       let x := s.hall h
       s.ctx? t.id.ctx = some k → k.id = t.id.ctx → s.task? t.id = some t → t.id.va < 2 ^ 64 →
       (x.bind = some b → b.task = t.id → t.id.va ≠ dispVA → x.res = .binding → x.bound = false → t.onHalls = [h] →
         t.saved = false → spillWaits s h = false → ∃ u tk, exec (.bindingComplete g) s = .next u
           ∧ (u.hall h).res = .running ∧ (u.hall h).held = t.held ∧ (u.hall h).pc = 0 ∧ (u.hall h).lc = 0 ∧ (u.hall h).pend = 0
           ∧ (u.hall h).trap = TrapRegs.reset ∧ (u.hall h).bind = some b
           ∧ (∀ r : Reg, (u.hall h).c.reg r = match r.val with
               | 1 => t.args.getD 0 0 | 2 => t.args.getD 1 0 | 3 => t.args.getD 2 0 | 4 => t.args.getD 3 0
               | 5 => BitVec.ofNat 64 b.inst | 6 => BitVec.ofNat 64 t.halls | _ => 0)
           ∧ (u.hall h).a = (u.hall h).c
           ∧ (u.hall h).split = (if b.kernel.split = 0 then x.split else b.kernel.split)
           ∧ (∀ m q, ((u.hall h).node m).tile q = ⟨.none, false, []⟩)
           ∧ u.task? t.id = some tk ∧ tk.state = (if t.held then .frozen else if t.triggered then .triggered else .running))
       ∧ (t.saving s = false → t.preempting = true → t.state = .running → t.freezePt = false → t.held = false →
         t.onHalls.length ≤ freeSlots s k → t.onHalls ≠ [] → t.fencing = none →
         (t.notify = [] ∨ ∀ q ∈ t.onHalls, (s.hall q).atExit = false) → (∀ q ∈ t.onHalls, (s.hall q).feq = []) →
         ∃ u, exec (.preempt t.id.ctx (BitVec.ofNat 64 t.id.va)) s = .next u
           ∧ u.task? t.id = some { t with state := .frozen, preempting := false }
           ∧ ∀ q ∈ t.onHalls, (u.hall q).res = .saving ∧ (u.hall q).c = (s.hall q).c ∧ (u.hall q).pc = (s.hall q).pc)
       ∧ (t.saving s = true → t.onHalls = [h] → enginesPending s h = false → t.unit = none → t.fencing = none → t.notify = [] →
         x.bind = some b → b.task = t.id → x.feq = [] → x.l1 = [] → (s.saves.filter fun v => v.ctx == k.id).length < k.spillslots.toNat →
         ∃ u v tk, exec (.preempt t.id.ctx (BitVec.ofNat 64 t.id.va)) s = .next u
           ∧ u.saves = s.saves ++ [v] ∧ v.ctx = k.id ∧ v.task = t.id ∧ v.ver = k.vc ∧ v.split = x.split
           ∧ v.hall = readout x b ∧ (∀ w ∈ s.saves, w.ctx = k.id → w.slot ≠ v.slot) ∧ v.slot < k.spillslots.toNat
           ∧ (∃ k', u.ctx? k.id = some k' ∧ k'.vc = k.vc + 1)
           ∧ u.task? t.id = some tk ∧ tk.state = .queued ∧ tk.saved = true ∧ tk.granted = []
           ∧ (u.hall h).bind = none ∧ (x.res ≠ .fenced → (u.hall h).res = .idle)))

/-- R172 to R174: a node that needs its entry asks for it, once; the entry that arrives is kept under its tag, poisoned
or not, is forward progress, and gives a facet its rules. R159, R164 to R168: a switch box passes the token at an input
to its route with its lanes mapped, in order; a box whose route has no space, or whose merge has not chosen that input,
passes nothing; a lens-marked token that reaches a route with space that takes none freezes the hall. A merge with the Mirror off chooses by
its rule and remembers its choice. -/
def Obligations.FabricFetchesAndSwitches : Prop :=
  (∀ (s : State) (g : HallId) (node : Nat) (tag : BitVec 16),
     let h := g.val
     let x := s.hall h
     let wants : Prop := x.active = true ∧ node < 192 ∧ x.config node = .missing ∧ mfind x.fetch node = none
       ∧ needsConfig x node = true
     (wants → exec (.configFetch g node) s = .next (s.setHall h { x with fetch := mset x.fetch node (x.tag, s.tick) }))
     ∧ (¬ wants → exec (.configFetch g node) s = .next s)
     ∧ (∀ how, mfind x.fetch node = none → exec (.configFetchComplete g node how) s = .next s)
     ∧ (∀ since, mfind x.fetch node = some (tag, since) → Rising x.fetch → (mget x.stores node []).length < 4 →
       (mget x.stores 160 []).length < 4 →
       (80 ≤ node → ∀ how, ∃ t, exec (.configFetchComplete g node how) s = .next t ∧ OnlyHall h s t
         ∧ (⟨tag, how == .poisoned⟩ : StoreEntry) ∈ mget (t.hall h).stores node [] ∧ mfind (t.hall h).fetch node = none
         ∧ (t.hall h).wdogCount = 0 ∧ (t.hall h).c = x.c ∧ (t.hall h).pc = x.pc)
       ∧ (∀ n px py, node = 8 * px + py → py < 8 → node < 80 → nodeAt px py = .facet n → x.active = true →
         (x.facet n).installed = false → firstIllegal .facet 0 (x.sect [2] px py) = none →
         ∃ t, exec (.configFetchComplete g node .ok) s = .next t ∧ OnlyHall h s t
           ∧ (⟨tag, false⟩ : StoreEntry) ∈ mget (t.hall h).stores node []
           ∧ (t.hall h).facet n = { x.facet n with pool := x.sect [2] px py, conf := confRows (x.sect [3] px py)
                                                   installed := true })))
  ∧ (∀ (s : State) (g : HallId) (px : Col) (py : Row) (port : Fin 5) (track : Chan) (r : Route) (tok : Token) (rest : List Token),
       let h := g.val
       let x := s.hall h
       x.active = true → x.config (80 + 8 * px.val + py.val) = .ok → Rising x.links →
       (x.queue px.val py.val port.val track.val = tok :: rest → x.routesAt px.val py.val = [r] →
         r.x = px.val → r.y = py.val → r.ipA = port.val → r.itA = track.val → r.mrg = false → r.op ≠ port.val →
         (tok.lens = true → r.lns = false → x.destRoom px.val py.val r.op r.otr = true → ∀ (b : Binding) (k : Ctx) (tk : Task), x.bind = some b →
           s.ctx? b.task.ctx = some k → s.task? b.task = some tk → k.fpol.getLsbD 6 = false →
           ∃ t, exec (.switchTokenPass g px py port track) s = .next t ∧ (t.hall h).held = true
             ∧ (t.hall h).queue px.val py.val port.val track.val = tok :: rest)
         ∧ (x.destRoom px.val py.val r.op r.otr = false →
           exec (.switchTokenPass g px py port track) s = .next s)
         ∧ (∀ nx ny p, tok.lens = false ∨ r.lns = true → r.op < 4 → port.val < 4 → neighbour px.val py.val r.op = some (nx, ny, p) →
           x.queue nx ny p r.otr = [] → r.otr < 4 → ∃ t out, exec (.switchTokenPass g px py port track) s = .next t ∧ OnlyHall h s t
             ∧ (t.hall h).queue px.val py.val port.val track.val = rest ∧ (t.hall h).queue nx ny p r.otr = [out]
             ∧ out.hdr = tok.hdr ∧ out.lens = tok.lens ∧ out.tag = tok.tag
             ∧ ∀ i, i < 256 → out.pay.getLsbD i = (decide (i < payBits tok.hdr)
                 && tok.pay.getLsbD (128 * (i / 128) + 32 * (r.swm.toNat / 4 ^ (i / 32 % 4) % 4) + i % 32))))
       ∧ (∀ k, (x.routesAt px.val py.val).find? (fun r => r.mrg && r.op == port.val && r.otr == track.val) = some r →
         r.x = px.val → r.y = py.val → s.ctx? (s.ctxOf h) = some k → k.mirror.mode = .off →
         let m := x.merge r
         let hasA : Prop := x.queue px.val py.val r.ipA r.itA ≠ []
         let hasB : Prop := x.queue px.val py.val r.ipB r.itB ≠ []
         let chooses (a : Bool) : Prop := exec (.mergeChoice g px py port track) s = .next (s.setHall h (x.setMerge r
           (if r.fib then { m with ls := a, lock := some a } else { m with ls := a, next := some a })))
         (m.next ≠ none ∨ m.lock ≠ none ∨ (¬ hasA ∧ ¬ hasB) → exec (.mergeChoice g px py port track) s = .next s)
         ∧ (m.next = none → m.lock = none → x.destRoom px.val py.val port.val track.val = true →
           (hasA → ¬ hasB → chooses true) ∧ (¬ hasA → hasB → chooses false)
           ∧ (hasA → hasB → (r.arb = 0 → chooses (!m.ls)) ∧ (r.arb = 1 → chooses true) ∧ (r.arb = 2 → chooses false)))))

/-! ## The host, links and the RSC (spec/05, spec/14, spec/18) -/

/-- R121 to R123, R436, R443: a host write of a whole mailbox word reaches the running dispatcher's scratch and fills
the word; one that is not allowed there has no effect. A pod message of a present peer, a pair of package and context (R440), stores its data and then
performs its produce or its addition; word 1023 of a dispatcher's mailbox takes no message's produce, as the model reads
R120 (log 65). Invalidated host translations are gone; an answered page request gives one or a
refusal. -/
def Obligations.HostAndPodWritesArrive : Prop :=
  ∀ (s : State) (vf w : Nat) (slot : Fin 16) (data : List Byte) (ide : Bool) (k : Ctx) (h : HallId) (m : PodMsg) (ok : Bool),
    s.MemoryForm → k.mirror.mode = .off → s.arrivals = [] →
    let x := s.hall h.val
    let all : List Bool := [true, true, true, true]
    let stores (t : State) (off : Nat) (bs : List Byte) : Prop :=
      (∀ i, i < bs.length → cget (t.hall h.val).scratch (off + i) = bs.getD i 0)
      ∧ (∀ i, i < off ∨ off + bs.length ≤ i → cget (t.hall h.val).scratch i = cget x.scratch i)
    (∀ be, s.phase ≠ .running ∨ (s.vf vf).fenced = true ∨ ((s.vf vf).tdi = .run ∧ ide = false) ∨ slotContext s vf slot.val = none →
      exec (.hostProduce vf slot (4 * w) data be ide) s = .next s)
    ∧ (s.phase = .running → (s.vf vf).fenced = false → ((s.vf vf).tdi = .run → ide = true) → slotContext s vf slot.val = some k →
      s.ctx? k.id = some k → liveDispatcher s k.id = some h.val → NoWaiters s h.val → w < 1023 → data.length = 4 → x.split ≤ 47 →
      ∃ t, exec (.hostProduce vf slot (4 * w) data all ide) s = .next t ∧ t.arrivals = []
        ∧ stores t (x.size - 4096 + 4 * w) data ∧ (x.size / 4 - 1024 + w) ∈ (t.hall h.val).full
        ∧ (t.hall h.val).c = x.c ∧ (t.hall h.val).pc = x.pc ∧ SameMemory s t)
    ∧ (∀ b, s.phase = .running → (s.vf vf).fenced = false → ((s.vf vf).tdi = .run → ide = true) → slotContext s vf slot.val = some k →
      data.length = 4 → b < 4 → exec (.hostProduce vf slot (4 * w) data (all.set b false) ide) s = .next s)
    ∧ (m.hall = h → s.ctx? (s.ctxOf h.val) = some k →
      let open_ : Prop := x.bind.any (fun b => b.task.va == dispVA) = false ∨ m.poff ≠ mailboxOff x 1023
      (s.phase ≠ .running ∨ (m.fromPkg.val, m.fromCtx) ∉ k.present → exec (.podRemoteWrite m) s = .next s)
      ∧ (s.phase = .running → (m.fromPkg.val, m.fromCtx) ∈ k.present →
        (∃ l ∈ s.links, l.2.1 = m.fromPkg.val) → x.ctx? = some k.id → x.res = .running → x.held = false →
        podInside m x = true → x.bad = [] → NoWaiters s h.val → ∃ t, exec (.podRemoteWrite m) s = .next t ∧ t.arrivals = []
          ∧ (t.hall h.val).c = x.c ∧ SameMemory s t
          ∧ (m.kind = 3 → x.bind.any (fun b => b.task.va == dispVA) = true → m.poff = mailboxOff x 1023 →
            (∀ i, cget (t.hall h.val).scratch i = cget x.scratch i) ∧ (t.hall h.val).full = x.full)
          ∧ (m.kind = 0 → stores t m.doff m.data ∧ (t.hall h.val).full = x.full)
          ∧ (m.kind = 2 → stores t m.doff (leBytes 4 (cval x.scratch m.doff 4 + m.pval.toNat)) ∧ (t.hall h.val).full = x.full)
          ∧ (m.kind = 3 → open_ → stores t m.poff (leBytes 4 m.pval.toNat) ∧ m.poff / 4 ∈ (t.hall h.val).full)
          ∧ (m.kind = 1 → open_ → (m.poff + 4 ≤ m.doff ∨ m.doff + m.data.length ≤ m.poff) →
            (∀ i, i < m.data.length → cget (t.hall h.val).scratch (m.doff + i) = m.data.getD i 0)
            ∧ (∀ i, i < 4 → cget (t.hall h.val).scratch (m.poff + i) = BitVec.ofNat 8 (m.pval.toNat / 256 ^ i))
            ∧ m.poff / 4 ∈ (t.hall h.val).full)))
    ∧ (∀ ha n, ∃ t, exec (.atsInvalidation ha n) s = .next t ∧ t = { s with ats := t.ats }
        ∧ ∀ p, p ∈ t.ats ↔ p ∈ s.ats ∧ ¬ (65536 * p < ha + n ∧ ha < 65536 * p + 65536))
    ∧ (∀ p, x.pri = some (p, false) → ∃ t, exec (.priResponse h ok) s = .next t ∧ SameMemory s t
        ∧ (ok = true → p ∈ t.ats ∧ t.hall h.val = { x with pri := none })
        ∧ (ok = false → t.ats = s.ats ∧ t.hall h.val = { x with pri := some (p, true) }))
    ∧ ((∀ p, x.pri ≠ some (p, false)) → exec (.priResponse h ok) s = .next s)

/-- R438, R441 to R445: the engine takes the oldest full slot of a hall's outbox once the hall's posted REDs are done,
empties its last word and judges its descriptor; it reads the source of a PUT, which ends with SRC where that cannot be
read. Whether the target hall is bound to the peer's context, and what the far end answers, is free here, for one package
does not show it (logs 7, 23). A send begins on an admitted link to its package once its horizon is reached, or ends with NOLINK; how it
ends is written into the slot. A link that goes down ends the sends on it; a die link's failure ends every context. -/
def Obligations.LinksCarrySends : Prop :=
  ∀ (s : State) (g : HallId) (slot : Fin 64) (link : Fin 8) (k : Ctx) (b : Binding) (j : LinkSend), s.MemoryForm →
    let h := g.val
    let x := s.hall h
    let off := x.size - 8192 + 64 * slot.val
    let w (i : Nat) := cval x.scratch (off + 4 * i) 4
    let ws := (List.range 16).map w
    (s.ctx? (s.ctxOf h) = some k → x.bind = some b → x.l1 = [] → hostPending s h = false →
      (x.res ≠ .running ∨ k.peers = [] ∨ x.outq.head? ≠ some slot.val ∨ x.posted ≠ [] →
        exec (.linkOutboxTake g slot) s = .next s)
      ∧ (x.res = .running → k.peers ≠ [] → x.outq.head? = some slot.val → x.posted = [] →
        (s.sends.filter fun p => p.1 == h).length < 8 →
        let takes (u : State) (status : Nat) (data : List Byte) : Prop := ∃ t q, exec (.linkOutboxTake g slot) s = .next t
          ∧ t.sends = u.sends ++ [(h, q)] ∧ q.slot = slot.val ∧ q.words = ws.map (BitVec.ofNat 32) ∧ q.data = data
          ∧ q.link = none ∧ q.status = status ∧ q.ctx = k.id ∧ q.gone = false ∧ (t.hall h).outq = (u.hall h).outq.drop 1
          ∧ ((∀ w, (u.hall h).full.count w ≤ 1) → ∀ w, w ∈ (t.hall h).full ↔ w ∈ (u.hall h).full ∧ w ≠ (off + 60) / 4)
          ∧ (t.hall h).scratch = (u.hall h).scratch ∧ (t.hall h).c = (u.hall h).c
        let peer : Prop := ∃ p ∈ k.present, p.1 = w 3 % 64
        (outboxBad ws = true → takes s 1 [])
        ∧ (outboxBad ws = false → ¬ peer → takes s 2 [])
        ∧ (outboxBad ws = false → peer → 2 ≤ w 3 / 2 ^ 16 % 16 → takes s 0 [] ∨ takes s 2 [])
        ∧ (outboxBad ws = false → peer → w 3 / 2 ^ 16 % 16 < 2 → ∀ clk r, release s h true = .ok clk r →
          let read := readPieces h (w 2 / 64 + 2) (w 0 + w 1 * 2 ^ 32) (w 2) { r with free := r.free + 1 }
          (∀ data u, read = .ok data u → takes u 0 data ∨ takes s 2 [])
          ∧ (∀ c i u, read = .trap c i u ∨ read = .freeze c i u → c ≠ .integ → takes u 3 [] ∨ takes s 2 []))))
    ∧ (s.sends = [(h, j)] → j.slot = slot.val → x.bind = some b → j.gone = false → NoWaiters s h →
      let ended (t : State) (cause : Nat) : Prop := t.sends = [] ∧ (off + 56) / 4 ∈ (t.hall h).full ∧ (t.hall h).c = x.c
        ∧ cval (t.hall h).scratch (off + 56) 4 = cause * 2 ^ 24 + (lget j.words 15).toNat % 2 ^ 16
        ∧ ∀ i, i < off + 56 ∨ off + 60 ≤ i → cget (t.hall h).scratch i = cget x.scratch i
      let peer := (lget j.words 3).toNat % 64
      (j.status ≠ 0 → j.status < 256 → ∃ t, exec (.linkSendComplete g slot false) s = .next t ∧ ended t j.status)
      ∧ (j.status = 0 → j.link = none → (∃ q ∈ s.checks, q.id ∈ j.checks) ∨ integPending s j.ctx = true →
        exec (.linkSendComplete g slot false) s = .next s)
      ∧ (j.status = 0 → j.link = none → (∀ q ∈ s.checks, q.id ∉ j.checks) → integPending s j.ctx = false →
        ((∀ l ∈ s.links, l.2.1 ≠ peer) → ∃ t, exec (.linkSendComplete g slot false) s = .next t ∧ ended t 4)
        ∧ ((∃ l ∈ s.links, l.2.1 = peer) → ∃ t l, exec (.linkSendComplete g slot false) s = .next t ∧ l ∈ s.links ∧ l.2.1 = peer
            ∧ t.sends = [(h, { j with link := some l.1 })]))
      ∧ (∀ l, j.status = 0 → j.link = some l →
        (∃ t, exec (.linkSendComplete g slot true) s = .next t ∧ ended t 5)
        ∧ ∃ t, exec (.linkSendComplete g slot false) s = .next t ∧ (ended t 0 ∨ ended t 2)))
    ∧ (mfind s.links link.val = none → exec (.linkdown link) s = .next s)
    ∧ (mfind s.links link.val ≠ none → Rising s.links → ∃ t, exec (.linkdown link) s = .next t ∧ mfind t.links link.val = none
        ∧ (∀ l, l ≠ link.val → mfind t.links l = mfind s.links l)
        ∧ t.sends = s.sends.map fun p => if p.2.link = some link.val then (p.1, { p.2 with status := 4 }) else p)
    ∧ (∃ t, exec .dieLinkFailure s = .next t ∧ t.phase = .stopped ∧ (s.ContextsKeyed → t.ctxs = []))

/-- R410, R435, R437: a virtual function's TDISP state moves along the arcs of R435 alone; leaving RUN or LOCKED, a
fence and a function-level reset end its contexts, and a fenced function waits for its reset. The physical function has
none of these. R102, R103, R446, R449, R450: a power loss leaves the reset state but for host memory and the module's
flash; a reset boots at once, into the running package with every slot measured and a boot KEM key, or, when the firmware's
key or FWSVN does not fit the fuses or a signed component does not verify, into recovery with the slots before it. A
throttled island falls to a lower level that is not off. That device memory reads 0 after a reset, and the values that no
rule gives for reset, are the model's choices (logs 2, 3, 4). -/
def Obligations.InterfacesAndResets : Prop :=
  (∀ (s : State) (vf : Nat),
     let f := s.vf vf
     let outside : Prop := vf = 0 ∨ 48 < vf
     let gone (t : State) : Prop := s.ContextsKeyed → ∀ p ∈ t.ctxs, p.2.vf ≠ vf
     (outside ∨ f.fenced = true → exec (.lockInterface vf) s = .next s ∧ exec (.startInterface vf) s = .next s
       ∧ exec (.stopInterface vf) s = .next s ∧ exec (.vfFence vf) s = .next s)
     ∧ (outside → exec (.functionLevelReset vf) s = .next s)
     ∧ (¬ outside → ∃ t, exec (.functionLevelReset vf) s = .next t ∧ t.vf vf = ⟨0, .unlocked, false⟩ ∧ gone t
         ∧ ∀ v, v ≠ vf → t.vf v = s.vf v)
     ∧ (¬ outside → f.fenced = false →
       (f.tdi = .unlocked → exec (.lockInterface vf) s = .next (s.setVf vf { f with tdi := .locked }))
       ∧ (f.tdi ≠ .unlocked → exec (.lockInterface vf) s = .next s)
       ∧ (f.tdi = .locked → exec (.startInterface vf) s = .next (s.setVf vf { f with tdi := .run }))
       ∧ (f.tdi ≠ .locked → exec (.startInterface vf) s = .next s)
       ∧ (∃ t, exec (.stopInterface vf) s = .next t ∧ t.vf vf = { f with tdi := .unlocked } ∧ gone t)
       ∧ ∃ t, exec (.vfFence vf) s = .next t ∧ t.vf vf = ⟨0, .error, true⟩ ∧ t.fences = s.fences + 1 ∧ gone t))
  ∧ (∀ (s : State) (isl : Fin 128) (level : Fin 16) (part : Fin 8),
       let fresh (t : State) : Prop := t.ctxs = [] ∧ t.tasks = [] ∧ t.halls = [] ∧ t.mem = [] ∧ t.vfs = [] ∧ t.l2 = []
         ∧ t.hostMem = s.hostMem ∧ t.rsc.flash = s.rsc.flash ∧ t.tick = 0
       let slots (n : Nat) := measure s.rsc.flash n (List.replicate 8 0)
       (∃ t, exec .powerLoss s = .next t ∧ fresh t ∧ t.phase = .boot ∧ t.rsc.kem = none)
       ∧ (let up (t : State) : Prop := t.phase = .running ∧ t.rsc.meas = slots 7
            ∧ ∃ dk, t.rsc.kem = some dk ∧ t.rsc.ek = Config.kemPublic dk
          let stays (n : Nat) (t : State) : Prop := t.phase = .recovery ∧ t.rsc.meas = slots n ∧ t.rsc.kem = none
          (∃ t, exec (.packageReset none) s = .next t ∧ fresh t ∧ if firmwareFits s = true then up t else stays 0 t)
          ∧ (part.val < 6 → ∃ t, exec (.packageReset (some part)) s = .next t ∧ fresh t
              ∧ if firmwareFits s = true then stays part.val t else stays 0 t))
       ∧ (let now := mget s.islands isl.val 15
          (level = 0 ∨ now ≤ level.val → exec (.islandThrottle isl level) s = .next s)
          ∧ (level ≠ 0 → level.val < now → ∃ t, exec (.islandThrottle isl level) s = .next t
             ∧ t = { s with islands := t.islands, lowered := s.lowered ++ [(isl.val, level.val)] }
             ∧ mget t.islands isl.val 15 = level.val ∧ ∀ i, i ≠ isl.val → mget t.islands i 15 = mget s.islands i 15)))

/-- R105 to R107, R117, R119, R128, R407, R431, R433, R434, R439, R445, R447, R449: the requests of the management
mailbox are answered with the low half of their tag and a status of 0 when granted, 1 when malformed, 2 when refused,
and what they carry; while the package boots, or a request is under way, none is taken, and after a stop or in recovery
only RECOVER and COUNTERS. A buffer of the host is reached through ATS, and where the host gives no translation the answer
is STATUS 2, a choice of the model (log 82). RECOVER responds, and then the package is reset. Where a rule refuses and the
spec gives no code it is STATUS 2 (log 26); what the RSC and the peers choose is free (log 7), and the slot of a context is
the request's (log 64). -/
def Obligations.ManagementRequestsAreAnswered : Prop :=
  ∀ (s : State) (tag ctx : Word) (buf vf sel : Nat) (nonce : Digest) (ct image : List Byte) (sid base : Word)
    (mac : BitVec 128) (body : CreateBody) (mask : BitVec 48) (isl : Fin 128) (level : Fin 16) (lm : BitVec 8) (pkg : Fin 64),
    let answers (i : Instr) (status : Nat) (post : State → Prop) : Prop := ∃ t, exec i s = .next t
      ∧ t.rsc.reply = tag.truncate 32 ∧ t.rsc.status = status ∧ post t
    let reached (a n : Nat) : Prop := atsSpan s a n = (true, s)
    let asked (code : Nat) : State := { s with rsc := { s.rsc with code := code } }
    let same (t : State) : Prop := t.ctxs = s.ctxs ∧ t.tasks = s.tasks ∧ t.halls = s.halls ∧ t.vfs = s.vfs ∧ SameMemory s t
    let others (i : Instr) : Prop := i = .report tag buf ctx nonce ∨ i = .openSession tag ctx ct ∨ i = .close tag buf sid mac
      ∨ i = .bundle tag ctx buf base ∨ i = .finals tag buf ∨ i = .ctxCreate tag body ∨ i = .ctxDestroy tag ctx
      ∨ i = .halls tag vf mask ∨ i = .island tag isl level ∨ i = .pod tag lm pkg
    (s.phase = .boot ∨ requestBusy s = true → ∀ i, others i ∨ i = .counters tag buf sel ∨ i = .recover tag image →
      exec i s = .next s)
    ∧ (s.phase = .recovery ∨ s.phase = .stopped → ∀ i, others i → exec i s = .next s)
    ∧ (s.phase ≠ .boot → requestBusy s = false →
      (let bytes := Config.counterBytes sel (s.l2.map fun l => (l.line % 384, l.kd)) s.throttled s.retired.length s.fences s.lowered
       ∃ t, exec (.counters tag buf sel) s = .next t ∧ t.rsc.reply = tag.truncate 32 ∧ t.ctxs = s.ctxs
        ∧ t.halls = s.halls ∧ t.mem = s.mem ∧ (t.rsc.status = 0 ∨ t.rsc.status = 2)
        ∧ (reached buf bytes.length → t.rsc.status = 0 ∧ t.hostMem = cwrite s.hostMem buf bytes))
      ∧ (s.phase = .running ∨ s.phase = .halted → answers (.recover tag image) 2 same)
      ∧ (s.phase = .recovery ∨ s.phase = .stopped → ∃ t, exec (.recover tag image) s = .next t ∧ t.phase = .boot
        ∧ t.rsc.reply = tag.truncate 32 ∧ t.rsc.status = 0
        ∧ t.rsc.flash = image ∧ t.ctxs = [] ∧ t.mem = [] ∧ t.hostMem = s.hostMem))
    ∧ (s.phase = .running → requestBusy s = false →
      (s.ctx? ctx = none → ctx ≠ BitVec.allOnes 64 → answers (.report tag buf ctx nonce) 2 same)
      ∧ (s.MemoryForm → s.rsc.meas.length = 8 → reached buf 51872 → ∀ peers lib pol, (ctx = BitVec.allOnes 64 ∧ peers = 0 ∧ lib = 0 ∧ pol = 0
          ∨ ctx ≠ BitVec.allOnes 64 ∧ ∃ c, s.ctx? ctx = some c ∧ peers = c.peerMask ∧ lib = c.libdig ∧ pol = c.poldig) →
        answers (.report tag buf ctx nonce) 0 fun t => t.mem = s.mem ∧ t.ctxs = s.ctxs
          ∧ (∀ i, i < 2016 → cget t.hostMem (buf + i)
              = (reportHead s 1 (digestBytes nonce) ctx peers lib pol s.rsc.ek).getD i 0)
          ∧ ∀ i, i < buf ∨ buf + 51872 ≤ i → cget t.hostMem i = cget s.hostMem i)
      ∧ (ct.length ≠ 1568 → answers (.openSession tag ctx ct) 1 same)
      ∧ (ct.length = 1568 → s.ctx? ctx = none ∨ s.rsc.kem = none →
        answers (.openSession tag ctx ct) 2 fun t => t.rsc.answer = .refuse ∧ same t)
      ∧ (∀ c dk hnd, ct.length = 1568 → s.ctx? ctx = some c → c.id = ctx → s.rsc.kem = some dk →
        s.arrivals = [] → lowestFree (c.sessions.map (·.handle)) 0 256 = some hnd → (∃ d, 1 ≤ d ∧ d ≤ 4095 ∧ d ∉ s.domainsInUse) →
        match Config.kemDecaps dk ct with
        | none => answers (.openSession tag ctx ct) 2 fun t => t.rsc.answer = .refuse ∧ same t
        | some ss =>
          let given := BitVec.ofNat 64 (leNat (((sessionSecret ss ct ctx).drop 32).take 8))
          (given ∈ s.rsc.sids → answers (.openSession tag ctx ct) 2 fun t => t.rsc.answer = .refuse ∧ same t)
          ∧ (given ∉ s.rsc.sids → answers (.openSession tag ctx ct) 0 fun t => given ∈ t.rsc.sids ∧ ∃ c' ses, t.ctx? ctx = some c'
            ∧ c'.sessions = c.sessions ++ [ses] ∧ ses.handle = hnd ∧ ses.nrq = 1 ∧ ses.rc = 1 ∧ ses.count = 0 ∧ ses.rseq = 0
            ∧ ses.closing = false ∧ digestBytes ses.key = (sessionSecret ss ct ctx).take 32 ++ List.replicate
                (32 - (sessionSecret ss ct ctx).length) 0 ∧ ses.skd ∉ s.domainsInUse ∧ 1 ≤ ses.skd ∧ ses.skd ≤ 4095))
      ∧ (sessionBySid s sid = none → answers (.close tag buf sid mac) 2 same)
      ∧ (∀ c x, sessionBySid s sid = some (c, x) → s.ctx? c.id = some c → c.session? x.handle = some x →
        (x.closing = true ∨ leBytes 16 mac.toNat ≠ fitBytes 16 (Config.gcmSeal x.key (gcmNonce 3 1) (Config.closeAad sid c.id) []).2 →
          answers (.close tag buf sid mac) 2 same)
        ∧ (x.closing = false → s.sdecs = [] → s.sencs = [] → s.sigs = [] → reached buf (finalReport s (finalOf c x)).length →
          leBytes 16 mac.toNat = fitBytes 16 (Config.gcmSeal x.key (gcmNonce 3 1) (Config.closeAad sid c.id) []).2 →
          answers (.close tag buf sid mac) 0 fun t => sessionOf t c.id x.handle = none))
      ∧ (s.rsc.finals = [] → answers (.finals tag buf) 2 fun t => t.rsc.answer = .held 0 s.rsc.lost ∧ same t)
      ∧ (∀ f fs, s.rsc.finals = f :: fs → reached buf (finalReport s f).length → answers (.finals tag buf) 0 fun t => t.rsc.finals = fs
          ∧ t.rsc.answer = .held fs.length s.rsc.lost ∧ t.hostMem = cwrite s.hostMem buf (finalReport s f) ∧ t.ctxs = s.ctxs)
      ∧ (s.ctx? ctx = none → answers (.bundle tag ctx buf base) 2 same)
      ∧ (∀ c, s.ctx? ctx = some c → base.toNat % 0x200000 = 0 → reached buf 0xA00 →
        let hdr := cread s.hostMem buf 0xA00
        let span := (fieldOf hdr 8 8 + 0x1FFFFF) / 0x200000 * 0x200000
        (bundleOk hdr = false → answers (.bundle tag ctx buf base) 2 fun t => t.rsc.answer = .result .badForm ∧ same t)
        ∧ (bundleOk hdr = true → base.toNat + span ≤ ownBase → unmapped s c base.toNat span = true →
          (bundleKey s hdr = none → answers (.bundle tag ctx buf base) 2 fun t => t.rsc.answer = .result .badKey ∧ same t)
          ∧ (∀ r u, loadBundle (asked 4) c buf base.toNat hdr = (r, u) → answers (.bundle tag ctx buf base) (if r = .ok then 0 else 2)
            fun t => t.rsc.answer = .result r ∧ t.mem = u.mem ∧ t.ctxs = u.ctxs)))
      ∧ (createMalformed body = true → answers (.ctxCreate tag body) 1 same)
      ∧ (createMalformed body = false → createAllowed s body = false → answers (.ctxCreate tag body) 2 same)
      ∧ (createMalformed body = false → createAllowed s body = true → (∃ d, 1 ≤ d ∧ d ≤ 4095 ∧ d ∉ s.domainsInUse) →
        answers (.ctxCreate tag body) 2 same ∨ answers (.ctxCreate tag body) 0 fun t => ∃ id c tk, t.rsc.answer = .context id
          ∧ id.toNat % 2 ^ 32 = (s.ctxids + 1) % 2 ^ 32 ∧ t.ctx? id = some c ∧ c.id = id ∧ c.vf = body.vf ∧ c.slot = body.slot.val
          ∧ c.halls = body.halls ∧ c.kd ∉ s.domainsInUse ∧ c.sessions = [] ∧ c.mirror.mode = .off ∧ c.racectl = 1
          ∧ c.library = body.library ∧ tk ∈ t.tasks ∧ tk.id = ⟨id, dispVA⟩ ∧ tk.prio = 3 ∧ tk.halls = 1 ∧ tk.state = .queued)
      ∧ (createMalformed body = false → createAllowed s body = true → ∀ kd s₁ id s₂ ps s₃, takeDomain (asked 16) = some (kd, s₁) →
          nameContext s₁ = (id, s₂) → confirmPeers body.peers s₂ = (ps, s₃) →
          let c := newContext body id kd ps s.tick
          let admitted := admitKernel (s₃.setCtx c) id (galleryOf c.home) body.dispIdx
          (∀ e, admitted = .error e → answers (.ctxCreate tag body) 2 same)
          ∧ (∀ r, admitted = .ok r → answers (.ctxCreate tag body) 0 fun t => ∃ c' tk, t.rsc.answer = .context id
            ∧ t.ctx? id = some c' ∧ c'.id = id ∧ c'.vf = body.vf ∧ c'.slot = body.slot.val ∧ c'.halls = body.halls ∧ c'.kd = kd
            ∧ c'.library = body.library ∧ c'.peers = body.peers ∧ c'.present = ps ∧ c'.sessions = [] ∧ c'.mirror.mode = .off
            ∧ tk ∈ t.tasks ∧ tk.id = ⟨id, dispVA⟩ ∧ tk.prio = 3 ∧ tk.halls = 1 ∧ tk.state = .queued))
      ∧ (s.ctx? ctx = none → answers (.ctxDestroy tag ctx) 2 same)
      ∧ (∀ c, s.ctx? ctx = some c → s.ContextsKeyed → answers (.ctxDestroy tag ctx) 0 fun t => t.ctx? ctx = none)
      ∧ (48 < vf → answers (.halls tag vf mask) 1 same)
      ∧ (vf ≤ 48 → hallsAllowed s vf mask = false → answers (.halls tag vf mask) 2 same)
      ∧ (vf ≤ 48 → hallsAllowed s vf mask = true → answers (.halls tag vf mask) 0 fun t =>
          t.vf vf = { s.vf vf with halls := mask } ∧ (∀ v, v ≠ vf → t.vf v = s.vf v) ∧ t.ctxs = s.ctxs)
      ∧ (answers (.pod tag lm pkg) 0 fun t => t.pkg = pkg.val ∧ t.ctxs = s.ctxs ∧ t.halls = s.halls))
    ∧ (s.phase = .running → requestBusy s = false →
      let i := isl.val % 64
      let hall := 24 * (isl.val / 64) + i / 2
      let now := mget s.islands isl.val 15
      (48 ≤ i → level = 0 → answers (.island tag isl level) 2 same)
      ∧ (48 ≤ i → level ≠ 0 → answers (.island tag isl level) 0 fun t => mget t.islands isl.val 15 = level.val ∧ same t)
      ∧ (i < 48 → level ≠ 0 → now ≠ 0 → answers (.island tag isl level) 0 fun t => mget t.islands isl.val 15 = level.val ∧ same t)
      ∧ (i < 48 → level ≠ 0 → now = 0 → answers (.island tag isl level) 0 fun t => mget t.islands isl.val 15 = level.val
          ∧ t.hall hall = { Hall.reset with res := if (s.hall hall).res = .fenced then .fenced else .idle })
      ∧ (i < 48 → level = 0 → ((∃ p ∈ s.vfs, p.2.halls.getLsbD hall = true) ∨ (s.hall hall).res ≠ .idle →
            answers (.island tag isl level) 2 same)
          ∧ ((∀ p ∈ s.vfs, p.2.halls.getLsbD hall = false) → (s.hall hall).res = .idle → answers (.island tag isl level) 0 fun t =>
            mget t.islands isl.val 15 = 0 ∧ t.hall hall = Hall.reset)))

/-! ## Words, steps, reset, and the forms every step keeps -/

/-- R69, R94, R181, R197: an agent's turn runs the word at its place. The sequencer runs the word its PC names when it
is a sequencer word, and raises ILL at any other and ACCESS at LENGTH; its address unit stops there. A chosen rule
fires its word; a matrix node, a prism unit, an AG tile or a port runs the word under way; an event turn runs an event.
Around it a step takes the turn off the schedule, lets what has arrived at a bank port perform (R357, R359) and waiting
control tokens go on (R169), stops victims that stand at a
freeze point (R145), and notes which outbox slots have filled (R444). R172: the sequencer's word needs the block of code
that holds it, a matrix node's its entry, whose use is noted (R173); the address unit first asks for its waiting loads again
(R186). R322: of a product and a result beside it either may go on. That one step is one
turn of one agent is the model's form (log 1). -/
def Obligations.StepRunsTheWordAtItsPlace : Prop :=
  ∀ (s : State) (ts : List Turn) (h n slot : Nat) (i : Instr) (w : Word), s.phase ≠ .boot →
    let x := s.hall h
    let runs' (j : Instr) (u : State) (a : Agent) : Prop := step s = settleTurn (exec j { u with cur := a })
    let runs (u : State) (a : Agent) : Prop := runs' i u a
    let ends (t : State) : Prop := step s = settleTurn (.next t)
    let s' : State := { s with turns := ts }
    let block (pc : Nat) : Nat := if pc < 4096 then 71 else 160 + pc / 4096
    let used (u : State) : State := u.updHall h fun x => x.useStore (64 + 2 * n)
    (∀ a v, settleTurn (.next v) = .next (noteOutbox (stopAtFreeze (flowControl (drainArrivals v))))
      ∧ (v.arrivals = [] → drainArrivals v = v) ∧ (noteOutbox v).tick = v.tick
      ∧ (noteOutbox v).mem = v.mem ∧ ((noteOutbox v).hall a).c = (v.hall a).c ∧ ((noteOutbox v).hall a).pc = (v.hall a).pc
      ∧ ((∀ t ∈ v.tasks, t.preempting = true → t.freezePt = false) → stopAtFreeze v = v)
      ∧ ((∀ p ∈ v.halls, p.2.ctlOut = []) → flowControl v = v))
    ∧ (s.firing = [] → h < 48 → x.res = .running → x.held = false → x.exiting = false →
      (s.turns = .run (.seq h) :: ts → x.config (block x.pc) = .ok →
        (x.code[x.pc / 8]? = some w → decode w.toNat = .ok i → i.unit = some .seq → runs s' (.seq h))
        ∧ (x.code[x.pc / 8]? = some w → (∀ j, decode w.toNat = .ok j → j.unit ≠ some .seq) →
            ends (raise s' h .ill (w >>> 56) x.pc))
        ∧ (8 * x.code.length ≤ x.pc → ends (raise s' h .access 0 x.pc)))
      ∧ (s.turns = .run (.addr h) :: ts →
        let u := fillPending s' h
        let y := u.hall h
        y.res = .running → y.held = false → y.exiting = false → y.config (block y.au.pc) = .ok → y.au.pc % 8 = 0 →
        (y.code[y.au.pc / 8]? = some w → decode w.toNat = .ok i → i.unit = some .seq → runs u (.addr h))
        ∧ (8 * y.code.length ≤ y.au.pc → ends u)))
    ∧ (s.firing = (h, n, slot) :: [] → x.active = true → lget (x.facet n).pool slot = w → decode w.toNat = .ok i →
        i.unit = some .facet → runs { s with firing := [] } (.facet h n slot))
    ∧ (s.firing = [] → s.turns = .run (.mx h n) :: ts → h < 48 → n < 3 → x.active = true → lget (x.node n).ins 3 = [] → x.config (64 + 2 * n) = .ok →
      (∀ b, (x.node n).busy = some b → (x.node n).ahead = [] → lget (x.node n).ins 0 = [] → b.word = i → runs (used s') (.mx h n))
      ∧ (∀ b j, (x.node n).busy = some b → mxAhead s' h n = some j →
        (∀ t rest, lget (x.node n).ins 0 = t :: rest → t.lens = false) →
        let u := { s' with free := s.free + 1 }
        runs' j (used u) (.mx h n) ∨ runs' b.word (used u) (.mx h n))
      ∧ (∀ t rest, (x.node n).busy = none → lget (x.node n).ins 0 = t :: rest → t.lens = false → hdrBad t.hdr = false →
        hdrKind t.hdr = 0 → hdrWid t.hdr = 64 → hdrLen t.hdr = 1 →
        decode (t.pay.toNat % 2 ^ 64) = .ok i → i.unit = some .matrix → runs (used s') (.mx h n)))
    ∧ (∀ px py, s.firing = [] → s.turns = .run (.unit h px py) :: ts → h < 48 → px < 10 → py < 8 → x.active = true →
        nodeAt px py = .prism ∨ nodeAt px py = .mp → x.config (8 * px + py) = .ok → (x.unit (8 * px + py)).installed = true →
        (x.unit (8 * px + py)).words = [w] → decode w.toNat = .ok i →
        (nodeAt px py = .prism → i.unit = some .prism) → (nodeAt px py = .mp → i.unit = some .mp) →
        runs (s'.updHall h fun x => x.useStore (8 * px + py)) (.unit h px py))
    ∧ (s.firing = [] → s.turns = .event i :: ts → i.unit = none → runs s' .env)
    ∧ (s.firing = [] → s.turns = .event i :: ts → i.unit ≠ none → step s = .refused .notAnEvent)

/-- R69 to R89: words written out from the spec's encodings decode to the instructions they stand for, one of each
format and unit at least; words the spec calls illegal decode to none. -/
def Obligations.SpecWordsDecode : Prop :=
  let p0 : Guard := ⟨false, 0⟩
  let h : SHdr := ⟨p0, p0, .c, .dflt, false, 0⟩
  decode 0x0120401051800000 = .ok (.add { h with ga := ⟨false, 2⟩, mark := .a } 4 5 6)
  ∧ decode 0x2100800C00000004 = .ok (.movi { h with mark := .b } 3 4)
  ∧ decode 0x1500000431000002 = .ok (.cmp h 1 3 4 .set .lt)
  ∧ decode 0x5B00002090000000 = .ok (.pusht h 8 9 0 0 0 0)
  ∧ decode 0x6000005155970000 = .ok (.cpy h 20 21 22 23)
  ∧ decode 0x6100001C80000002 = .ok (.cpyc h 7 8 2)
  ∧ decode 0x6B00000C41461C00 = .ok (.tdef h 3 4 5 6 7)
  ∧ (∀ w, w < 2 ^ 56 → ∃ e, decode w = .error e)
  ∧ (∃ e, decode 0x0108001051800000 = .error e)

/-- R69 to R89: decoding the word of a well-formed instruction gives the instruction back, with every operand. -/
def Obligations.DecodeOfEncode : Prop := ∀ (i : Instr) (w : Nat), i.wf = true → encode i = some w → decode w = .ok i

/-- R69, R93: an instruction is read from one word only, and is well formed: no two words decode alike, and no bit of a
word is dropped. -/
def Obligations.EncodeOfDecode : Prop := ∀ (w : Nat) (i : Instr), w < 2 ^ 64 → decode w = .ok i → i.wf = true ∧ encode i = some w

/-- R102, R259, R419, R450: what reset leaves where the spec gives the value: measurement slots of zero, split 8 and
the reset values of R419's table in every hall, way masks of 0x3FFF, and no context. That every hall is IDLE and unbound,
that no function holds a hall, and that the environment registers of a node are clear before its first binding, are the
model's choice (log 4). The forms of memory and of the context table are the model's own. -/
def Obligations.ResetIsAsStated : Prop :=
  (∀ h, let x := State.reset.hall h
    x.split = 8 ∧ x.res = .idle ∧ x.bind = none ∧ x.trap.cause = 0 ∧ x.trap.info = 0 ∧ x.trap.pc = 0 ∧ x.trap.act = false
    ∧ x.trap.frz = false ∧ x.trap.k0 = 0 ∧ x.trap.k1 = 0 ∧ x.wdogPeriod = 0x1000000 ∧ x.wdogCount = 0
    ∧ (∀ m, (x.node m).sat = false ∧ (x.node m).zro = false ∧ (x.node m).elog = 0))
  ∧ State.reset.rsc.meas = List.replicate 8 0 ∧ State.reset.ctxs = [] ∧ (∀ n, (State.reset.vf n).halls = 0)
  ∧ (∀ kd, State.reset.mask kd = 0x3FFF)
  ∧ State.reset.StoredForm ∧ State.reset.ContextsKeyed

/-- Every step keeps each byte memory in its canonical form: device memory, host memory, and the scratch of every hall and
of every sealed instance. The form is the model's own, a choice that no rule gives (log 3); the memories are those of R6,
R249 and R262. -/
def Obligations.StepKeepsMemoryForm : Prop := ∀ s t : State, s.StoredForm → step s = .next t → t.StoredForm

/-- R119: every step keeps each context's record under its own CTXID, once. -/
def Obligations.StepKeepsContextsKeyed : Prop := ∀ s t : State, s.ContextsKeyed → step s = .next t → t.ContextsKeyed
end

