-- ==== Sys2Proof/Laws/Cells.lean ====
section
/-! SUPPORT. Byte memories: reading after writing, and the canonical form kept by every operation (spec R5; log 3). -/

namespace Sys2Proof.Machine

/-! ## The canonical form -/

theorem cellsFrom_mono {lo lo' : Nat} (h : lo' ≤ lo) : ∀ {m : Cells}, cellsFrom lo m = true → cellsFrom lo' m = true
  | [], _ => rfl
  | (a, b) :: m, hm => by
    simp only [cellsFrom, Bool.and_eq_true, decide_eq_true_eq] at hm ⊢
    exact ⟨⟨by omega, hm.1.2⟩, hm.2⟩

/-- Below its lower bound a canonical memory lists nothing. -/
theorem cget_below {lo a : Nat} (h : a < lo) : ∀ {m : Cells}, cellsFrom lo m = true → cget m a = 0
  | [], _ => rfl
  | (a', b) :: m, hm => by
    simp only [cellsFrom, Bool.and_eq_true, decide_eq_true_eq] at hm
    have : a ≠ a' := by omega
    simp only [cget, this, if_false]
    exact cget_below (by omega) hm.2

theorem cellsFrom_cdel {a : Nat} : ∀ {lo : Nat} {m : Cells}, cellsFrom lo m = true → cellsFrom lo (cdel m a) = true
  | _, [], _ => rfl
  | lo, (a', b) :: m, hm => by
    have h := hm
    simp only [cellsFrom, Bool.and_eq_true, decide_eq_true_eq] at hm
    unfold cdel
    split
    · exact cellsFrom_mono (by omega) hm.2
    · split
      · exact h
      · simp only [cellsFrom, Bool.and_eq_true, decide_eq_true_eq]
        exact ⟨hm.1, cellsFrom_cdel hm.2⟩

theorem cellsFrom_cins {a : Nat} {b : Byte} (hb : b ≠ 0) :
    ∀ {lo : Nat} {m : Cells}, lo ≤ a → cellsFrom lo m = true → cellsFrom lo (cins m a b) = true
  | _, [], ha, _ => by simpa [cins, cellsFrom, ha] using hb
  | lo, (a', b') :: m, ha, hm => by
    simp only [cellsFrom, Bool.and_eq_true, decide_eq_true_eq] at hm
    unfold cins
    split
    · subst_vars; simpa [cellsFrom, ha, hm.2] using hb
    · split
      · rename_i h1 h2
        have : a + 1 ≤ a' := h2
        simp only [cellsFrom, Bool.and_eq_true, decide_eq_true_eq]
        exact ⟨⟨ha, by simpa using hb⟩, ⟨this, hm.1.2⟩, hm.2⟩
      · simp only [cellsFrom, Bool.and_eq_true, decide_eq_true_eq]
        exact ⟨hm.1, cellsFrom_cins hb (by omega) hm.2⟩

theorem wf_cset {m : Cells} (a : Nat) (b : Byte) (hm : Memory.wf m = true) : Memory.wf (cset m a b) = true := by
  unfold cset
  split
  · exact cellsFrom_cdel hm
  · exact cellsFrom_cins ‹_› (Nat.zero_le _) hm

theorem wf_cwrite (bs : List Byte) : ∀ {m : Cells} (a : Nat), Memory.wf m = true → Memory.wf (cwrite m a bs) = true := by
  induction bs with
  | nil => intro m a h; exact h
  | cons b bs ih => intro m a h; exact ih _ (wf_cset a b h)

theorem cellsFrom_filter (p : Host.Cell → Bool) :
    ∀ {lo : Nat} {m : Cells}, cellsFrom lo m = true → cellsFrom lo (m.filter p) = true
  | _, [], _ => rfl
  | lo, (a, b) :: m, hm => by
    simp only [cellsFrom, Bool.and_eq_true, decide_eq_true_eq] at hm
    rw [List.filter_cons]
    split
    · simp only [cellsFrom, Bool.and_eq_true, decide_eq_true_eq]
      exact ⟨hm.1, cellsFrom_filter p hm.2⟩
    · exact cellsFrom_mono (by omega) (cellsFrom_filter p hm.2)

theorem wf_cclear {m : Cells} (lo n : Nat) (hm : Memory.wf m = true) : Memory.wf (cclear m lo n) = true :=
  cellsFrom_filter _ hm

theorem wf_mergeLine (pa : Nat) (d : BitVec 1024) (mask : BitVec 128) (n : Nat) :
    ∀ {m : Cells}, Memory.wf m = true → Memory.wf (mergeLine m pa d mask n) = true := by
  induction n with
  | zero => intro m h; exact h
  | succ n ih =>
    intro m h
    unfold mergeLine
    split
    · exact ih (wf_cset _ _ h)
    · exact ih h

/-! ## Reading after writing -/

theorem cget_cdel_ne {a a' : Nat} (h : a ≠ a') : ∀ (m : Cells), cget (cdel m a') a = cget m a
  | [] => rfl
  | (k, b) :: m => by
    unfold cdel
    split
    · subst_vars; simp [cget, h]
    · split
      · rfl
      · simp only [cget, cget_cdel_ne h m]

theorem cget_cdel_self {a : Nat} : ∀ {lo : Nat} {m : Cells}, cellsFrom lo m = true → cget (cdel m a) a = 0
  | _, [], _ => rfl
  | lo, (k, b) :: m, hm => by
    simp only [cellsFrom, Bool.and_eq_true, decide_eq_true_eq] at hm
    unfold cdel
    split
    · subst_vars; exact cget_below (Nat.lt_succ_self _) hm.2
    · split
      · rename_i h1 h2
        simp only [cget, h1, if_false]
        exact cget_below (by omega) hm.2
      · rename_i h1 h2
        simp only [cget, h1, if_false]
        exact cget_cdel_self hm.2

theorem cget_cins_ne {a a' : Nat} (b : Byte) (h : a ≠ a') : ∀ (m : Cells), cget (cins m a' b) a = cget m a
  | [] => by simp [cins, cget, h]
  | (k, c) :: m => by
    unfold cins
    split
    · subst_vars; simp [cget, h]
    · split
      · simp [cget, h]
      · simp only [cget, cget_cins_ne b h m]

theorem cget_cins_self (a : Nat) (b : Byte) : ∀ (m : Cells), cget (cins m a b) a = b
  | [] => by simp [cins, cget]
  | (k, c) :: m => by
    unfold cins
    split
    · simp [cget]
    · split
      · simp [cget]
      · rename_i h1 h2
        simp only [cget, h1, if_false]
        exact cget_cins_self a b m

/-- A byte reads as it was written. -/
theorem cget_cset_self {m : Cells} (a : Nat) (b : Byte) (hm : Memory.wf m = true) : cget (cset m a b) a = b := by
  unfold cset
  split
  · subst_vars; exact cget_cdel_self hm
  · exact cget_cins_self a b m

/-- Every other byte reads as before. -/
theorem cget_cset_ne {a a' : Nat} (m : Cells) (b : Byte) (h : a ≠ a') : cget (cset m a' b) a = cget m a := by
  unfold cset
  split
  · exact cget_cdel_ne h m
  · exact cget_cins_ne b h m

/-- Bytes outside a written range read as before. -/
theorem cget_cwrite_outside (bs : List Byte) : ∀ (m : Cells) (a k : Nat), (k < a ∨ a + bs.length ≤ k) →
    cget (cwrite m a bs) k = cget m k := by
  induction bs with
  | nil => intro m a k _; rfl
  | cons b bs ih =>
    intro m a k h
    simp only [List.length_cons] at h
    rw [cwrite, ih _ _ _ (by omega), cget_cset_ne _ _ (by omega)]

/-- Written bytes read back. -/
theorem cget_cwrite_inside (bs : List Byte) : ∀ {m : Cells} (a i : Nat), Memory.wf m = true → (h : i < bs.length) →
    cget (cwrite m a bs) (a + i) = bs[i] := by
  induction bs with
  | nil => intro m a i _ h; exact absurd h (Nat.not_lt_zero _)
  | cons b bs ih =>
    intro m a i hm h
    cases i with
    | zero =>
      rw [cwrite, cget_cwrite_outside _ _ _ _ (by omega)]
      exact cget_cset_self a b hm
    | succ i =>
      have := ih (m := cset m a b) (a + 1) i (wf_cset a b hm) (by simpa using h)
      rw [cwrite, show a + (i + 1) = a + 1 + i by omega, this]
      rfl

theorem length_cread (m : Cells) (n : Nat) : ∀ (a : Nat), (cread m a n).length = n := by
  induction n with
  | zero => intro a; rfl
  | succ n ih => intro a; simp [cread, ih]

theorem getElem_cread (m : Cells) (n : Nat) : ∀ (a i : Nat) (h : i < (cread m a n).length),
    (cread m a n)[i] = cget m (a + i) := by
  induction n with
  | zero => intro a i h; exact absurd h (by simp [cread])
  | succ n ih =>
    intro a i h
    cases i with
    | zero => rfl
    | succ i =>
      have := ih (a + 1) i (by simpa [cread] using h)
      rw [show a + (i + 1) = a + 1 + i by omega, ← this]
      rfl

/-- A range reads back what was written over it. -/
theorem cread_cwrite {m : Cells} (a : Nat) (bs : List Byte) (hm : Memory.wf m = true) :
    cread (cwrite m a bs) a bs.length = bs := by
  apply List.ext_getElem (length_cread _ _ _)
  intro i h1 h2
  rw [getElem_cread, cget_cwrite_inside bs a i hm h2]

/-! ## Little-endian values -/

theorem length_leBytes (n : Nat) : ∀ x, (leBytes n x).length = n := by
  induction n with
  | zero => intro x; rfl
  | succ n ih => intro x; simp [leBytes, ih]

theorem leNat_leBytes (n : Nat) : ∀ x, leNat (leBytes n x) = x % 256 ^ n := by
  induction n with
  | zero => intro x; simp [leBytes, leNat, Nat.mod_one]
  | succ n ih =>
    intro x
    rw [leBytes, leNat, ih, Nat.pow_succ', Nat.mod_mul]
    simp

end Sys2Proof.Machine
end

