-- ==== Sys2Proof/Laws/Maps.lean ====
section
/-! SUPPORT. Sparse tables and the accessors of State: reading after writing. -/

namespace Sys2Proof.Machine

@[simp] theorem mget_mset_self {α : Type} (m : Map α) (k : Nat) (v d : α) : mget (mset m k v) k d = v := by
  induction m with
  | nil => simp [mset, mget]
  | cons p m ih =>
    obtain ⟨k', v'⟩ := p
    unfold mset
    split
    · simp [mget]
    · split
      · simp [mget]
      · rename_i h _; simp [mget, h, ih]

theorem mget_mset_ne {α : Type} (m : Map α) {k j : Nat} (v d : α) (h : j ≠ k) : mget (mset m k v) j d = mget m j d := by
  induction m with
  | nil => simp [mset, mget, h]
  | cons p m ih =>
    obtain ⟨k', v'⟩ := p
    unfold mset
    split
    · subst_vars; simp [mget, h]
    · split
      · simp [mget, h]
      · simp [mget, ih]

@[simp] theorem mfind_mset_self {α : Type} (m : Map α) (k : Nat) (v : α) : mfind (mset m k v) k = some v := by
  induction m with
  | nil => simp [mset, mfind]
  | cons p m ih =>
    obtain ⟨k', v'⟩ := p
    unfold mset
    split
    · simp [mfind]
    · split
      · simp [mfind]
      · rename_i h _; simp [mfind, h, ih]

theorem mfind_mset_ne {α : Type} (m : Map α) {k j : Nat} (v : α) (h : j ≠ k) : mfind (mset m k v) j = mfind m j := by
  induction m with
  | nil => simp [mset, mfind, h]
  | cons p m ih =>
    obtain ⟨k', v'⟩ := p
    unfold mset
    split
    · subst_vars; simp [mfind, h]
    · split
      · simp [mfind, h]
      · simp [mfind, ih]

/-! ## Halls -/

@[simp] theorem State.hall_setHall_self (s : State) (h : Nat) (x : Hall) : (s.setHall h x).hall h = x := by
  simp [State.setHall, State.hall]

theorem State.hall_setHall_ne (s : State) {h g : Nat} (x : Hall) (n : g ≠ h) : (s.setHall h x).hall g = s.hall g := by
  simp [State.setHall, State.hall, mget_mset_ne _ _ _ n]

@[simp] theorem State.hall_updHall_self (s : State) (h : Nat) (f : Hall → Hall) : (s.updHall h f).hall h = f (s.hall h) := by
  simp [State.updHall]

theorem State.hall_updHall_ne (s : State) {h g : Nat} (f : Hall → Hall) (n : g ≠ h) :
    (s.updHall h f).hall g = s.hall g := by
  simp [State.updHall, State.hall_setHall_ne _ _ n]

theorem mset_mset_self {α : Type} (m : Map α) (k : Nat) (v w : α) : mset (mset m k v) k w = mset m k w := by
  induction m with
  | nil => simp [mset]
  | cons p m ih =>
    obtain ⟨k', v'⟩ := p
    by_cases h : k = k'
    · simp [mset, h]
    · by_cases h2 : k < k'
      · simp [mset, h, h2]
      · simp [mset, h, h2, ih]

/-- Two updates of one hall are one. -/
@[simp] theorem State.setHall_setHall (s : State) (h : Nat) (x y : Hall) : (s.setHall h x).setHall h y = s.setHall h y := by
  simp [State.setHall, mset_mset_self]

@[simp] theorem State.updHall_updHall (s : State) (h : Nat) (f g : Hall → Hall) :
    (s.updHall h f).updHall h g = s.updHall h (fun x => g (f x)) := by
  simp [State.updHall]

end Sys2Proof.Machine
end

