-- ==== Sys2Proof/Laws/PerInstr.lean ====
section
/-! SUPPORT. Statements about every instruction, one lemma for each constructor. `Fits`: the word of an instruction has
64 bits (R69), because every field keeps within its place. -/

namespace Sys2Proof

/-! ## Bounds of the encoded fields -/

theorem Mark.code_lt (x : Mark) : x.code < 3 := by cases x <;> decide
theorem Hint.code_lt (x : Hint) : x.code < 6 := by cases x <;> decide
theorem Scope.code_lt (x : Scope) : x.code < 6 := by cases x <;> decide
theorem Ord.code_lt (x : Ord) : x.code < 4 := by cases x <;> decide
theorem Sz.code_lt (x : Sz) : x.code < 4 := by cases x <;> decide
theorem Cond.code_lt (x : Cond) : x.code < 10 := by cases x <;> decide
theorem Combine.code_lt (x : Combine) : x.code < 3 := by cases x <;> decide
theorem RedOp.code_lt (x : RedOp) : x.code < 7 := by cases x <;> decide
theorem SysReg.code_lt (x : SysReg) : x.code < 1024 := by cases x <;> decide
theorem Fmt.code_lt (x : Fmt) : x.code < 32 := by cases x <;> decide
theorem FFmt.code_lt (x : FFmt) : x.code < 4 := by cases x <;> decide
theorem RMode.code_lt (x : RMode) : x.code < 5 := by cases x <;> decide
theorem SgnOp.code_lt (x : SgnOp) : x.code < 4 := by cases x <;> decide
theorem FCond.code_lt (x : FCond) : x.code < 8 := by cases x <;> decide
theorem TKind.code_lt (x : TKind) : x.code < 4 := by cases x <;> decide
theorem AmoOp.code_lt (x : AmoOp) : x.code < 8 := by cases x <;> decide
theorem PTest.code_lt (x : PTest) : x.code < 8 := by cases x <;> decide
theorem Trig.code_lt (x : Trig) : x.code < 3 := by cases x <;> decide
theorem Opnd.code_lt (x : Opnd) : x.code < 32 := by
  cases x <;> simp only [Opnd.code] <;> omega
theorem b2n_lt (b : Bool) : b2n b < 2 := by cases b <;> decide
theorem Guard.code_lt (g : Guard) : g.code < 16 := by
  have := b2n_lt g.neg; have := g.pix.isLt; simp only [Guard.code]; omega
theorem encSync_le (y : Sync) : encSync y ≤ 1016 := by
  have := b2n_lt y.dbl; have := y.ord.code_lt; have := y.scp.code_lt; simp only [encSync]; omega
theorem encMemImm_lt (sz : Sz) (sx : Bool) (off : BitVec 25) : encMemImm sz sx off < 2 ^ 28 := by
  have := sz.code_lt; have := b2n_lt sx; have := off.isLt; simp only [encMemImm]; omega
theorem encLoadFn_lt (inc : BitVec 5) (len : Fin 8) (wid : Fin 4) : encLoadFn inc len wid < 1024 := by
  have := inc.isLt; have := len.isLt; have := wid.isLt; simp only [encLoadFn]; omega

theorem encHdr_lt {op : Nat} (h : SHdr) (ho : op < 256) : encHdr op h < 2 ^ 64 - 2 ^ 40 + 1 ∧ encHdr op h % 2 ^ 40 = 0 := by
  have := h.ga.code_lt; have := h.gb.code_lt; have := h.mark.code_lt; have := h.ch.code_lt; have := b2n_lt h.y
  have := h.w.isLt
  simp only [encHdr]; omega

theorem encS_lt {op a b c d e fn : Nat} (h : SHdr) (ho : op < 256) (ha : a < 64) (hb : b < 64) (hc : c < 64)
    (hd : d < 64) (he : e < 64) (hf : fn < 1024) : encS op h a b c d e fn < 2 ^ 64 := by
  have := encHdr_lt h ho; simp only [encS]; omega

theorem encSI_lt {op a b imm : Nat} (h : SHdr) (ho : op < 256) (ha : a < 64) (hb : b < 64) (hi : imm < 2 ^ 28) :
    encSI op h a b imm < 2 ^ 64 := by
  have := encHdr_lt h ho; simp only [encSI]; omega

theorem encSL_lt {op a imm : Nat} (h : SHdr) (ho : op < 256) (ha : a < 64) (hi : imm < 2 ^ 34) :
    encSL op h a imm < 2 ^ 64 := by
  have := encHdr_lt h ho; simp only [encSL]; omega

theorem encF_lt {op d x y z fn : Nat} (f : FHdr) (ho : op < 256) (hd : d < 32) (hx : x < 32) (hy : y < 32)
    (hz : z < 32) (hf : fn < 1024) : encF op f d x y z fn < 2 ^ 64 := by
  have := f.ga.code_lt; have := f.gb.code_lt; have := f.ins.isLt; have := f.outs.isLt; have := f.pi.isLt
  have := f.po.isLt
  unfold encF
  split
  · rename_i tc tv _
    have := tc.isLt; have := tv.isLt; omega
  · omega

theorem encM_lt {op acc accum tr al bl tida tidb tidc ks epi flags : Nat} (ho : op < 256) (h1 : acc < 16)
    (h2 : accum < 2) (h3 : tr < 2) (h4 : al < 2) (h5 : bl < 2) (h6 : tida < 256) (h7 : tidb < 256) (h8 : tidc < 256)
    (h9 : ks < 256) (h10 : epi < 256) (h11 : flags < 256) :
    encM op acc accum tr al bl tida tidb tidc ks epi flags < 2 ^ 64 := by
  simp only [encM]; omega

theorem encP_lt {op ib0 ib1 ob0 ob1 lvl tid parm : Nat} (ho : op < 256) (h1 : ib0 < 4) (h2 : ib1 < 4) (h3 : ob0 < 4)
    (h4 : ob1 < 4) (h5 : lvl < 16) (h6 : tid < 256) (h7 : parm < 2 ^ 36) :
    encP op ib0 ib1 ob0 ob1 lvl tid parm < 2 ^ 64 := by
  simp only [encP]; omega

end Sys2Proof

/-- The word of the instruction, where it has one, has 64 bits (R69). -/
def Sys2Proof.Laws.Fits.Statement (i : Sys2Proof.Instr) : Prop := ∀ w, Sys2Proof.encode i = some w → w < 2 ^ 64

namespace Sys2Proof.Laws

theorem Fits.add (h : SHdr) (a : Reg) (b : Reg) (c : Reg) : Fits.Statement (.add h a b c) := by
  intro w hw; cases hw
  have := a.isLt; have := b.isLt; have := c.isLt
  apply encS_lt <;> omega
theorem Fits.sub (h : SHdr) (a : Reg) (b : Reg) (c : Reg) : Fits.Statement (.sub h a b c) := by
  intro w hw; cases hw
  have := a.isLt; have := b.isLt; have := c.isLt
  apply encS_lt <;> omega
theorem Fits.mul (h : SHdr) (a : Reg) (b : Reg) (c : Reg) : Fits.Statement (.mul h a b c) := by
  intro w hw; cases hw
  have := a.isLt; have := b.isLt; have := c.isLt
  apply encS_lt <;> omega
theorem Fits.mulh (h : SHdr) (a : Reg) (b : Reg) (c : Reg) (u : Bool) : Fits.Statement (.mulh h a b c u) := by
  intro w hw; cases hw
  have := a.isLt; have := b.isLt; have := c.isLt; have := b2n_lt u
  apply encS_lt <;> omega
theorem Fits.div (h : SHdr) (a : Reg) (b : Reg) (c : Reg) (u : Bool) : Fits.Statement (.div h a b c u) := by
  intro w hw; cases hw
  have := a.isLt; have := b.isLt; have := c.isLt; have := b2n_lt u
  apply encS_lt <;> omega
theorem Fits.rem (h : SHdr) (a : Reg) (b : Reg) (c : Reg) (u : Bool) : Fits.Statement (.rem h a b c u) := by
  intro w hw; cases hw
  have := a.isLt; have := b.isLt; have := c.isLt; have := b2n_lt u
  apply encS_lt <;> omega
theorem Fits.and (h : SHdr) (a : Reg) (b : Reg) (c : Reg) : Fits.Statement (.and h a b c) := by
  intro w hw; cases hw
  have := a.isLt; have := b.isLt; have := c.isLt
  apply encS_lt <;> omega
theorem Fits.or (h : SHdr) (a : Reg) (b : Reg) (c : Reg) : Fits.Statement (.or h a b c) := by
  intro w hw; cases hw
  have := a.isLt; have := b.isLt; have := c.isLt
  apply encS_lt <;> omega
theorem Fits.xor (h : SHdr) (a : Reg) (b : Reg) (c : Reg) : Fits.Statement (.xor h a b c) := by
  intro w hw; cases hw
  have := a.isLt; have := b.isLt; have := c.isLt
  apply encS_lt <;> omega
theorem Fits.andn (h : SHdr) (a : Reg) (b : Reg) (c : Reg) : Fits.Statement (.andn h a b c) := by
  intro w hw; cases hw
  have := a.isLt; have := b.isLt; have := c.isLt
  apply encS_lt <;> omega
theorem Fits.shl (h : SHdr) (a : Reg) (b : Reg) (c : Reg) : Fits.Statement (.shl h a b c) := by
  intro w hw; cases hw
  have := a.isLt; have := b.isLt; have := c.isLt
  apply encS_lt <;> omega
theorem Fits.shr (h : SHdr) (a : Reg) (b : Reg) (c : Reg) : Fits.Statement (.shr h a b c) := by
  intro w hw; cases hw
  have := a.isLt; have := b.isLt; have := c.isLt
  apply encS_lt <;> omega
theorem Fits.sra (h : SHdr) (a : Reg) (b : Reg) (c : Reg) : Fits.Statement (.sra h a b c) := by
  intro w hw; cases hw
  have := a.isLt; have := b.isLt; have := c.isLt
  apply encS_lt <;> omega
theorem Fits.min (h : SHdr) (a : Reg) (b : Reg) (c : Reg) (u : Bool) : Fits.Statement (.min h a b c u) := by
  intro w hw; cases hw
  have := a.isLt; have := b.isLt; have := c.isLt; have := b2n_lt u
  apply encS_lt <;> omega
theorem Fits.max (h : SHdr) (a : Reg) (b : Reg) (c : Reg) (u : Bool) : Fits.Statement (.max h a b c u) := by
  intro w hw; cases hw
  have := a.isLt; have := b.isLt; have := c.isLt; have := b2n_lt u
  apply encS_lt <;> omega
theorem Fits.clz (h : SHdr) (a : Reg) (b : Reg) : Fits.Statement (.clz h a b) := by
  intro w hw; cases hw
  have := a.isLt; have := b.isLt
  apply encS_lt <;> omega
theorem Fits.popc (h : SHdr) (a : Reg) (b : Reg) : Fits.Statement (.popc h a b) := by
  intro w hw; cases hw
  have := a.isLt; have := b.isLt
  apply encS_lt <;> omega
theorem Fits.bfx (h : SHdr) (a : Reg) (b : Reg) (c : Reg) (sx : Bool) : Fits.Statement (.bfx h a b c sx) := by
  intro w hw; cases hw
  have := a.isLt; have := b.isLt; have := c.isLt; have := b2n_lt sx
  apply encS_lt <;> omega
theorem Fits.bfi (h : SHdr) (a : Reg) (b : Reg) (c : Reg) (d : Reg) : Fits.Statement (.bfi h a b c d) := by
  intro w hw; cases hw
  have := a.isLt; have := b.isLt; have := c.isLt; have := d.isLt
  apply encS_lt <;> omega
theorem Fits.sel (h : SHdr) (a : Reg) (b : Reg) (c : Reg) (p : Pred) : Fits.Statement (.sel h a b c p) := by
  intro w hw; cases hw
  have := a.isLt; have := b.isLt; have := c.isLt; have := p.isLt
  apply encS_lt <;> omega
theorem Fits.cmp (h : SHdr) (p : Pred) (b : Reg) (c : Reg) (k : Combine) (cond : Cond) : Fits.Statement (.cmp h p b c k cond) := by
  intro w hw; cases hw
  have := p.isLt; have := b.isLt; have := c.isLt; have := k.code_lt; have := cond.code_lt
  apply encS_lt <;> omega
theorem Fits.mad (h : SHdr) (a : Reg) (b : Reg) (c : Reg) (d : Reg) : Fits.Statement (.mad h a b c d) := by
  intro w hw; cases hw
  have := a.isLt; have := b.isLt; have := c.isLt; have := d.isLt
  apply encS_lt <;> omega
theorem Fits.lea (h : SHdr) (a : Reg) (b : Reg) (c : Reg) (x32 : Bool) (sh : Fin 8) : Fits.Statement (.lea h a b c x32 sh) := by
  intro w hw; cases hw
  have := a.isLt; have := b.isLt; have := c.isLt; have := b2n_lt x32; have := sh.isLt
  apply encS_lt <;> omega
theorem Fits.addi (h : SHdr) (a : Reg) (b : Reg) (imm : BitVec 28) : Fits.Statement (.addi h a b imm) := by
  intro w hw; cases hw
  have := a.isLt; have := b.isLt; have := imm.isLt
  apply encSI_lt <;> omega
theorem Fits.muli (h : SHdr) (a : Reg) (b : Reg) (imm : BitVec 28) : Fits.Statement (.muli h a b imm) := by
  intro w hw; cases hw
  have := a.isLt; have := b.isLt; have := imm.isLt
  apply encSI_lt <;> omega
theorem Fits.andi (h : SHdr) (a : Reg) (b : Reg) (imm : BitVec 28) : Fits.Statement (.andi h a b imm) := by
  intro w hw; cases hw
  have := a.isLt; have := b.isLt; have := imm.isLt
  apply encSI_lt <;> omega
theorem Fits.ori (h : SHdr) (a : Reg) (b : Reg) (imm : BitVec 28) : Fits.Statement (.ori h a b imm) := by
  intro w hw; cases hw
  have := a.isLt; have := b.isLt; have := imm.isLt
  apply encSI_lt <;> omega
theorem Fits.xori (h : SHdr) (a : Reg) (b : Reg) (imm : BitVec 28) : Fits.Statement (.xori h a b imm) := by
  intro w hw; cases hw
  have := a.isLt; have := b.isLt; have := imm.isLt
  apply encSI_lt <;> omega
theorem Fits.shli (h : SHdr) (a : Reg) (b : Reg) (n : Fin 64) : Fits.Statement (.shli h a b n) := by
  intro w hw; cases hw
  have := a.isLt; have := b.isLt; have := n.isLt
  apply encSI_lt <;> omega
theorem Fits.shri (h : SHdr) (a : Reg) (b : Reg) (n : Fin 64) : Fits.Statement (.shri h a b n) := by
  intro w hw; cases hw
  have := a.isLt; have := b.isLt; have := n.isLt
  apply encSI_lt <;> omega
theorem Fits.srai (h : SHdr) (a : Reg) (b : Reg) (n : Fin 64) : Fits.Statement (.srai h a b n) := by
  intro w hw; cases hw
  have := a.isLt; have := b.isLt; have := n.isLt
  apply encSI_lt <;> omega
theorem Fits.cmpi (h : SHdr) (a : Reg) (b : Reg) (imm : BitVec 28) : Fits.Statement (.cmpi h a b imm) := by
  intro w hw; cases hw
  have := a.isLt; have := b.isLt; have := imm.isLt
  apply encSI_lt <;> omega
theorem Fits.movi (h : SHdr) (a : Reg) (imm : BitVec 34) : Fits.Statement (.movi h a imm) := by
  intro w hw; cases hw
  have := a.isLt; have := imm.isLt
  apply encSL_lt <;> omega
theorem Fits.movhi (h : SHdr) (a : Reg) (imm : BitVec 30) : Fits.Statement (.movhi h a imm) := by
  intro w hw; cases hw
  have := a.isLt; have := imm.isLt
  apply encSL_lt <;> omega
theorem Fits.sysr (h : SHdr) (a : Reg) (c : Reg) (r : SysReg) : Fits.Statement (.sysr h a c r) := by
  intro w hw; cases hw
  have := a.isLt; have := c.isLt; have := r.code_lt
  apply encS_lt <;> omega
theorem Fits.sysw (h : SHdr) (b : Reg) (c : Reg) (r : SysReg) : Fits.Statement (.sysw h b c r) := by
  intro w hw; cases hw
  have := b.isLt; have := c.isLt; have := r.code_lt
  apply encS_lt <;> omega
theorem Fits.syswSeqLc (h : SHdr) (b : Reg) (c : Reg) : Fits.Statement (.syswSeqLc h b c) := by
  intro w hw; cases hw
  have := b.isLt; have := c.isLt; have := SysReg.code_lt .seqLc
  apply encS_lt <;> omega
theorem Fits.syswFacetSeed (h : SHdr) (b : Reg) (c : Reg) : Fits.Statement (.syswFacetSeed h b c) := by
  intro w hw; cases hw
  have := b.isLt; have := c.isLt; have := SysReg.code_lt .facetSeed
  apply encS_lt <;> omega
theorem Fits.syswL2Waymask (h : SHdr) (b : Reg) (c : Reg) : Fits.Statement (.syswL2Waymask h b c) := by
  intro w hw; cases hw
  have := b.isLt; have := c.isLt; have := SysReg.code_lt .l2Waymask
  apply encS_lt <;> omega
theorem Fits.syswEvBase (h : SHdr) (b : Reg) (c : Reg) : Fits.Statement (.syswEvBase h b c) := by
  intro w hw; cases hw
  have := b.isLt; have := c.isLt; have := SysReg.code_lt .ctxEvbase
  apply encS_lt <;> omega
theorem Fits.syswEvSize (h : SHdr) (b : Reg) (c : Reg) : Fits.Statement (.syswEvSize h b c) := by
  intro w hw; cases hw
  have := b.isLt; have := c.isLt; have := SysReg.code_lt .ctxEvsize
  apply encS_lt <;> omega
theorem Fits.syswEvTail (h : SHdr) (b : Reg) (c : Reg) : Fits.Statement (.syswEvTail h b c) := by
  intro w hw; cases hw
  have := b.isLt; have := c.isLt; have := SysReg.code_lt .ctxEvtail
  apply encS_lt <;> omega
theorem Fits.syswEvLost (h : SHdr) (b : Reg) (c : Reg) : Fits.Statement (.syswEvLost h b c) := by
  intro w hw; cases hw
  have := b.isLt; have := c.isLt; have := SysReg.code_lt .ctxEvlost
  apply encS_lt <;> omega
theorem Fits.syswLogTail (h : SHdr) (b : Reg) (c : Reg) : Fits.Statement (.syswLogTail h b c) := by
  intro w hw; cases hw
  have := b.isLt; have := c.isLt; have := SysReg.code_lt .ctxLogtail
  apply encS_lt <;> omega
theorem Fits.syswLogHead (h : SHdr) (b : Reg) (c : Reg) : Fits.Statement (.syswLogHead h b c) := by
  intro w hw; cases hw
  have := b.isLt; have := c.isLt; have := SysReg.code_lt .ctxLoghead
  apply encS_lt <;> omega
theorem Fits.syswRacectl (h : SHdr) (b : Reg) (c : Reg) : Fits.Statement (.syswRacectl h b c) := by
  intro w hw; cases hw
  have := b.isLt; have := c.isLt; have := SysReg.code_lt .ctxRacectl
  apply encS_lt <;> omega
theorem Fits.syswMxFlags (h : SHdr) (b : Reg) (c : Reg) : Fits.Statement (.syswMxFlags h b c) := by
  intro w hw; cases hw
  have := b.isLt; have := c.isLt; have := SysReg.code_lt .mxFlags
  apply encS_lt <;> omega
theorem Fits.nop (h : SHdr) : Fits.Statement (.nop h) := by
  intro w hw; cases hw
  apply encS_lt <;> omega
theorem Fits.br (h : SHdr) (imm : BitVec 34) : Fits.Statement (.br h imm) := by
  intro w hw; cases hw
  have := imm.isLt
  apply encSL_lt <;> omega
theorem Fits.jmp (h : SHdr) (b : Reg) (c : Reg) : Fits.Statement (.jmp h b c) := by
  intro w hw; cases hw
  have := b.isLt; have := c.isLt
  apply encS_lt <;> omega
theorem Fits.call (h : SHdr) (a : Reg) (imm : BitVec 34) : Fits.Statement (.call h a imm) := by
  intro w hw; cases hw
  have := a.isLt; have := imm.isLt
  apply encSL_lt <;> omega
theorem Fits.ret (h : SHdr) (b : Reg) : Fits.Statement (.ret h b) := by
  intro w hw; cases hw
  have := b.isLt
  apply encS_lt <;> omega
theorem Fits.loop (h : SHdr) (a : Reg) (imm : BitVec 28) : Fits.Statement (.loop h a imm) := by
  intro w hw; cases hw
  have := a.isLt; have := imm.isLt
  apply encSI_lt <;> omega
theorem Fits.yield (h : SHdr) : Fits.Statement (.yield h) := by
  intro w hw; cases hw
  apply encS_lt <;> omega
theorem Fits.exit (h : SHdr) : Fits.Statement (.exit h) := by
  intro w hw; cases hw
  apply encS_lt <;> omega
theorem Fits.trap (h : SHdr) (code : BitVec 8) : Fits.Statement (.trap h code) := by
  intro w hw; cases hw
  have := code.isLt
  apply encSI_lt <;> omega
theorem Fits.ld (h : SHdr) (a : Reg) (b : Reg) (sz : Sz) (sx : Bool) (off : BitVec 25) : Fits.Statement (.ld h a b sz sx off) := by
  intro w hw; cases hw
  have := a.isLt; have := b.isLt; have := sz.code_lt; have := b2n_lt sx; have := off.isLt
  have := encMemImm_lt sz sx off
  apply encSI_lt <;> omega
theorem Fits.st (h : SHdr) (a : Reg) (b : Reg) (sz : Sz) (off : BitVec 25) : Fits.Statement (.st h a b sz off) := by
  intro w hw; cases hw
  have := a.isLt; have := b.isLt; have := sz.code_lt; have := off.isLt
  have := encMemImm_lt sz false off
  apply encSI_lt <;> omega
theorem Fits.ldx (h : SHdr) (a : Reg) (b : Reg) (c : Reg) (sz : Sz) (sx : Bool) (sh : Fin 8) : Fits.Statement (.ldx h a b c sz sx sh) := by
  intro w hw; cases hw
  have := a.isLt; have := b.isLt; have := c.isLt; have := sz.code_lt; have := b2n_lt sx
  have := sh.isLt
  apply encS_lt <;> omega
theorem Fits.stx (h : SHdr) (a : Reg) (b : Reg) (c : Reg) (sz : Sz) (sh : Fin 8) : Fits.Statement (.stx h a b c sz sh) := by
  intro w hw; cases hw
  have := a.isLt; have := b.isLt; have := c.isLt; have := sz.code_lt; have := sh.isLt
  apply encS_lt <;> omega
theorem Fits.ldf (h : SHdr) (a : Reg) (b : Reg) (dbl : Bool) (off : BitVec 25) : Fits.Statement (.ldf h a b dbl off) := by
  intro w hw; cases hw
  have := a.isLt; have := b.isLt; have := b2n_lt dbl; have := off.isLt
  have := encMemImm_lt (if dbl then .d else .w) false off
  apply encSI_lt <;> omega
theorem Fits.lde (h : SHdr) (a : Reg) (b : Reg) (dbl : Bool) (off : BitVec 25) : Fits.Statement (.lde h a b dbl off) := by
  intro w hw; cases hw
  have := a.isLt; have := b.isLt; have := b2n_lt dbl; have := off.isLt
  have := encMemImm_lt (if dbl then .d else .w) false off
  apply encSI_lt <;> omega
theorem Fits.ste (h : SHdr) (a : Reg) (b : Reg) (dbl : Bool) (off : BitVec 25) : Fits.Statement (.ste h a b dbl off) := by
  intro w hw; cases hw
  have := a.isLt; have := b.isLt; have := b2n_lt dbl; have := off.isLt
  have := encMemImm_lt (if dbl then .d else .w) false off
  apply encSI_lt <;> omega
theorem Fits.stf (h : SHdr) (a : Reg) (b : Reg) (dbl : Bool) (off : BitVec 25) : Fits.Statement (.stf h a b dbl off) := by
  intro w hw; cases hw
  have := a.isLt; have := b.isLt; have := b2n_lt dbl; have := off.isLt
  have := encMemImm_lt (if dbl then .d else .w) false off
  apply encSI_lt <;> omega
theorem Fits.festF (h : SHdr) (b : Reg) (c : Reg) : Fits.Statement (.festF h b c) := by
  intro w hw; cases hw
  have := b.isLt; have := c.isLt
  apply encS_lt <;> omega
theorem Fits.festE (h : SHdr) (b : Reg) (c : Reg) : Fits.Statement (.festE h b c) := by
  intro w hw; cases hw
  have := b.isLt; have := c.isLt
  apply encS_lt <;> omega
theorem Fits.feWaitServe (hall : HallId) (word : Nat) : Fits.Statement (.feWaitServe hall word) := by
  intro w hw; cases hw
theorem Fits.pfx (h : SHdr) (b : Reg) (c : Reg) (l2 : Bool) (lines : Fin 256) : Fits.Statement (.pfx h b c l2 lines) := by
  intro w hw; cases hw
  have := b.isLt; have := c.isLt; have := b2n_lt l2; have := lines.isLt
  apply encS_lt <;> omega
theorem Fits.flush (h : SHdr) (b : Reg) (c : Reg) : Fits.Statement (.flush h b c) := by
  intro w hw; cases hw
  have := b.isLt; have := c.isLt
  apply encS_lt <;> omega
theorem Fits.inval (h : SHdr) (b : Reg) (c : Reg) (wb : Bool) : Fits.Statement (.inval h b c wb) := by
  intro w hw; cases hw
  have := b.isLt; have := c.isLt; have := b2n_lt wb
  apply encS_lt <;> omega
theorem Fits.amadd (h : SHdr) (a : Reg) (b : Reg) (c : Reg) (y : Sync) : Fits.Statement (.amadd h a b c y) := by
  intro w hw; cases hw
  have := a.isLt; have := b.isLt; have := c.isLt; have := encSync_le y
  apply encS_lt <;> omega
theorem Fits.amand (h : SHdr) (a : Reg) (b : Reg) (c : Reg) (y : Sync) : Fits.Statement (.amand h a b c y) := by
  intro w hw; cases hw
  have := a.isLt; have := b.isLt; have := c.isLt; have := encSync_le y
  apply encS_lt <;> omega
theorem Fits.amor (h : SHdr) (a : Reg) (b : Reg) (c : Reg) (y : Sync) : Fits.Statement (.amor h a b c y) := by
  intro w hw; cases hw
  have := a.isLt; have := b.isLt; have := c.isLt; have := encSync_le y
  apply encS_lt <;> omega
theorem Fits.amxor (h : SHdr) (a : Reg) (b : Reg) (c : Reg) (y : Sync) : Fits.Statement (.amxor h a b c y) := by
  intro w hw; cases hw
  have := a.isLt; have := b.isLt; have := c.isLt; have := encSync_le y
  apply encS_lt <;> omega
theorem Fits.ammin (h : SHdr) (a : Reg) (b : Reg) (c : Reg) (y : Sync) (u : Bool) : Fits.Statement (.ammin h a b c y u) := by
  intro w hw; cases hw
  have := a.isLt; have := b.isLt; have := c.isLt; have := b2n_lt u; have := encSync_le y
  apply encS_lt <;> omega
theorem Fits.ammax (h : SHdr) (a : Reg) (b : Reg) (c : Reg) (y : Sync) (u : Bool) : Fits.Statement (.ammax h a b c y u) := by
  intro w hw; cases hw
  have := a.isLt; have := b.isLt; have := c.isLt; have := b2n_lt u; have := encSync_le y
  apply encS_lt <;> omega
theorem Fits.amswp (h : SHdr) (a : Reg) (b : Reg) (c : Reg) (y : Sync) : Fits.Statement (.amswp h a b c y) := by
  intro w hw; cases hw
  have := a.isLt; have := b.isLt; have := c.isLt; have := encSync_le y
  apply encS_lt <;> omega
theorem Fits.amcas (h : SHdr) (a : Reg) (b : Reg) (c : Reg) (d : Reg) (p : Pred) (y : Sync) : Fits.Statement (.amcas h a b c d p y) := by
  intro w hw; cases hw
  have := a.isLt; have := b.isLt; have := c.isLt; have := d.isLt; have := p.isLt; have := encSync_le y
  apply encS_lt <;> omega
theorem Fits.amincw (h : SHdr) (a : Reg) (b : Reg) (c : Reg) (y : Sync) : Fits.Statement (.amincw h a b c y) := by
  intro w hw; cases hw
  have := a.isLt; have := b.isLt; have := c.isLt; have := encSync_le y
  apply encS_lt <;> omega
theorem Fits.amfab (h : SHdr) (a : Reg) (b : Reg) (c : Reg) (d : Reg) (p : Pred) (y : Sync) : Fits.Statement (.amfab h a b c d p y) := by
  intro w hw; cases hw
  have := a.isLt; have := b.isLt; have := c.isLt; have := d.isLt; have := p.isLt; have := encSync_le y
  apply encS_lt <;> omega
theorem Fits.red (h : SHdr) (b : Reg) (c : Reg) (y : Sync) (op : RedOp) : Fits.Statement (.red h b c y op) := by
  intro w hw; cases hw
  have := b.isLt; have := c.isLt; have := op.code_lt; have := encSync_le y
  apply encS_lt <;> omega
theorem Fits.redPerform (hall : HallId) : Fits.Statement (.redPerform hall) := by
  intro w hw; cases hw
theorem Fits.amfadd (h : SHdr) (a : Reg) (b : Reg) (c : Reg) (y : Sync) : Fits.Statement (.amfadd h a b c y) := by
  intro w hw; cases hw
  have := a.isLt; have := b.isLt; have := c.isLt; have := encSync_le y
  apply encS_lt <;> omega
theorem Fits.fence (h : SHdr) (ord : Ord) (scp : Scope) : Fits.Statement (.fence h ord scp) := by
  intro w hw; cases hw
  have := ord.code_lt; have := scp.code_lt
  apply encS_lt <;> omega
theorem Fits.bar (h : SHdr) (fab : Bool) : Fits.Statement (.bar h fab) := by
  intro w hw; cases hw
  have := b2n_lt fab
  apply encS_lt <;> omega
theorem Fits.gbar (h : SHdr) (a : Reg) : Fits.Statement (.gbar h a) := by
  intro w hw; cases hw
  have := a.isLt
  apply encS_lt <;> omega
theorem Fits.gbarGenerationComplete (gal : Fin 8) (unit : Fin 3) : Fits.Statement (.gbarGenerationComplete gal unit) := by
  intro w hw; cases hw
theorem Fits.trig (h : SHdr) : Fits.Statement (.trig h) := by
  intro w hw; cases hw
  apply encS_lt <;> omega
theorem Fits.triggerWalk (die : Fin 2) : Fits.Statement (.triggerWalk die) := by
  intro w hw; cases hw
theorem Fits.mark (h : SHdr) (b : Reg) : Fits.Statement (.mark h b) := by
  intro w hw; cases hw
  have := b.isLt
  apply encS_lt <;> omega
theorem Fits.beat (h : SHdr) : Fits.Statement (.beat h) := by
  intro w hw; cases hw
  apply encS_lt <;> omega
theorem Fits.spawn (h : SHdr) (b : Reg) (xd : Bool) : Fits.Statement (.spawn h b xd) := by
  intro w hw; cases hw
  have := b.isLt; have := b2n_lt xd
  apply encS_lt <;> omega
theorem Fits.cfgld (h : SHdr) (a : Reg) (b : Reg) : Fits.Statement (.cfgld h a b) := by
  intro w hw; cases hw
  have := a.isLt; have := b.isLt
  apply encS_lt <;> omega
theorem Fits.cfgrel (h : SHdr) (b : Reg) : Fits.Statement (.cfgrel h b) := by
  intro w hw; cases hw
  have := b.isLt
  apply encS_lt <;> omega
theorem Fits.pusht (h : SHdr) (a : Reg) (b : Reg) (c : Reg) (d : Reg) (e : Reg) (ch : Chan) : Fits.Statement (.pusht h a b c d e ch) := by
  intro w hw; cases hw
  have := a.isLt; have := b.isLt; have := c.isLt; have := d.isLt; have := e.isLt; have := ch.isLt
  apply encS_lt <;> omega
theorem Fits.popt (h : SHdr) (a : Reg) (b : Reg) (c : Reg) (d : Reg) (e : Reg) (ch : Chan) (k : Bool) : Fits.Statement (.popt h a b c d e ch k) := by
  intro w hw; cases hw
  have := a.isLt; have := b.isLt; have := c.isLt; have := d.isLt; have := e.isLt; have := ch.isLt
  have := b2n_lt k
  apply encS_lt <;> omega
theorem Fits.ctltSend (h : SHdr) (line : Fin 2) : Fits.Statement (.ctltSend h line) := by
  intro w hw; cases hw
  have := line.isLt
  apply encS_lt <;> omega
theorem Fits.ctltConsume (h : SHdr) (line : Fin 2) : Fits.Statement (.ctltConsume h line) := by
  intro w hw; cases hw
  have := line.isLt
  apply encS_lt <;> omega
theorem Fits.cpy (h : SHdr) (a : Reg) (b : Reg) (c : Reg) (d : Reg) : Fits.Statement (.cpy h a b c d) := by
  intro w hw; cases hw
  have := a.isLt; have := b.isLt; have := c.isLt; have := d.isLt
  apply encS_lt <;> omega
theorem Fits.cpyT (h : SHdr) (a : Reg) (b : Reg) (c : Reg) : Fits.Statement (.cpyT h a b c) := by
  intro w hw; cases hw
  have := a.isLt; have := b.isLt; have := c.isLt
  apply encS_lt <;> omega
theorem Fits.copyComplete (hall : HallId) (id : Nat) : Fits.Statement (.copyComplete hall id) := by
  intro w hw; cases hw
theorem Fits.copyFaultPark (hall : HallId) (id : Nat) : Fits.Statement (.copyFaultPark hall id) := by
  intro w hw; cases hw
theorem Fits.cpyc (h : SHdr) (a : Reg) (b : Reg) (ch : Fin 8) : Fits.Statement (.cpyc h a b ch) := by
  intro w hw; cases hw
  have := a.isLt; have := b.isLt; have := ch.isLt
  apply encS_lt <;> omega
theorem Fits.chainRecord (hall : HallId) (ch : Fin 8) : Fits.Statement (.chainRecord hall ch) := by
  intro w hw; cases hw
theorem Fits.cpym (h : SHdr) (a : Reg) (b : Reg) (c : Reg) (d : Reg) (g : Fin 64) : Fits.Statement (.cpym h a b c d g) := by
  intro w hw; cases hw
  have := a.isLt; have := b.isLt; have := c.isLt; have := d.isLt; have := g.isLt
  apply encS_lt <;> omega
theorem Fits.cpyqCount (h : SHdr) (a : Reg) : Fits.Statement (.cpyqCount h a) := by
  intro w hw; cases hw
  have := a.isLt
  apply encS_lt <;> omega
theorem Fits.cpyqChain (h : SHdr) (a : Reg) (ch : Fin 8) : Fits.Statement (.cpyqChain h a ch) := by
  intro w hw; cases hw
  have := a.isLt; have := ch.isLt
  apply encS_lt <;> omega
theorem Fits.cpyqGq (h : SHdr) (a : Reg) (b : Reg) : Fits.Statement (.cpyqGq h a b) := by
  intro w hw; cases hw
  have := a.isLt; have := b.isLt
  apply encS_lt <;> omega
theorem Fits.cpyqGset (h : SHdr) (a : Reg) (b : Reg) : Fits.Statement (.cpyqGset h a b) := by
  intro w hw; cases hw
  have := a.isLt; have := b.isLt
  apply encS_lt <;> omega
theorem Fits.cpyqGres (h : SHdr) (a : Reg) (b : Reg) : Fits.Statement (.cpyqGres h a b) := by
  intro w hw; cases hw
  have := a.isLt; have := b.isLt
  apply encS_lt <;> omega
theorem Fits.acpy (h : SHdr) (a : Reg) (b : Reg) (c : Reg) (d : Reg) : Fits.Statement (.acpy h a b c d) := by
  intro w hw; cases hw
  have := a.isLt; have := b.isLt; have := c.isLt; have := d.isLt
  apply encS_lt <;> omega
theorem Fits.afill (h : SHdr) (a : Reg) (b : Reg) (c : Reg) (d : Reg) : Fits.Statement (.afill h a b c d) := by
  intro w hw; cases hw
  have := a.isLt; have := b.isLt; have := c.isLt; have := d.isLt
  apply encS_lt <;> omega
theorem Fits.aand (h : SHdr) (a : Reg) (b : Reg) (c : Reg) (d : Reg) (e : Reg) : Fits.Statement (.aand h a b c d e) := by
  intro w hw; cases hw
  have := a.isLt; have := b.isLt; have := c.isLt; have := d.isLt; have := e.isLt
  apply encS_lt <;> omega
theorem Fits.aor (h : SHdr) (a : Reg) (b : Reg) (c : Reg) (d : Reg) (e : Reg) : Fits.Statement (.aor h a b c d e) := by
  intro w hw; cases hw
  have := a.isLt; have := b.isLt; have := c.isLt; have := d.isLt; have := e.isLt
  apply encS_lt <;> omega
theorem Fits.axor (h : SHdr) (a : Reg) (b : Reg) (c : Reg) (d : Reg) (e : Reg) : Fits.Statement (.axor h a b c d e) := by
  intro w hw; cases hw
  have := a.isLt; have := b.isLt; have := c.isLt; have := d.isLt; have := e.isLt
  apply encS_lt <;> omega
theorem Fits.anot (h : SHdr) (a : Reg) (b : Reg) (c : Reg) (d : Reg) : Fits.Statement (.anot h a b c d) := by
  intro w hw; cases hw
  have := a.isLt; have := b.isLt; have := c.isLt; have := d.isLt
  apply encS_lt <;> omega
theorem Fits.arrayOpComplete (hall : HallId) (id : Nat) : Fits.Statement (.arrayOpComplete hall id) := by
  intro w hw; cases hw
theorem Fits.pmov (h : SHdr) (a : Reg) (b : Reg) (far : Bool) : Fits.Statement (.pmov h a b far) := by
  intro w hw; cases hw
  have := a.isLt; have := b.isLt; have := b2n_lt far
  apply encS_lt <;> omega
theorem Fits.pmovComplete (hall : HallId) (id : Nat) : Fits.Statement (.pmovComplete hall id) := by
  intro w hw; cases hw
theorem Fits.tdef (h : SHdr) (a : Reg) (b : Reg) (c : Reg) (d : Reg) (e : Reg) : Fits.Statement (.tdef h a b c d e) := by
  intro w hw; cases hw
  have := a.isLt; have := b.isLt; have := c.isLt; have := d.isLt; have := e.isLt
  apply encS_lt <;> omega
theorem Fits.tdrop (h : SHdr) (a : Reg) : Fits.Statement (.tdrop h a) := by
  intro w hw; cases hw
  have := a.isLt
  apply encS_lt <;> omega
theorem Fits.mma (acc : Fin 16) (accum : Bool) (tr : Bool) (al : Bool) (bl : Bool) (tida : BitVec 8) (tidb : BitVec 8) (ks : BitVec 8) (ta : Bool) (ct : Bool) : Fits.Statement (.mma acc accum tr al bl tida tidb ks ta ct) := by
  intro w hw; cases hw
  have := acc.isLt; have := b2n_lt accum; have := b2n_lt tr; have := b2n_lt al; have := b2n_lt bl
  have := tida.isLt; have := tidb.isLt; have := ks.isLt; have := b2n_lt ta; have := b2n_lt ct
  apply encM_lt <;> omega
theorem Fits.mmag (acc : Fin 16) (accum : Bool) (tr : Bool) (bl : Bool) (tida : BitVec 8) (tidb : BitVec 8) (ks : BitVec 8) (ct : Bool) : Fits.Statement (.mmag acc accum tr bl tida tidb ks ct) := by
  intro w hw; cases hw
  have := acc.isLt; have := b2n_lt accum; have := b2n_lt tr; have := b2n_lt bl; have := tida.isLt
  have := tidb.isLt; have := ks.isLt; have := b2n_lt ct
  apply encM_lt <;> omega
theorem Fits.mxz (acc : Fin 16) (all : Bool) (ct : Bool) : Fits.Statement (.mxz acc all ct) := by
  intro w hw; cases hw
  have := acc.isLt; have := b2n_lt all; have := b2n_lt ct
  apply encM_lt <;> omega
theorem Fits.mxrd (acc : Fin 16) (tidc : BitVec 8) (epi : BitVec 8) (ct : Bool) : Fits.Statement (.mxrd acc tidc epi ct) := by
  intro w hw; cases hw
  have := acc.isLt; have := tidc.isLt; have := epi.isLt; have := b2n_lt ct
  apply encM_lt <;> omega
theorem Fits.mxld (acc : Fin 16) (tidc : BitVec 8) (ct : Bool) : Fits.Statement (.mxld acc tidc ct) := by
  intro w hw; cases hw
  have := acc.isLt; have := tidc.isLt; have := b2n_lt ct
  apply encM_lt <;> omega
theorem Fits.mxepi (acc : Fin 16) (tidc : BitVec 8) (epi : BitVec 8) (ct : Bool) : Fits.Statement (.mxepi acc tidc epi ct) := by
  intro w hw; cases hw
  have := acc.isLt; have := tidc.isLt; have := epi.isLt; have := b2n_lt ct
  apply encM_lt <;> omega
theorem Fits.facetCycle (hall : HallId) (n : FacetId) : Fits.Statement (.facetCycle hall n) := by
  intro w hw; cases hw
theorem Fits.starvationUrgent (hall : HallId) (n : FacetId) (slot : Fin 16) : Fits.Statement (.starvationUrgent hall n slot) := by
  intro w hw; cases hw
theorem Fits.fadd (f : FHdr) (d : Opnd) (x : Opnd) (y : Opnd) (fmt : FFmt) : Fits.Statement (.fadd f d x y fmt) := by
  intro w hw; cases hw
  have := d.code_lt; have := x.code_lt; have := y.code_lt; have := fmt.code_lt
  apply encF_lt <;> omega
theorem Fits.fsub (f : FHdr) (d : Opnd) (x : Opnd) (y : Opnd) (fmt : FFmt) : Fits.Statement (.fsub f d x y fmt) := by
  intro w hw; cases hw
  have := d.code_lt; have := x.code_lt; have := y.code_lt; have := fmt.code_lt
  apply encF_lt <;> omega
theorem Fits.fmul (f : FHdr) (d : Opnd) (x : Opnd) (y : Opnd) (fmt : FFmt) : Fits.Statement (.fmul f d x y fmt) := by
  intro w hw; cases hw
  have := d.code_lt; have := x.code_lt; have := y.code_lt; have := fmt.code_lt
  apply encF_lt <;> omega
theorem Fits.ffma (f : FHdr) (d : Opnd) (x : Opnd) (y : Opnd) (z : Opnd) (fmt : FFmt) : Fits.Statement (.ffma f d x y z fmt) := by
  intro w hw; cases hw
  have := d.code_lt; have := x.code_lt; have := y.code_lt; have := z.code_lt; have := fmt.code_lt
  apply encF_lt <;> omega
theorem Fits.fmin (f : FHdr) (d : Opnd) (x : Opnd) (y : Opnd) (fmt : FFmt) : Fits.Statement (.fmin f d x y fmt) := by
  intro w hw; cases hw
  have := d.code_lt; have := x.code_lt; have := y.code_lt; have := fmt.code_lt
  apply encF_lt <;> omega
theorem Fits.fmax (f : FHdr) (d : Opnd) (x : Opnd) (y : Opnd) (fmt : FFmt) : Fits.Statement (.fmax f d x y fmt) := by
  intro w hw; cases hw
  have := d.code_lt; have := x.code_lt; have := y.code_lt; have := fmt.code_lt
  apply encF_lt <;> omega
theorem Fits.fsgn (f : FHdr) (d : Opnd) (x : Opnd) (y : Opnd) (op : SgnOp) (fmt : FFmt) : Fits.Statement (.fsgn f d x y op fmt) := by
  intro w hw; cases hw
  have := d.code_lt; have := x.code_lt; have := y.code_lt; have := op.code_lt; have := fmt.code_lt
  apply encF_lt <;> omega
theorem Fits.fcmp (f : FHdr) (d : Opnd) (x : Opnd) (y : Opnd) (cond : FCond) (all : Bool) (fmt : FFmt) : Fits.Statement (.fcmp f d x y cond all fmt) := by
  intro w hw; cases hw
  have := d.code_lt; have := x.code_lt; have := y.code_lt; have := cond.code_lt; have := b2n_lt all
  have := fmt.code_lt
  apply encF_lt <;> omega
theorem Fits.esel (f : FHdr) (d : Opnd) (x : Opnd) (y : Opnd) (z : Opnd) : Fits.Statement (.esel f d x y z) := by
  intro w hw; cases hw
  have := d.code_lt; have := x.code_lt; have := y.code_lt; have := z.code_lt
  apply encF_lt <;> omega
theorem Fits.fexp2 (f : FHdr) (d : Opnd) (x : Opnd) (fmt : FFmt) : Fits.Statement (.fexp2 f d x fmt) := by
  intro w hw; cases hw
  have := d.code_lt; have := x.code_lt; have := fmt.code_lt
  apply encF_lt <;> omega
theorem Fits.flog2 (f : FHdr) (d : Opnd) (x : Opnd) (fmt : FFmt) : Fits.Statement (.flog2 f d x fmt) := by
  intro w hw; cases hw
  have := d.code_lt; have := x.code_lt; have := fmt.code_lt
  apply encF_lt <;> omega
theorem Fits.frcp (f : FHdr) (d : Opnd) (x : Opnd) (fmt : FFmt) : Fits.Statement (.frcp f d x fmt) := by
  intro w hw; cases hw
  have := d.code_lt; have := x.code_lt; have := fmt.code_lt
  apply encF_lt <;> omega
theorem Fits.frsq (f : FHdr) (d : Opnd) (x : Opnd) (fmt : FFmt) : Fits.Statement (.frsq f d x fmt) := by
  intro w hw; cases hw
  have := d.code_lt; have := x.code_lt; have := fmt.code_lt
  apply encF_lt <;> omega
theorem Fits.fsqrt (f : FHdr) (d : Opnd) (x : Opnd) (fmt : FFmt) : Fits.Statement (.fsqrt f d x fmt) := by
  intro w hw; cases hw
  have := d.code_lt; have := x.code_lt; have := fmt.code_lt
  apply encF_lt <;> omega
theorem Fits.ftanh (f : FHdr) (d : Opnd) (x : Opnd) (fmt : FFmt) : Fits.Statement (.ftanh f d x fmt) := by
  intro w hw; cases hw
  have := d.code_lt; have := x.code_lt; have := fmt.code_lt
  apply encF_lt <;> omega
theorem Fits.fsigm (f : FHdr) (d : Opnd) (x : Opnd) (fmt : FFmt) : Fits.Statement (.fsigm f d x fmt) := by
  intro w hw; cases hw
  have := d.code_lt; have := x.code_lt; have := fmt.code_lt
  apply encF_lt <;> omega
theorem Fits.iadd (f : FHdr) (d : Opnd) (x : Opnd) (y : Opnd) (imm : BitVec 10) : Fits.Statement (.iadd f d x y imm) := by
  intro w hw; cases hw
  have := d.code_lt; have := x.code_lt; have := y.code_lt; have := imm.isLt
  apply encF_lt <;> omega
theorem Fits.isub (f : FHdr) (d : Opnd) (x : Opnd) (y : Opnd) (imm : BitVec 10) : Fits.Statement (.isub f d x y imm) := by
  intro w hw; cases hw
  have := d.code_lt; have := x.code_lt; have := y.code_lt; have := imm.isLt
  apply encF_lt <;> omega
theorem Fits.imul (f : FHdr) (d : Opnd) (x : Opnd) (y : Opnd) (imm : BitVec 10) : Fits.Statement (.imul f d x y imm) := by
  intro w hw; cases hw
  have := d.code_lt; have := x.code_lt; have := y.code_lt; have := imm.isLt
  apply encF_lt <;> omega
theorem Fits.imad (f : FHdr) (d : Opnd) (x : Opnd) (y : Opnd) (z : Opnd) (imm : BitVec 10) : Fits.Statement (.imad f d x y z imm) := by
  intro w hw; cases hw
  have := d.code_lt; have := x.code_lt; have := y.code_lt; have := z.code_lt; have := imm.isLt
  apply encF_lt <;> omega
theorem Fits.imin (f : FHdr) (d : Opnd) (x : Opnd) (y : Opnd) (u : Bool) : Fits.Statement (.imin f d x y u) := by
  intro w hw; cases hw
  have := d.code_lt; have := x.code_lt; have := y.code_lt; have := b2n_lt u
  apply encF_lt <;> omega
theorem Fits.imax (f : FHdr) (d : Opnd) (x : Opnd) (y : Opnd) (u : Bool) : Fits.Statement (.imax f d x y u) := by
  intro w hw; cases hw
  have := d.code_lt; have := x.code_lt; have := y.code_lt; have := b2n_lt u
  apply encF_lt <;> omega
theorem Fits.iand (f : FHdr) (d : Opnd) (x : Opnd) (y : Opnd) (imm : BitVec 10) : Fits.Statement (.iand f d x y imm) := by
  intro w hw; cases hw
  have := d.code_lt; have := x.code_lt; have := y.code_lt; have := imm.isLt
  apply encF_lt <;> omega
theorem Fits.ior (f : FHdr) (d : Opnd) (x : Opnd) (y : Opnd) (imm : BitVec 10) : Fits.Statement (.ior f d x y imm) := by
  intro w hw; cases hw
  have := d.code_lt; have := x.code_lt; have := y.code_lt; have := imm.isLt
  apply encF_lt <;> omega
theorem Fits.ixor (f : FHdr) (d : Opnd) (x : Opnd) (y : Opnd) (imm : BitVec 10) : Fits.Statement (.ixor f d x y imm) := by
  intro w hw; cases hw
  have := d.code_lt; have := x.code_lt; have := y.code_lt; have := imm.isLt
  apply encF_lt <;> omega
theorem Fits.ishl (f : FHdr) (d : Opnd) (x : Opnd) (y : Opnd) (imm : BitVec 10) : Fits.Statement (.ishl f d x y imm) := by
  intro w hw; cases hw
  have := d.code_lt; have := x.code_lt; have := y.code_lt; have := imm.isLt
  apply encF_lt <;> omega
theorem Fits.ishr (f : FHdr) (d : Opnd) (x : Opnd) (y : Opnd) (s : Bool) : Fits.Statement (.ishr f d x y s) := by
  intro w hw; cases hw
  have := d.code_lt; have := x.code_lt; have := y.code_lt; have := b2n_lt s
  apply encF_lt <;> omega
theorem Fits.icmp (f : FHdr) (d : Opnd) (x : Opnd) (y : Opnd) (cond : Cond) (all : Bool) : Fits.Statement (.icmp f d x y cond all) := by
  intro w hw; cases hw
  have := d.code_lt; have := x.code_lt; have := y.code_lt; have := cond.code_lt; have := b2n_lt all
  apply encF_lt <;> omega
theorem Fits.iclmp (f : FHdr) (d : Opnd) (x : Opnd) (y : Opnd) (z : Opnd) (u : Bool) : Fits.Statement (.iclmp f d x y z u) := by
  intro w hw; cases hw
  have := d.code_lt; have := x.code_lt; have := y.code_lt; have := z.code_lt; have := b2n_lt u
  apply encF_lt <;> omega
theorem Fits.cvt (f : FHdr) (d : Opnd) (x : Opnd) (y : Opnd) (mode : RMode) (fmt : Fmt) (dir : Bool) (sc : Bool) : Fits.Statement (.cvt f d x y mode fmt dir sc) := by
  intro w hw; cases hw
  have := d.code_lt; have := x.code_lt; have := y.code_lt; have := mode.code_lt; have := fmt.code_lt
  have := b2n_lt dir; have := b2n_lt sc
  apply encF_lt <;> omega
theorem Fits.merge (f : FHdr) (o : Chan) (i : Chan) (k : Fin 8) : Fits.Statement (.merge f o i k) := by
  intro w hw; cases hw
  have := o.isLt; have := i.isLt; have := k.isLt
  apply encF_lt <;> omega
theorem Fits.split (f : FHdr) (o : Chan) (x : Opnd) (y : Opnd) (imm : BitVec 10) : Fits.Statement (.split f o x y imm) := by
  intro w hw; cases hw
  have := o.isLt; have := x.code_lt; have := y.code_lt; have := imm.isLt
  apply encF_lt <;> omega
theorem Fits.tsum (f : FHdr) (d : Opnd) (x : Opnd) (fmt : FFmt) (int : Bool) : Fits.Statement (.tsum f d x fmt int) := by
  intro w hw; cases hw
  have := d.code_lt; have := x.code_lt; have := fmt.code_lt; have := b2n_lt int
  apply encF_lt <;> omega
theorem Fits.tmax (f : FHdr) (d : Opnd) (x : Opnd) (fmt : FFmt) (int : Bool) (u : Bool) : Fits.Statement (.tmax f d x fmt int u) := by
  intro w hw; cases hw
  have := d.code_lt; have := x.code_lt; have := fmt.code_lt; have := b2n_lt int; have := b2n_lt u
  apply encF_lt <;> omega
theorem Fits.tmin (f : FHdr) (d : Opnd) (x : Opnd) (fmt : FFmt) (int : Bool) (u : Bool) : Fits.Statement (.tmin f d x fmt int u) := by
  intro w hw; cases hw
  have := d.code_lt; have := x.code_lt; have := fmt.code_lt; have := b2n_lt int; have := b2n_lt u
  apply encF_lt <;> omega
theorem Fits.mov (f : FHdr) (d : Opnd) (x : Opnd) (imm : BitVec 10) : Fits.Statement (.mov f d x imm) := by
  intro w hw; cases hw
  have := d.code_lt; have := x.code_lt; have := imm.isLt
  apply encF_lt <;> omega
theorem Fits.drop (f : FHdr) (i : Chan) : Fits.Statement (.drop f i) := by
  intro w hw; cases hw
  have := i.isLt
  apply encF_lt <;> omega
theorem Fits.hdr (f : FHdr) (d : Opnd) (x : Opnd) (kind : TKind) (lvl : Fin 8) (lot : Bool) (tag : Fin 4) (kt : Bool) (bl : Bool) : Fits.Statement (.hdr f d x kind lvl lot tag kt bl) := by
  intro w hw; cases hw
  have := d.code_lt; have := x.code_lt; have := kind.code_lt; have := lvl.isLt; have := b2n_lt lot
  have := tag.isLt; have := b2n_lt kt; have := b2n_lt bl
  apply encF_lt <;> omega
theorem Fits.scl (f : FHdr) (d : Opnd) (x : Opnd) (fmt : Fmt) : Fits.Statement (.scl f d x fmt) := by
  intro w hw; cases hw
  have := d.code_lt; have := x.code_lt; have := fmt.code_lt
  apply encF_lt <;> omega
theorem Fits.iota (f : FHdr) (d : Opnd) (x : Opnd) (imm : BitVec 10) : Fits.Statement (.iota f d x imm) := by
  intro w hw; cases hw
  have := d.code_lt; have := x.code_lt; have := imm.isLt
  apply encF_lt <;> omega
theorem Fits.bcast (f : FHdr) (d : Opnd) (x : Opnd) (j : Fin 8) : Fits.Statement (.bcast f d x j) := by
  intro w hw; cases hw
  have := d.code_lt; have := x.code_lt; have := j.isLt
  apply encF_lt <;> omega
theorem Fits.fld (f : FHdr) (d : Opnd) (ak : Fin 4) (inc : BitVec 5) (len : Fin 8) (wid : Fin 4) : Fits.Statement (.fld f d ak inc len wid) := by
  intro w hw; cases hw
  have := d.code_lt; have := ak.isLt; have := inc.isLt; have := len.isLt; have := wid.isLt
  have := encLoadFn_lt inc len wid
  apply encF_lt <;> omega
theorem Fits.fst (f : FHdr) (x : Opnd) (ak : Fin 4) (inc : BitVec 5) (sf : Bool) : Fits.Statement (.fst f x ak inc sf) := by
  intro w hw; cases hw
  have := x.code_lt; have := ak.isLt; have := inc.isLt; have := b2n_lt sf
  apply encF_lt <;> omega
theorem Fits.fldf (f : FHdr) (d : Opnd) (ak : Fin 4) (inc : BitVec 5) (len : Fin 8) (wid : Fin 4) : Fits.Statement (.fldf f d ak inc len wid) := by
  intro w hw; cases hw
  have := d.code_lt; have := ak.isLt; have := inc.isLt; have := len.isLt; have := wid.isLt
  have := encLoadFn_lt inc len wid
  apply encF_lt <;> omega
theorem Fits.flde (f : FHdr) (d : Opnd) (ak : Fin 4) (inc : BitVec 5) (len : Fin 8) (wid : Fin 4) : Fits.Statement (.flde f d ak inc len wid) := by
  intro w hw; cases hw
  have := d.code_lt; have := ak.isLt; have := inc.isLt; have := len.isLt; have := wid.isLt
  have := encLoadFn_lt inc len wid
  apply encF_lt <;> omega
theorem Fits.fste (f : FHdr) (x : Opnd) (ak : Fin 4) (inc : BitVec 5) : Fits.Statement (.fste f x ak inc) := by
  intro w hw; cases hw
  have := x.code_lt; have := ak.isLt; have := inc.isLt
  apply encF_lt <;> omega
theorem Fits.fldx (f : FHdr) (d : Opnd) (ak : Fin 4) (y : Opnd) (sh : Fin 8) (wid : Fin 4) : Fits.Statement (.fldx f d ak y sh wid) := by
  intro w hw; cases hw
  have := d.code_lt; have := ak.isLt; have := y.code_lt; have := sh.isLt; have := wid.isLt
  apply encF_lt <;> omega
theorem Fits.fstx (f : FHdr) (x : Opnd) (ak : Fin 4) (z : Opnd) (sh : Fin 8) : Fits.Statement (.fstx f x ak z sh) := by
  intro w hw; cases hw
  have := x.code_lt; have := ak.isLt; have := z.code_lt; have := sh.isLt
  apply encF_lt <;> omega
theorem Fits.famo (f : FHdr) (d : Opnd) (x : Opnd) (ak : Fin 4) (op : AmoOp) (u : Bool) : Fits.Statement (.famo f d x ak op u) := by
  intro w hw; cases hw
  have := d.code_lt; have := x.code_lt; have := ak.isLt; have := op.code_lt; have := b2n_lt u
  apply encF_lt <;> omega
theorem Fits.ainc (f : FHdr) (ak : Fin 4) (x : Opnd) (y : Opnd) (imm : BitVec 10) : Fits.Statement (.ainc f ak x y imm) := by
  intro w hw; cases hw
  have := ak.isLt; have := x.code_lt; have := y.code_lt; have := imm.isLt
  apply encF_lt <;> omega
theorem Fits.pset (f : FHdr) (x : Opnd) (test : PTest) (l : Fin 8) : Fits.Statement (.pset f x test l) := by
  intro w hw; cases hw
  have := x.code_lt; have := test.code_lt; have := l.isLt
  apply encF_lt <;> omega
theorem Fits.send (f : FHdr) (line : Fin 2) : Fits.Statement (.send f line) := by
  intro w hw; cases hw
  have := line.isLt
  apply encF_lt <;> omega
theorem Fits.waitc (f : FHdr) (line : Fin 2) : Fits.Statement (.waitc f line) := by
  intro w hw; cases hw
  have := line.isLt
  apply encF_lt <;> omega
theorem Fits.scan (ib0 : Chan) (ob0 : Chan) (tid : BitVec 8) (seg : BitVec 8) (root : Bool) : Fits.Statement (.scan ib0 ob0 tid seg root) := by
  intro w hw; cases hw
  have := ib0.isLt; have := ob0.isLt; have := tid.isLt; have := seg.isLt; have := b2n_lt root
  apply encP_lt <;> omega
theorem Fits.scanb (ib0 : Chan) (ob0 : Chan) (tid : BitVec 8) (ext : BitVec 16) (root : Bool) : Fits.Statement (.scanb ib0 ob0 tid ext root) := by
  intro w hw; cases hw
  have := ib0.isLt; have := ob0.isLt; have := tid.isLt; have := ext.isLt; have := b2n_lt root
  apply encP_lt <;> omega
theorem Fits.scand (ib0 : Chan) (ob0 : Chan) (ext : BitVec 16) (root : Bool) : Fits.Statement (.scand ib0 ob0 ext root) := by
  intro w hw; cases hw
  have := ib0.isLt; have := ob0.isLt; have := ext.isLt; have := b2n_lt root
  apply encP_lt <;> omega
theorem Fits.isect (ib0 : Chan) (ib1 : Chan) (ob0 : Chan) (ob1 : Chan) : Fits.Statement (.isect ib0 ib1 ob0 ob1) := by
  intro w hw; cases hw
  have := ib0.isLt; have := ib1.isLt; have := ob0.isLt; have := ob1.isLt
  apply encP_lt <;> omega
theorem Fits.union (ib0 : Chan) (ib1 : Chan) (ob0 : Chan) (ob1 : Chan) : Fits.Statement (.union ib0 ib1 ob0 ob1) := by
  intro w hw; cases hw
  have := ib0.isLt; have := ib1.isLt; have := ob0.isLt; have := ob1.isLt
  apply encP_lt <;> omega
theorem Fits.rept (ib0 : Chan) (ib1 : Chan) (ob0 : Chan) : Fits.Statement (.rept ib0 ib1 ob0) := by
  intro w hw; cases hw
  have := ib0.isLt; have := ib1.isLt; have := ob0.isLt
  apply encP_lt <;> omega
theorem Fits.rdce (ib0 : Chan) (ob0 : Chan) (lvl : Fin 8) (fmt : Fmt) : Fits.Statement (.rdce ib0 ob0 lvl fmt) := by
  intro w hw; cases hw
  have := ib0.isLt; have := ob0.isLt; have := lvl.isLt; have := fmt.code_lt
  apply encP_lt <;> omega
theorem Fits.crdw (ib0 : Chan) (ob0 : Chan) (tid : BitVec 8) (seg : BitVec 8) (cnt : Bool) : Fits.Statement (.crdw ib0 ob0 tid seg cnt) := by
  intro w hw; cases hw
  have := ib0.isLt; have := ob0.isLt; have := tid.isLt; have := seg.isLt; have := b2n_lt cnt
  apply encP_lt <;> omega
theorem Fits.ctr (lvl : Fin 4) (n : BitVec 16) (trig : Trig) (fin : Bool) : Fits.Statement (.ctr lvl n trig fin) := by
  intro w hw; cases hw
  have := lvl.isLt; have := n.isLt; have := trig.code_lt; have := b2n_lt fin
  apply encP_lt <;> omega
theorem Fits.agen (ib0 : Chan) (ob0 : Chan) (lvl : Fin 4) (tid : BitVec 8) (dir : Bool) (map : BitVec 8) (use : BitVec 4) (lotk : Fin 16) (ct : Bool) : Fits.Statement (.agen ib0 ob0 lvl tid dir map use lotk ct) := by
  intro w hw; cases hw
  have := ib0.isLt; have := ob0.isLt; have := lvl.isLt; have := tid.isLt; have := b2n_lt dir
  have := map.isLt; have := use.isLt; have := lotk.isLt; have := b2n_lt ct
  apply encP_lt <;> omega
theorem Fits.mport (ib0 : Chan) (ob0 : Chan) (tid : BitVec 8) (dir : Bool) (lotk : Fin 16) (trig : Trig) (done : Bool) (ct : Bool) : Fits.Statement (.mport ib0 ob0 tid dir lotk trig done ct) := by
  intro w hw; cases hw
  have := ib0.isLt; have := ob0.isLt; have := tid.isLt; have := b2n_lt dir; have := lotk.isLt
  have := trig.code_lt; have := b2n_lt done; have := b2n_lt ct
  apply encP_lt <;> omega
theorem Fits.gath (ib0 : Chan) (ob0 : Chan) (ob1 : Chan) (tid : BitVec 8) (any : Bool) (addr : Bool) : Fits.Statement (.gath ib0 ob0 ob1 tid any addr) := by
  intro w hw; cases hw
  have := ib0.isLt; have := ob0.isLt; have := ob1.isLt; have := tid.isLt; have := b2n_lt any
  have := b2n_lt addr
  apply encP_lt <;> omega
theorem Fits.scat (ib0 : Chan) (ib1 : Chan) (tid : BitVec 8) (add : Bool) (addr : Bool) (ct : Bool) : Fits.Statement (.scat ib0 ib1 tid add addr ct) := by
  intro w hw; cases hw
  have := ib0.isLt; have := ib1.isLt; have := tid.isLt; have := b2n_lt add; have := b2n_lt addr
  have := b2n_lt ct
  apply encP_lt <;> omega
theorem Fits.unitFaultWithhold (hall : HallId) (x : Col) (y : Row) : Fits.Statement (.unitFaultWithhold hall x y) := by
  intro w hw; cases hw
theorem Fits.sdec (h : SHdr) (a : Reg) (b : Reg) (c : Reg) (d : Reg) (e : Reg) : Fits.Statement (.sdec h a b c d e) := by
  intro w hw; cases hw
  have := a.isLt; have := b.isLt; have := c.isLt; have := d.isLt; have := e.isLt
  apply encS_lt <;> omega
theorem Fits.sdecComplete (id : Nat) : Fits.Statement (.sdecComplete id) := by
  intro w hw; cases hw
theorem Fits.senc (h : SHdr) (a : Reg) (b : Reg) (c : Reg) (d : Reg) (e : Reg) : Fits.Statement (.senc h a b c d e) := by
  intro w hw; cases hw
  have := a.isLt; have := b.isLt; have := c.isLt; have := d.isLt; have := e.isLt
  apply encS_lt <;> omega
theorem Fits.sencComplete (id : Nat) : Fits.Statement (.sencComplete id) := by
  intro w hw; cases hw
theorem Fits.useinc (h : SHdr) (b : Reg) (c : Reg) : Fits.Statement (.useinc h b c) := by
  intro w hw; cases hw
  have := b.isLt; have := c.isLt
  apply encS_lt <;> omega
theorem Fits.usesig (h : SHdr) (a : Reg) (b : Reg) (c : Reg) (d : Reg) : Fits.Statement (.usesig h a b c d) := by
  intro w hw; cases hw
  have := a.isLt; have := b.isLt; have := c.isLt; have := d.isLt
  apply encS_lt <;> omega
theorem Fits.usesigComplete (id : Nat) : Fits.Statement (.usesigComplete id) := by
  intro w hw; cases hw
theorem Fits.iwait (h : SHdr) : Fits.Statement (.iwait h) := by
  intro w hw; cases hw
  apply encS_lt <;> omega
theorem Fits.horizonReached (id : Nat) : Fits.Statement (.horizonReached id) := by
  intro w hw; cases hw
theorem Fits.integFail (id : Nat) : Fits.Statement (.integFail id) := by
  intro w hw; cases hw
theorem Fits.eret (h : SHdr) (nx : Bool) : Fits.Statement (.eret h nx) := by
  intro w hw; cases hw
  have := b2n_lt nx
  apply encS_lt <;> omega
theorem Fits.eretEsc (h : SHdr) : Fits.Statement (.eretEsc h) := by
  intro w hw; cases hw
  apply encS_lt <;> omega
theorem Fits.ctxsvTask (h : SHdr) (a : Reg) (b : Reg) (c : Reg) : Fits.Statement (.ctxsvTask h a b c) := by
  intro w hw; cases hw
  have := a.isLt; have := b.isLt; have := c.isLt
  apply encS_lt <;> omega
theorem Fits.ctxsvCtx (h : SHdr) (a : Reg) (b : Reg) : Fits.Statement (.ctxsvCtx h a b) := by
  intro w hw; cases hw
  have := a.isLt; have := b.isLt
  apply encS_lt <;> omega
theorem Fits.ctxldCtx (h : SHdr) (a : Reg) (b : Reg) : Fits.Statement (.ctxldCtx h a b) := by
  intro w hw; cases hw
  have := a.isLt; have := b.isLt
  apply encS_lt <;> omega
theorem Fits.ctxldRes (h : SHdr) (a : Reg) (b : Reg) (c : Reg) : Fits.Statement (.ctxldRes h a b c) := by
  intro w hw; cases hw
  have := a.isLt; have := b.isLt; have := c.isLt
  apply encS_lt <;> omega
theorem Fits.ctxldKill (h : SHdr) (a : Reg) (b : Reg) : Fits.Statement (.ctxldKill h a b) := by
  intro w hw; cases hw
  have := a.isLt; have := b.isLt
  apply encS_lt <;> omega
theorem Fits.logctlOff (h : SHdr) (a : Reg) (b : Reg) (c : Reg) (d : Reg) : Fits.Statement (.logctlOff h a b c d) := by
  intro w hw; cases hw
  have := a.isLt; have := b.isLt; have := c.isLt; have := d.isLt
  apply encS_lt <;> omega
theorem Fits.logctlRec (h : SHdr) (a : Reg) (b : Reg) (c : Reg) (d : Reg) : Fits.Statement (.logctlRec h a b c d) := by
  intro w hw; cases hw
  have := a.isLt; have := b.isLt; have := c.isLt; have := d.isLt
  apply encS_lt <;> omega
theorem Fits.logctlRep (h : SHdr) (a : Reg) (b : Reg) (c : Reg) (d : Reg) : Fits.Statement (.logctlRep h a b c d) := by
  intro w hw; cases hw
  have := a.isLt; have := b.isLt; have := c.isLt; have := d.isLt
  apply encS_lt <;> omega
theorem Fits.logctlFlush (h : SHdr) (a : Reg) : Fits.Statement (.logctlFlush h a) := by
  intro w hw; cases hw
  have := a.isLt
  apply encS_lt <;> omega
theorem Fits.tlbi (h : SHdr) (b : Reg) (c : Reg) (d : Reg) (all : Bool) : Fits.Statement (.tlbi h b c d all) := by
  intro w hw; cases hw
  have := b.isLt; have := c.isLt; have := d.isLt; have := b2n_lt all
  apply encS_lt <;> omega
theorem Fits.wait (h : SHdr) (a : Reg) (b : Reg) (c : Reg) : Fits.Statement (.wait h a b c) := by
  intro w hw; cases hw
  have := a.isLt; have := b.isLt; have := c.isLt
  apply encS_lt <;> omega
theorem Fits.waitTimeout (hall : HallId) : Fits.Statement (.waitTimeout hall) := by
  intro w hw; cases hw
theorem Fits.bkpt (h : SHdr) (tag : BitVec 8) : Fits.Statement (.bkpt h tag) := by
  intro w hw; cases hw
  have := tag.isLt
  apply encS_lt <;> omega
theorem Fits.halt (h : SHdr) : Fits.Statement (.halt h) := by
  intro w hw; cases hw
  apply encS_lt <;> omega
theorem Fits.landingDecision (die : Fin 2) : Fits.Statement (.landingDecision die) := by
  intro w hw; cases hw
theorem Fits.reservationLapse (ctx : Word) (task : Word) : Fits.Statement (.reservationLapse ctx task) := by
  intro w hw; cases hw
theorem Fits.bindingComplete (hall : HallId) : Fits.Statement (.bindingComplete hall) := by
  intro w hw; cases hw
theorem Fits.preempt (ctx : Word) (task : Word) : Fits.Statement (.preempt ctx task) := by
  intro w hw; cases hw
theorem Fits.configFetch (hall : HallId) (node : Nat) : Fits.Statement (.configFetch hall node) := by
  intro w hw; cases hw
theorem Fits.configFetchComplete (hall : HallId) (node : Nat) (how : FetchEnd) : Fits.Statement (.configFetchComplete hall node how) := by
  intro w hw; cases hw
theorem Fits.switchTokenPass (hall : HallId) (x : Col) (y : Row) (port : Fin 5) (track : Chan) : Fits.Statement (.switchTokenPass hall x y port track) := by
  intro w hw; cases hw
theorem Fits.mergeChoice (hall : HallId) (x : Col) (y : Row) (port : Fin 5) (track : Chan) : Fits.Statement (.mergeChoice hall x y port track) := by
  intro w hw; cases hw
theorem Fits.mrdivPlaceTimeout (ctx : Word) (node : BitVec 16) : Fits.Statement (.mrdivPlaceTimeout ctx node) := by
  intro w hw; cases hw
theorem Fits.mrdivTailTimeout (ctx : Word) : Fits.Statement (.mrdivTailTimeout ctx) := by
  intro w hw; cases hw
theorem Fits.wdogExpiry (hall : HallId) : Fits.Statement (.wdogExpiry hall) := by
  intro w hw; cases hw
theorem Fits.wdogSecondExpiry (hall : HallId) : Fits.Statement (.wdogSecondExpiry hall) := by
  intro w hw; cases hw
theorem Fits.islandFailure (island : Fin 128) : Fits.Statement (.islandFailure island) := by
  intro w hw; cases hw
theorem Fits.controlStateMemerr (hall : HallId) (saved : Bool) : Fits.Statement (.controlStateMemerr hall saved) := by
  intro w hw; cases hw
theorem Fits.rowRetire (row : Nat) : Fits.Statement (.rowRetire row) := by
  intro w hw; cases hw
theorem Fits.compressedWriteTimeout (id : Nat) : Fits.Statement (.compressedWriteTimeout id) := by
  intro w hw; cases hw
theorem Fits.hostProduce (vf : Nat) (slot : Fin 16) (off : Nat) (data : List Byte) (be : List Bool) (ide : Bool) : Fits.Statement (.hostProduce vf slot off data be ide) := by
  intro w hw; cases hw
theorem Fits.linkOutboxTake (hall : HallId) (slot : Fin 64) : Fits.Statement (.linkOutboxTake hall slot) := by
  intro w hw; cases hw
theorem Fits.podRemoteWrite (m : PodMsg) : Fits.Statement (.podRemoteWrite m) := by
  intro w hw; cases hw
theorem Fits.linkSendComplete (hall : HallId) (slot : Fin 64) (remote : Bool) : Fits.Statement (.linkSendComplete hall slot remote) := by
  intro w hw; cases hw
theorem Fits.linkdown (link : Fin 8) : Fits.Statement (.linkdown link) := by
  intro w hw; cases hw
theorem Fits.dieLinkFailure : Fits.Statement (.dieLinkFailure) := by
  intro w hw; cases hw
theorem Fits.atsInvalidation (ha : Nat) (len : Nat) : Fits.Statement (.atsInvalidation ha len) := by
  intro w hw; cases hw
theorem Fits.priResponse (hall : HallId) (ok : Bool) : Fits.Statement (.priResponse hall ok) := by
  intro w hw; cases hw
theorem Fits.lockInterface (vf : Nat) : Fits.Statement (.lockInterface vf) := by
  intro w hw; cases hw
theorem Fits.startInterface (vf : Nat) : Fits.Statement (.startInterface vf) := by
  intro w hw; cases hw
theorem Fits.stopInterface (vf : Nat) : Fits.Statement (.stopInterface vf) := by
  intro w hw; cases hw
theorem Fits.vfFence (vf : Nat) : Fits.Statement (.vfFence vf) := by
  intro w hw; cases hw
theorem Fits.functionLevelReset (vf : Nat) : Fits.Statement (.functionLevelReset vf) := by
  intro w hw; cases hw
theorem Fits.report (tag : Word) (buf : Nat) (ctx : Word) (nonce : Digest) : Fits.Statement (.report tag buf ctx nonce) := by
  intro w hw; cases hw
theorem Fits.openSession (tag : Word) (ctx : Word) (ct : List Byte) : Fits.Statement (.openSession tag ctx ct) := by
  intro w hw; cases hw
theorem Fits.close (tag : Word) (buf : Nat) (sid : Word) (mac : BitVec 128) : Fits.Statement (.close tag buf sid mac) := by
  intro w hw; cases hw
theorem Fits.bundle (tag : Word) (ctx : Word) (host : Nat) (base : Word) : Fits.Statement (.bundle tag ctx host base) := by
  intro w hw; cases hw
theorem Fits.finals (tag : Word) (buf : Nat) : Fits.Statement (.finals tag buf) := by
  intro w hw; cases hw
theorem Fits.ctxCreate (tag : Word) (body : CreateBody) : Fits.Statement (.ctxCreate tag body) := by
  intro w hw; cases hw
theorem Fits.ctxDestroy (tag : Word) (ctx : Word) : Fits.Statement (.ctxDestroy tag ctx) := by
  intro w hw; cases hw
theorem Fits.halls (tag : Word) (vf : Nat) (mask : BitVec 48) : Fits.Statement (.halls tag vf mask) := by
  intro w hw; cases hw
theorem Fits.island (tag : Word) (isl : Fin 128) (level : Fin 16) : Fits.Statement (.island tag isl level) := by
  intro w hw; cases hw
theorem Fits.counters (tag : Word) (buf : Nat) (sel : Nat) : Fits.Statement (.counters tag buf sel) := by
  intro w hw; cases hw
theorem Fits.pod (tag : Word) (links : BitVec 8) (pkg : Fin 64) : Fits.Statement (.pod tag links pkg) := by
  intro w hw; cases hw
theorem Fits.recover (tag : Word) (image : List Byte) : Fits.Statement (.recover tag image) := by
  intro w hw; cases hw
theorem Fits.islandThrottle (isl : Fin 128) (level : Fin 16) : Fits.Statement (.islandThrottle isl level) := by
  intro w hw; cases hw
theorem Fits.packageReset (fail : BootFail) : Fits.Statement (.packageReset fail) := by
  intro w hw; cases hw
theorem Fits.powerLoss : Fits.Statement (.powerLoss) := by
  intro w hw; cases hw
theorem Fits.scratchLineFill (hall : HallId) (id : Nat) : Fits.Statement (.scratchLineFill hall id) := by
  intro w hw; cases hw
theorem Fits.l1WriteBack (hall : HallId) (line : Nat) : Fits.Statement (.l1WriteBack hall line) := by
  intro w hw; cases hw

end Sys2Proof.Laws
end

