-- ==== Sys2Proof/Laws/State.lean ====
section
/-! SUPPORT. One lemma per field per update of State and of Hall, so that no proof unfolds a record update. -/

namespace Sys2Proof.Machine

/-! ## State: what the accessors leave unchanged -/

@[simp] theorem State.setHall_phase (s : State) (h : Nat) (x : Hall) : (s.setHall h x).phase = s.phase := rfl
@[simp] theorem State.setHall_cur (s : State) (h : Nat) (x : Hall) : (s.setHall h x).cur = s.cur := rfl
@[simp] theorem State.setHall_turns (s : State) (h : Nat) (x : Hall) : (s.setHall h x).turns = s.turns := rfl
@[simp] theorem State.setHall_firing (s : State) (h : Nat) (x : Hall) : (s.setHall h x).firing = s.firing := rfl
@[simp] theorem State.setHall_free (s : State) (h : Nat) (x : Hall) : (s.setHall h x).free = s.free := rfl
@[simp] theorem State.setHall_ids (s : State) (h : Nat) (x : Hall) : (s.setHall h x).ids = s.ids := rfl
@[simp] theorem State.setHall_tick (s : State) (h : Nat) (x : Hall) : (s.setHall h x).tick = s.tick := rfl
@[simp] theorem State.setHall_caches (s : State) (h : Nat) (x : Hall) : (s.setHall h x).caches = s.caches := rfl
@[simp] theorem State.setHall_bars (s : State) (h : Nat) (x : Hall) : (s.setHall h x).bars = s.bars := rfl
@[simp] theorem State.setHall_groups (s : State) (h : Nat) (x : Hall) : (s.setHall h x).groups = s.groups := rfl
@[simp] theorem State.setHall_saves (s : State) (h : Nat) (x : Hall) : (s.setHall h x).saves = s.saves := rfl
@[simp] theorem State.setHall_tasks (s : State) (h : Nat) (x : Hall) : (s.setHall h x).tasks = s.tasks := rfl
@[simp] theorem State.setHall_walks (s : State) (h : Nat) (x : Hall) : (s.setHall h x).walks = s.walks := rfl
@[simp] theorem State.setHall_orders (s : State) (h : Nat) (x : Hall) : (s.setHall h x).orders = s.orders := rfl
@[simp] theorem State.setHall_dispatches (s : State) (h : Nat) (x : Hall) : (s.setHall h x).dispatches = s.dispatches := rfl
@[simp] theorem State.setHall_ctxs (s : State) (h : Nat) (x : Hall) : (s.setHall h x).ctxs = s.ctxs := rfl
@[simp] theorem State.setHall_ctxids (s : State) (h : Nat) (x : Hall) : (s.setHall h x).ctxids = s.ctxids := rfl
@[simp] theorem State.setHall_vfs (s : State) (h : Nat) (x : Hall) : (s.setHall h x).vfs = s.vfs := rfl
@[simp] theorem State.setHall_mem (s : State) (h : Nat) (x : Hall) : (s.setHall h x).mem = s.mem := rfl
@[simp] theorem State.setHall_hostMem (s : State) (h : Nat) (x : Hall) : (s.setHall h x).hostMem = s.hostMem := rfl
@[simp] theorem State.setHall_ats (s : State) (h : Nat) (x : Hall) : (s.setHall h x).ats = s.ats := rfl
@[simp] theorem State.setHall_prot (s : State) (h : Nat) (x : Hall) : (s.setHall h x).prot = s.prot := rfl
@[simp] theorem State.setHall_blocks (s : State) (h : Nat) (x : Hall) : (s.setHall h x).blocks = s.blocks := rfl
@[simp] theorem State.setHall_l2 (s : State) (h : Nat) (x : Hall) : (s.setHall h x).l2 = s.l2 := rfl
@[simp] theorem State.setHall_masks (s : State) (h : Nat) (x : Hall) : (s.setHall h x).masks = s.masks := rfl
@[simp] theorem State.setHall_maskLast (s : State) (h : Nat) (x : Hall) : (s.setHall h x).maskLast = s.maskLast := rfl
@[simp] theorem State.setHall_rows (s : State) (h : Nat) (x : Hall) : (s.setHall h x).rows = s.rows := rfl
@[simp] theorem State.setHall_retired (s : State) (h : Nat) (x : Hall) : (s.setHall h x).retired = s.retired := rfl
@[simp] theorem State.setHall_retiring (s : State) (h : Nat) (x : Hall) : (s.setHall h x).retiring = s.retiring := rfl
@[simp] theorem State.setHall_throttled (s : State) (h : Nat) (x : Hall) : (s.setHall h x).throttled = s.throttled := rfl
@[simp] theorem State.setHall_leftFlight (s : State) (h : Nat) (x : Hall) : (s.setHall h x).leftFlight = s.leftFlight := rfl
@[simp] theorem State.setHall_recs (s : State) (h : Nat) (x : Hall) : (s.setHall h x).recs = s.recs := rfl
@[simp] theorem State.setHall_carries (s : State) (h : Nat) (x : Hall) : (s.setHall h x).carries = s.carries := rfl
@[simp] theorem State.setHall_checks (s : State) (h : Nat) (x : Hall) : (s.setHall h x).checks = s.checks := rfl
@[simp] theorem State.setHall_egress (s : State) (h : Nat) (x : Hall) : (s.setHall h x).egress = s.egress := rfl
@[simp] theorem State.setHall_squeezed (s : State) (h : Nat) (x : Hall) : (s.setHall h x).squeezed = s.squeezed := rfl
@[simp] theorem State.setHall_sdecs (s : State) (h : Nat) (x : Hall) : (s.setHall h x).sdecs = s.sdecs := rfl
@[simp] theorem State.setHall_sencs (s : State) (h : Nat) (x : Hall) : (s.setHall h x).sencs = s.sencs := rfl
@[simp] theorem State.setHall_sigs (s : State) (h : Nat) (x : Hall) : (s.setHall h x).sigs = s.sigs := rfl
@[simp] theorem State.setHall_pmovs (s : State) (h : Nat) (x : Hall) : (s.setHall h x).pmovs = s.pmovs := rfl
@[simp] theorem State.setHall_arrays (s : State) (h : Nat) (x : Hall) : (s.setHall h x).arrays = s.arrays := rfl
@[simp] theorem State.setHall_sends (s : State) (h : Nat) (x : Hall) : (s.setHall h x).sends = s.sends := rfl
@[simp] theorem State.setHall_rsc (s : State) (h : Nat) (x : Hall) : (s.setHall h x).rsc = s.rsc := rfl
@[simp] theorem State.setHall_islands (s : State) (h : Nat) (x : Hall) : (s.setHall h x).islands = s.islands := rfl
@[simp] theorem State.setHall_links (s : State) (h : Nat) (x : Hall) : (s.setHall h x).links = s.links := rfl
@[simp] theorem State.setHall_arrivals (s : State) (h : Nat) (x : Hall) : (s.setHall h x).arrivals = s.arrivals := rfl
@[simp] theorem State.setHall_lowered (s : State) (h : Nat) (x : Hall) : (s.setHall h x).lowered = s.lowered := rfl
@[simp] theorem State.setHall_pkg (s : State) (h : Nat) (x : Hall) : (s.setHall h x).pkg = s.pkg := rfl
@[simp] theorem State.setHall_fences (s : State) (h : Nat) (x : Hall) : (s.setHall h x).fences = s.fences := rfl
@[simp] theorem State.setHall_linkRuns (s : State) (h : Nat) (x : Hall) : (s.setHall h x).linkRuns = s.linkRuns := rfl
@[simp] theorem State.setHall_dieFails (s : State) (h : Nat) (x : Hall) : (s.setHall h x).dieFails = s.dieFails := rfl
@[simp] theorem State.setHall_fuseSvn (s : State) (h : Nat) (x : Hall) : (s.setHall h x).fuseSvn = s.fuseSvn := rfl
@[simp] theorem State.setHall_lastTlp (s : State) (h : Nat) (x : Hall) : (s.setHall h x).lastTlp = s.lastTlp := rfl

@[simp] theorem State.updHall_phase (s : State) (h : Nat) (f : Hall → Hall) : (s.updHall h f).phase = s.phase := rfl
@[simp] theorem State.updHall_cur (s : State) (h : Nat) (f : Hall → Hall) : (s.updHall h f).cur = s.cur := rfl
@[simp] theorem State.updHall_turns (s : State) (h : Nat) (f : Hall → Hall) : (s.updHall h f).turns = s.turns := rfl
@[simp] theorem State.updHall_firing (s : State) (h : Nat) (f : Hall → Hall) : (s.updHall h f).firing = s.firing := rfl
@[simp] theorem State.updHall_free (s : State) (h : Nat) (f : Hall → Hall) : (s.updHall h f).free = s.free := rfl
@[simp] theorem State.updHall_ids (s : State) (h : Nat) (f : Hall → Hall) : (s.updHall h f).ids = s.ids := rfl
@[simp] theorem State.updHall_tick (s : State) (h : Nat) (f : Hall → Hall) : (s.updHall h f).tick = s.tick := rfl
@[simp] theorem State.updHall_caches (s : State) (h : Nat) (f : Hall → Hall) : (s.updHall h f).caches = s.caches := rfl
@[simp] theorem State.updHall_bars (s : State) (h : Nat) (f : Hall → Hall) : (s.updHall h f).bars = s.bars := rfl
@[simp] theorem State.updHall_groups (s : State) (h : Nat) (f : Hall → Hall) : (s.updHall h f).groups = s.groups := rfl
@[simp] theorem State.updHall_saves (s : State) (h : Nat) (f : Hall → Hall) : (s.updHall h f).saves = s.saves := rfl
@[simp] theorem State.updHall_tasks (s : State) (h : Nat) (f : Hall → Hall) : (s.updHall h f).tasks = s.tasks := rfl
@[simp] theorem State.updHall_walks (s : State) (h : Nat) (f : Hall → Hall) : (s.updHall h f).walks = s.walks := rfl
@[simp] theorem State.updHall_orders (s : State) (h : Nat) (f : Hall → Hall) : (s.updHall h f).orders = s.orders := rfl
@[simp] theorem State.updHall_dispatches (s : State) (h : Nat) (f : Hall → Hall) : (s.updHall h f).dispatches = s.dispatches := rfl
@[simp] theorem State.updHall_ctxs (s : State) (h : Nat) (f : Hall → Hall) : (s.updHall h f).ctxs = s.ctxs := rfl
@[simp] theorem State.updHall_ctxids (s : State) (h : Nat) (f : Hall → Hall) : (s.updHall h f).ctxids = s.ctxids := rfl
@[simp] theorem State.updHall_vfs (s : State) (h : Nat) (f : Hall → Hall) : (s.updHall h f).vfs = s.vfs := rfl
@[simp] theorem State.updHall_mem (s : State) (h : Nat) (f : Hall → Hall) : (s.updHall h f).mem = s.mem := rfl
@[simp] theorem State.updHall_hostMem (s : State) (h : Nat) (f : Hall → Hall) : (s.updHall h f).hostMem = s.hostMem := rfl
@[simp] theorem State.updHall_ats (s : State) (h : Nat) (f : Hall → Hall) : (s.updHall h f).ats = s.ats := rfl
@[simp] theorem State.updHall_prot (s : State) (h : Nat) (f : Hall → Hall) : (s.updHall h f).prot = s.prot := rfl
@[simp] theorem State.updHall_blocks (s : State) (h : Nat) (f : Hall → Hall) : (s.updHall h f).blocks = s.blocks := rfl
@[simp] theorem State.updHall_l2 (s : State) (h : Nat) (f : Hall → Hall) : (s.updHall h f).l2 = s.l2 := rfl
@[simp] theorem State.updHall_masks (s : State) (h : Nat) (f : Hall → Hall) : (s.updHall h f).masks = s.masks := rfl
@[simp] theorem State.updHall_maskLast (s : State) (h : Nat) (f : Hall → Hall) : (s.updHall h f).maskLast = s.maskLast := rfl
@[simp] theorem State.updHall_rows (s : State) (h : Nat) (f : Hall → Hall) : (s.updHall h f).rows = s.rows := rfl
@[simp] theorem State.updHall_retired (s : State) (h : Nat) (f : Hall → Hall) : (s.updHall h f).retired = s.retired := rfl
@[simp] theorem State.updHall_retiring (s : State) (h : Nat) (f : Hall → Hall) : (s.updHall h f).retiring = s.retiring := rfl
@[simp] theorem State.updHall_throttled (s : State) (h : Nat) (f : Hall → Hall) : (s.updHall h f).throttled = s.throttled := rfl
@[simp] theorem State.updHall_leftFlight (s : State) (h : Nat) (f : Hall → Hall) : (s.updHall h f).leftFlight = s.leftFlight := rfl
@[simp] theorem State.updHall_recs (s : State) (h : Nat) (f : Hall → Hall) : (s.updHall h f).recs = s.recs := rfl
@[simp] theorem State.updHall_carries (s : State) (h : Nat) (f : Hall → Hall) : (s.updHall h f).carries = s.carries := rfl
@[simp] theorem State.updHall_checks (s : State) (h : Nat) (f : Hall → Hall) : (s.updHall h f).checks = s.checks := rfl
@[simp] theorem State.updHall_egress (s : State) (h : Nat) (f : Hall → Hall) : (s.updHall h f).egress = s.egress := rfl
@[simp] theorem State.updHall_squeezed (s : State) (h : Nat) (f : Hall → Hall) : (s.updHall h f).squeezed = s.squeezed := rfl
@[simp] theorem State.updHall_sdecs (s : State) (h : Nat) (f : Hall → Hall) : (s.updHall h f).sdecs = s.sdecs := rfl
@[simp] theorem State.updHall_sencs (s : State) (h : Nat) (f : Hall → Hall) : (s.updHall h f).sencs = s.sencs := rfl
@[simp] theorem State.updHall_sigs (s : State) (h : Nat) (f : Hall → Hall) : (s.updHall h f).sigs = s.sigs := rfl
@[simp] theorem State.updHall_pmovs (s : State) (h : Nat) (f : Hall → Hall) : (s.updHall h f).pmovs = s.pmovs := rfl
@[simp] theorem State.updHall_arrays (s : State) (h : Nat) (f : Hall → Hall) : (s.updHall h f).arrays = s.arrays := rfl
@[simp] theorem State.updHall_sends (s : State) (h : Nat) (f : Hall → Hall) : (s.updHall h f).sends = s.sends := rfl
@[simp] theorem State.updHall_rsc (s : State) (h : Nat) (f : Hall → Hall) : (s.updHall h f).rsc = s.rsc := rfl
@[simp] theorem State.updHall_islands (s : State) (h : Nat) (f : Hall → Hall) : (s.updHall h f).islands = s.islands := rfl
@[simp] theorem State.updHall_links (s : State) (h : Nat) (f : Hall → Hall) : (s.updHall h f).links = s.links := rfl
@[simp] theorem State.updHall_arrivals (s : State) (h : Nat) (f : Hall → Hall) : (s.updHall h f).arrivals = s.arrivals := rfl
@[simp] theorem State.updHall_lowered (s : State) (h : Nat) (f : Hall → Hall) : (s.updHall h f).lowered = s.lowered := rfl
@[simp] theorem State.updHall_pkg (s : State) (h : Nat) (f : Hall → Hall) : (s.updHall h f).pkg = s.pkg := rfl
@[simp] theorem State.updHall_fences (s : State) (h : Nat) (f : Hall → Hall) : (s.updHall h f).fences = s.fences := rfl
@[simp] theorem State.updHall_linkRuns (s : State) (h : Nat) (f : Hall → Hall) : (s.updHall h f).linkRuns = s.linkRuns := rfl
@[simp] theorem State.updHall_dieFails (s : State) (h : Nat) (f : Hall → Hall) : (s.updHall h f).dieFails = s.dieFails := rfl
@[simp] theorem State.updHall_fuseSvn (s : State) (h : Nat) (f : Hall → Hall) : (s.updHall h f).fuseSvn = s.fuseSvn := rfl
@[simp] theorem State.updHall_lastTlp (s : State) (h : Nat) (f : Hall → Hall) : (s.updHall h f).lastTlp = s.lastTlp := rfl

@[simp] theorem State.setCtx_phase (s : State) (c : Ctx) : (s.setCtx c).phase = s.phase := rfl
@[simp] theorem State.setCtx_cur (s : State) (c : Ctx) : (s.setCtx c).cur = s.cur := rfl
@[simp] theorem State.setCtx_turns (s : State) (c : Ctx) : (s.setCtx c).turns = s.turns := rfl
@[simp] theorem State.setCtx_firing (s : State) (c : Ctx) : (s.setCtx c).firing = s.firing := rfl
@[simp] theorem State.setCtx_free (s : State) (c : Ctx) : (s.setCtx c).free = s.free := rfl
@[simp] theorem State.setCtx_ids (s : State) (c : Ctx) : (s.setCtx c).ids = s.ids := rfl
@[simp] theorem State.setCtx_tick (s : State) (c : Ctx) : (s.setCtx c).tick = s.tick := rfl
@[simp] theorem State.setCtx_halls (s : State) (c : Ctx) : (s.setCtx c).halls = s.halls := rfl
@[simp] theorem State.setCtx_caches (s : State) (c : Ctx) : (s.setCtx c).caches = s.caches := rfl
@[simp] theorem State.setCtx_bars (s : State) (c : Ctx) : (s.setCtx c).bars = s.bars := rfl
@[simp] theorem State.setCtx_groups (s : State) (c : Ctx) : (s.setCtx c).groups = s.groups := rfl
@[simp] theorem State.setCtx_saves (s : State) (c : Ctx) : (s.setCtx c).saves = s.saves := rfl
@[simp] theorem State.setCtx_tasks (s : State) (c : Ctx) : (s.setCtx c).tasks = s.tasks := rfl
@[simp] theorem State.setCtx_walks (s : State) (c : Ctx) : (s.setCtx c).walks = s.walks := rfl
@[simp] theorem State.setCtx_orders (s : State) (c : Ctx) : (s.setCtx c).orders = s.orders := rfl
@[simp] theorem State.setCtx_dispatches (s : State) (c : Ctx) : (s.setCtx c).dispatches = s.dispatches := rfl
@[simp] theorem State.setCtx_ctxids (s : State) (c : Ctx) : (s.setCtx c).ctxids = s.ctxids := rfl
@[simp] theorem State.setCtx_vfs (s : State) (c : Ctx) : (s.setCtx c).vfs = s.vfs := rfl
@[simp] theorem State.setCtx_mem (s : State) (c : Ctx) : (s.setCtx c).mem = s.mem := rfl
@[simp] theorem State.setCtx_hostMem (s : State) (c : Ctx) : (s.setCtx c).hostMem = s.hostMem := rfl
@[simp] theorem State.setCtx_ats (s : State) (c : Ctx) : (s.setCtx c).ats = s.ats := rfl
@[simp] theorem State.setCtx_prot (s : State) (c : Ctx) : (s.setCtx c).prot = s.prot := rfl
@[simp] theorem State.setCtx_blocks (s : State) (c : Ctx) : (s.setCtx c).blocks = s.blocks := rfl
@[simp] theorem State.setCtx_l2 (s : State) (c : Ctx) : (s.setCtx c).l2 = s.l2 := rfl
@[simp] theorem State.setCtx_masks (s : State) (c : Ctx) : (s.setCtx c).masks = s.masks := rfl
@[simp] theorem State.setCtx_maskLast (s : State) (c : Ctx) : (s.setCtx c).maskLast = s.maskLast := rfl
@[simp] theorem State.setCtx_rows (s : State) (c : Ctx) : (s.setCtx c).rows = s.rows := rfl
@[simp] theorem State.setCtx_retired (s : State) (c : Ctx) : (s.setCtx c).retired = s.retired := rfl
@[simp] theorem State.setCtx_retiring (s : State) (c : Ctx) : (s.setCtx c).retiring = s.retiring := rfl
@[simp] theorem State.setCtx_throttled (s : State) (c : Ctx) : (s.setCtx c).throttled = s.throttled := rfl
@[simp] theorem State.setCtx_leftFlight (s : State) (c : Ctx) : (s.setCtx c).leftFlight = s.leftFlight := rfl
@[simp] theorem State.setCtx_recs (s : State) (c : Ctx) : (s.setCtx c).recs = s.recs := rfl
@[simp] theorem State.setCtx_carries (s : State) (c : Ctx) : (s.setCtx c).carries = s.carries := rfl
@[simp] theorem State.setCtx_checks (s : State) (c : Ctx) : (s.setCtx c).checks = s.checks := rfl
@[simp] theorem State.setCtx_egress (s : State) (c : Ctx) : (s.setCtx c).egress = s.egress := rfl
@[simp] theorem State.setCtx_squeezed (s : State) (c : Ctx) : (s.setCtx c).squeezed = s.squeezed := rfl
@[simp] theorem State.setCtx_sdecs (s : State) (c : Ctx) : (s.setCtx c).sdecs = s.sdecs := rfl
@[simp] theorem State.setCtx_sencs (s : State) (c : Ctx) : (s.setCtx c).sencs = s.sencs := rfl
@[simp] theorem State.setCtx_sigs (s : State) (c : Ctx) : (s.setCtx c).sigs = s.sigs := rfl
@[simp] theorem State.setCtx_pmovs (s : State) (c : Ctx) : (s.setCtx c).pmovs = s.pmovs := rfl
@[simp] theorem State.setCtx_arrays (s : State) (c : Ctx) : (s.setCtx c).arrays = s.arrays := rfl
@[simp] theorem State.setCtx_sends (s : State) (c : Ctx) : (s.setCtx c).sends = s.sends := rfl
@[simp] theorem State.setCtx_rsc (s : State) (c : Ctx) : (s.setCtx c).rsc = s.rsc := rfl
@[simp] theorem State.setCtx_islands (s : State) (c : Ctx) : (s.setCtx c).islands = s.islands := rfl
@[simp] theorem State.setCtx_links (s : State) (c : Ctx) : (s.setCtx c).links = s.links := rfl
@[simp] theorem State.setCtx_arrivals (s : State) (c : Ctx) : (s.setCtx c).arrivals = s.arrivals := rfl
@[simp] theorem State.setCtx_lowered (s : State) (c : Ctx) : (s.setCtx c).lowered = s.lowered := rfl
@[simp] theorem State.setCtx_pkg (s : State) (c : Ctx) : (s.setCtx c).pkg = s.pkg := rfl
@[simp] theorem State.setCtx_fences (s : State) (c : Ctx) : (s.setCtx c).fences = s.fences := rfl
@[simp] theorem State.setCtx_linkRuns (s : State) (c : Ctx) : (s.setCtx c).linkRuns = s.linkRuns := rfl
@[simp] theorem State.setCtx_dieFails (s : State) (c : Ctx) : (s.setCtx c).dieFails = s.dieFails := rfl
@[simp] theorem State.setCtx_fuseSvn (s : State) (c : Ctx) : (s.setCtx c).fuseSvn = s.fuseSvn := rfl
@[simp] theorem State.setCtx_lastTlp (s : State) (c : Ctx) : (s.setCtx c).lastTlp = s.lastTlp := rfl

@[simp] theorem State.updCtx_phase (s : State) (i : Word) (f : Ctx → Ctx) : (s.updCtx i f).phase = s.phase := by unfold State.updCtx; split <;> rfl
@[simp] theorem State.updCtx_cur (s : State) (i : Word) (f : Ctx → Ctx) : (s.updCtx i f).cur = s.cur := by unfold State.updCtx; split <;> rfl
@[simp] theorem State.updCtx_turns (s : State) (i : Word) (f : Ctx → Ctx) : (s.updCtx i f).turns = s.turns := by unfold State.updCtx; split <;> rfl
@[simp] theorem State.updCtx_firing (s : State) (i : Word) (f : Ctx → Ctx) : (s.updCtx i f).firing = s.firing := by unfold State.updCtx; split <;> rfl
@[simp] theorem State.updCtx_free (s : State) (i : Word) (f : Ctx → Ctx) : (s.updCtx i f).free = s.free := by unfold State.updCtx; split <;> rfl
@[simp] theorem State.updCtx_ids (s : State) (i : Word) (f : Ctx → Ctx) : (s.updCtx i f).ids = s.ids := by unfold State.updCtx; split <;> rfl
@[simp] theorem State.updCtx_tick (s : State) (i : Word) (f : Ctx → Ctx) : (s.updCtx i f).tick = s.tick := by unfold State.updCtx; split <;> rfl
@[simp] theorem State.updCtx_halls (s : State) (i : Word) (f : Ctx → Ctx) : (s.updCtx i f).halls = s.halls := by unfold State.updCtx; split <;> rfl
@[simp] theorem State.updCtx_caches (s : State) (i : Word) (f : Ctx → Ctx) : (s.updCtx i f).caches = s.caches := by unfold State.updCtx; split <;> rfl
@[simp] theorem State.updCtx_bars (s : State) (i : Word) (f : Ctx → Ctx) : (s.updCtx i f).bars = s.bars := by unfold State.updCtx; split <;> rfl
@[simp] theorem State.updCtx_groups (s : State) (i : Word) (f : Ctx → Ctx) : (s.updCtx i f).groups = s.groups := by unfold State.updCtx; split <;> rfl
@[simp] theorem State.updCtx_saves (s : State) (i : Word) (f : Ctx → Ctx) : (s.updCtx i f).saves = s.saves := by unfold State.updCtx; split <;> rfl
@[simp] theorem State.updCtx_tasks (s : State) (i : Word) (f : Ctx → Ctx) : (s.updCtx i f).tasks = s.tasks := by unfold State.updCtx; split <;> rfl
@[simp] theorem State.updCtx_walks (s : State) (i : Word) (f : Ctx → Ctx) : (s.updCtx i f).walks = s.walks := by unfold State.updCtx; split <;> rfl
@[simp] theorem State.updCtx_orders (s : State) (i : Word) (f : Ctx → Ctx) : (s.updCtx i f).orders = s.orders := by unfold State.updCtx; split <;> rfl
@[simp] theorem State.updCtx_dispatches (s : State) (i : Word) (f : Ctx → Ctx) : (s.updCtx i f).dispatches = s.dispatches := by unfold State.updCtx; split <;> rfl
@[simp] theorem State.updCtx_ctxids (s : State) (i : Word) (f : Ctx → Ctx) : (s.updCtx i f).ctxids = s.ctxids := by unfold State.updCtx; split <;> rfl
@[simp] theorem State.updCtx_vfs (s : State) (i : Word) (f : Ctx → Ctx) : (s.updCtx i f).vfs = s.vfs := by unfold State.updCtx; split <;> rfl
@[simp] theorem State.updCtx_mem (s : State) (i : Word) (f : Ctx → Ctx) : (s.updCtx i f).mem = s.mem := by unfold State.updCtx; split <;> rfl
@[simp] theorem State.updCtx_hostMem (s : State) (i : Word) (f : Ctx → Ctx) : (s.updCtx i f).hostMem = s.hostMem := by unfold State.updCtx; split <;> rfl
@[simp] theorem State.updCtx_ats (s : State) (i : Word) (f : Ctx → Ctx) : (s.updCtx i f).ats = s.ats := by unfold State.updCtx; split <;> rfl
@[simp] theorem State.updCtx_prot (s : State) (i : Word) (f : Ctx → Ctx) : (s.updCtx i f).prot = s.prot := by unfold State.updCtx; split <;> rfl
@[simp] theorem State.updCtx_blocks (s : State) (i : Word) (f : Ctx → Ctx) : (s.updCtx i f).blocks = s.blocks := by unfold State.updCtx; split <;> rfl
@[simp] theorem State.updCtx_l2 (s : State) (i : Word) (f : Ctx → Ctx) : (s.updCtx i f).l2 = s.l2 := by unfold State.updCtx; split <;> rfl
@[simp] theorem State.updCtx_masks (s : State) (i : Word) (f : Ctx → Ctx) : (s.updCtx i f).masks = s.masks := by unfold State.updCtx; split <;> rfl
@[simp] theorem State.updCtx_maskLast (s : State) (i : Word) (f : Ctx → Ctx) : (s.updCtx i f).maskLast = s.maskLast := by unfold State.updCtx; split <;> rfl
@[simp] theorem State.updCtx_rows (s : State) (i : Word) (f : Ctx → Ctx) : (s.updCtx i f).rows = s.rows := by unfold State.updCtx; split <;> rfl
@[simp] theorem State.updCtx_retired (s : State) (i : Word) (f : Ctx → Ctx) : (s.updCtx i f).retired = s.retired := by unfold State.updCtx; split <;> rfl
@[simp] theorem State.updCtx_retiring (s : State) (i : Word) (f : Ctx → Ctx) : (s.updCtx i f).retiring = s.retiring := by unfold State.updCtx; split <;> rfl
@[simp] theorem State.updCtx_throttled (s : State) (i : Word) (f : Ctx → Ctx) : (s.updCtx i f).throttled = s.throttled := by unfold State.updCtx; split <;> rfl
@[simp] theorem State.updCtx_leftFlight (s : State) (i : Word) (f : Ctx → Ctx) : (s.updCtx i f).leftFlight = s.leftFlight := by unfold State.updCtx; split <;> rfl
@[simp] theorem State.updCtx_recs (s : State) (i : Word) (f : Ctx → Ctx) : (s.updCtx i f).recs = s.recs := by unfold State.updCtx; split <;> rfl
@[simp] theorem State.updCtx_carries (s : State) (i : Word) (f : Ctx → Ctx) : (s.updCtx i f).carries = s.carries := by unfold State.updCtx; split <;> rfl
@[simp] theorem State.updCtx_checks (s : State) (i : Word) (f : Ctx → Ctx) : (s.updCtx i f).checks = s.checks := by unfold State.updCtx; split <;> rfl
@[simp] theorem State.updCtx_egress (s : State) (i : Word) (f : Ctx → Ctx) : (s.updCtx i f).egress = s.egress := by unfold State.updCtx; split <;> rfl
@[simp] theorem State.updCtx_squeezed (s : State) (i : Word) (f : Ctx → Ctx) : (s.updCtx i f).squeezed = s.squeezed := by unfold State.updCtx; split <;> rfl
@[simp] theorem State.updCtx_sdecs (s : State) (i : Word) (f : Ctx → Ctx) : (s.updCtx i f).sdecs = s.sdecs := by unfold State.updCtx; split <;> rfl
@[simp] theorem State.updCtx_sencs (s : State) (i : Word) (f : Ctx → Ctx) : (s.updCtx i f).sencs = s.sencs := by unfold State.updCtx; split <;> rfl
@[simp] theorem State.updCtx_sigs (s : State) (i : Word) (f : Ctx → Ctx) : (s.updCtx i f).sigs = s.sigs := by unfold State.updCtx; split <;> rfl
@[simp] theorem State.updCtx_pmovs (s : State) (i : Word) (f : Ctx → Ctx) : (s.updCtx i f).pmovs = s.pmovs := by unfold State.updCtx; split <;> rfl
@[simp] theorem State.updCtx_arrays (s : State) (i : Word) (f : Ctx → Ctx) : (s.updCtx i f).arrays = s.arrays := by unfold State.updCtx; split <;> rfl
@[simp] theorem State.updCtx_sends (s : State) (i : Word) (f : Ctx → Ctx) : (s.updCtx i f).sends = s.sends := by unfold State.updCtx; split <;> rfl
@[simp] theorem State.updCtx_rsc (s : State) (i : Word) (f : Ctx → Ctx) : (s.updCtx i f).rsc = s.rsc := by unfold State.updCtx; split <;> rfl
@[simp] theorem State.updCtx_islands (s : State) (i : Word) (f : Ctx → Ctx) : (s.updCtx i f).islands = s.islands := by unfold State.updCtx; split <;> rfl
@[simp] theorem State.updCtx_links (s : State) (i : Word) (f : Ctx → Ctx) : (s.updCtx i f).links = s.links := by unfold State.updCtx; split <;> rfl
@[simp] theorem State.updCtx_arrivals (s : State) (i : Word) (f : Ctx → Ctx) : (s.updCtx i f).arrivals = s.arrivals := by unfold State.updCtx; split <;> rfl
@[simp] theorem State.updCtx_lowered (s : State) (i : Word) (f : Ctx → Ctx) : (s.updCtx i f).lowered = s.lowered := by unfold State.updCtx; split <;> rfl
@[simp] theorem State.updCtx_pkg (s : State) (i : Word) (f : Ctx → Ctx) : (s.updCtx i f).pkg = s.pkg := by unfold State.updCtx; split <;> rfl
@[simp] theorem State.updCtx_fences (s : State) (i : Word) (f : Ctx → Ctx) : (s.updCtx i f).fences = s.fences := by unfold State.updCtx; split <;> rfl
@[simp] theorem State.updCtx_linkRuns (s : State) (i : Word) (f : Ctx → Ctx) : (s.updCtx i f).linkRuns = s.linkRuns := by unfold State.updCtx; split <;> rfl
@[simp] theorem State.updCtx_dieFails (s : State) (i : Word) (f : Ctx → Ctx) : (s.updCtx i f).dieFails = s.dieFails := by unfold State.updCtx; split <;> rfl
@[simp] theorem State.updCtx_fuseSvn (s : State) (i : Word) (f : Ctx → Ctx) : (s.updCtx i f).fuseSvn = s.fuseSvn := by unfold State.updCtx; split <;> rfl
@[simp] theorem State.updCtx_lastTlp (s : State) (i : Word) (f : Ctx → Ctx) : (s.updCtx i f).lastTlp = s.lastTlp := by unfold State.updCtx; split <;> rfl

@[simp] theorem State.updTask_phase (s : State) (i : TaskId) (f : Task → Task) : (s.updTask i f).phase = s.phase := rfl
@[simp] theorem State.updTask_cur (s : State) (i : TaskId) (f : Task → Task) : (s.updTask i f).cur = s.cur := rfl
@[simp] theorem State.updTask_turns (s : State) (i : TaskId) (f : Task → Task) : (s.updTask i f).turns = s.turns := rfl
@[simp] theorem State.updTask_firing (s : State) (i : TaskId) (f : Task → Task) : (s.updTask i f).firing = s.firing := rfl
@[simp] theorem State.updTask_free (s : State) (i : TaskId) (f : Task → Task) : (s.updTask i f).free = s.free := rfl
@[simp] theorem State.updTask_ids (s : State) (i : TaskId) (f : Task → Task) : (s.updTask i f).ids = s.ids := rfl
@[simp] theorem State.updTask_tick (s : State) (i : TaskId) (f : Task → Task) : (s.updTask i f).tick = s.tick := rfl
@[simp] theorem State.updTask_halls (s : State) (i : TaskId) (f : Task → Task) : (s.updTask i f).halls = s.halls := rfl
@[simp] theorem State.updTask_caches (s : State) (i : TaskId) (f : Task → Task) : (s.updTask i f).caches = s.caches := rfl
@[simp] theorem State.updTask_bars (s : State) (i : TaskId) (f : Task → Task) : (s.updTask i f).bars = s.bars := rfl
@[simp] theorem State.updTask_groups (s : State) (i : TaskId) (f : Task → Task) : (s.updTask i f).groups = s.groups := rfl
@[simp] theorem State.updTask_saves (s : State) (i : TaskId) (f : Task → Task) : (s.updTask i f).saves = s.saves := rfl
@[simp] theorem State.updTask_walks (s : State) (i : TaskId) (f : Task → Task) : (s.updTask i f).walks = s.walks := rfl
@[simp] theorem State.updTask_orders (s : State) (i : TaskId) (f : Task → Task) : (s.updTask i f).orders = s.orders := rfl
@[simp] theorem State.updTask_dispatches (s : State) (i : TaskId) (f : Task → Task) : (s.updTask i f).dispatches = s.dispatches := rfl
@[simp] theorem State.updTask_ctxs (s : State) (i : TaskId) (f : Task → Task) : (s.updTask i f).ctxs = s.ctxs := rfl
@[simp] theorem State.updTask_ctxids (s : State) (i : TaskId) (f : Task → Task) : (s.updTask i f).ctxids = s.ctxids := rfl
@[simp] theorem State.updTask_vfs (s : State) (i : TaskId) (f : Task → Task) : (s.updTask i f).vfs = s.vfs := rfl
@[simp] theorem State.updTask_mem (s : State) (i : TaskId) (f : Task → Task) : (s.updTask i f).mem = s.mem := rfl
@[simp] theorem State.updTask_hostMem (s : State) (i : TaskId) (f : Task → Task) : (s.updTask i f).hostMem = s.hostMem := rfl
@[simp] theorem State.updTask_ats (s : State) (i : TaskId) (f : Task → Task) : (s.updTask i f).ats = s.ats := rfl
@[simp] theorem State.updTask_prot (s : State) (i : TaskId) (f : Task → Task) : (s.updTask i f).prot = s.prot := rfl
@[simp] theorem State.updTask_blocks (s : State) (i : TaskId) (f : Task → Task) : (s.updTask i f).blocks = s.blocks := rfl
@[simp] theorem State.updTask_l2 (s : State) (i : TaskId) (f : Task → Task) : (s.updTask i f).l2 = s.l2 := rfl
@[simp] theorem State.updTask_masks (s : State) (i : TaskId) (f : Task → Task) : (s.updTask i f).masks = s.masks := rfl
@[simp] theorem State.updTask_maskLast (s : State) (i : TaskId) (f : Task → Task) : (s.updTask i f).maskLast = s.maskLast := rfl
@[simp] theorem State.updTask_rows (s : State) (i : TaskId) (f : Task → Task) : (s.updTask i f).rows = s.rows := rfl
@[simp] theorem State.updTask_retired (s : State) (i : TaskId) (f : Task → Task) : (s.updTask i f).retired = s.retired := rfl
@[simp] theorem State.updTask_retiring (s : State) (i : TaskId) (f : Task → Task) : (s.updTask i f).retiring = s.retiring := rfl
@[simp] theorem State.updTask_throttled (s : State) (i : TaskId) (f : Task → Task) : (s.updTask i f).throttled = s.throttled := rfl
@[simp] theorem State.updTask_leftFlight (s : State) (i : TaskId) (f : Task → Task) : (s.updTask i f).leftFlight = s.leftFlight := rfl
@[simp] theorem State.updTask_recs (s : State) (i : TaskId) (f : Task → Task) : (s.updTask i f).recs = s.recs := rfl
@[simp] theorem State.updTask_carries (s : State) (i : TaskId) (f : Task → Task) : (s.updTask i f).carries = s.carries := rfl
@[simp] theorem State.updTask_checks (s : State) (i : TaskId) (f : Task → Task) : (s.updTask i f).checks = s.checks := rfl
@[simp] theorem State.updTask_egress (s : State) (i : TaskId) (f : Task → Task) : (s.updTask i f).egress = s.egress := rfl
@[simp] theorem State.updTask_squeezed (s : State) (i : TaskId) (f : Task → Task) : (s.updTask i f).squeezed = s.squeezed := rfl
@[simp] theorem State.updTask_sdecs (s : State) (i : TaskId) (f : Task → Task) : (s.updTask i f).sdecs = s.sdecs := rfl
@[simp] theorem State.updTask_sencs (s : State) (i : TaskId) (f : Task → Task) : (s.updTask i f).sencs = s.sencs := rfl
@[simp] theorem State.updTask_sigs (s : State) (i : TaskId) (f : Task → Task) : (s.updTask i f).sigs = s.sigs := rfl
@[simp] theorem State.updTask_pmovs (s : State) (i : TaskId) (f : Task → Task) : (s.updTask i f).pmovs = s.pmovs := rfl
@[simp] theorem State.updTask_arrays (s : State) (i : TaskId) (f : Task → Task) : (s.updTask i f).arrays = s.arrays := rfl
@[simp] theorem State.updTask_sends (s : State) (i : TaskId) (f : Task → Task) : (s.updTask i f).sends = s.sends := rfl
@[simp] theorem State.updTask_rsc (s : State) (i : TaskId) (f : Task → Task) : (s.updTask i f).rsc = s.rsc := rfl
@[simp] theorem State.updTask_islands (s : State) (i : TaskId) (f : Task → Task) : (s.updTask i f).islands = s.islands := rfl
@[simp] theorem State.updTask_links (s : State) (i : TaskId) (f : Task → Task) : (s.updTask i f).links = s.links := rfl
@[simp] theorem State.updTask_arrivals (s : State) (i : TaskId) (f : Task → Task) : (s.updTask i f).arrivals = s.arrivals := rfl
@[simp] theorem State.updTask_lowered (s : State) (i : TaskId) (f : Task → Task) : (s.updTask i f).lowered = s.lowered := rfl
@[simp] theorem State.updTask_pkg (s : State) (i : TaskId) (f : Task → Task) : (s.updTask i f).pkg = s.pkg := rfl
@[simp] theorem State.updTask_fences (s : State) (i : TaskId) (f : Task → Task) : (s.updTask i f).fences = s.fences := rfl
@[simp] theorem State.updTask_linkRuns (s : State) (i : TaskId) (f : Task → Task) : (s.updTask i f).linkRuns = s.linkRuns := rfl
@[simp] theorem State.updTask_dieFails (s : State) (i : TaskId) (f : Task → Task) : (s.updTask i f).dieFails = s.dieFails := rfl
@[simp] theorem State.updTask_fuseSvn (s : State) (i : TaskId) (f : Task → Task) : (s.updTask i f).fuseSvn = s.fuseSvn := rfl
@[simp] theorem State.updTask_lastTlp (s : State) (i : TaskId) (f : Task → Task) : (s.updTask i f).lastTlp = s.lastTlp := rfl

@[simp] theorem State.setVf_phase (s : State) (n : Nat) (v : Vf) : (s.setVf n v).phase = s.phase := rfl
@[simp] theorem State.setVf_cur (s : State) (n : Nat) (v : Vf) : (s.setVf n v).cur = s.cur := rfl
@[simp] theorem State.setVf_turns (s : State) (n : Nat) (v : Vf) : (s.setVf n v).turns = s.turns := rfl
@[simp] theorem State.setVf_firing (s : State) (n : Nat) (v : Vf) : (s.setVf n v).firing = s.firing := rfl
@[simp] theorem State.setVf_free (s : State) (n : Nat) (v : Vf) : (s.setVf n v).free = s.free := rfl
@[simp] theorem State.setVf_ids (s : State) (n : Nat) (v : Vf) : (s.setVf n v).ids = s.ids := rfl
@[simp] theorem State.setVf_tick (s : State) (n : Nat) (v : Vf) : (s.setVf n v).tick = s.tick := rfl
@[simp] theorem State.setVf_halls (s : State) (n : Nat) (v : Vf) : (s.setVf n v).halls = s.halls := rfl
@[simp] theorem State.setVf_caches (s : State) (n : Nat) (v : Vf) : (s.setVf n v).caches = s.caches := rfl
@[simp] theorem State.setVf_bars (s : State) (n : Nat) (v : Vf) : (s.setVf n v).bars = s.bars := rfl
@[simp] theorem State.setVf_groups (s : State) (n : Nat) (v : Vf) : (s.setVf n v).groups = s.groups := rfl
@[simp] theorem State.setVf_saves (s : State) (n : Nat) (v : Vf) : (s.setVf n v).saves = s.saves := rfl
@[simp] theorem State.setVf_tasks (s : State) (n : Nat) (v : Vf) : (s.setVf n v).tasks = s.tasks := rfl
@[simp] theorem State.setVf_walks (s : State) (n : Nat) (v : Vf) : (s.setVf n v).walks = s.walks := rfl
@[simp] theorem State.setVf_orders (s : State) (n : Nat) (v : Vf) : (s.setVf n v).orders = s.orders := rfl
@[simp] theorem State.setVf_dispatches (s : State) (n : Nat) (v : Vf) : (s.setVf n v).dispatches = s.dispatches := rfl
@[simp] theorem State.setVf_ctxs (s : State) (n : Nat) (v : Vf) : (s.setVf n v).ctxs = s.ctxs := rfl
@[simp] theorem State.setVf_ctxids (s : State) (n : Nat) (v : Vf) : (s.setVf n v).ctxids = s.ctxids := rfl
@[simp] theorem State.setVf_mem (s : State) (n : Nat) (v : Vf) : (s.setVf n v).mem = s.mem := rfl
@[simp] theorem State.setVf_hostMem (s : State) (n : Nat) (v : Vf) : (s.setVf n v).hostMem = s.hostMem := rfl
@[simp] theorem State.setVf_ats (s : State) (n : Nat) (v : Vf) : (s.setVf n v).ats = s.ats := rfl
@[simp] theorem State.setVf_prot (s : State) (n : Nat) (v : Vf) : (s.setVf n v).prot = s.prot := rfl
@[simp] theorem State.setVf_blocks (s : State) (n : Nat) (v : Vf) : (s.setVf n v).blocks = s.blocks := rfl
@[simp] theorem State.setVf_l2 (s : State) (n : Nat) (v : Vf) : (s.setVf n v).l2 = s.l2 := rfl
@[simp] theorem State.setVf_masks (s : State) (n : Nat) (v : Vf) : (s.setVf n v).masks = s.masks := rfl
@[simp] theorem State.setVf_maskLast (s : State) (n : Nat) (v : Vf) : (s.setVf n v).maskLast = s.maskLast := rfl
@[simp] theorem State.setVf_rows (s : State) (n : Nat) (v : Vf) : (s.setVf n v).rows = s.rows := rfl
@[simp] theorem State.setVf_retired (s : State) (n : Nat) (v : Vf) : (s.setVf n v).retired = s.retired := rfl
@[simp] theorem State.setVf_retiring (s : State) (n : Nat) (v : Vf) : (s.setVf n v).retiring = s.retiring := rfl
@[simp] theorem State.setVf_throttled (s : State) (n : Nat) (v : Vf) : (s.setVf n v).throttled = s.throttled := rfl
@[simp] theorem State.setVf_leftFlight (s : State) (n : Nat) (v : Vf) : (s.setVf n v).leftFlight = s.leftFlight := rfl
@[simp] theorem State.setVf_recs (s : State) (n : Nat) (v : Vf) : (s.setVf n v).recs = s.recs := rfl
@[simp] theorem State.setVf_carries (s : State) (n : Nat) (v : Vf) : (s.setVf n v).carries = s.carries := rfl
@[simp] theorem State.setVf_checks (s : State) (n : Nat) (v : Vf) : (s.setVf n v).checks = s.checks := rfl
@[simp] theorem State.setVf_egress (s : State) (n : Nat) (v : Vf) : (s.setVf n v).egress = s.egress := rfl
@[simp] theorem State.setVf_squeezed (s : State) (n : Nat) (v : Vf) : (s.setVf n v).squeezed = s.squeezed := rfl
@[simp] theorem State.setVf_sdecs (s : State) (n : Nat) (v : Vf) : (s.setVf n v).sdecs = s.sdecs := rfl
@[simp] theorem State.setVf_sencs (s : State) (n : Nat) (v : Vf) : (s.setVf n v).sencs = s.sencs := rfl
@[simp] theorem State.setVf_sigs (s : State) (n : Nat) (v : Vf) : (s.setVf n v).sigs = s.sigs := rfl
@[simp] theorem State.setVf_pmovs (s : State) (n : Nat) (v : Vf) : (s.setVf n v).pmovs = s.pmovs := rfl
@[simp] theorem State.setVf_arrays (s : State) (n : Nat) (v : Vf) : (s.setVf n v).arrays = s.arrays := rfl
@[simp] theorem State.setVf_sends (s : State) (n : Nat) (v : Vf) : (s.setVf n v).sends = s.sends := rfl
@[simp] theorem State.setVf_rsc (s : State) (n : Nat) (v : Vf) : (s.setVf n v).rsc = s.rsc := rfl
@[simp] theorem State.setVf_islands (s : State) (n : Nat) (v : Vf) : (s.setVf n v).islands = s.islands := rfl
@[simp] theorem State.setVf_links (s : State) (n : Nat) (v : Vf) : (s.setVf n v).links = s.links := rfl
@[simp] theorem State.setVf_arrivals (s : State) (n : Nat) (v : Vf) : (s.setVf n v).arrivals = s.arrivals := rfl
@[simp] theorem State.setVf_lowered (s : State) (n : Nat) (v : Vf) : (s.setVf n v).lowered = s.lowered := rfl
@[simp] theorem State.setVf_pkg (s : State) (n : Nat) (v : Vf) : (s.setVf n v).pkg = s.pkg := rfl
@[simp] theorem State.setVf_fences (s : State) (n : Nat) (v : Vf) : (s.setVf n v).fences = s.fences := rfl
@[simp] theorem State.setVf_linkRuns (s : State) (n : Nat) (v : Vf) : (s.setVf n v).linkRuns = s.linkRuns := rfl
@[simp] theorem State.setVf_dieFails (s : State) (n : Nat) (v : Vf) : (s.setVf n v).dieFails = s.dieFails := rfl
@[simp] theorem State.setVf_fuseSvn (s : State) (n : Nat) (v : Vf) : (s.setVf n v).fuseSvn = s.fuseSvn := rfl
@[simp] theorem State.setVf_lastTlp (s : State) (n : Nat) (v : Vf) : (s.setVf n v).lastTlp = s.lastTlp := rfl

/-! ## Hall: what following, retiring and taking the first read of a token leave unchanged -/

@[simp] theorem Hall.syncAu_res (x : Hall) : x.syncAu.res = x.res := rfl
@[simp] theorem Hall.syncAu_bind (x : Hall) : x.syncAu.bind = x.bind := rfl
@[simp] theorem Hall.syncAu_lastCtx (x : Hall) : x.syncAu.lastCtx = x.lastCtx := rfl
@[simp] theorem Hall.syncAu_bound (x : Hall) : x.syncAu.bound = x.bound := rfl
@[simp] theorem Hall.syncAu_held (x : Hall) : x.syncAu.held = x.held := rfl
@[simp] theorem Hall.syncAu_atYield (x : Hall) : x.syncAu.atYield = x.atYield := rfl
@[simp] theorem Hall.syncAu_pri (x : Hall) : x.syncAu.pri = x.pri := rfl
@[simp] theorem Hall.syncAu_exiting (x : Hall) : x.syncAu.exiting = x.exiting := rfl
@[simp] theorem Hall.syncAu_hold (x : Hall) : x.syncAu.hold = x.hold := rfl
@[simp] theorem Hall.syncAu_pc (x : Hall) : x.syncAu.pc = x.pc := rfl
@[simp] theorem Hall.syncAu_c (x : Hall) : x.syncAu.c = x.c := rfl
@[simp] theorem Hall.syncAu_a (x : Hall) : x.syncAu.a = x.a := rfl
@[simp] theorem Hall.syncAu_lc (x : Hall) : x.syncAu.lc = x.lc := rfl
@[simp] theorem Hall.syncAu_ls (x : Hall) : x.syncAu.ls = x.ls := rfl
@[simp] theorem Hall.syncAu_le (x : Hall) : x.syncAu.le = x.le := rfl
@[simp] theorem Hall.syncAu_pend (x : Hall) : x.syncAu.pend = x.pend := rfl
@[simp] theorem Hall.syncAu_fresh (x : Hall) : x.syncAu.fresh = x.fresh := rfl
@[simp] theorem Hall.syncAu_restarts (x : Hall) : x.syncAu.restarts = x.restarts := rfl
@[simp] theorem Hall.syncAu_wait (x : Hall) : x.syncAu.wait = x.wait := rfl
@[simp] theorem Hall.syncAu_trap (x : Hall) : x.syncAu.trap = x.trap := rfl
@[simp] theorem Hall.syncAu_wdogPeriod (x : Hall) : x.syncAu.wdogPeriod = x.wdogPeriod := rfl
@[simp] theorem Hall.syncAu_wdogCount (x : Hall) : x.syncAu.wdogCount = x.wdogCount := rfl
@[simp] theorem Hall.syncAu_wdogFired (x : Hall) : x.syncAu.wdogFired = x.wdogFired := rfl
@[simp] theorem Hall.syncAu_split (x : Hall) : x.syncAu.split = x.split := rfl
@[simp] theorem Hall.syncAu_scratch (x : Hall) : x.syncAu.scratch = x.scratch := rfl
@[simp] theorem Hall.syncAu_full (x : Hall) : x.syncAu.full = x.full := rfl
@[simp] theorem Hall.syncAu_bad (x : Hall) : x.syncAu.bad = x.bad := rfl
@[simp] theorem Hall.syncAu_l1 (x : Hall) : x.syncAu.l1 = x.l1 := rfl
@[simp] theorem Hall.syncAu_tlb (x : Hall) : x.syncAu.tlb = x.tlb := rfl
@[simp] theorem Hall.syncAu_facets (x : Hall) : x.syncAu.facets = x.facets := rfl
@[simp] theorem Hall.syncAu_mx (x : Hall) : x.syncAu.mx = x.mx := rfl
@[simp] theorem Hall.syncAu_units (x : Hall) : x.syncAu.units = x.units := rfl
@[simp] theorem Hall.syncAu_seqIns (x : Hall) : x.syncAu.seqIns = x.seqIns := rfl
@[simp] theorem Hall.syncAu_seqOuts (x : Hall) : x.syncAu.seqOuts = x.seqOuts := rfl
@[simp] theorem Hall.syncAu_seqCi (x : Hall) : x.syncAu.seqCi = x.seqCi := rfl
@[simp] theorem Hall.syncAu_links (x : Hall) : x.syncAu.links = x.links := rfl
@[simp] theorem Hall.syncAu_merges (x : Hall) : x.syncAu.merges = x.merges := rfl
@[simp] theorem Hall.syncAu_ctlOut (x : Hall) : x.syncAu.ctlOut = x.ctlOut := rfl
@[simp] theorem Hall.syncAu_stores (x : Hall) : x.syncAu.stores = x.stores := rfl
@[simp] theorem Hall.syncAu_fetch (x : Hall) : x.syncAu.fetch = x.fetch := rfl
@[simp] theorem Hall.syncAu_copies (x : Hall) : x.syncAu.copies = x.copies := rfl
@[simp] theorem Hall.syncAu_chains (x : Hall) : x.syncAu.chains = x.chains := rfl
@[simp] theorem Hall.syncAu_outq (x : Hall) : x.syncAu.outq = x.outq := rfl
@[simp] theorem Hall.syncAu_feq (x : Hall) : x.syncAu.feq = x.feq := rfl
@[simp] theorem Hall.syncAu_posted (x : Hall) : x.syncAu.posted = x.posted := rfl
@[simp] theorem Hall.syncAu_fenceRel (x : Hall) : x.syncAu.fenceRel = x.fenceRel := rfl
@[simp] theorem Hall.syncAu_seen (x : Hall) : x.syncAu.seen = x.seen := rfl
@[simp] theorem Hall.syncAu_horizon (x : Hall) : x.syncAu.horizon = x.horizon := rfl
@[simp] theorem Hall.syncAu_streamCase (x : Hall) : x.syncAu.streamCase = x.streamCase := rfl

@[simp] theorem Hall.dropAhead_res (x : Hall) : x.dropAhead.res = x.res := by unfold Hall.dropAhead; split <;> rfl
@[simp] theorem Hall.dropAhead_bind (x : Hall) : x.dropAhead.bind = x.bind := by unfold Hall.dropAhead; split <;> rfl
@[simp] theorem Hall.dropAhead_lastCtx (x : Hall) : x.dropAhead.lastCtx = x.lastCtx := by unfold Hall.dropAhead; split <;> rfl
@[simp] theorem Hall.dropAhead_bound (x : Hall) : x.dropAhead.bound = x.bound := by unfold Hall.dropAhead; split <;> rfl
@[simp] theorem Hall.dropAhead_held (x : Hall) : x.dropAhead.held = x.held := by unfold Hall.dropAhead; split <;> rfl
@[simp] theorem Hall.dropAhead_atYield (x : Hall) : x.dropAhead.atYield = x.atYield := by unfold Hall.dropAhead; split <;> rfl
@[simp] theorem Hall.dropAhead_pri (x : Hall) : x.dropAhead.pri = x.pri := by unfold Hall.dropAhead; split <;> rfl
@[simp] theorem Hall.dropAhead_exiting (x : Hall) : x.dropAhead.exiting = x.exiting := by unfold Hall.dropAhead; split <;> rfl
@[simp] theorem Hall.dropAhead_hold (x : Hall) : x.dropAhead.hold = x.hold := by unfold Hall.dropAhead; split <;> rfl
@[simp] theorem Hall.dropAhead_pc (x : Hall) : x.dropAhead.pc = x.pc := by unfold Hall.dropAhead; split <;> rfl
@[simp] theorem Hall.dropAhead_c (x : Hall) : x.dropAhead.c = x.c := by unfold Hall.dropAhead; split <;> rfl
@[simp] theorem Hall.dropAhead_a (x : Hall) : x.dropAhead.a = x.a := by unfold Hall.dropAhead; split <;> rfl
@[simp] theorem Hall.dropAhead_lc (x : Hall) : x.dropAhead.lc = x.lc := by unfold Hall.dropAhead; split <;> rfl
@[simp] theorem Hall.dropAhead_ls (x : Hall) : x.dropAhead.ls = x.ls := by unfold Hall.dropAhead; split <;> rfl
@[simp] theorem Hall.dropAhead_le (x : Hall) : x.dropAhead.le = x.le := by unfold Hall.dropAhead; split <;> rfl
@[simp] theorem Hall.dropAhead_pend (x : Hall) : x.dropAhead.pend = x.pend := by unfold Hall.dropAhead; split <;> rfl
@[simp] theorem Hall.dropAhead_fresh (x : Hall) : x.dropAhead.fresh = x.fresh := by unfold Hall.dropAhead; split <;> rfl
@[simp] theorem Hall.dropAhead_restarts (x : Hall) : x.dropAhead.restarts = x.restarts := by unfold Hall.dropAhead; split <;> rfl
@[simp] theorem Hall.dropAhead_wait (x : Hall) : x.dropAhead.wait = x.wait := by unfold Hall.dropAhead; split <;> rfl
@[simp] theorem Hall.dropAhead_trap (x : Hall) : x.dropAhead.trap = x.trap := by unfold Hall.dropAhead; split <;> rfl
@[simp] theorem Hall.dropAhead_wdogPeriod (x : Hall) : x.dropAhead.wdogPeriod = x.wdogPeriod := by unfold Hall.dropAhead; split <;> rfl
@[simp] theorem Hall.dropAhead_wdogCount (x : Hall) : x.dropAhead.wdogCount = x.wdogCount := by unfold Hall.dropAhead; split <;> rfl
@[simp] theorem Hall.dropAhead_wdogFired (x : Hall) : x.dropAhead.wdogFired = x.wdogFired := by unfold Hall.dropAhead; split <;> rfl
@[simp] theorem Hall.dropAhead_split (x : Hall) : x.dropAhead.split = x.split := by unfold Hall.dropAhead; split <;> rfl
@[simp] theorem Hall.dropAhead_scratch (x : Hall) : x.dropAhead.scratch = x.scratch := by unfold Hall.dropAhead; split <;> rfl
@[simp] theorem Hall.dropAhead_full (x : Hall) : x.dropAhead.full = x.full := by unfold Hall.dropAhead; split <;> rfl
@[simp] theorem Hall.dropAhead_bad (x : Hall) : x.dropAhead.bad = x.bad := by unfold Hall.dropAhead; split <;> rfl
@[simp] theorem Hall.dropAhead_l1 (x : Hall) : x.dropAhead.l1 = x.l1 := by unfold Hall.dropAhead; split <;> rfl
@[simp] theorem Hall.dropAhead_tlb (x : Hall) : x.dropAhead.tlb = x.tlb := by unfold Hall.dropAhead; split <;> rfl
@[simp] theorem Hall.dropAhead_facets (x : Hall) : x.dropAhead.facets = x.facets := by unfold Hall.dropAhead; split <;> rfl
@[simp] theorem Hall.dropAhead_mx (x : Hall) : x.dropAhead.mx = x.mx := by unfold Hall.dropAhead; split <;> rfl
@[simp] theorem Hall.dropAhead_units (x : Hall) : x.dropAhead.units = x.units := by unfold Hall.dropAhead; split <;> rfl
@[simp] theorem Hall.dropAhead_seqIns (x : Hall) : x.dropAhead.seqIns = x.seqIns := by unfold Hall.dropAhead; split <;> rfl
@[simp] theorem Hall.dropAhead_seqOuts (x : Hall) : x.dropAhead.seqOuts = x.seqOuts := by unfold Hall.dropAhead; split <;> rfl
@[simp] theorem Hall.dropAhead_seqCi (x : Hall) : x.dropAhead.seqCi = x.seqCi := by unfold Hall.dropAhead; split <;> rfl
@[simp] theorem Hall.dropAhead_links (x : Hall) : x.dropAhead.links = x.links := by unfold Hall.dropAhead; split <;> rfl
@[simp] theorem Hall.dropAhead_merges (x : Hall) : x.dropAhead.merges = x.merges := by unfold Hall.dropAhead; split <;> rfl
@[simp] theorem Hall.dropAhead_ctlOut (x : Hall) : x.dropAhead.ctlOut = x.ctlOut := by unfold Hall.dropAhead; split <;> rfl
@[simp] theorem Hall.dropAhead_stores (x : Hall) : x.dropAhead.stores = x.stores := by unfold Hall.dropAhead; split <;> rfl
@[simp] theorem Hall.dropAhead_fetch (x : Hall) : x.dropAhead.fetch = x.fetch := by unfold Hall.dropAhead; split <;> rfl
@[simp] theorem Hall.dropAhead_copies (x : Hall) : x.dropAhead.copies = x.copies := by unfold Hall.dropAhead; split <;> rfl
@[simp] theorem Hall.dropAhead_chains (x : Hall) : x.dropAhead.chains = x.chains := by unfold Hall.dropAhead; split <;> rfl
@[simp] theorem Hall.dropAhead_outq (x : Hall) : x.dropAhead.outq = x.outq := by unfold Hall.dropAhead; split <;> rfl
@[simp] theorem Hall.dropAhead_feq (x : Hall) : x.dropAhead.feq = x.feq := by unfold Hall.dropAhead; split <;> rfl
@[simp] theorem Hall.dropAhead_posted (x : Hall) : x.dropAhead.posted = x.posted := by unfold Hall.dropAhead; split <;> rfl
@[simp] theorem Hall.dropAhead_fenceRel (x : Hall) : x.dropAhead.fenceRel = x.fenceRel := by unfold Hall.dropAhead; split <;> rfl
@[simp] theorem Hall.dropAhead_seen (x : Hall) : x.dropAhead.seen = x.seen := by unfold Hall.dropAhead; split <;> rfl
@[simp] theorem Hall.dropAhead_horizon (x : Hall) : x.dropAhead.horizon = x.horizon := by unfold Hall.dropAhead; split <;> rfl
@[simp] theorem Hall.dropAhead_streamCase (x : Hall) : x.dropAhead.streamCase = x.streamCase := by unfold Hall.dropAhead; split <;> rfl

@[simp] theorem Hall.passAu_res (x : Hall) (off next : Nat) (taken ctl : Bool) : (x.passAu off next taken ctl).res = x.res := by
  unfold Hall.passAu; repeat' split
  all_goals rfl
@[simp] theorem Hall.passAu_bind (x : Hall) (off next : Nat) (taken ctl : Bool) : (x.passAu off next taken ctl).bind = x.bind := by
  unfold Hall.passAu; repeat' split
  all_goals rfl
@[simp] theorem Hall.passAu_lastCtx (x : Hall) (off next : Nat) (taken ctl : Bool) : (x.passAu off next taken ctl).lastCtx = x.lastCtx := by
  unfold Hall.passAu; repeat' split
  all_goals rfl
@[simp] theorem Hall.passAu_bound (x : Hall) (off next : Nat) (taken ctl : Bool) : (x.passAu off next taken ctl).bound = x.bound := by
  unfold Hall.passAu; repeat' split
  all_goals rfl
@[simp] theorem Hall.passAu_held (x : Hall) (off next : Nat) (taken ctl : Bool) : (x.passAu off next taken ctl).held = x.held := by
  unfold Hall.passAu; repeat' split
  all_goals rfl
@[simp] theorem Hall.passAu_atYield (x : Hall) (off next : Nat) (taken ctl : Bool) : (x.passAu off next taken ctl).atYield = x.atYield := by
  unfold Hall.passAu; repeat' split
  all_goals rfl
@[simp] theorem Hall.passAu_pri (x : Hall) (off next : Nat) (taken ctl : Bool) : (x.passAu off next taken ctl).pri = x.pri := by
  unfold Hall.passAu; repeat' split
  all_goals rfl
@[simp] theorem Hall.passAu_exiting (x : Hall) (off next : Nat) (taken ctl : Bool) : (x.passAu off next taken ctl).exiting = x.exiting := by
  unfold Hall.passAu; repeat' split
  all_goals rfl
@[simp] theorem Hall.passAu_hold (x : Hall) (off next : Nat) (taken ctl : Bool) : (x.passAu off next taken ctl).hold = x.hold := by
  unfold Hall.passAu; repeat' split
  all_goals rfl
@[simp] theorem Hall.passAu_pc (x : Hall) (off next : Nat) (taken ctl : Bool) : (x.passAu off next taken ctl).pc = x.pc := by
  unfold Hall.passAu; repeat' split
  all_goals rfl
@[simp] theorem Hall.passAu_c (x : Hall) (off next : Nat) (taken ctl : Bool) : (x.passAu off next taken ctl).c = x.c := by
  unfold Hall.passAu; repeat' split
  all_goals rfl
@[simp] theorem Hall.passAu_a (x : Hall) (off next : Nat) (taken ctl : Bool) : (x.passAu off next taken ctl).a = x.a := by
  unfold Hall.passAu; repeat' split
  all_goals rfl
@[simp] theorem Hall.passAu_lc (x : Hall) (off next : Nat) (taken ctl : Bool) : (x.passAu off next taken ctl).lc = x.lc := by
  unfold Hall.passAu; repeat' split
  all_goals rfl
@[simp] theorem Hall.passAu_ls (x : Hall) (off next : Nat) (taken ctl : Bool) : (x.passAu off next taken ctl).ls = x.ls := by
  unfold Hall.passAu; repeat' split
  all_goals rfl
@[simp] theorem Hall.passAu_le (x : Hall) (off next : Nat) (taken ctl : Bool) : (x.passAu off next taken ctl).le = x.le := by
  unfold Hall.passAu; repeat' split
  all_goals rfl
@[simp] theorem Hall.passAu_pend (x : Hall) (off next : Nat) (taken ctl : Bool) : (x.passAu off next taken ctl).pend = x.pend := by
  unfold Hall.passAu; repeat' split
  all_goals rfl
@[simp] theorem Hall.passAu_fresh (x : Hall) (off next : Nat) (taken ctl : Bool) : (x.passAu off next taken ctl).fresh = x.fresh := by
  unfold Hall.passAu; repeat' split
  all_goals rfl
@[simp] theorem Hall.passAu_wait (x : Hall) (off next : Nat) (taken ctl : Bool) : (x.passAu off next taken ctl).wait = x.wait := by
  unfold Hall.passAu; repeat' split
  all_goals rfl
@[simp] theorem Hall.passAu_trap (x : Hall) (off next : Nat) (taken ctl : Bool) : (x.passAu off next taken ctl).trap = x.trap := by
  unfold Hall.passAu; repeat' split
  all_goals rfl
@[simp] theorem Hall.passAu_wdogPeriod (x : Hall) (off next : Nat) (taken ctl : Bool) : (x.passAu off next taken ctl).wdogPeriod = x.wdogPeriod := by
  unfold Hall.passAu; repeat' split
  all_goals rfl
@[simp] theorem Hall.passAu_wdogCount (x : Hall) (off next : Nat) (taken ctl : Bool) : (x.passAu off next taken ctl).wdogCount = x.wdogCount := by
  unfold Hall.passAu; repeat' split
  all_goals rfl
@[simp] theorem Hall.passAu_wdogFired (x : Hall) (off next : Nat) (taken ctl : Bool) : (x.passAu off next taken ctl).wdogFired = x.wdogFired := by
  unfold Hall.passAu; repeat' split
  all_goals rfl
@[simp] theorem Hall.passAu_split (x : Hall) (off next : Nat) (taken ctl : Bool) : (x.passAu off next taken ctl).split = x.split := by
  unfold Hall.passAu; repeat' split
  all_goals rfl
@[simp] theorem Hall.passAu_scratch (x : Hall) (off next : Nat) (taken ctl : Bool) : (x.passAu off next taken ctl).scratch = x.scratch := by
  unfold Hall.passAu; repeat' split
  all_goals rfl
@[simp] theorem Hall.passAu_full (x : Hall) (off next : Nat) (taken ctl : Bool) : (x.passAu off next taken ctl).full = x.full := by
  unfold Hall.passAu; repeat' split
  all_goals rfl
@[simp] theorem Hall.passAu_bad (x : Hall) (off next : Nat) (taken ctl : Bool) : (x.passAu off next taken ctl).bad = x.bad := by
  unfold Hall.passAu; repeat' split
  all_goals rfl
@[simp] theorem Hall.passAu_l1 (x : Hall) (off next : Nat) (taken ctl : Bool) : (x.passAu off next taken ctl).l1 = x.l1 := by
  unfold Hall.passAu; repeat' split
  all_goals rfl
@[simp] theorem Hall.passAu_tlb (x : Hall) (off next : Nat) (taken ctl : Bool) : (x.passAu off next taken ctl).tlb = x.tlb := by
  unfold Hall.passAu; repeat' split
  all_goals rfl
@[simp] theorem Hall.passAu_facets (x : Hall) (off next : Nat) (taken ctl : Bool) : (x.passAu off next taken ctl).facets = x.facets := by
  unfold Hall.passAu; repeat' split
  all_goals rfl
@[simp] theorem Hall.passAu_mx (x : Hall) (off next : Nat) (taken ctl : Bool) : (x.passAu off next taken ctl).mx = x.mx := by
  unfold Hall.passAu; repeat' split
  all_goals rfl
@[simp] theorem Hall.passAu_units (x : Hall) (off next : Nat) (taken ctl : Bool) : (x.passAu off next taken ctl).units = x.units := by
  unfold Hall.passAu; repeat' split
  all_goals rfl
@[simp] theorem Hall.passAu_seqIns (x : Hall) (off next : Nat) (taken ctl : Bool) : (x.passAu off next taken ctl).seqIns = x.seqIns := by
  unfold Hall.passAu; repeat' split
  all_goals rfl
@[simp] theorem Hall.passAu_seqOuts (x : Hall) (off next : Nat) (taken ctl : Bool) : (x.passAu off next taken ctl).seqOuts = x.seqOuts := by
  unfold Hall.passAu; repeat' split
  all_goals rfl
@[simp] theorem Hall.passAu_seqCi (x : Hall) (off next : Nat) (taken ctl : Bool) : (x.passAu off next taken ctl).seqCi = x.seqCi := by
  unfold Hall.passAu; repeat' split
  all_goals rfl
@[simp] theorem Hall.passAu_links (x : Hall) (off next : Nat) (taken ctl : Bool) : (x.passAu off next taken ctl).links = x.links := by
  unfold Hall.passAu; repeat' split
  all_goals rfl
@[simp] theorem Hall.passAu_merges (x : Hall) (off next : Nat) (taken ctl : Bool) : (x.passAu off next taken ctl).merges = x.merges := by
  unfold Hall.passAu; repeat' split
  all_goals rfl
@[simp] theorem Hall.passAu_ctlOut (x : Hall) (off next : Nat) (taken ctl : Bool) : (x.passAu off next taken ctl).ctlOut = x.ctlOut := by
  unfold Hall.passAu; repeat' split
  all_goals rfl
@[simp] theorem Hall.passAu_stores (x : Hall) (off next : Nat) (taken ctl : Bool) : (x.passAu off next taken ctl).stores = x.stores := by
  unfold Hall.passAu; repeat' split
  all_goals rfl
@[simp] theorem Hall.passAu_fetch (x : Hall) (off next : Nat) (taken ctl : Bool) : (x.passAu off next taken ctl).fetch = x.fetch := by
  unfold Hall.passAu; repeat' split
  all_goals rfl
@[simp] theorem Hall.passAu_copies (x : Hall) (off next : Nat) (taken ctl : Bool) : (x.passAu off next taken ctl).copies = x.copies := by
  unfold Hall.passAu; repeat' split
  all_goals rfl
@[simp] theorem Hall.passAu_chains (x : Hall) (off next : Nat) (taken ctl : Bool) : (x.passAu off next taken ctl).chains = x.chains := by
  unfold Hall.passAu; repeat' split
  all_goals rfl
@[simp] theorem Hall.passAu_outq (x : Hall) (off next : Nat) (taken ctl : Bool) : (x.passAu off next taken ctl).outq = x.outq := by
  unfold Hall.passAu; repeat' split
  all_goals rfl
@[simp] theorem Hall.passAu_feq (x : Hall) (off next : Nat) (taken ctl : Bool) : (x.passAu off next taken ctl).feq = x.feq := by
  unfold Hall.passAu; repeat' split
  all_goals rfl
@[simp] theorem Hall.passAu_posted (x : Hall) (off next : Nat) (taken ctl : Bool) : (x.passAu off next taken ctl).posted = x.posted := by
  unfold Hall.passAu; repeat' split
  all_goals rfl
@[simp] theorem Hall.passAu_fenceRel (x : Hall) (off next : Nat) (taken ctl : Bool) : (x.passAu off next taken ctl).fenceRel = x.fenceRel := by
  unfold Hall.passAu; repeat' split
  all_goals rfl
@[simp] theorem Hall.passAu_seen (x : Hall) (off next : Nat) (taken ctl : Bool) : (x.passAu off next taken ctl).seen = x.seen := by
  unfold Hall.passAu; repeat' split
  all_goals rfl
@[simp] theorem Hall.passAu_horizon (x : Hall) (off next : Nat) (taken ctl : Bool) : (x.passAu off next taken ctl).horizon = x.horizon := by
  unfold Hall.passAu; repeat' split
  all_goals rfl
@[simp] theorem Hall.passAu_streamCase (x : Hall) (off next : Nat) (taken ctl : Bool) : (x.passAu off next taken ctl).streamCase = x.streamCase := by
  unfold Hall.passAu; repeat' split
  all_goals rfl

@[simp] theorem Hall.retire_res (x : Hall) (n : Nat) (t c y : Bool) : (x.retire n t c y).res = x.res := by simp [Hall.retire]
@[simp] theorem Hall.retire_bind (x : Hall) (n : Nat) (t c y : Bool) : (x.retire n t c y).bind = x.bind := by simp [Hall.retire]
@[simp] theorem Hall.retire_lastCtx (x : Hall) (n : Nat) (t c y : Bool) : (x.retire n t c y).lastCtx = x.lastCtx := by simp [Hall.retire]
@[simp] theorem Hall.retire_bound (x : Hall) (n : Nat) (t c y : Bool) : (x.retire n t c y).bound = x.bound := by simp [Hall.retire]
@[simp] theorem Hall.retire_held (x : Hall) (n : Nat) (t c y : Bool) : (x.retire n t c y).held = x.held := by simp [Hall.retire]
@[simp] theorem Hall.retire_pri (x : Hall) (n : Nat) (t c y : Bool) : (x.retire n t c y).pri = x.pri := by simp [Hall.retire]
@[simp] theorem Hall.retire_exiting (x : Hall) (n : Nat) (t c y : Bool) : (x.retire n t c y).exiting = x.exiting := by simp [Hall.retire]
@[simp] theorem Hall.retire_hold (x : Hall) (n : Nat) (t c y : Bool) : (x.retire n t c y).hold = x.hold := by simp [Hall.retire]
@[simp] theorem Hall.retire_c (x : Hall) (n : Nat) (t c y : Bool) : (x.retire n t c y).c = x.c := by simp [Hall.retire]
@[simp] theorem Hall.retire_a (x : Hall) (n : Nat) (t c y : Bool) : (x.retire n t c y).a = x.a := by simp [Hall.retire]
@[simp] theorem Hall.retire_ls (x : Hall) (n : Nat) (t c y : Bool) : (x.retire n t c y).ls = x.ls := by simp [Hall.retire]
@[simp] theorem Hall.retire_le (x : Hall) (n : Nat) (t c y : Bool) : (x.retire n t c y).le = x.le := by simp [Hall.retire]
@[simp] theorem Hall.retire_pend (x : Hall) (n : Nat) (t c y : Bool) : (x.retire n t c y).pend = x.pend := by simp [Hall.retire]
@[simp] theorem Hall.retire_fresh (x : Hall) (n : Nat) (t c y : Bool) : (x.retire n t c y).fresh = x.fresh := by simp [Hall.retire]
@[simp] theorem Hall.retire_trap (x : Hall) (n : Nat) (t c y : Bool) : (x.retire n t c y).trap = x.trap := by simp [Hall.retire]
@[simp] theorem Hall.retire_wdogPeriod (x : Hall) (n : Nat) (t c y : Bool) : (x.retire n t c y).wdogPeriod = x.wdogPeriod := by simp [Hall.retire]
@[simp] theorem Hall.retire_wdogFired (x : Hall) (n : Nat) (t c y : Bool) : (x.retire n t c y).wdogFired = x.wdogFired := by simp [Hall.retire]
@[simp] theorem Hall.retire_split (x : Hall) (n : Nat) (t c y : Bool) : (x.retire n t c y).split = x.split := by simp [Hall.retire]
@[simp] theorem Hall.retire_scratch (x : Hall) (n : Nat) (t c y : Bool) : (x.retire n t c y).scratch = x.scratch := by simp [Hall.retire]
@[simp] theorem Hall.retire_full (x : Hall) (n : Nat) (t c y : Bool) : (x.retire n t c y).full = x.full := by simp [Hall.retire]
@[simp] theorem Hall.retire_bad (x : Hall) (n : Nat) (t c y : Bool) : (x.retire n t c y).bad = x.bad := by simp [Hall.retire]
@[simp] theorem Hall.retire_l1 (x : Hall) (n : Nat) (t c y : Bool) : (x.retire n t c y).l1 = x.l1 := by simp [Hall.retire]
@[simp] theorem Hall.retire_tlb (x : Hall) (n : Nat) (t c y : Bool) : (x.retire n t c y).tlb = x.tlb := by simp [Hall.retire]
@[simp] theorem Hall.retire_facets (x : Hall) (n : Nat) (t c y : Bool) : (x.retire n t c y).facets = x.facets := by simp [Hall.retire]
@[simp] theorem Hall.retire_mx (x : Hall) (n : Nat) (t c y : Bool) : (x.retire n t c y).mx = x.mx := by simp [Hall.retire]
@[simp] theorem Hall.retire_units (x : Hall) (n : Nat) (t c y : Bool) : (x.retire n t c y).units = x.units := by simp [Hall.retire]
@[simp] theorem Hall.retire_seqIns (x : Hall) (n : Nat) (t c y : Bool) : (x.retire n t c y).seqIns = x.seqIns := by simp [Hall.retire]
@[simp] theorem Hall.retire_seqOuts (x : Hall) (n : Nat) (t c y : Bool) : (x.retire n t c y).seqOuts = x.seqOuts := by simp [Hall.retire]
@[simp] theorem Hall.retire_seqCi (x : Hall) (n : Nat) (t c y : Bool) : (x.retire n t c y).seqCi = x.seqCi := by simp [Hall.retire]
@[simp] theorem Hall.retire_links (x : Hall) (n : Nat) (t c y : Bool) : (x.retire n t c y).links = x.links := by simp [Hall.retire]
@[simp] theorem Hall.retire_merges (x : Hall) (n : Nat) (t c y : Bool) : (x.retire n t c y).merges = x.merges := by simp [Hall.retire]
@[simp] theorem Hall.retire_ctlOut (x : Hall) (n : Nat) (t c y : Bool) : (x.retire n t c y).ctlOut = x.ctlOut := by simp [Hall.retire]
@[simp] theorem Hall.retire_stores (x : Hall) (n : Nat) (t c y : Bool) : (x.retire n t c y).stores = x.stores := by simp [Hall.retire]
@[simp] theorem Hall.retire_fetch (x : Hall) (n : Nat) (t c y : Bool) : (x.retire n t c y).fetch = x.fetch := by simp [Hall.retire]
@[simp] theorem Hall.retire_copies (x : Hall) (n : Nat) (t c y : Bool) : (x.retire n t c y).copies = x.copies := by simp [Hall.retire]
@[simp] theorem Hall.retire_chains (x : Hall) (n : Nat) (t c y : Bool) : (x.retire n t c y).chains = x.chains := by simp [Hall.retire]
@[simp] theorem Hall.retire_outq (x : Hall) (n : Nat) (t c y : Bool) : (x.retire n t c y).outq = x.outq := by simp [Hall.retire]
@[simp] theorem Hall.retire_feq (x : Hall) (n : Nat) (t c y : Bool) : (x.retire n t c y).feq = x.feq := by simp [Hall.retire]
@[simp] theorem Hall.retire_posted (x : Hall) (n : Nat) (t c y : Bool) : (x.retire n t c y).posted = x.posted := by simp [Hall.retire]
@[simp] theorem Hall.retire_fenceRel (x : Hall) (n : Nat) (t c y : Bool) : (x.retire n t c y).fenceRel = x.fenceRel := by simp [Hall.retire]
@[simp] theorem Hall.retire_seen (x : Hall) (n : Nat) (t c y : Bool) : (x.retire n t c y).seen = x.seen := by simp [Hall.retire]
@[simp] theorem Hall.retire_horizon (x : Hall) (n : Nat) (t c y : Bool) : (x.retire n t c y).horizon = x.horizon := by simp [Hall.retire]
@[simp] theorem Hall.retire_streamCase (x : Hall) (n : Nat) (t c y : Bool) : (x.retire n t c y).streamCase = x.streamCase := by simp [Hall.retire]

@[simp] theorem Hall.retire_pc (x : Hall) (n : Nat) (t c y : Bool) :
    (x.retire n t c y).pc = (loopBack x.lc x.ls.toNat x.le.toNat x.pc n t).1 := by
  simp only [Hall.retire, Hall.passAu]
  repeat' split
  all_goals rfl
@[simp] theorem Hall.retire_lc (x : Hall) (n : Nat) (t c y : Bool) :
    (x.retire n t c y).lc = (loopBack x.lc x.ls.toNat x.le.toNat x.pc n t).2 := by
  simp only [Hall.retire, Hall.passAu]
  repeat' split
  all_goals rfl
@[simp] theorem Hall.retire_wdogCount (x : Hall) (n : Nat) (t c y : Bool) : (x.retire n t c y).wdogCount = 0 := by
  simp only [Hall.retire, Hall.passAu]
  repeat' split
  all_goals rfl
@[simp] theorem Hall.retire_wait (x : Hall) (n : Nat) (t c y : Bool) : (x.retire n t c y).wait = .none := by
  simp only [Hall.retire, Hall.passAu]
  repeat' split
  all_goals rfl
@[simp] theorem Hall.retire_atYield (x : Hall) (n : Nat) (t c y : Bool) : (x.retire n t c y).atYield = y := by
  simp only [Hall.retire, Hall.passAu]
  repeat' split
  all_goals rfl

end Sys2Proof.Machine
end

