-- ==== Sys2Proof/Laws/Sequencer.lean ====
section
/-! SUPPORT. What the compute unit's turn does to a word, said once: the word completes, traps or waits as its effect
says (spec R181 to R184, R189). -/

namespace Sys2Proof.Machine

/-! ## Registers as bits -/

theorem getLsbD_regBits (rs : List Reg) (i : Nat) :
    (regBits rs).getLsbD i = rs.any (fun r => r ≠ 0 && r.val == i) := by
  induction rs with
  | nil => simp [regBits]
  | cons r rs ih =>
    rw [regBits, BitVec.getLsbD_or, ih, List.any_cons]
    congr 1
    by_cases h : r = 0
    · simp [h]
    · have hr : r.val < 64 := r.isLt
      rw [if_neg h, BitVec.getLsbD_ofNat, Nat.testBit_two_pow]
      by_cases e : r.val = i
      · subst e; simp [h, hr]
      · simp [e]

theorem and_regBits_eq_zero {p : BitVec 64} {rs : List Reg} (h : ∀ r ∈ rs, r ≠ 0 → p.getLsbD r.val = false) :
    p &&& regBits rs = 0 := by
  apply BitVec.eq_of_getLsbD_eq
  intro i _
  rw [BitVec.getLsbD_and, getLsbD_regBits]
  by_cases hp : p.getLsbD i = true
  · simp only [hp, Bool.true_and]
    rw [show (0 : BitVec 64).getLsbD i = false by simp, List.any_eq_false]
    intro r hr
    simp only [decide_not, Bool.and_eq_true, Bool.not_eq_true', decide_eq_false_iff_not, beq_iff_eq, not_and]
    intro hn e
    subst e
    exact absurd (h r hr hn) (by simp [hp])
  · simp [Bool.eq_false_of_not_eq_true hp]

theorem Hall.Settled.pend {x : Hall} {rs srcs : List Reg} (h : x.Settled rs) (hs : srcs ⊆ rs) :
    x.pend &&& regBits srcs = 0 :=
  and_regBits_eq_zero fun r hr hn => (h r (hs hr) hn).1

theorem Hall.Settled.fresh {x : Hall} {rs srcs : List Reg} (h : x.Settled rs) (hs : srcs ⊆ rs) :
    x.fresh &&& regBits srcs = 0 :=
  and_regBits_eq_zero fun r hr hn => (h r (hs hr) hn).2

/-- A word whose registers are settled starts (R182). -/
theorem cStart_settled {α : Type} {s : State} {h : Nat} {rs srcs dst : List Reg} (k : State → Res α)
    (hr : (s.hall h).Settled rs) (hs : srcs ⊆ rs) (hd : dst ⊆ rs) : cStart s h srcs dst k = k s := by
  have e : ∀ p : BitVec 64, p &&& regBits srcs = 0 → p &&& regBits dst = 0 →
      p &&& (regBits srcs ||| regBits dst) = 0 := by
    intro p h1 h2
    apply BitVec.eq_of_getLsbD_eq
    intro i hi
    have g1 := congrArg (·.getLsbD i) h1
    have g2 := congrArg (·.getLsbD i) h2
    simp only [BitVec.getLsbD_and, BitVec.getLsbD_or] at g1 g2 ⊢
    rw [show (0 : BitVec 64).getLsbD i = false by simp] at *
    cases hp : p.getLsbD i <;> simp_all
  simp only [cStart, e _ (hr.pend hs) (hr.pend hd), e _ (hr.fresh hs) (hr.fresh hd), ne_eq, not_true_eq_false,
    if_false, if_true]

/-- A pending register among the sources or the destination holds the word back (R182). -/
theorem cStart_pending {α : Type} {s : State} {h : Nat} {srcs dst : List Reg} (k : State → Res α)
    (hp : (s.hall h).pend &&& (regBits srcs ||| regBits dst) ≠ 0) : cStart s h srcs dst k = .wait s := by
  unfold cStart
  exact if_pos hp

/-! ## The compute unit's turn -/

theorem settle_ok (h : Nat) (hd : SHdr) (hm : hd.mark = .c) (pc : Nat) (t : State) (f : View → View)
    (hpc : (t.hall h).pc = pc) : settle h hd false f pc (.ok none t) = t.stepped h hd := by
  subst hpc
  simp [settle, hm, State.stepped, State.updHall, Hall.stepped]

/-- A C-marked word of any register word's shape: its effect decides. -/
theorem plainWord_at {s : State} {h : Nat} {hd : SHdr} {rs srcs dst : List Reg} {f : View → View}
    {eff : Nat → State → Res (Option Nat)} (w : AtWord s h hd rs) (hs : srcs ⊆ rs) (hdst : dst ⊆ rs) :
    plainWord hd srcs dst f eff s = settle h hd false f (s.hall h).pc (eff h s) := by
  unfold plainWord
  rw [w.cur]
  simp only [computeWord]
  rw [if_pos ⟨by rw [w.mark]; decide, w.guards⟩, cStart_settled _ w.regs hs hdst]

/-- A C word whose effect succeeds retires in the state the effect made. -/
theorem cWord_ok {s t : State} {h : Nat} {hd : SHdr} {rs srcs dst : List Reg} {eff : Nat → State → Res Unit}
    (w : AtWord s h hd rs) (hs : srcs ⊆ rs) (hdst : dst ⊆ rs) (he : eff h s = .ok () t)
    (hpc : (t.hall h).pc = (s.hall h).pc) : cWord hd srcs dst eff s = t.stepped h hd := by
  unfold cWord
  rw [plainWord_at w hs hdst, he]
  exact settle_ok h hd w.mark _ _ _ hpc

/-- A C word whose effect faults traps at itself. -/
theorem cWord_trap {s t : State} {h : Nat} {hd : SHdr} {rs srcs dst : List Reg} {eff : Nat → State → Res Unit}
    {c : Cause} {i : Word} (w : AtWord s h hd rs) (hs : srcs ⊆ rs) (hdst : dst ⊆ rs) (he : eff h s = .trap c i t) :
    cWord hd srcs dst eff s = raise t h c i (s.hall h).pc := by
  unfold cWord
  rw [plainWord_at w hs hdst, he]
  rfl

/-- A C word whose effect waits stays where it is. -/
theorem cWord_wait {s t : State} {h : Nat} {hd : SHdr} {rs srcs dst : List Reg} {eff : Nat → State → Res Unit}
    (w : AtWord s h hd rs) (hs : srcs ⊆ rs) (hdst : dst ⊆ rs) (he : eff h s = .wait t) :
    cWord hd srcs dst eff s = t := by
  unfold cWord
  rw [plainWord_at w hs hdst, he]
  rfl

/-- A word that writes one register from its view, under any mark (R181, R184). -/
theorem aluWord_settled {s : State} {h : Nat} {hd : SHdr} {a : Reg} {rs srcs : List Reg} (f : View → Word)
    (hc : s.cur = .seq h) (hr : (s.hall h).Settled rs) (hs : srcs ⊆ rs) (ha : a ∈ rs) :
    aluWord hd a srcs f s = s.updHall h (Hall.wrote hd fun v => v.setReg a (f v)) := by
  unfold aluWord plainWord
  rw [hc]
  simp only [computeWord]
  rw [cStart_settled _ hr hs (by simpa using ha)]
  by_cases hm : hd.mark ≠ .a ∧ holds hd (s.hall h).c = true
  · rw [if_pos hm]
    simp only [settle, State.wc, State.updHall_updHall]
    simp only [State.updHall, Hall.wrote, Hall.stepped, if_pos hm]
    by_cases hA : hd.mark ≠ .c ∧ holds hd (s.hall h).a = true <;> simp [hA]
  · rw [if_neg hm]
    simp only [settle]
    simp only [State.updHall, Hall.wrote, Hall.stepped, if_neg hm]
    by_cases hA : hd.mark ≠ .c ∧ holds hd (s.hall h).a = true <;> simp [hA]

end Sys2Proof.Machine
end

