-- ==== Sys2Proof/Tests/Slice0.lean ====
section
/-! SUPPORT. Tests: ill-formed terms that the well-formedness check refuses, words of the spec and the instructions they
stand for, single steps on small states, and for every statement with hypotheses a state that meets them. -/

set_option maxRecDepth 20000
set_option Elab.async false

namespace Sys2Proof.Tests

open Sys2Proof Sys2Proof.Machine

/-! ## Ill-formed terms -/

def p0 : Guard := ⟨false, 0⟩
def hd : SHdr := ⟨p0, p0, .c, .dflt, false, 0⟩
def fh : FHdr := ⟨p0, p0, 0, none, 0, 0, 0⟩

theorem smoke_guard : (Instr.add { hd with ga := ⟨true, 0⟩ } 1 2 3).defect = some .guard := by decide
theorem smoke_mark : (Instr.exit { hd with mark := .b }).defect = some .mark := by decide
theorem smoke_hint : (Instr.add { hd with ch := .keep } 1 2 3).defect = some .hint := by decide
theorem smoke_addressYW : (Instr.add { hd with mark := .a, y := true } 1 2 3).defect = some .addressYW := by decide
theorem smoke_limit : (Instr.loop { hd with mark := .b } 3 0).defect = some .limit := by decide
theorem smoke_reserved : (Instr.ld hd 1 2 .d true 0).defect = some .reserved := by decide
theorem smoke_unused : (Instr.mxz 1 true false).defect = some .unused := by decide
theorem smoke_sysReg : (Instr.sysw hd 1 0 .hallId).defect = some .sysReg := by decide
theorem smoke_tagBit : (Instr.mov { fh with tag := some (1, 0) } (.e 0) (.e 1) 0).defect = some .tagBit := by decide
theorem smoke_predUpdate : (Instr.mov { fh with po := 1 } (.e 0) (.e 1) 0).defect = some .predUpdate := by decide
theorem smoke_operand : (Instr.mov fh .imm (.e 1) 0).defect = some .operand := by decide
theorem smoke_inBit : (Instr.mov fh (.e 0) (.deq 1) 0).defect = some .inBit := by decide
theorem smoke_outBit : (Instr.mov fh (.push 2) (.e 0) 0).defect = some .outBit := by decide
theorem smoke_twoBanks : (Instr.iadd fh (.bank 0) (.bank 1) (.e 0) 0).defect = some .twoBanks := by decide
theorem smoke_immediate : (Instr.iadd fh (.e 0) (.e 1) (.e 2) 5).defect = some .immediate := by decide
theorem smoke_binding : (Instr.isect 0 0 0 2).defect = some .binding := by decide

/-! ## Words of the spec -/

/-- spec/04: the assembly examples of R96 and the F word of R81. -/
theorem test_words_format :
    decode 0x0120401051800000 = .ok (.add { hd with ga := ⟨false, 2⟩, mark := .a } 4 5 6)
    ∧ decode 0x2700000000000000 = .ok (.nop hd)
    ∧ decode 0x3000481C57FFFFF8 = .ok (.ld { hd with mark := .a, ch := .stream } 7 5 .h true (-8))
    ∧ (decode 0x831B368C10912000).isOk = true := by decide

/-- spec/08: one statement of each kind. -/
theorem test_words_sequencer :
    decode 0x1500000431000002 = .ok (.cmp hd 1 3 4 .set .lt)
    ∧ decode 0x2100800C00000004 = .ok (.movi { hd with mark := .b } 3 4)
    ∧ decode 0x2C00800C00000003 = .ok (.loop { hd with mark := .b } 3 3)
    ∧ decode 0x2400000051000080 = .ok (.syswFacetSeed hd 5 4)
    ∧ decode 0x5B00002090000000 = .ok (.pusht hd 8 9 0 0 0 0)
    ∧ decode 0x5D00000000000001 = .ok (.ctltSend hd 1)
    ∧ decode 0x5D00000000000002 = .ok (.ctltConsume hd 0)
    ∧ decode 0x2D00000000000000 = .ok (.yield hd) := by decide

/-- spec/10: loads, stores, indexed loads, PMOV. -/
theorem test_words_memory :
    decode 0x3000002CAC000000 = .ok (.ld hd 11 10 .d false 0)
    ∧ decode 0x3100001C28000010 = .ok (.st hd 7 2 .w 16)
    ∧ decode 0x3200001051800220 = .ok (.ldx hd 4 5 6 .w false 2)
    ∧ decode 0x6A000024A0000001 = .ok (.pmov hd 9 10 true) := by decide

/-- spec/14: full/empty accesses, atomics, RED, FENCE, BAR, GBAR, BEAT. -/
theorem test_words_synchronisation :
    decode 0x3500002018000000 = .ok (.lde hd 8 1 false 0)
    ∧ decode 0x360000242C000008 = .ok (.ste hd 9 2 true 8)
    ∧ decode 0x4800001461C002D0 = .ok (.amincw hd 5 6 7 ⟨false, .ar, .gallery⟩)
    ∧ decode 0x49000028B30D0F00 = .ok (.amfab hd 10 11 12 13 3 ⟨true, .relaxed, .facet⟩)
    ∧ decode 0x4A000000414002A1 = .ok (.red hd 4 5 ⟨false, .rel, .package⟩ .fadd)
    ∧ decode 0x5000000000000090 = .ok (.fence hd .rel .gallery)
    ∧ decode 0x5100000000000000 = .ok (.bar hd false) ∧ decode 0x5200003000000000 = .ok (.gbar hd 12)
    ∧ decode 0x5500000000000000 = .ok (.beat hd) := by decide

/-- spec/06: launch words. -/
theorem test_words_launch :
    decode 0x5800000070000001 = .ok (.spawn hd 7 true) ∧ decode 0x5900002430000000 = .ok (.cfgld hd 9 3)
    ∧ decode 0x5300000000000000 = .ok (.trig hd) ∧ decode 0x2E00000000000000 = .ok (.exit hd) := by decide

/-- spec/11: copies, chains, array operations, tensor entries. -/
theorem test_words_copies :
    decode 0x6000005155970000 = .ok (.cpy hd 20 21 22 23) ∧ decode 0x6100001C80000002 = .ok (.cpyc hd 7 8 2)
    ∧ decode 0x64000024A2CC0000 = .ok (.acpy hd 9 10 11 12) ∧ decode 0x6B00000C41461C00 = .ok (.tdef hd 3 4 5 6 7) := by
  decide

/-- spec/12: matrix words. -/
theorem test_words_matrix :
    decode 0x7001104000020000 = .ok (.mma 0 false false false true 0x10 0x40 2 false false)
    ∧ decode 0x702D104000040002 = .ok (.mma 2 true true false true 0x10 0x40 4 false true)
    ∧ decode 0x7300000021000000 = .ok (.mxrd 0 0x21 0 false) ∧ decode 0x7500000021000300 = .ok (.mxepi 0 0x21 3 false)
    ∧ decode 0x7200000000000001 = .ok (.mxz 0 true false) := by decide

/-- spec/09: the CVT example of R234. -/
theorem test_words_facet :
    decode 0xA000101450000020 =
      .ok (.cvt { fh with ins := 1, outs := 2 } (.push 1) (.deq 0) (.e 0) .rn .e4m3 false false) := by decide

/-- spec/13: the SCAN, ISECT, GATH and RDCE of the worked example. -/
theorem test_words_prism :
    decode 0xC000031308000000 = .ok (.scan 0 0 0x31 0x30 true) ∧ decode 0xC322000000000000 = .ok (.isect 0 2 0 2)
    ∧ decode 0xCB00032000000000 = .ok (.gath 0 0 0 0x32 false false)
    ∧ decode 0xC600000200000000 = .ok (.rdce 0 0 0 .fp32) := by decide

/-- spec/05, spec/16, spec/17: session and system words. -/
theorem test_words_system :
    decode 0xE0000028B30D3800 = .ok (.sdec hd 10 11 12 13 14) ∧ decode 0xE2000000E3C00000 = .ok (.useinc hd 14 15)
    ∧ decode 0xE3000024E4110000 = .ok (.usesig hd 9 14 16 17) ∧ decode 0x2F00000000000005 = .ok (.trap hd 5)
    ∧ decode 0xF600000000000003 = .ok (.bkpt hd 3) ∧ decode 0xF000000000000002 = .ok (.eretEsc hd)
    ∧ decode 0xF500002410000000 = .ok (.wait hd 9 1 0) := by decide

theorem test_words_privileged :
    decode 0xF1000024A2C00001 = .ok (.ctxsvTask hd 9 10 11) ∧ decode 0xF2000024A0000002 = .ok (.ctxldKill hd 9 10)
    ∧ decode 0xF3000024A2CC0001 = .ok (.logctlRec hd 9 10 11 12) ∧ decode 0xF300002400000003 = .ok (.logctlFlush hd 9)
    ∧ decode 0xF4000000A2CC0000 = .ok (.tlbi hd 10 11 12 false) ∧ decode 0xF700000000000000 = .ok (.halt hd) := by decide

/-- R93: an unassigned opcode, a reserved guard, both ESC and NX of ERET, an empty slot. -/
theorem test_words_illegal :
    (decode 0x0800000000000000).isOk = true ∧ (decode 0x0108001051800000).isOk = false
    ∧ (decode 0xF000000000000003).isOk = false ∧ (decode 0).isOk = false ∧ (decode 0x6F00000000000000).isOk = false := by
  decide

/-- spec/04: `?p2 ADD.a s4, s5, s6` is stored as the bytes 00 00 80 51 10 40 20 01. -/
theorem test_bytes_add : decodeBytes [0x00, 0x00, 0x80, 0x51, 0x10, 0x40, 0x20, 0x01] =
    .ok (.add { hd with ga := ⟨false, 2⟩, mark := .a } 4 5 6, []) := by decide

/-! ## Small states -/

/-- A kernel whose code section holds eight NOPs. -/
def kern : Kernel := ⟨false, false, false, 8, 1, 1, 1024, [⟨1, 0x3F, 0, List.replicate 8 0x2700000000000000⟩], [], []⟩
def tid : TaskId := ⟨1, 0x1000⟩
def bnd : Binding := ⟨tid, 0, 0, 0x0101, kern⟩
def mir : Mirror := ⟨.off, 0, 0, 0, 0, [], [], [], [], 0⟩
def ctx : Ctx := { (default : Ctx) with id := 1, vf := 1, slot := 1, halls := 0x3F, kd := 1, mirror := mir }
/-- The system context. -/
def sysCtx : Ctx := { ctx with vf := 0 }
def task : Task := { (default : Task) with id := tid, halls := 1, state := .running, granted := [0], trig := [false]
                                           retired := [false] }

/-- Scalar registers: s1 … as listed, the others 0. -/
def view (l : List Word) : View := ⟨Vector.ofFn fun i => if i.val = 0 then 0 else l.getD (i.val - 1) 0, 0⟩
/-- A running hall whose C view holds the listed values. -/
def hall (l : List Word) : Hall := { Hall.reset with res := .running, bind := some bnd, bound := true, c := view l }
/-- The package with hall 0 as given, its context, its task and a fused minimum FWSVN. -/
def st (cur : Agent) (x : Hall) : State :=
  { State.reset with phase := .running, cur := cur, halls := [(0, x)], ctxs := [(1, ctx)], tasks := [task], fuseSvn := 0 }
/-- The same with the hall's context the system context. -/
def sys (x : Hall) : State := { st (.seq 0) x with ctxs := [(1, sysCtx)] }

/-- A step's next state, observed. -/
def after {α : Type} (o : Host.Outcome State Fault Refusal) (f : State → α) : Option α :=
  match o with | .next t => some (f t) | _ => none
def c1 (t : State) : Word := (t.hall 0).c.reg 1
def at0 (l : List Word) : State := st (.seq 0) (hall l)

/-! ## Single steps: sequencer words (expected values from spec/08's tables) -/

theorem test_add_wraps : after (exec (.add hd 1 2 3) (at0 [0, 0xFFFFFFFFFFFFFFFF, 2])) c1 = some 1 := by decide
theorem test_sub_self : after (exec (.sub hd 1 1 3) (at0 [5, 0, 7])) c1 = some 0xFFFFFFFFFFFFFFFE := by decide
theorem test_mulh_signed : after (exec (.mulh hd 1 2 3 false) (at0 [0, 0xFFFFFFFFFFFFFFFF, 2])) c1 = some 0xFFFFFFFFFFFFFFFF := by
  decide
theorem test_mulh_unsigned : after (exec (.mulh hd 1 2 3 true) (at0 [0, 0xFFFFFFFFFFFFFFFF, 2])) c1 = some 1 := by decide
theorem test_div_by_zero : after (exec (.div hd 1 2 3 false) (at0 [0, 7, 0])) c1 = some 0xFFFFFFFFFFFFFFFF := by decide
theorem test_div_most_negative :
    after (exec (.div hd 1 2 3 false) (at0 [0, 0x8000000000000000, 0xFFFFFFFFFFFFFFFF])) c1 = some 0x8000000000000000 := by decide
theorem test_rem_sign : after (exec (.rem hd 1 2 3 false) (at0 [0, 0xFFFFFFFFFFFFFFF9, 2])) c1 = some 0xFFFFFFFFFFFFFFFF := by decide
theorem test_rem_by_zero : after (exec (.rem hd 1 2 3 true) (at0 [0, 7, 0])) c1 = some 7 := by decide
theorem test_shl_64 : after (exec (.shl hd 1 2 3) (at0 [0, 1, 64])) c1 = some 0 := by decide
theorem test_sra_64 : after (exec (.sra hd 1 2 3) (at0 [0, 0x8000000000000000, 64])) c1 = some 0xFFFFFFFFFFFFFFFF := by decide
theorem test_clz : after (exec (.clz hd 1 2) (at0 [0, 1])) c1 = some 63 := by decide
theorem test_bfx_past_63 : after (exec (.bfx hd 1 2 3 false) (at0 [0, 0xF000000000000000, 0x073C])) c1 = some 0xF := by decide
theorem test_bfi : after (exec (.bfi hd 1 2 3 4) (at0 [0, 5, 0x0308, 0xFFFF])) c1 = some 0xF5FF := by decide
theorem test_lea_x32 : after (exec (.lea hd 1 2 3 true 2) (at0 [0, 0x100, 0xFFFFFFFF])) c1 = some 0xFC := by decide
theorem test_cmp_lt : after (exec (.cmp hd 1 3 4 .set .lt) (at0 [0, 0, 0xFFFFFFFFFFFFFFFF, 0])) (fun t => (t.hall 0).c.pred 1)
    = some true := by decide
theorem test_cmpi : after (exec (.cmpi hd 1 2 (-1)) (at0 [0, 0])) c1 = some 1 := by decide
theorem test_movhi : after (exec (.movhi hd 1 1) (at0 [5])) c1 = some 0x400000005 := by decide
theorem test_s0 : after (exec (.addi hd 0 0 7) (at0 [])) (fun t => (t.hall 0).c.reg 0) = some 0 := by decide
theorem test_b_mark_both_views : after (exec (.movi { hd with mark := .b } 3 4) (at0 []))
    (fun t => ((t.hall 0).c.reg 3, (t.hall 0).a.reg 3)) = some (4, 4) := by decide
theorem test_br : after (exec (.br { hd with mark := .b } 3) (at0 [])) (fun t => (t.hall 0).pc) = some 24 := by decide
theorem test_loop_zero : after (exec (.loop { hd with mark := .b } 3 3) (at0 [])) (fun t => ((t.hall 0).pc, (t.hall 0).lc))
    = some (32, 0) := by decide
theorem test_loop_back : (({ hall [] with pc := 24, lc := 2, ls := 8, le := 24 } : Hall).retire 32 false false false).pc = 8 := by
  decide
theorem test_jmp_misaligned : after (exec (.jmp { hd with mark := .b } 1 0) (at0 [4])) (fun t => (t.hall 0).held) = some true := by
  decide
theorem test_trap_local : after (exec (.trap hd 5) (st (.seq 0)
    { hall [] with trap := { TrapRegs.reset with vec := 0x11 } }))
    (fun t => ((t.hall 0).pc, (t.hall 0).trap.cause, (t.hall 0).trap.info, (t.hall 0).trap.act)) = some (16, 0x20, 5, true) := by decide
theorem test_eret : after (exec (.eret hd true) (st (.seq 0)
    { hall [] with trap := { TrapRegs.reset with act := true, pc := 8 } }))
    (fun t => ((t.hall 0).pc, (t.hall 0).trap.act)) = some (16, false) := by decide
theorem test_facet_seed_zero : after (exec (.syswFacetSeed hd 1 2) (at0 [0, 8])) (fun t => ((t.hall 0).facet 8).seed) = some 1 := by
  decide
theorem test_sysw_priv : after (exec (.sysw hd 1 0 .ctxFpol) (at0 [2])) (fun t => (t.hall 0).held) = some true := by decide

/-! ## Scratch, full/empty, atomics (spec/10, spec/14) -/

def own : Word := 0x00FE000000000000
theorem test_store_bytes : after (exec (.st hd 1 2 .h 2) (at0 [0x1234, own])) (fun t => (t.hall 0).scratch) =
    some [(2, 0x34), (3, 0x12)] := by decide
theorem test_load_sign : after (exec (.ld hd 1 2 .b true 3) (st (.seq 0) { hall [0, own] with scratch := [(3, 0x80)], full := [0] })) c1
    = some 0xFFFFFFFFFFFFFF80 := by decide
theorem test_lde_empties : after (exec (.lde hd 1 2 false 0) (st (.seq 0) { hall [0, own] with scratch := [(0, 7)], full := [0] }))
    (fun t => (c1 t, (t.hall 0).full, (t.hall 0).scratch)) = some (7, [], [(0, 7)]) := by decide
theorem test_lde_waits : after (exec (.lde hd 1 2 false 0) (at0 [0, own])) (fun t => ((t.hall 0).pc, (t.hall 0).feq.length))
    = some (0, 1) := by decide
theorem test_stf : after (exec (.stf hd 1 2 true 0) (at0 [9, own])) (fun t => ((t.hall 0).full, (t.hall 0).scratch))
    = some ([0, 1], [(0, 9)]) := by decide
def word4 (v : Byte) (l : List Word) : State := st (.seq 0) { hall l with scratch := [(0, v)] }
theorem test_amincw_bound : after (exec (.amincw hd 1 2 3 ⟨false, .relaxed, .facet⟩) (word4 5 [0, own, 5]))
    (fun t => (c1 t, (t.hall 0).scratch)) = some (5, []) := by decide
theorem test_amfab_refuses : after (exec (.amfab hd 1 2 3 4 3 ⟨false, .relaxed, .facet⟩) (word4 5 [0, own, 6, 10]))
    (fun t => (c1 t, (t.hall 0).scratch, (t.hall 0).c.pred 3)) = some (5, [(0, 5)], false) := by decide
theorem test_amfab_adds : after (exec (.amfab hd 1 2 3 4 3 ⟨false, .relaxed, .facet⟩) (word4 5 [0, own, 5, 10]))
    (fun t => (c1 t, (t.hall 0).scratch, (t.hall 0).c.pred 3)) = some (5, [(0, 10)], true) := by decide
theorem test_red_posted : after (exec (.red hd 2 3 ⟨false, .relaxed, .facet⟩ .add) (word4 5 [0, own, 5]))
    (fun t => ((t.hall 0).posted.length, (t.hall 0).scratch)) = some (1, [(0, 5)]) := by decide

/-! ## Worked examples of the spec -/

/-- spec/10: hall 14 names offset 0x1_2340 of hall 16 through its gallery window. -/
theorem test_gallery_window : (match resolve { at0 [] with halls := [(14, hall []), (16, hall [])] } 14 .seq 0x00FE000100A12340 4 with
    | .ok (.scratch t off) _ => some (t, off) | _ => none) = some (16, 0x12340) := by decide
/-- spec/16: E0 of the gather that faults. -/
theorem test_event_e0 : (⟨3, 1, 14, 0, 2, 0, 0, 37, 0, 0, 0, []⟩ : Event).e0 = 0x0313808000000025 := by decide
/-- spec/15: the first record of the two increments. -/
theorem test_log_record : (⟨0x1001, srcSeq 12, 2, 0, 0x0000200000300080, 1⟩ : LogEv).words 0 0
    = [0, 0x1001304700000000, 0x2000200000300080, 1] := by decide
/-- spec/15: the slice of the counter's line. -/
theorem test_slice : sliceOf 0x1200000080 = 1 := by decide
/-- spec/02: element (5, 3) of the swizzled 64 × 64 BF16 matrix. -/
theorem test_swizzle : (⟨0x9000200000100000, 0x0053008000000000, 0x00000000003F003F, 2⟩ : Tensor).bitAddr ⟨5, 3, 0, 0⟩
    = 8 * 0x00002000001001BA := by decide

/-- spec/07: the merge of west track 0 and south track 1 into `i0` at (3, 1). -/
theorem test_route : routeOf 1 0x316429E400000000 = ⟨1, 3, 1, 3, 0, 4, 0, true, 2, 1, 0xE4, 0, false, false⟩ := by decide

/-! ## States that meet the statements' hypotheses

Each theorem names a statement of Obligations.lean and gives a state and operands for its hypotheses, clause by clause
at a boundary where clauses divide a range. -/

theorem at_word (x : Hall) (c : Agent) (hc : c = .seq 0) (hp : x.pend = 0) (hf : x.fresh = 0) (rs : List Reg) :
    AtWord (st c x) 0 hd rs where
  cur := hc
  mark := rfl
  guards := rfl
  regs := by intro r _ _; show x.pend.getLsbD _ = false ∧ x.fresh.getLsbD _ = false; rw [hp, hf]; simp

theorem at_control (x : Hall) (hp : x.pend = 0) (hf : x.fresh = 0) (rs : List Reg) :
    AtControl (st (.seq 0) x) 0 { hd with mark := .b } rs where
  cur := rfl
  mark := rfl
  guards := rfl
  regs := by intro r _ _; show x.pend.getLsbD _ = false ∧ x.fresh.getLsbD _ = false; rw [hp, hf]; simp

theorem settled (x : Hall) (hp : x.pend = 0) (hf : x.fresh = 0) (rs : List Reg) : x.Settled rs := by
  intro r _ _; rw [hp, hf]; simp

theorem memory_form (c : Agent) (x : Hall) (h : Memory.wf x.scratch = true) : (st c x).MemoryForm := by
  refine ⟨rfl, rfl, fun g => ?_⟩
  cases g with
  | zero => exact h
  | succ n => simp [st, State.hall, mget, Hall.reset]; rfl

theorem word_at (s : State) (x : Hall) (hc : s.cur = .seq 0) (hx : s.halls = [(0, x)]) (hp : x.pend = 0) (hf : x.fresh = 0)
    (rs : List Reg) : AtWord s 0 hd rs where
  cur := hc
  mark := rfl
  guards := rfl
  regs := by
    have e : s.hall 0 = x := by unfold State.hall; rw [hx]; rfl
    intro r _ _; rw [e, hp, hf]; simp

theorem mem_form (s : State) (x : Hall) (h1 : Memory.wf s.mem = true) (h2 : Memory.wf s.hostMem = true)
    (h3 : s.halls = [(0, x)]) (h4 : Memory.wf x.scratch = true) : s.MemoryForm := by
  refine ⟨h1, h2, fun g => ?_⟩
  unfold State.hall; rw [h3]
  cases g with
  | zero => exact h4
  | succ n => simp [mget, Hall.reset]; rfl

theorem no_arrivals (x : Hall) (h3 : x.facets = []) (n i : Nat) : lget (x.facet n).arrive i = none := by
  unfold Hall.facet; rw [h3]; simp only [mget, Facet.reset, lget]
  rcases i with _ | _ | _ | _ | _ | _ | _ | _ | _ | _ | _ | _ | _ | _ | _ | _ | i <;> rfl

theorem no_waiters (s : State) (h : Nat) (h1 : (s.hall h).feq = []) (h2 : (s.hall h).wait = .none) (h3 : (s.hall h).facets = [])
    (h4 : s.arrivals = []) : NoWaiters s h := ⟨h1, no_arrivals _ h3, h2, h4⟩

theorem own_scratch (x : Hall) (c : Agent) (o n : Nat) (h1 : x.bind = some bnd) (h2 : o + n ≤ x.size) (h3 : o % n = 0)
    (h4 : x.posted = []) (h5 : x.bad = []) (h6 : x.split = 8) : OwnScratch (st c x) 0 o n ctx where
  ctx := by show (st c x).ctx? ((x.ctx?).getD 0) = _; unfold Hall.ctx?; rw [h1]; rfl
  races := by decide +kernel
  inside := h2
  aligned := h3
  lens := by show x.lens = []; unfold Hall.lens; rw [h1]; rfl
  posted := h4
  sound := h5
  split := by show 0 < x.split ∧ x.split ≤ 48; omega

/-- Hall 0's request for the word at a scratch offset. -/
def waiter (op : FeOp) (off : Nat) : FeWaiter := ⟨0, op, off, 4, 0, 1, 0x00FE000000000000 + off, false, [], 0, 0, 10, false⟩

theorem full_words (x : Hall) (o n : Nat) (h : ∀ w ∈ List.range (o + n), o < 4 * w + 4 → 4 * w < o + n → w ∈ x.full) :
    FullWords x o n := fun w h1 h2 => h w (by simp only [List.mem_range]; omega) h1 h2

theorem empty_word (x : Hall) (h : x.full = []) : ¬ FullWords x 0 4 := fun f => by
  have := f 0 (by decide) (by decide); rw [h] at this; exact List.not_mem_nil this

/-- IntegerInstructionsComplete, ImmediatesAndBitFieldsComplete: settled registers. -/
theorem witness_IntegerInstructionsComplete : (at0 []).cur = .seq 0 ∧ ((at0 []).hall 0).Settled [1, 2, 3, 4] :=
  ⟨rfl, settled _ rfl rfl _⟩

/-- RegisterWordsFrame: a register word, one that writes s0, and one whose source is pending. -/
theorem witness_RegisterWordsFrame : registerWord (.add hd 1 2 3) = some (hd, 1, [2, 3])
    ∧ after (exec (.add hd 1 2 3) (at0 [])) (fun _ => ()) = some ()
    ∧ registerWord (.add hd 0 2 3) = some (hd, 0, [2, 3]) ∧ holds hd (view []) = true
    ∧ (∃ r ∈ (1 : Reg) :: [2, 3], r ≠ 0 ∧ ((st (.seq 0) { hall [] with pend := 4 }).hall 0).pend.getLsbD r.val = true) := by decide +kernel

/-- A load that has been passed, at offset 0, with the word at the start of the scratchpad in some state. -/
def passed (f : Fill) : LoadEntry := ⟨1, 0x00FE000000000000, 4, false, keyOfScratch 0 0, .dflt, f⟩
def aheadOf (t : Option Nat) (l : Option LoadEntry) : Ahead := ⟨0, 8, false, t, none, l⟩
def run (l : List Ahead) (full : List Nat) : Hall :=
  { hall [0, own] with a := view [0, own], full := full, au := { AddrUnit.reset with view := view [0, own, 1], queue := l } }

/-- AddressUnitChangesOnlyItself: a word of registers; an A-marked load whose guard is false, whose address is off its
alignment, and at a word that is full or empty; an entry to be filled; the load at its word with each state of its entry;
a store over its bytes; a control word decided otherwise and as predicted; a PFX. -/
theorem witness_AddressUnitChangesOnlyItself : (st (.addr 0) (hall [])).cur = .addr 0
    ∧ (Instr.add hd 1 2 3).unit = some .seq ∧ runAheadAccess (.add hd 1 2 3) = false
    ∧ (let x := run [] [0]
       let s := st (.addr 0) x
       s.cur = .addr 0 ∧ x.au.queue.length ≤ 256 ∧ x.au.loopFull = false ∧ x.au.loads < 64 ∧ x.au.poison = 0
       ∧ (x.au.view.reg 2 + (0 : BitVec 25).signExtend 64).toNat = 0x00FE000000000000
       ∧ (x.au.view.reg 2 + (x.au.view.reg 3 <<< (0 : Fin 8).val)).toNat = 0x00FE000000000000 + 1
       ∧ holds { hd with mark := .a, ga := ⟨false, 1⟩ } x.au.view = false ∧ holds { hd with mark := .a } x.au.view = true
       ∧ (0x00FE000000000000 + 1) % 4 ≠ 0 ∧ OwnScratch s 0 0 4 ctx ∧ FullWords x 0 4 ∧ ¬ FullWords (run [] []) 0 4)
    ∧ (let x := run [aheadOf none (some (passed .pending))] [0]
       let s := st (.addr 0) x
       OwnScratch s 0 0 4 ctx ∧ FullWords x 0 4 ∧ x.au.queue = [aheadOf none (some (passed .pending))]
       ∧ (aheadOf none (some (passed .pending))).load = some (passed .pending) ∧ (passed .pending).addr = 0x00FE000000000000 + 0)
    ∧ (∀ w z i, ∀ f ∈ [Fill.value w, .fault z i, .pending],
       let x := run [aheadOf none (some (passed f))] []
       let s := st (.seq 0) x
       s.cur = .seq 0 ∧ holds { hd with mark := .a } x.a = true ∧ x.Settled [1]
       ∧ (x.a.reg 2 + (0 : BitVec 25).signExtend 64).toNat = 0x00FE000000000000 + 0
       ∧ x.au.queue = [aheadOf none (some (passed f))] ∧ x.pc = 0 ∧ (passed f).size = 4 ∧ OwnScratch s 0 0 4 ctx ∧ ¬ FullWords x 0 4)
    ∧ (let x := run [aheadOf none (some (passed (.value 5)))] []
       let s := st (.seq 0) x
       AtWord s 0 hd [1, 2] ∧ OwnScratch s 0 0 4 ctx ∧ ownsT0 s (s.ctxOf 0) (0x00FE000000000000 + 0) 4 = false
       ∧ portBusy s 0 0 4 = false ∧ x.c.reg 2 + (0 : BitVec 25).signExtend 64 = BitVec.ofNat 64 (0x00FE000000000000 + 0)
       ∧ (passed (.value 5)).place < keyOfScratch 0 0 + 4 ∧ keyOfScratch 0 0 < (passed (.value 5)).place + 4)
    ∧ (let x := run [aheadOf none none] []
       x.au.queue = [aheadOf none none] ∧ x.pc = 0 ∧ (aheadOf none none).taken ≠ (if true = true then some 16 else none)
       ∧ (aheadOf none none).taken = (if false = true then some 8 else none) ∧ (x.retire 8 false true false).pc = 8) := by
  refine ⟨rfl, by decide +kernel, by decide +kernel, ⟨rfl, by decide, rfl, by decide, rfl, by decide +kernel, by decide +kernel, rfl, rfl, by decide,
      own_scratch _ _ _ _ rfl (by decide +kernel) rfl rfl rfl rfl, full_words _ _ _ (by decide), empty_word _ rfl⟩,
    ⟨own_scratch _ _ _ _ rfl (by decide +kernel) rfl rfl rfl rfl, full_words _ _ _ (by decide), rfl, rfl, rfl⟩, ?_,
    ⟨at_word _ _ rfl rfl rfl _, own_scratch _ _ _ _ rfl (by decide +kernel) rfl rfl rfl rfl, rfl, by decide +kernel,
      by decide +kernel, by decide, by decide⟩, by decide +kernel⟩
  intro w z i f _
  exact ⟨rfl, rfl, settled _ rfl rfl _, by simp only [run]; decide +kernel, rfl, rfl, rfl, own_scratch _ _ _ _ rfl (by show 0 + 4 ≤ Hall.size (run [] []); decide +kernel) rfl rfl rfl rfl,
    empty_word _ rfl⟩

/-- ControlWordsTransfer: each word at a target inside the code section, the last word included; the three cases of
loop-back. -/
theorem witness_ControlWordsTransfer : AtControl (at0 [56, 0, 3]) 0 { hd with mark := .b } [1, 2, 3]
    ∧ (let x := (at0 [56, 0, 3]).hall 0
       8 * 7 < x.length ∧ (x.pc : Int) + 8 * (7 : BitVec 34).toInt = 8 * 7
       ∧ (x.c.reg 1).toNat + 8 * (x.c.reg 2).toNat = 8 * 7 ∧ (x.c.reg 1).toNat = 8 * 7
       ∧ x.pc + 8 * (7 : BitVec 28).toNat < x.length ∧ x.c.reg 2 = 0 ∧ x.c.reg 3 ≠ 0)
    ∧ (let back (x : Hall) (taken : Bool) (next : Nat) : Prop :=
         x.lc ≠ 0 ∧ x.pc = x.le.toNat ∧ taken = false ∧ next = x.le.toNat + 8
       (back { hall [] with lc := 2, le := 24, pc := 24 } false 32 ∧ (2 : Word) ≠ 1) ∧ back { hall [] with lc := 1, le := 24, pc := 24 } false 32
       ∧ ¬ back { hall [] with lc := 1, le := 24, pc := 24 } true 32) :=
  ⟨at_control _ rfl rfl _, by decide +kernel, by decide +kernel⟩

/-- ControlTargetsAreChecked: a target that is misaligned, the first past the section, one below it; a false guard. -/
theorem witness_ControlTargetsAreChecked : AtControl (at0 [4, 8]) 0 { hd with mark := .b } [1, 2]
    ∧ (let x := (at0 [4, 8]).hall 0
       (x.length : Int) ≤ (x.pc : Int) + 8 * (8 : BitVec 34).toInt ∧ (x.pc : Int) + 8 * (-1 : BitVec 34).toInt < 0
       ∧ (((x.c.reg 1).toNat : Int) + 8 * ((x.c.reg 2).toNat : Int)) % 8 ≠ 0 ∧ ((x.c.reg 1).toNat : Int) % 8 ≠ 0
       ∧ x.length ≤ x.pc + 8 * (8 : BitVec 28).toNat
       ∧ holds { hd with mark := .b, ga := ⟨false, 1⟩ } x.c = false) :=
  ⟨at_control _ rfl rfl _, by decide +kernel⟩

/-- PassingWordsAndTrapsComplete. -/
theorem witness_PassingWordsAndTrapsComplete : AtWord (at0 []) 0 hd [] := at_word _ _ rfl rfl rfl _

/-- ExceptionEntry: a handler at offset 16; no handler, a handler past the section, ACT set, and the FPOL bit clear for a
cause of the policy and one past it. -/
theorem witness_ExceptionEntry :
    (let x := { hall [] with trap := { TrapRegs.reset with vec := 0x11 } }
     Cause.trap ≠ .integ ∧ x.trap.vec.getLsbD 0 = true ∧ x.trap.act = false
     ∧ (x.trap.vec.extractLsb' 3 14).toNat * 8 < Hall.length x)
    ∧ (let x := (at0 []).hall 0
       (x.trap.vec.getLsbD 0 = false) ∧ x.bind = some bnd ∧ (at0 []).ctx? bnd.task.ctx = some ctx
       ∧ (at0 []).task? bnd.task = some task ∧ ctx.fpol.getLsbD Cause.align.code = false ∧ Cause.trap.code = 0x20)
    ∧ Hall.length { hall [] with trap := { TrapRegs.reset with vec := 0x41 } } ≤ (BitVec.extractLsb' 3 14 (0x41 : BitVec 17)).toNat * 8 := by
  decide

/-- ExceptionReturn: inside the handler, without and with NX (the last word before the end), and outside it; ERET.esc. -/
theorem witness_ExceptionReturn :
    (let x := { hall [] with trap := { TrapRegs.reset with act := true, pc := 48, cause := 0x20 } }
     AtWord (st (.seq 0) x) 0 hd [] ∧ x.trap.act = true ∧ x.trap.pc.toNat % 8 = 0 ∧ (x.trap.pc.toNat + 8) % 8 = 0
     ∧ x.trap.pc.toNat + 8 < Hall.length x
     ∧ x.bind = some bnd ∧ (st (.seq 0) x).ctx? bnd.task.ctx = some ctx ∧ (st (.seq 0) x).task? bnd.task = some task
     ∧ x.trap.cause = BitVec.ofNat 64 Cause.trap.code ∧ Cause.trap.code ≤ 0x21)
    ∧ AtWord (at0 []) 0 hd [] ∧ ((at0 []).hall 0).trap.act = false :=
  ⟨⟨at_word _ _ rfl rfl rfl _, by decide +kernel⟩, at_word _ _ rfl rfl rfl _, rfl⟩

/-- SystemRegisterReads: the selector s2 = 0; facet selectors at split, 47, below and above; a non-zero selector; a
B-marked word whose guards hold in the A view alone, and in neither. -/
theorem witness_SystemRegisterReads : AtWord (at0 []) 0 hd [1, 2] ∧ ((at0 []).hall 0).c.reg 2 = 0
    ∧ (at0 []).ctx? ((at0 []).ctxOf 0) = some ctx
    ∧ ([(8 : Word), 47].all fun v => ((at0 [0, v]).hall 0).split ≤ (((at0 [0, v]).hall 0).c.reg 2).toNat ∧ (((at0 [0, v]).hall 0).c.reg 2).toNat < 48)
    ∧ ([(7 : Word), 48].all fun v => (((at0 [0, v]).hall 0).c.reg 2).toNat < 8 ∨ 48 ≤ (((at0 [0, v]).hall 0).c.reg 2).toNat)
    ∧ SysReg.ctxId ≠ .facetSeed ∧ (((at0 [0, 1]).hall 0).c.reg 2).toNat ≠ 0
    ∧ (let b : SHdr := { hd with mark := .b, ga := ⟨false, 1⟩ }
       let x : Hall := { hall [] with a := { view [] with preds := 2 } }
       holds b x.c = false ∧ holds b x.a = true ∧ holds b (hall []).a = false ∧ x.a.reg 2 = 0) :=
  ⟨at_word _ _ rfl rfl rfl _, by decide +kernel⟩

/-- HallRegisterWrites: watchdog periods at both ends and one outside; facet selectors 8 and 47. -/
theorem witness_HallRegisterWrites : AtWord (at0 [0x10000]) 0 hd [1, 0] ∧ ((at0 [0x10000]).hall 0).c.reg 0 = 0
    ∧ ([(0x10000 : Word), 0x10000000].all fun v => 2 ^ 16 ≤ v.toNat ∧ v.toNat ≤ 2 ^ 28)
    ∧ ([(0xFFFF : Word), 0x10000001].all fun v => v.toNat < 2 ^ 16 ∨ 2 ^ 28 < v.toNat)
    ∧ ([(8 : Word), 47].all fun v => ((at0 [0, v]).hall 0).split ≤ (((at0 [0, v]).hall 0).c.reg 2).toNat ∧ (((at0 [0, v]).hall 0).c.reg 2).toNat < 48) :=
  ⟨at_word _ _ rfl rfl rfl _, by decide +kernel⟩

theorem sys_at_word (x : Hall) (hp : x.pend = 0) (hf : x.fresh = 0) (rs : List Reg) : AtWord (sys x) 0 hd rs where
  cur := rfl
  mark := rfl
  guards := rfl
  regs := by intro r _ _; show x.pend.getLsbD _ = false ∧ x.fresh.getLsbD _ = false; rw [hp, hf]; simp

/-- A context whose Mirror is in a mode, with 16 slots, tail 2 and head 4. -/
def mirCtx (m : MirrorMode) : Ctx := { ctx with mirror := { mir with mode := m, base := 0x10000, size := 16, tail := 2, head := 4 } }
def mirSt (m : MirrorMode) (x : Hall) : State := { st (.seq 0) x with ctxs := [(1, mirCtx m)] }

/-- ContextRegisterWrites: every clause at a boundary: the event size 16 and 8, the event tail at both ends and one
outside, the ring pointers at both ends and one outside, both kinds of context, masks of 14 bits and of 15. -/
theorem witness_ContextRegisterWrites : AtWord (at0 [4]) 0 hd [1, 0] ∧ ((at0 [4]).hall 0).c.reg 0 = 0
    ∧ (at0 [4]).ctx? ((at0 [4]).ctxOf 0) = some ctx ∧ ctx.id = (at0 [4]).ctxOf 0
    ∧ ((16 : Word) = BitVec.ofNat 64 (2 ^ 4) ∧ (65536 : Word) = BitVec.ofNat 64 (2 ^ 16)
       ∧ ∀ n ∈ List.range 17, 4 ≤ n → (8 : Word) ≠ BitVec.ofNat 64 (2 ^ n))
    ∧ (let k : Ctx := { ctx with evtail := 3, evhead := 5 }
       ([(3 : Word), 5].all fun v => k.evtail.toNat ≤ v.toNat ∧ v.toNat ≤ k.evhead.toNat)
       ∧ ([(2 : Word), 6].all fun v => v.toNat < k.evtail.toNat ∨ k.evhead.toNat < v.toNat))
    ∧ (let m := (mirCtx .record).mirror
       m.mode = .record ∧ ([(2 : Word), 4].all fun v => m.tail.toNat ≤ v.toNat ∧ v.toNat ≤ m.head.toNat)
       ∧ ([(1 : Word), 5].all fun v => v.toNat < m.tail.toNat ∨ m.head.toNat < v.toNat))
    ∧ (let m := (mirCtx .replay).mirror
       m.mode = .replay ∧ ([(4 : Word), 18].all fun v => m.head.toNat ≤ v.toNat ∧ v.toNat ≤ (m.tail + m.size).toNat)
       ∧ ([(3 : Word), 19].all fun v => v.toNat < m.head.toNat ∨ (m.tail + m.size).toNat < v.toNat))
    ∧ (∀ m, m = .record ∨ m = .replay → ∃ clk u, release (mirSt m (hall [4])) 0 true = .ok clk u ∧ (u.hall 0).pc = 0)
    ∧ ((mirSt .record (hall [4])).hall 0).posted = []
    ∧ (let y : Hall := { hall [4] with posted := [⟨0x00FE000000000000, 0, false, .add, 1, 0, .dflt, []⟩] }
       AtWord (mirSt .replay y) 0 hd [1, 0] ∧ y.posted ≠ [])
    ∧ (at0 [4]).isSystem ((at0 [4]).ctxOf 0) = false
    ∧ AtWord (sys (hall [4])) 0 hd [1, 0] ∧ (sys (hall [4])).isSystem ((sys (hall [4])).ctxOf 0) = true
    ∧ (BitVec.extractLsb' 14 38 (0x3FFF : Word) = 0 ∧ BitVec.extractLsb' 14 38 (0x4000 : Word) ≠ 0) :=
  ⟨at_word _ _ rfl rfl rfl _, rfl, rfl, rfl, by decide +kernel, by decide +kernel, by decide +kernel, by decide +kernel,
    fun m h => by rcases h with rfl | rfl <;> exact ⟨_, _, rfl, rfl⟩, rfl, ⟨word_at _ _ rfl rfl rfl rfl _, by decide⟩, by decide +kernel, sys_at_word _ rfl rfl _,
    by decide +kernel, by decide +kernel⟩

/-- ScratchLoadsAndStores: the last eight bytes of the scratchpad; a store with no request before it, and one at a word
that an earlier waiting request can be served at (R357). -/
theorem witness_ScratchLoadsAndStores :
    (let x : Hall := { hall [9, own + 0x27FFF8] with full := [655358, 655359] }
     let s := st (.seq 0) x
     AtWord s 0 hd [1, 2, 3] ∧ s.MemoryForm ∧ OwnScratch s 0 0x27FFF8 8 ctx ∧ FullWords x 0x27FFF8 8 ∧ ¬ FullWords (hall []) 0 4
     ∧ ownsT0 s (s.ctxOf 0) (0x00FE000000000000 + 0x27FFF8) 8 = false
     ∧ portBusy s 0 0x27FFF8 8 = false ∧ portBusy (st (.seq 0) { x with feq := [waiter .ldf 0x27FFF8] }) 0 0x27FFF8 8 = true
     ∧ x.c.reg 2 + (0 : BitVec 25).signExtend 64 = BitVec.ofNat 64 (0x00FE000000000000 + 0x27FFF8)
     ∧ x.c.reg 2 + (x.c.reg 3 <<< 7) = BitVec.ofNat 64 (0x00FE000000000000 + 0x27FFF8)) := by
  refine ⟨at_word _ _ rfl rfl rfl _, memory_form _ _ rfl, own_scratch _ _ _ _ rfl (by decide +kernel) rfl rfl rfl rfl, ?_, empty_word _ rfl,
    rfl, rfl, by decide +kernel, rfl, rfl⟩
  intro w h1 h2
  have : w = 655358 ∨ w = 655359 := by omega
  rcases this with rfl | rfl <;> simp

/-- The words an access names stand full, stand empty, or are set; FEST of one word and of the last two. -/
theorem witness_FullEmptyAccessesComplete :
    (let x : Hall := { hall [9, own, 2] with full := [0, 1] }
     let s := st (.seq 0) x
     AtWord s 0 hd [1, 2, 3] ∧ s.MemoryForm ∧ NoWaiters s 0 ∧ ctx.mirror.mode = .off ∧ OwnScratch s 0 0 8 ctx ∧ FullWords x 0 8
     ∧ x.c.reg 2 + (0 : BitVec 25).signExtend 64 = BitVec.ofNat 64 (0x00FE000000000000 + 0)
     ∧ x.c.reg 2 = BitVec.ofNat 64 (0x00FE000000000000 + 0) ∧ 0 < (x.c.reg 3).toNat ∧ 0 + 4 * (x.c.reg 3).toNat ≤ x.size
     ∧ ∀ w, x.full.count w ≤ 1)
    ∧ (∀ w, 0 ≤ 4 * w ∧ 4 * w < 0 + 8 → w ∉ (hall [9, own, 2]).full)
    ∧ (0x27FFF8 + 4 * 2 ≤ (hall []).size ∧ 0 < 2) := by
  refine ⟨⟨at_word _ _ rfl rfl rfl _, memory_form _ _ rfl, no_waiters _ _ rfl rfl rfl rfl, rfl,
    own_scratch _ _ _ _ rfl (by decide +kernel) rfl rfl rfl rfl, full_words _ _ _ (by decide), rfl, rfl, by decide +kernel, by decide +kernel, ?_⟩,
    fun w _ => List.not_mem_nil, by decide +kernel⟩
  intro w; simp only [List.count_cons, List.count_nil, beq_iff_eq]; split <;> split <;> omega

/-- A 2 MiB page at VA 0, mapped to PA 0x20_0000 by tables at 0x1_0000, 0x2_0000 and 0x3_0000. -/
def leaf : Word := 0xD000000000020000
def tables : Cells := [(0x10002, 2), (0x10007, 0x80), (0x20002, 3), (0x20007, 0x80), (0x30002, 2), (0x30007, 0xD0)]
def img : LibImage := ⟨[0, 0, 0x060100], 0⟩
def pctx : Ctx := { ctx with ptroot := 0x10000, quota := [4, 4], library := [img] }
def paged (c : Agent) (x : Hall) : State :=
  { st c { x with tlb := [⟨.seq, 0, true, leaf⟩] } with ctxs := [(1, pctx)], mem := tables }

theorem test_walk : walk (paged .env (hall [])) pctx 0x12345 = some (leaf, true) := by decide +kernel

/-- A line of the L1 that holds all its bytes, of no domain and neither a compressed nor an array page's. -/
def line (n : Nat) (data : BitVec 1024) (dirty : BitVec 128) : L1Line :=
  ⟨false, n, data, dirty, 0, BitVec.allOnes 128, 0, 0, false, false, .dflt⟩

/-- LineLoadsAndStores: the last bytes of a cached line. -/
theorem witness_LineLoadsAndStores :
    (let x : Hall := { hall [7, 0x178] with l1 := [line 0x4002 0 0] }
     let s := paged (.seq 0) x
     let y := s.hall 0
     s.cur = .seq 0 ∧ holds hd y.c = true ∧ y.Settled [1, 2, 3] ∧ (y.c.reg 2 + (0 : BitVec 25).signExtend 64).toNat = 0x178
     ∧ (y.c.reg 2 + (y.c.reg 3 <<< (0 : Fin 8).val)).toNat = 0x178
     ∧ 0x178 % 8 = 0 ∧ y.posted = [] ∧ resolve s 0 .seq 0x178 8 = .ok (.dev 0x200178 leaf) s ∧ 0x200178 % 128 + 8 ≤ 128
     ∧ pteLN leaf = false ∧ l1Find y false (0x200178 / 128) = some (line 0x4002 0 0) ∧ (line 0x4002 0 0).kd = pteKD leaf
     ∧ (∀ j, j < 8 → (line 0x4002 0 0).valid.getLsbD (0x200178 % 128 + j) = true)
     ∧ pteWR leaf = true ∧ s.pmovs = [] ∧ ownsT0 s (s.ctxOf 0) 0x178 8 = false ∧ ownsT0At s (s.ctxOf 0) 0x200178 8 = false) :=
  ⟨rfl, rfl, settled _ rfl rfl _, by decide +kernel, by decide +kernel, rfl, rfl, rfl, by decide, rfl, by decide +kernel, by decide, by decide +kernel, rfl, rfl,
   by decide +kernel, by decide +kernel⟩

/-- MisalignedAccessesTrap: one byte past each alignment. -/
theorem witness_MisalignedAccessesTrap : AtWord (at0 [0, own + 1, 0, 0]) 0 hd [1, 2, 3, 4]
    ∧ (let ea := (((at0 [0, own + 1, 0, 0]).hall 0).c.reg 2 + (0 : BitVec 25).signExtend 64).toNat
       ea % 2 ≠ 0 ∧ ea % 4 ≠ 0 ∧ (((at0 [0, own + 1, 0, 0]).hall 0).c.reg 2).toNat % 8 ≠ 0)
    ∧ ((at0 [0, own + 1, 0, 0]).hall 0).wait = .none :=
  ⟨at_word _ _ rfl rfl rfl _, by decide +kernel, rfl⟩

/-- AtomicsComplete and the first half of PostedReductions. -/
theorem witness_AtomicsComplete :
    (let x := hall [0, own, 5, 6]
     let s := st (.seq 0) x
     AtWord s 0 hd [1, 2, 3, 4] ∧ s.MemoryForm ∧ ctx.mirror.mode = .off ∧ x.l1 = [] ∧ OwnScratch s 0 0 8 ctx
     ∧ portBusy s 0 0 8 = false ∧ hostPending s 0 = false ∧ x.c.reg 2 = BitVec.ofNat 64 (0x00FE000000000000 + 0)) :=
  ⟨at_word _ _ rfl rfl rfl _, memory_form _ _ rfl, rfl, rfl, own_scratch _ _ _ _ rfl (by decide +kernel) rfl rfl rfl rfl, by decide +kernel,
   rfl, rfl⟩

/-- PostedReductions: one RED posted, whatever its operation, and the hall without it; a RED to T0 of the spawned task. -/
theorem witness_PostedReductions :
    (∀ op : RedOp,
     let q : Posted := ⟨0x00FE000000000000 + 8, keyOfScratch 0 8, false, op, 5, 0, .dflt, []⟩
     let x : Hall := { hall [] with posted := [q] }
     let s := st .env x
     s.MemoryForm ∧ (s.hall 0).posted = [q] ∧ x.held = false ∧ q.dbl = false ∧ q.value.toNat < 2 ^ (8 * 4)
     ∧ q.addr = 0x00FE000000000000 + 8 ∧ OwnScratch (st .env (hall [])) 0 8 4 ctx
     ∧ s.updHall 0 (fun x => { x with posted := [] }) = st .env (hall []) ∧ portBusy s 0 8 4 = false)
    ∧ (let x := hall [0, 0x1000, 5]
       let s := paged (.seq 0) x
       s.cur = .seq 0 ∧ holds hd x.c = true ∧ x.Settled [2, 3] ∧ s.MemoryForm ∧ pctx.mirror.mode = .off
       ∧ (x.c.reg 2).toNat % 8 = 0 ∧ locate s 0 .seq (x.c.reg 2).toNat 8 = .ok (.dev 0x201000 leaf) s
       ∧ pteLN leaf = false ∧ pteWR leaf = true ∧ ownsT0 s (s.ctxOf 0) (x.c.reg 2).toNat 8 = true) := by
  refine ⟨fun op => ⟨memory_form _ _ rfl, rfl, rfl, rfl, by show (5 : BitVec 64).toNat < _; decide, rfl, own_scratch _ _ _ _ rfl (by decide +kernel) rfl rfl rfl rfl, rfl,
    by cases op <;> decide +kernel⟩, rfl, rfl, settled _ rfl rfl _,
    mem_form _ _ (by decide +kernel) rfl rfl rfl, rfl, by decide, rfl, by decide, by decide, by decide +kernel⟩

/-- WaitsAreServedOrExpire: a WAIT at a full word; a waiting LDF whose word is full; a WAIT at the tick of its limit, its
word empty and full, in a package of two halls. -/
theorem witness_WaitsAreServedOrExpire :
    (let x : Hall := { hall [0, own, 0] with full := [0] }
     let s := st (.seq 0) x
     s.MemoryForm ∧ AtWord s 0 hd [1, 2, 3] ∧ NoWaiters s 0 ∧ OwnScratch s 0 0 4 ctx
     ∧ x.c.reg 2 = BitVec.ofNat 64 (0x00FE000000000000 + 0) ∧ FullWords x 0 4)
    ∧ (let x : Hall := { hall [] with full := [0], feq := [waiter .ldf 0], wait := .fe }
       let s := st .env x
       s.MemoryForm ∧ x.feq = [waiter .ldf 0] ∧ (waiter .ldf 0).hall = 0 ∧ x.held = false ∧ (waiter .ldf 0).off = 0
       ∧ (waiter .ldf 0).size = 4 ∧ (∀ n i, lget (x.facet n).arrive i = none) ∧ s.arrivals = [] ∧ OwnScratch s 0 0 4 ctx ∧ FullWords x 0 4)
    ∧ (∀ full ∈ [[], [0]],
       let s : State := { st .env (hall []) with
         tick := 10, halls := [(0, { hall [] with feq := [waiter .wait 0], wait := .fe, full := full }), (3, hall [])] }
       waiterOf s 0 = some (0, waiter .wait 0) ∧ (waiter .wait 0).limit ≠ 0 ∧ (waiter .wait 0).since + (waiter .wait 0).limit ≤ s.tick
       ∧ (s.hall 0).wait = .fe ∧ (s.hall 0).held = false ∧ ((s.hall 0).fullAt 0 4 = !full.isEmpty) ∧ (s.hall 0).badAt 0 4 = false
       ∧ s.ctx? (s.ctxOf 0) = some ctx ∧ ctx.mirror.mode = .off) := by
  refine ⟨⟨memory_form _ _ rfl, at_word _ _ rfl rfl rfl _, no_waiters _ _ rfl rfl rfl rfl,
      own_scratch _ _ _ _ rfl (by decide +kernel) rfl rfl rfl rfl, rfl, full_words _ _ _ (by decide)⟩,
    ⟨memory_form .env _ rfl, rfl, rfl, rfl, rfl, rfl, no_arrivals _ rfl, rfl,
      own_scratch _ _ _ _ rfl (by decide +kernel) rfl rfl rfl rfl, full_words _ _ _ (by decide)⟩, by decide +kernel⟩

/-- OrderingWordsComplete: a hall with nothing pending, a gallery barrier whose only instance has arrived, and one of two
instances with neither. -/
theorem witness_OrderingWordsComplete :
    (let s := at0 []
     let x := s.hall 0
     AtWord s 0 hd [1] ∧ s.ctx? (s.ctxOf 0) = some ctx ∧ ctx.id = s.ctxOf 0 ∧ ctx.mirror.mode = .off ∧ x.posted = [] ∧ hostPending s 0 = false
     ∧ x.l1 = [] ∧ x.bind = some bnd ∧ x.copies = [] ∧ x.chains = [] ∧ x.mx = [] ∧ x.links = [] ∧ s.arrays = [] ∧ s.pmovs = []
     ∧ (∀ c, lget x.seqOuts c = []) ∧ (∀ tk, s.task? bnd.task = some tk → tk.unit = none)
     ∧ 0 < (ctx.clock 0).length ∧ (ctx.clock 0).getD 0 0 + 1 < 2 ^ 32)
    ∧ (let t := { task with unit := some 0 }
       let u : BarUnit := ⟨some tid, 4, [(0, 1, false)], []⟩
       let s := { at0 [] with tasks := [t], bars := [(0, u)] }
       s.bar 0 = u ∧ u.task = some t.id ∧ s.task? t.id = some t ∧ s.ctx? t.id.ctx = some ctx ∧ t.state = .running
       ∧ (∀ h ∈ t.onHalls, (s.hall h).held = false) ∧ u.arrived ≠ []
       ∧ (u.arrived.map (·.1)).Nodup ∧ (u.arrived.map fun r => t.granted.getD r.1 0).Nodup
       ∧ (∀ i, i < t.halls → t.retired.getD i false = true ∨ ∃ r ∈ u.arrived, r.1 = i))
    ∧ (let t := { task with unit := some 0, halls := 2, granted := [0, 1], trig := [false, false], retired := [false, false] }
       let u : BarUnit := ⟨some tid, 4, [], []⟩
       let s := { at0 [] with tasks := [t], bars := [(0, u)] }
       s.task? bnd.task = some t ∧ t.unit = some 0 ∧ s.bar (3 * (0 / 6) + 0) = u ∧ u.task = some t.id ∧ t.id = bnd.task
       ∧ (∀ r ∈ u.arrived, r.1 ≠ bnd.inst)
       ∧ ∃ i, i < t.halls ∧ i ≠ bnd.inst ∧ t.retired.getD i false = false ∧ ∀ r ∈ u.arrived, r.1 ≠ i) := by
  refine ⟨⟨at_word _ _ rfl rfl rfl _, rfl, rfl, rfl, rfl, rfl, rfl, rfl, rfl, rfl, rfl, rfl, rfl, rfl, ?_, ?_, by decide, by decide⟩, ?_,
    by decide +kernel, rfl, by decide +kernel, rfl, rfl, List.forall_mem_nil _, 1, by decide, by decide, rfl, List.forall_mem_nil _⟩
  · intro c; show lget (List.replicate 4 []) c = []
    rcases c with _ | _ | _ | _ | c <;> rfl
  · intro tk h; have : tk = task := by
      have e : (at0 []).task? bnd.task = some task := rfl
      rw [e] at h; exact (Option.some.inj h).symm
    subst this; rfl
  · refine ⟨rfl, rfl, rfl, rfl, rfl, by decide, by decide, by decide, by decide, ?_⟩
    intro i hi; have : i = 0 := by simp only [task] at hi; omega
    subst this; exact .inr ⟨(0, 1, false), by simp, rfl⟩

/-- CachesWriteBack: prefetches of scratch lines at both ends of the window, FLUSH and INVAL of everything and of
nothing, one dirty line that hits in the L2, a row in no array page, a compressed write before and at its limit, its hall
running its context and another. -/
theorem witness_CachesWriteBack :
    AtWord (at0 [own]) 0 hd [1, 0]
    ∧ (0x00FE000000000000 ≤ (((at0 [own]).hall 0).c.reg 1 + ((at0 [own]).hall 0).c.reg 0).toNat / 128 * 128)
    ∧ ((((at0 [own + 0xFFFF8000]).hall 0).c.reg 1 + ((at0 [own]).hall 0).c.reg 0).toNat / 128 * 128 + 128 * 256 ≤ 0x00FE000100000000)
    ∧ 2 ^ 32 < (((at0 [0x100000001]).hall 0).c.reg 1).toNat ∧ writeBackAll (at0 []) 0 ((at0 []).hall 0).l1 = .ok () (at0 [])
    ∧ (∀ l ∈ ((at0 [own]).hall 0).l1, l.dirty = 0)
    ∧ (let l := line 2 0xAB 1
       let s := { st .env { hall [] with l1 := [l] } with l2 := [⟨2, 0, 0, false, .dflt⟩] }
       s.MemoryForm ∧ l1Find (s.hall 0) false 2 = some l ∧ l.dirty ≠ 0 ∧ l.cp = false ∧ l.ar = false ∧ l.line = 2 ∧ s.squeezed = []
       ∧ l2Hit s 2 l.kd = true ∧ unverified s 2 = false ∧ (∀ p, mfind s.prot (2 / 2) = some p → p.kd = l.kd)
       ∧ s.ctx? (s.ctxOf 0) = some ctx ∧ ctx.racectl.getLsbD 0 = false)
    ∧ arrayPageOf (at0 []) (2048 * 7) = none
    ∧ (at0 []).cur = .seq 0 ∧ { hd with mark := .a }.mark = .a
    ∧ (let q : Squeezed := ⟨0, 1, 0, 2, 0, List.replicate 256 0, List.replicate 256 0, none, none, 1, 0x100, 5, false⟩
       let s : State := { at0 [] with squeezed := [q], prot := [(1, ⟨0, false, 0⟩)] }
       q.hall = 0 ∧ (5 + 2 ^ 20 - 1 < q.since + 2 ^ 20) ∧ (q.since + 2 ^ 20 ≤ 5 + 2 ^ 20) ∧ q.seen.length = 256 ∧ q.body.length = 256
       ∧ mfind s.prot (q.line / 2) = some ⟨q.kd, false, 0⟩ ∧ (∀ i, i < 256 → cget s.mem (256 * (q.line / 2) + i) = q.seen.getD i 0)
       ∧ mfind (at0 []).prot (q.line / 2) ≠ some ⟨q.kd, false, 0⟩
       ∧ s.ctxOf 0 = q.ctx ∧ (s.hall 0).bind ≠ none ∧ s.ctxOf 0 ≠ { q with ctx := 2 }.ctx) :=
  ⟨at_word _ _ rfl rfl rfl _, by decide +kernel, by decide +kernel, by decide +kernel, rfl, List.forall_mem_nil _,
   ⟨memory_form .env _ rfl, by decide +kernel, by decide +kernel, rfl, rfl, rfl, rfl, by decide +kernel, rfl,
     fun p h => absurd h (by simp [mfind, st, State.reset]), rfl, by decide +kernel⟩,
   by decide +kernel, rfl, rfl, by decide +kernel⟩

/-- TriggersAndExitComplete: an instance with ETRIG not yet triggered, one without ETRIG; the last instance of a task and
the first of two; a walk whose last entry's record has PRED = 1. -/
def walkSt : State :=
  { paged .env (hall []) with
    walks := [⟨tid, 0, 0x80, 1, 0, none, none, 0, 0, []⟩]
    tasks := [task, { task with id := ⟨1, 0x40⟩, state := .waiting }]
    mem := tables ++ [(0x200042, 1), (0x200045, 0x22), (0x200080, 0x40)] }
theorem witness_TriggersAndExitComplete :
    (let s : State := { at0 [] with tasks := [{ task with etrig := true }] }
     let x := s.hall 0
     AtWord s 0 hd [] ∧ x.bind = some bnd ∧ s.task? bnd.task = some { task with etrig := true } ∧ s.ctx? bnd.task.ctx = some ctx
     ∧ ctx.mirror.mode = .off ∧ x.posted = [] ∧ hostPending s 0 = false ∧ x.l1 = [] ∧ bnd.inst < task.trig.length ∧ bnd.inst < task.retired.length
     ∧ task.trig.getD bnd.inst false = false ∧ exitReady s 0 = true ∧ task.unit = none ∧ x.feq = [] ∧ x.res = .running
     ∧ x.merges = [] ∧ (task.retired.set bnd.inst true).all id = true ∧ ([false, false].set bnd.inst true).all id = false)
    ∧ task.etrig = false
    ∧ (let s := walkSt
       let w : Walk := ⟨tid, 0, 0x80, 1, 0, none, none, 0, 0, []⟩
       let t0 := cval s.mem 0x200040 8
       s.MemoryForm ∧ s.walks = [w] ∧ w.die = (0 : Fin 2).val ∧ w.firstBad = none ∧ w.firstDrop = none ∧ s.prot = []
       ∧ (∀ q ∈ s.tasks, q.id.ctx = pctx.id → q.id.va % 65536 = 0x40 % 65536 → q.id = ⟨pctx.id, 0x40⟩) ∧ s.ctx? w.task.ctx = some pctx ∧ pctx.id = w.task.ctx ∧ pctx.mirror.mode = .off
       ∧ w.next < w.nsucc ∧ walkEntry s pctx w = some 0x40 ∧ walkTarget s pctx 0x40 = some (0x200040, leaf) ∧ pteAR leaf = false
       ∧ s.pmovs = [] ∧ 0 < t0 / 2 ^ 16 % 2 ^ 16 ∧ quotaFree s pctx (targetDie s pctx w.die) = true
       ∧ s.task? ⟨pctx.id, 0x40⟩ = some { task with id := ⟨1, 0x40⟩, state := .waiting }
       ∧ t0 / 2 ^ 16 % 2 ^ 16 = 1 ∧ nbit t0 41 = true) :=
  ⟨⟨word_at _ _ rfl rfl rfl rfl _, rfl, rfl, rfl, rfl, rfl, rfl, rfl, by decide, by decide, rfl, by decide +kernel, rfl, rfl, rfl, rfl, rfl, rfl⟩, rfl,
   mem_form _ _ (by decide +kernel) rfl rfl rfl, rfl, rfl, rfl, rfl, rfl, by decide +kernel, rfl, rfl, rfl, by decide, by decide +kernel, by decide +kernel, by decide, rfl,
   by decide +kernel, by decide +kernel, rfl, by decide +kernel, by decide +kernel⟩

/-- SpawnCompletes: a record with PRED = 0 and one with PRED = 1. -/
def spawnSt (pred : Byte) : State :=
  { paged (.seq 0) (hall [0x40]) with
    l2 := [⟨0x4000, 0, 0, false, .dflt⟩]
    mem := if pred = 0 then tables ++ [(0x200045, 0x20)] else tables ++ [(0x200042, pred), (0x200045, 0x20)] }
theorem witness_SpawnCompletes : ∀ pred : Byte, pred = 0 ∨ pred = 1 →
    let s := spawnSt pred
    let x := s.hall 0
    let t0 := cval s.mem 0x200040 8
    let t (i : Nat) := cval s.mem (0x200040 + 8 * i) 8
    s.cur = .seq 0 ∧ holds hd x.c = true ∧ x.Settled [1] ∧ s.MemoryForm ∧ (x.c.reg 1).toNat = 0x40
    ∧ 0x40 % 64 = 0 ∧ translate s 0 .seq 0x40 = .ok (leaf, true) s ∧ ptePA leaf + 0x40 % pageBytes true = 0x200040
    ∧ devicePage s pctx 0x40 true = some (0x200040, leaf) ∧ s.prot = [] ∧ hostPending s 0 = false
    ∧ pteHO leaf = false ∧ pteWR leaf = true
    ∧ pteLN leaf = false ∧ pteAR leaf = false ∧ l2Hit s (0x200040 / 128) (pteKD leaf) = true ∧ s.squeezed = [] ∧ s.pmovs = []
    ∧ x.l1 = [] ∧ x.posted = [] ∧ s.ctx? (s.ctxOf 0) = some pctx ∧ pctx.id = s.ctxOf 0 ∧ pctx.mirror.mode = .off
    ∧ recordFieldsOk t0 (t 1) (t 2) (t 3) = true ∧ t0Nsucc t0 = 0 ∧ pctx.library[t0Kidx t0]? = some img
    ∧ imageAdmits img (t0Halls t0) = true ∧ roomFor s pctx (t0Halls t0) = true
    ∧ quotaFree s pctx (targetDie s pctx (dieOf 0)) = true ∧ s.task? ⟨pctx.id, 0x40⟩ = none
    ∧ (pred = 0 → t0 / 2 ^ 16 % 2 ^ 16 = 0) ∧ (pred = 1 → t0 / 2 ^ 16 % 2 ^ 16 ≠ 0) := by
  intro pred h; rcases h with rfl | rfl <;>
  exact ⟨rfl, rfl, settled _ rfl rfl _, mem_form _ _ (by decide +kernel) rfl rfl rfl, by decide +kernel, rfl, rfl, by decide +kernel,
    by decide +kernel, rfl, rfl, by decide, by decide, by decide, by decide, by decide +kernel, rfl, rfl, rfl, rfl, rfl, rfl, rfl, by decide +kernel, by decide +kernel,
    rfl, by decide +kernel, by decide +kernel, by decide +kernel, rfl, by decide +kernel, by decide +kernel⟩

/-- A library image of one NOP whose DIGEST field is the digest of its bytes. -/
def imgWords (d : Digest) : List Word :=
  [0x10002454B3244, 192, 0x10100, 0, d.extractLsb' 0 64, d.extractLsb' 64 64, d.extractLsb' 128 64, d.extractLsb' 192 64,
   0x8000870101, 8] ++ List.replicate 6 0 ++ [0x2700000000000000] ++ List.replicate 7 0
def digest : Digest := Config.shake256 (imgBytes (imgWords 0))
def nopCtx : Ctx := { ctx with library := [⟨imgWords digest, digest⟩] }
def admitSt : State := { at0 [0, 0] with ctxs := [(1, nopCtx)] }

theorem digest_of_image (d : Digest) : imgDigest (imgWords d) = d := by
  apply BitVec.eq_of_toNat_eq
  have h := d.isLt
  simp only [imgDigest, imgVal, nbits, imgWords, List.cons_append, Nat.reduceAdd, Nat.reduceDiv, Nat.reduceMod, Nat.reduceMul,
    List.getD_cons_succ, List.getD_cons_zero, BitVec.extractLsb'_toNat, Nat.shiftRight_eq_div_pow, BitVec.toNat_ofNat]
  omega

theorem admitted : ∃ r, admitKernel admitSt 1 0 0 = .ok r := by
  have h : ¬ (Config.shake256 (imgBytes (imgWords digest)) ≠ imgDigest (imgWords digest) ∨ imgDigest (imgWords digest) ≠ digest) := by
    rw [digest_of_image]; exact fun h => h.elim (fun h => h rfl) (fun h => h rfl)
  unfold admitKernel
  rw [show admitSt.ctx? 1 = some nopCtx from rfl]
  simp only [show cacheOf admitSt 0 = [] from rfl, List.find?_nil, show nopCtx.library[0]? = some ⟨imgWords digest, digest⟩ from rfl, if_neg h,
    show headerOk (imgWords digest) = true by decide +kernel,
    show (List.range (imgVal (imgWords digest) 6 2)).map (secEntry (imgWords digest)) = [⟨1, 1, 0x87, 0, 128, 8⟩] by decide +kernel,
    show sectionsOk (imgWords digest) [⟨1, 1, 0x87, 0, 128, 8⟩] = true by decide +kernel,
    show configOk (imgWords digest) (kernelOf (imgWords digest) [⟨1, 1, 0x87, 0, 128, 8⟩]) = true by decide +kernel,
    show makeRoom admitSt 0 (kernelOf (imgWords digest) [⟨1, 1, 0x87, 0, 128, 8⟩]).size (List.length (α := KConf) []) [] = some [] by decide +kernel]
  exact ⟨_, rfl⟩

/-- ConfigurationWordsComplete: a kernel in the cache, an index outside the library, a kernel admitted for the first time,
an own tag and a foreign one. -/
theorem witness_ConfigurationWordsComplete :
    (let j : KConf := ⟨1, 5, 0x0101, kern, false, 0⟩
     let s : State := { at0 [0, 5] with caches := [(0, [j])] }
     AtWord s 0 hd [1, 2] ∧ s.ctx? (s.ctxOf 0) = some ctx ∧ j ∈ cacheOf s (galleryOf 0)
     ∧ (cacheOf s (galleryOf 0)).find? (fun i => i.ctx == s.ctxOf 0 && i.kidx == ((s.hall 0).c.reg 2).toNat && !i.released) = some j
     ∧ ((s.hall 0).c.reg 2).toNat < 2 ^ 16)
    ∧ (∃ c step, admitKernel (at0 [0, 7]) ((at0 [0, 7]).ctxOf 0) (galleryOf 0) 7 = .error (c, step))
    ∧ (let s := admitSt
       AtWord s 0 hd [1, 2] ∧ s.ctx? (s.ctxOf 0) = some nopCtx ∧ nopCtx.id = s.ctxOf 0 ∧ (∀ t, mfind nopCtx.tags (galleryOf 0) = some t → t < 256)
       ∧ ((s.hall 0).c.reg 2).toNat = 0 ∧ (∃ r, admitKernel s (s.ctxOf 0) (galleryOf 0) 0 = .ok r)
       ∧ (cacheOf s (galleryOf 0)).find? (fun i => i.ctx == s.ctxOf 0 && i.kidx == 0 && !i.released) = none)
    ∧ mfind ({ ctx with tags := [(0, 1)] } : Ctx).tags (0x0101 / 2 ^ 16) = some (0x0101 / 2 ^ 8 % 2 ^ 8)
    ∧ (at0 []).isSystem ((at0 []).ctxOf 0) = false ∧ mfind ctx.tags (0x7FFFF / 2 ^ 16 % 8) ≠ some (0x7FFFF / 2 ^ 8 % 2 ^ 8) :=
  ⟨⟨word_at _ _ rfl rfl rfl rfl _, rfl, by decide +kernel, by decide +kernel, by decide +kernel⟩, ⟨_, _, rfl⟩,
   ⟨word_at _ _ rfl rfl rfl rfl _, rfl, rfl,
     fun t h => (by rw [show mfind nopCtx.tags (galleryOf 0) = none from rfl] at h; cases h), rfl, admitted, rfl⟩, by decide, by decide, by decide⟩

/-- SequencerTokensComplete: headers that R205 refuses and one of eight elements of 32 bits; a token that waits; a
control path to the prism unit at (7, 7) with a count of 14, and a count of 1 to consume. -/
def ctlKern : Kernel := { kern with ctl := [⟨0x3F, 8, 7, 4, 0, 3, 0, false, 0, 0⟩, ⟨0x3F, 7, 7, 1, 0, 4, 0, false, 0, 0⟩] }
theorem witness_SequencerTokensComplete : AtWord (at0 [0x0B80]) 0 hd [1, 2, 3, 4, 5]
    ∧ (let bits (w : Word) (hi lo : Nat) : Nat := w.toNat / 2 ^ lo % 2 ^ (hi + 1 - lo)
       bits 0x10000 63 16 ≠ 0 ∧ bits 1 2 0 ≠ 0 ∧ (bits 0x0E00 11 10 = 3 ∧ 3 < bits 0x0E00 9 7)
       ∧ (bits 0x8400 15 14 = 2 ∧ bits 0x8400 11 10 ≠ 0)
       ∧ ¬ (bits 0x0B80 63 16 ≠ 0 ∨ bits 0x0B80 2 0 ≠ 0 ∨ (bits 0x0B80 11 10 = 3 ∧ 3 < bits 0x0B80 9 7)
         ∨ (bits 0x0B80 15 14 = 2 ∧ (bits 0x0B80 11 10 ≠ 0 ∨ bits 0x0B80 6 5 ≠ 0))))
    ∧ ((at0 []).hall 0).posted = [] ∧ lget ((at0 []).hall 0).seqOuts 0 = [] ∧ ((at0 []).hall 0).seqOuts.length = 4
    ∧ (let x : Hall := { hall [] with seqIns := [[⟨0, 7, false, 0x0101, false⟩], [], [], []], seqCi := [1, 0] }
       lget x.seqIns 0 = [⟨0, 7, false, 0x0101, false⟩] ∧ x.seqIns.length = 4 ∧ 0 < x.ctlCount 8 7 0)
    ∧ (let x : Hall := { hall [] with bind := some { bnd with kernel := ctlKern }
                                      stores := [(143, [⟨0x0101, false⟩]), (151, [⟨0x0101, false⟩])]
                                      units := [(63, { PUnit.reset with ci := [14, 0] })] }
       x.ctlDests 8 7 0 = [(7, 7, 0)] ∧ nodeAt 7 7 ≠ .ce ∧ 0 < (x.ctlAt 7 7).length ∧ x.ctlCount 7 7 0 ≤ 14
       ∧ x.ctlGate 8 7 0 = none ∧ x.ctlHeld 8 7 0 = 0)
    ∧ ((at0 []).hall 0).ctlDests 8 7 0 = [] ∧ ((at0 []).hall 0).ctlHeld 8 7 0 = 0 :=
  ⟨at_word _ _ rfl rfl rfl _, by decide +kernel, rfl, rfl, rfl, by decide +kernel, by decide +kernel, by decide +kernel, by decide +kernel⟩

/-- CopiesAreAcceptedAndQueried: a copy inside the scratchpad up to its end, a length of 0 and of 2^32; two entries of
one byte; a group not quiesced; the queries' operands at both ends, quiesced and not, with and without a copy. -/
def byteEntry (o : Nat) : Tensor := ⟨BitVec.ofNat 64 (0x80FE000000000000 + o), 0x0000800000000000, 0, 0⟩
def copyCtx : Ctx := { ctx with tensors := [(1, byteEntry 0), (2, byteEntry 0x1000)] }
def copySt (l : List Word) : State := { at0 l with ctxs := [(1, copyCtx)] }
theorem witness_CopiesAreAcceptedAndQueried :
    AtWord (at0 [0, own + 0x27FFF0, own, 16]) 0 hd [1, 2, 3, 4] ∧ inFlight (at0 []) 0 < 512 ∧ ((at0 []).hall 0).posted = []
    ∧ (let s := at0 []
       copyCheck (refillRanges s 0 .seq [0x00FE000000000000 + 0x27FFF0, 0x00FE000000000000] 16) 0 .seq 0x00FE000000000000
         (some (0x00FE000000000000 + 0x27FFF0)) 16 = none
       ∧ copyCheck (refillRanges s 0 .seq [0x00FE000000000000, 0x100000] 16) 0 .seq 0x100000 (some 0x00FE000000000000) 16
         = some (.xlat, 0x100000))
    ∧ 2 ^ 32 ≤ (0x100000000 : Word).toNat
    ∧ (let s := copySt [0, 1, 2]
       let td := tensorOf s (s.ctxOf 0) 1
       let ts := tensorOf s (s.ctxOf 0) 2
       td.valid = true ∧ ts.valid = true ∧ td.fmt = ts.fmt ∧ td.sfmt = 0 ∧ ts.sfmt = 0 ∧ td.dims = ts.dims ∧ td.w2 = ts.w2
       ∧ td.lens = false ∧ ts.lens = false
       ∧ tensorCheck (refill s 0 .seq ((ts.allBytes ++ td.allBytes).map (fun v => v / 65536 * 65536)).dedup) 0 ts td 1 = none)
    ∧ 256 ≤ (256 : Word).toNat ∧ (tensorOf (at0 []) ((at0 []).ctxOf 0) 1).valid = false
    ∧ hallTask (at0 []) 0 = some task ∧ (mcGroup (at0 []) task.id 0).quiesced = false
    ∧ multiCheck (refillRanges (at0 []) 0 .seq [0x00FE000000000000] 16) 0 .seq task (members task (mcGroup (at0 []) task.id 0)) 0x00FE000000000000 0 16 = none
    ∧ ((0x3F3F : Word).toNat < 2 ^ 14 ∧ (0x3F3F : Word).toNat / 64 % 4 = 0 ∧ (2 ^ 14 ≤ (0x4000 : Word).toNat)
       ∧ (0x40 : Word).toNat / 64 % 4 ≠ 0)
    ∧ groupJobs (at0 []) task 0 = []
    ∧ (let j : CopyJob := ⟨0, .multicast 0 [0], 1, none, 0, 0, 4, .dflt, [], 0, false, [], [], []⟩
       groupJobs (st (.seq 0) { hall [] with copies := [j] }) task 0 ≠ [])
    ∧ (mcGroup { at0 [] with groups := [(tid, 0, ⟨1, true⟩)] } task.id 0).quiesced = true :=
  ⟨at_word _ _ rfl rfl rfl _, by decide +kernel, rfl, by decide +kernel, by decide +kernel, by decide +kernel, by decide +kernel, rfl, rfl, rfl,
   by decide +kernel, by decide +kernel, by decide +kernel, by decide +kernel, by decide +kernel⟩

theorem open_scratch (x : Hall) (c : Agent) (h1 : x.bind = some bnd) (h5 : x.bad = []) (h6 : x.split = 8) : OpenScratch (st c x) 0 ctx where
  ctx := by show (st c x).ctx? ((x.ctx?).getD 0) = _; unfold Hall.ctx?; rw [h1]; rfl
  races := by decide
  lens := by show x.lens = []; unfold Hall.lens; rw [h1]; rfl
  sound := h5
  split := by show 0 < x.split ∧ x.split ≤ 48; omega

/-- CopiesMoveAndComplete: a copy whose ranges do not overlap, one that moves up over itself; a line that faults; a
finished copy and a finished quiesce. -/
def job (src dst : Nat) : CopyJob := ⟨3, .bytes, 1, none, src, dst, 200, .dflt, [], 0, false, [], [], []⟩
theorem witness_CopiesMoveAndComplete :
    (let j := job 0x00FE000000000000 (0x00FE000000000000 + 0x1000)
     let x : Hall := { hall [] with copies := [j] }
     let s := st .env x
     s.MemoryForm ∧ x.copy? 3 = some j ∧ j.done < j.len ∧ j.parked = false ∧ x.res = .running ∧ x.held = false ∧ x.hold = false
     ∧ OpenScratch s 0 ctx ∧ portBusy s 0 (0x1000 + (j.chunk 0 [j.dst]).1) (j.chunk 0 [j.dst]).2 = false ∧ s.checks = [] ∧ s.egress = [] ∧ 0x1000 + j.len ≤ x.size ∧ s.pmovs = []
     ∧ (∀ tk ∈ s.tasks, 0x00FE000100000000 ≤ tk.id.va ∨ tk.id.va + 8 ≤ 0x00FE000000000000)
     ∧ ¬ (0x1000 ≤ 0) ∧ 0 + j.len ≤ 0x1000 ∧ (0 < 199 ∧ 199 < 0 + j.len))
    ∧ (let j := job 0x100000000000000 0x00FE000000000000
       let s := st .env { hall [] with copies := [j] }
       ∃ c i u, copyLine s 0 j = .trap c i u ∧ c ≠ .integ ∧ (s.hall 0).bind = some bnd ∧ s.ctx? bnd.task.ctx = some ctx
         ∧ s.task? bnd.task = some task ∧ (1 ≤ c.code → c.code ≤ 0x10 → ctx.fpol.getLsbD c.code = false))
    ∧ (let j := { job 0x00FE000000000000 (0x00FE000000000000 + 0x1000) with done := 200 }
       let q : CopyJob := { j with id := 4, kind := .quiesce 0 [7], len := 0 }
       let s := st .env { hall [] with copies := [j, q] }
       (s.hall 0).copy? 3 = some j ∧ j.len ≤ j.done ∧ j.chain = none ∧ (∀ grp js, j.kind ≠ .quiesce grp js)
       ∧ (s.hall 0).copy? 4 = some q ∧ q.len ≤ q.done ∧ ∀ p ∈ s.halls, ∀ r ∈ p.2.copies, r.id ∉ [7]) := by
  refine ⟨⟨memory_form _ _ rfl, by decide +kernel, by decide +kernel, rfl, rfl, rfl, rfl, open_scratch _ _ rfl rfl rfl, by decide +kernel, rfl, rfl, by decide +kernel, rfl,
      by intro tk h; simp [st] at h; subst h; decide +kernel, by decide, by decide, by decide⟩,
    ⟨_, _, _, rfl, by decide, rfl, rfl, rfl, by decide +kernel⟩, by decide +kernel, by decide, rfl, ?_, by decide +kernel, by decide, ?_⟩
  · intro _ _ h; cases h
  · decide +kernel

/-- ChainsFollowTheirRecords: a running channel, an idle one with a misaligned head, with none, with one; a record that
is not owned, one whose NEXT is misaligned, one of length 0; a finished record with and without a successor. -/
def chainHall (q0 q7 : Byte) (cs : Map ChainCh) (js : List CopyJob) (l : List Word) : Hall :=
  { hall l with scratch := cwrite (cwrite [] 0x40 [q0]) 0x47 [q7], chains := cs, copies := js }
def chan (next : Nat) : ChainCh := ⟨true, 0x00FE000000000000 + 0x40, 1, 0, next, 0x80, none, []⟩
theorem witness_ChainsFollowTheirRecords :
    (AtWord (st (.seq 0) (chainHall 0 0 [(2, chan 0)] [] [0, 4])) 0 hd [1, 2] ∧ inFlight (st (.seq 0) (chainHall 0 0 [(2, chan 0)] [] [0, 4])) 0 < 512
      ∧ ((chainHall 0 0 [(2, chan 0)] [] []).chain 2).active = true ∧ ((hall []).chain 2).active = false ∧ (4 : Word).toNat % 64 ≠ 0
      ∧ ((hall []).chain 2).ptr = 0 ∧ (64 : Word).toNat % 64 = 0)
    ∧ (∀ q0 q7 : Byte, (q0, q7) = (0, 0) ∨ (q0, q7) = (1, 0x80) ∨ (q0, q7) = (0, 0x80) →
      let x := chainHall q0 q7 [(2, chan 0)] [] []
      let s := st .env x
      s.MemoryForm ∧ OpenScratch s 0 ctx ∧ ctx.id = s.ctxOf 0 ∧ x.res = .running ∧ x.held = false ∧ x.hold = false
      ∧ (x.chain 2).active = true ∧ (x.chain 2).job = none ∧ (x.chain 2).got = [] ∧ (x.chain 2).ptr = 0x00FE000000000000 + 0x40 ∧ 0x40 % 64 = 0 ∧ 0x40 + 64 ≤ x.size)
    ∧ (let q (a b : Byte) := leNat ((List.range 8).map fun n => cget (chainHall a b [] [] []).scratch (0x40 + n))
       q 0 0 < 2 ^ 63 ∧ 2 ^ 63 ≤ q 1 0x80 ∧ q 1 0x80 % 64 ≠ 0 ∧ q 0 0x80 / 2 ^ 56 = 0x80 ∧ q 0 0x80 % 64 = 0)
    ∧ (let j := { job 0x00FE000000000000 (0x00FE000000000000 + 0x1000) with done := 200, chain := some 2 }
       let x := chainHall 0 0x80 [(2, chan 0)] [j] []
       x.l1 = [] ∧ portBusy (st .env x) 0 (0x40 + 32) 8 = false ∧ portBusy (st .env x) 0 (0x40 + 7) 1 = false ∧ hostPending (st .env x) 0 = false ∧ (st .env x).egress = [] ∧ x.copy? 3 = some j ∧ j.parked = false ∧ j.len ≤ j.done ∧ j.kind = .bytes ∧ j.chain = some 2
       ∧ (∀ tk ∈ (st .env x).tasks, 0x00FE000100000000 ≤ tk.id.va ∨ tk.id.va + 8 ≤ 0x00FE000000000000)
       ∧ (chan 0).next = 0 ∧ (chan 0x80).next ≠ 0) := by
  refine ⟨⟨word_at _ _ rfl rfl rfl rfl _, by decide +kernel⟩, ?_, by decide +kernel, rfl, by decide +kernel, by decide +kernel, rfl, rfl,
    by decide +kernel, rfl, by decide, rfl, rfl, ?_, rfl, by decide⟩
  · intro q0 q7 h
    rcases h with h | h | h <;> (cases h; exact ⟨memory_form _ _ (by decide +kernel), open_scratch _ _ rfl rfl rfl, rfl, rfl, rfl, rfl,
      by decide +kernel, rfl, rfl, rfl, rfl, by decide +kernel⟩)
  · intro tk h; simp [st] at h; subst h; decide +kernel

/-- ArrayOperationsComplete: a fill of one row, a misaligned destination; a job that passes its page's end by one row,
one whose operands overlap, one of no rows, one of one row on plain pages. -/
def row (b : Byte) : SrcRow := ⟨List.replicate 2048 b, true, ⟨0, 0, false⟩, [], none⟩
def arrJob (dst n : Nat) (srcs : List Nat) (d : List (List SrcRow)) : ArrayJob := ⟨5, 0, if srcs = [] then .afill else .acpy, 1, 1, dst, n, srcs, d, 7⟩
theorem witness_ArrayOperationsComplete :
    (let s := paged (.seq 0) (hall [0, 0, 1])
     AtWord s 0 hd [1, 2, 3, 4, 5] ∧ inFlight s 0 < 512 ∧ (s.hall 0).posted = [] ∧ s.ctx? (s.ctxOf 0) = some pctx
     ∧ (let u := refill s 0 .seq ([0].flatMap fun v => pagesOf v (operandBytes v 1))
        arrayCheck u 0 pctx .afill 0 1 [] = none ∧ arrayRejects 1 [0] = false) ∧ pctx.racectl.getLsbD 0 = false
     ∧ (1 ≤ 1024 ∧ ∀ v ∈ [0], v % 2048 = 0 ∧ v + operandBytes v 1 ≤ 0x00FE000000000000)
     ∧ arrayCheck s 0 pctx .afill 1 1 [] ≠ none ∧ 1 % 2048 ≠ 0)
    ∧ (let j := arrJob (0x200000 - 2048) 2 [] []
       ∃ v ∈ j.dst :: j.srcs, 0x200000 < v % 0x200000 + 2048 * j.n)
    ∧ (let j := arrJob 0 2 [2048] []
       anyPair (partOverlap j.n) (j.dst :: j.srcs) = true ∧ ¬ ∃ v ∈ j.dst :: j.srcs, 0x200000 < v % 0x200000 + 2048 * j.n)
    ∧ (arrJob 0 0 [] []).n = 0
    ∧ (let j := arrJob 0 1 [4096] [[row 1]]
       let s := { paged .env (hall []) with arrays := [j] }
       s.MemoryForm ∧ s.arrays.find? (fun q => q.id == 5 && q.hall == 0) = some j ∧ s.ctx? j.ctx = some pctx ∧ s.retiring = [] ∧ s.pmovs = []
       ∧ (¬ ∃ v ∈ j.dst :: j.srcs, 0x200000 < v % 0x200000 + 2048 * j.n) ∧ anyPair (partOverlap j.n) (j.dst :: j.srcs) ≠ true
       ∧ s.ctxOf 0 = j.ctx ∧ pctx.racectl.getLsbD 0 = false ∧ j.dst % 2048 = 0 ∧ rowsOwned s 0 j.ctx j.dst 1 = false
       ∧ rowPA s 0 j.dst = some (0x200000, leaf) ∧ pteAR leaf = false ∧ j.op = .acpy ∧ j.rows = [[row 1]]
       ∧ (∀ r ∈ j.rows.flatten, r.live = true ∧ r.fault = none) ∧ (row 1).data.length = 2048) :=
  ⟨⟨word_at _ _ rfl rfl rfl rfl _, by decide +kernel, rfl, rfl, by decide +kernel, by decide, by decide +kernel, by decide +kernel, by decide⟩,
   by decide, by decide, rfl, mem_form _ _ (by decide +kernel) rfl rfl rfl, rfl, rfl, rfl, rfl, by decide, by decide, rfl, by decide +kernel, rfl,
   by decide +kernel, by decide +kernel, by decide, rfl, rfl, by decide +kernel, List.length_replicate⟩

/-- TensorTableWrites: the last entry number and the first outside; an entry that passes and one whose format is
reserved. -/
theorem witness_TensorTableWrites : AtWord (at0 [255]) 0 hd [1, 2, 3, 4, 5] ∧ ctx.id = (at0 [255]).ctxOf 0
    ∧ (255 : Word).toNat < 256 ∧ 256 ≤ (256 : Word).toNat ∧ (byteEntry 0).defOk = true ∧ (⟨0, 0x000F800000000000, 0, 0⟩ : Tensor).defOk = false :=
  ⟨at_word _ _ rfl rfl rfl _, rfl, by decide, by decide, by decide +kernel, by decide +kernel⟩

/-- MigrationsComplete: a tenant; a misaligned range; no page, a page that may not move, nothing to move, a page to move;
the passes of a job, the last page and one before it. -/
def sysPaged (l : List Word) (m : Cells) : State := { sys (hall l) with ctxs := [(1, { sysCtx with ptroot := 0x10000 })], mem := m }
def arTables : Cells := [(0x10002, 2), (0x10007, 0x80), (0x20002, 3), (0x20007, 0x80), (0x30002, 2), (0x30007, 0xD2)]
def sysP : Ctx := { sysCtx with ptroot := 0x10000 }
theorem witness_MigrationsComplete :
    AtWord (at0 []) 0 hd [1, 2] ∧ (at0 []).isSystem ((at0 []).ctxOf 0) = false
    ∧ (let s := sysPaged [] tables
       AtWord s 0 hd [1, 2] ∧ s.isSystem (s.ctxOf 0) = true ∧ s.ctx? (s.ctxOf 0) = some sysP ∧ 1 % 0x200000 ≠ 0 ∧ s.pmovs = [] ∧ s.arrays = []
       ∧ rangePages s sysP 0 = [(⟨0, 0x200000, 0, true⟩, leaf)] ∧ pteLN leaf = false ∧ pteAR leaf = false ∧ pteHO leaf = false
       ∧ inTier false 0x200000 = true ∧ inTier true 0x200000 = false)
    ∧ rangePages (sysPaged [] []) sysP 0 = []
    ∧ (∃ p, rangePages (sysPaged [] arTables) sysP 0 = [p] ∧ pteAR p.2 = true)
    ∧ (∀ rest, rest = [] ∨ rest = [⟨0, 0, 0, false⟩] →
       let p : PmovPage := ⟨0, 0x10000, 0x40000, false⟩
       let j (d : BitVec 64) (n : Nat) : PmovJob := ⟨2, 0, 1, 0, p :: rest, d, n, 0, 0⟩
       let s (d : BitVec 64) (n : Nat) : State := { State.reset with pmovs := [j d n] }
       (s 1 1).MemoryForm ∧ (j 1 1).dirty ≠ 0 ∧ (j 1 1).pass < 2 ∧ 2 ≤ (j 1 2).pass ∧ (j 0 0).dirty = 0
       ∧ (∀ q ∈ (s 0 0).halls, q.2.l1 = []) ∧ p.src + 0x10000 ≤ p.dst ∧ (s 0 0).ctxs = []
       ∧ p.src % 65536 = 0 ∧ p.dst % 65536 = 0 ∧ p.dst + 0x10000 ≤ 2 ^ 48
       ∧ ∀ i, i < 0x10000 → cget (s 0 0).mem (p.dst + i) = 0)
    ∧ (let s : State := { sysPaged [] tables with pmovs := [⟨2, 0, 1, 0, [⟨0, 0x200000, 0x400000, true⟩], 0, 0, 0, 0⟩] }
       s.ctxs = [(1, sysP)] ∧ 0x30000 ∈ leafEntries s sysP ∧ (leafEntries s sysP).all (fun e => decide (e + 8 ≤ 0x200000)) = true
       ∧ pteHO (entryAt s 0x30000) = false ∧ ptePA (entryAt s 0x30000) = 0x200000
       ∧ ∀ i, cget tables (0x400000 + i) = 0) := by
  refine ⟨at_word _ _ rfl rfl rfl _, rfl, ⟨word_at _ _ rfl rfl rfl rfl _, by decide +kernel, rfl, by decide, rfl, rfl, by decide +kernel,
    by decide, by decide, by decide, by decide, by decide⟩, by decide +kernel, ⟨_, rfl, by decide +kernel⟩, ?_, rfl, by decide +kernel,
    by decide +kernel, by decide +kernel, by decide +kernel, ?_⟩
  rotate_left
  · intro i; simp only [tables, cget]; repeat rw [if_neg (by omega)]
  intro rest _
  refine ⟨⟨rfl, rfl, fun g => ?_⟩, (by decide : (1 : BitVec 64) ≠ 0), (by decide : 1 < 2), Nat.le_refl 2, rfl, List.forall_mem_nil _, by decide, rfl,
    by decide, by decide, by decide, fun _ _ => rfl⟩
  simp [State.reset, State.hall, mget, Hall.reset]; rfl

/-- MatrixWordsComplete: a node with no word that takes MXZ and refuses MMA on absent entries; a word at each of its
turns; an MXRD of another tile accepted beside an MMA, and its next results. -/
def int32Entry : Tensor := ⟨0, 0x0001000000000000, 0, 0⟩
def int8Entry : Tensor := ⟨0, 0x0000800000000000, 0, 0⟩
def busy (w : Instr) (e : Tensor) (step count : Nat) : MxBusy := ⟨w, 0, e, e, int32Entry, step, count, List.replicate 64 0xFFFFFFFF, false⟩
def nodeSt (n : MxNode) : State := st (.mx 0 0) { hall [] with mx := [(0, n)] }
def intTile : MxTile := ⟨.int, false, []⟩
def mmaNode (b : MxBusy) (k : Nat) : MxNode :=
  { MxNode.reset with busy := some b, tiles := intTile :: List.replicate 15 ⟨.none, false, []⟩
                      latA := ⟨List.replicate k 1, [], none⟩, latB := ⟨List.replicate k 2, [], none⟩ }
def mma : Instr := .mma 0 false false false false 1 2 1 false false
theorem witness_MatrixWordsComplete :
    (let s := nodeSt MxNode.reset
     s.cur = .mx 0 0 ∧ ((s.hall 0).node 0).busy = none
     ∧ mxCheck s 0 0 (.mxz 0 true false) (tensorOf s (s.ctxOf 0) 0) (tensorOf s (s.ctxOf 0) 0) (tensorOf s (s.ctxOf 0) 0) = none
     ∧ (∃ c, mxCheck s 0 0 mma (tensorOf s (s.ctxOf 0) 1) (tensorOf s (s.ctxOf 0) 2) (tensorOf s (s.ctxOf 0) 0) = some c
         ∧ c ≠ .integ ∧ ctx.fpol.getLsbD c.code = false)
     ∧ (s.hall 0).bind = some bnd ∧ s.ctx? bnd.task.ctx = some ctx ∧ s.task? bnd.task = some task)
    ∧ (let b := busy mma int8Entry 0 0
       let n := mmaNode b 4096
       let x := (nodeSt n).hall 0
       (x.node 0).busy = some b ∧ n.tiles.length = 16 ∧ n.outs.length = 4 ∧ x.ctlRoom 8 0 0 = true ∧ b.step = 0
       ∧ n.ahead = [] ∧ (n.tile 0).kind ≠ .f64 ∧ (n.tile 0).kind ≠ .pair ∧ n.latA.elems.length = 4096 ∧ b.entC.fmt? = some .int32
       ∧ (n.tile 0).kind = .int ∧ n.badElem = [] ∧ b.count + 8 ≤ 4096 ∧ lget n.outs 0 = [] ∧ b.step ≠ (1 : BitVec 8).toNat)
    ∧ (busy mma int8Entry 1 4096).step = (1 : BitVec 8).toNat ∧ (busy mma int8Entry 1 4096).count = 4096
    ∧ (busy mma int8Entry 0 0).idx.length = 64 ∧ (mmaNode (busy mma int8Entry 0 0) 0).latA.elems.length < 4096
    ∧ lget (busy mma int8Entry 0 0).idx 0 = 0xFFFFFFFF
    ∧ (let b := busy mma int8Entry 0 0
       let i : Instr := .mxrd 1 1 0 false
       let w := { busy i int8Entry 0 4088 with index := 1 }
       let n := { mmaNode b 0 with tiles := List.replicate 16 intTile }
       let s := { nodeSt n with ctxs := [(1, { ctx with tensors := [(1, ⟨0x8000000000000000, 0x0001000000000000, 0, 0⟩)] })] }
       n.busy = some b ∧ resultWord b.word = none ∧ (1 : Fin 16).val ∉ n.writes b ∧ n.ahead = []
       ∧ mxCheck s 0 0 i (tensorOf s (s.ctxOf 0) 0) (tensorOf s (s.ctxOf 0) 0) (tensorOf s (s.ctxOf 0) 1) = none
       ∧ w.word = i ∧ w.index ≠ b.index ∧ w.count + 8 ≤ 4096 ∧ w.entC.fmt? = some .int32 ∧ (n.tile 1).kind = .int ∧ n.badElem = []
       ∧ n.outs.length = 4 ∧ lget n.outs 0 = []) :=
  ⟨⟨rfl, rfl, by decide +kernel, ⟨_, rfl, by decide, by decide⟩, rfl, rfl, rfl⟩,
   ⟨rfl, rfl, rfl, by decide +kernel, rfl, rfl, by decide, by decide, by simp [mmaNode], by decide +kernel, rfl, rfl, by decide, rfl, by decide⟩,
   by decide, rfl, by decide, by decide, by decide, by decide +kernel⟩

/-- MatrixStepMultiplies: the first step of an MMA that accumulates nothing, and one that goes on from cells of 0. -/
theorem witness_MatrixStepMultiplies :
    (let b := busy mma int8Entry 0 0
     let n := mmaNode b 4096
     ((nodeSt n).hall 0).node 0 = n ∧ n.busy = some b ∧ b.step ≠ (1 : BitVec 8).toNat ∧ b.entA.fmt? = some .int8 ∧ b.entB.fmt? = some .int8
     ∧ n.latA.elems.length = 4096 ∧ n.latB.elems.length = 4096 ∧ n.badElem = [] ∧ n.tiles.length = 16
     ∧ (b.step ≠ 0 → (n.tile 0).kind = .int) ∧ b.idx.length = 64
     ∧ (∀ i j : Nat, i < 64 → j < 64 → -(2 ^ 46) ≤ ((mget (n.tile 0).cells (64 * i + j) 0).truncate 48).toInt
         ∧ ((mget (n.tile 0).cells (64 * i + j) 0).truncate 48).toInt ≤ 2 ^ 46)) := by
  refine ⟨rfl, rfl, by decide, by decide +kernel, by decide +kernel, by simp [mmaNode], by simp [mmaNode], rfl, rfl, fun h => absurd rfl h, rfl, ?_⟩
  intro i j _ _
  have e : ((mget (MxNode.tile (mmaNode (busy mma int8Entry 0 0) 4096) 0).cells (64 * i + j) 0).truncate 48).toInt = 0 := rfl
  rw [e]; decide

/-- A facet whose element registers hold one 32-bit element each, but e1 (8 bits), e2 (a stop token). -/
def fct : Facet := { Facet.reset 8 with e := [⟨0x0800, 7, false⟩, ⟨0, 7, false⟩, ⟨0x4000, 0, false⟩] ++ List.replicate 5 ⟨0x0800, 3, false⟩ }
def fctSt (F : Facet) : State := st (.facet 0 8 0) { hall [] with facets := [(8, F)] }

theorem at_rule (F : Facet) (f : FHdr) (need : Nat) (srcs : List Opnd) (h1 : F.chansStand f need = true)
    (h2 : srcs.all F.present = true) (h3 : F.headerFault srcs = none := by rfl) : AtRule (fctSt F) 0 8 0 f need srcs ctx where
  cur := rfl
  chans := h1
  present := h2
  ctx := rfl
  races := by decide
  sound := rfl
  heads := h3

theorem clean (F : Facet) (d : Opnd) (srcs : List Opnd) (fw : Option Nat) (sh : Shape) (w : Nat)
    (h1 : (F.lead srcs).all isData = true) (h2 : F.streamFault srcs fw = none)
    (h3 : srcLens { hall [] with facets := [(8, F)] } 8 F srcs = false)
    (h4 : firstAlign F ((d, w) :: srcs.map (fun k => (k, sh.w))) = none) :
    CleanElements { hall [] with facets := [(8, F)] } 8 d srcs fw sh w where
  data := by intro t ht; have ht' : F.lead srcs = some t := ht; rw [ht'] at h1; exact h1
  stream := h2
  lens := h3
  aligned := h4

/-- FacetIntegerRulesFire, FacetFloatRulesFire: clean sources with each number of operands, and a stop that leads. -/
theorem witness_FacetRulesFire :
    (∀ srcs, srcs = [.e 0] ∨ srcs = [.e 0, .e 3] ∨ srcs = [.e 0, .e 3, .e 4] →
      AtRule (fctSt fct) 0 8 0 fh 1 srcs ctx
      ∧ CleanElements ((fctSt fct).hall 0) 8 (.e 5) srcs none (fct.shape srcs 32) (fct.shape srcs 32).w
      ∧ CleanElements ((fctSt fct).hall 0) 8 (.e 5) srcs (some 32) (fct.shape srcs 32) 32)
    ∧ AtRule (fctSt fct) 0 8 0 fh 1 [.e 2] ctx ∧ fct.lead [.e 2] = some ⟨0x4000, 0, false⟩ ∧ isData ⟨0x4000, 0, false⟩ = false
    ∧ fct.streamFault [.e 2] none = none ∧ fct.streamFault [.e 2] (some 32) = none := by
  refine ⟨?_, at_rule _ _ _ _ rfl rfl, rfl, rfl, by decide +kernel, by decide +kernel⟩
  intro srcs h
  rcases h with rfl | rfl | rfl <;>
    exact ⟨at_rule _ _ _ _ rfl rfl, clean _ _ _ _ _ _ (by decide +kernel) (by decide +kernel) (by decide +kernel) (by decide +kernel),
      clean _ _ _ _ _ _ (by decide +kernel) (by decide +kernel) (by decide +kernel) (by decide +kernel)⟩

theorem test_imad : after (exec (.imad fh (.e 5) (.e 0) (.e 3) (.e 4) 0) (fctSt fct)) (fun t => (lget ((t.hall 0).facet 8).e 5).pay) = some 24 := by
  decide +kernel
theorem test_isub_wraps : after (exec (.isub fh (.e 5) (.e 3) (.e 0) 0) (fctSt fct)) (fun t => (lget ((t.hall 0).facet 8).e 5).pay)
    = some 0xFFFFFFFC := by decide +kernel
/-- 1.0 + 2.0 = 3.0 in FP32. -/
theorem test_fadd : after (exec (.fadd fh (.e 5) (.e 0) (.e 3) .f32)
    (fctSt { fct with e := [⟨0x0800, 0x3F800000, false⟩, ⟨0, 0, false⟩, ⟨0, 0, false⟩, ⟨0x0800, 0x40000000, false⟩, ⟨0, 0, false⟩, ⟨0, 0, false⟩] }))
    (fun t => (lget ((t.hall 0).facet 8).e 5).pay) = some 0x40400000 := by decide +kernel

/-- FacetConversionsFire: narrowing, widening, narrowing with a scale, a scale header, and data under latched scales. -/
def scaleTok : Token := ⟨0x8008, 0x7F, false, 0x0101, false⟩
def dataTok : Token := ⟨0x0008, 0x38, false, 0x0101, false⟩
def withIn (t : Token) : Facet := { fct with ins := [[t], [], [], []] }
theorem witness_FacetConversionsFire :
    (AtRule (fctSt fct) 0 8 0 fh 1 [.e 0] ctx
      ∧ CleanElements ((fctSt fct).hall 0) 8 (.e 5) [.e 0] (some 32) (fct.shape [.e 0] 32) 8
      ∧ CleanElements ((fctSt fct).hall 0) 8 (.e 5) [.e 1] (some 8) (fct.shape [.e 1] 8) 32)
    ∧ (AtRule (fctSt fct) 0 8 0 fh 1 [.e 0, .e 1] ctx ∧ (∀ t, fct.lead [.e 0, .e 1] = some t → isData t = true)
      ∧ fct.streamFault [.e 0] (some 32) = none ∧ (fct.shape [.e 0, .e 1] 32).w = 32
      ∧ (∀ t, fct.tok (.e 1) = some t → t.hdr ≠ emptyMark) ∧ srcLens ((fctSt fct).hall 0) 8 fct [.e 0, .e 1] = false
      ∧ firstAlign fct ((.e 5, 8) :: [.e 0, .e 1].map (fun k => (k, 32))) = none)
    ∧ (AtRule (fctSt (withIn scaleTok)) 0 8 0 { fh with ins := 1 } 1 [.deq 0] ctx
      ∧ (withIn scaleTok).tok (.deq 0) = some ⟨scaleTok.hdr, scaleTok.pay, false⟩ ∧ hdrKind scaleTok.hdr = 2
      ∧ latchScales (lget (withIn scaleTok).latch 0) = [])
    ∧ (let F := { withIn dataTok with latch := [some ⟨[0x7F], 0, false, true, false, false⟩, none, none, none] }
       AtRule (fctSt F) 0 8 0 { fh with ins := 1 } 1 [.deq 0] ctx ∧ F.tok (.deq 0) = some ⟨dataTok.hdr, dataTok.pay, false⟩
       ∧ isData ⟨dataTok.hdr, dataTok.pay, false⟩ = true ∧ (∃ ks l, latchTakes (hdrLen dataTok.hdr) (lget F.latch 0) = some (ks, l) ∧ ∀ q, l = some q → q.lens = false)
       ∧ F.streamFault [.deq 0] (some 8) = none ∧ firstAlign F [(.e 5, 32)] = none) := by
  refine ⟨⟨at_rule _ _ _ _ rfl rfl, clean _ _ _ _ _ _ (by decide +kernel) (by decide +kernel) (by decide +kernel) (by decide +kernel),
      clean _ _ _ _ _ _ (by decide +kernel) (by decide +kernel) (by decide +kernel) (by decide +kernel)⟩,
    ⟨at_rule _ _ _ _ rfl rfl, ?_, by decide +kernel, by decide +kernel, ?_, by decide +kernel, by decide +kernel⟩,
    ⟨at_rule _ _ _ _ rfl rfl, rfl, by decide +kernel, rfl⟩,
    ⟨at_rule _ _ _ _ rfl rfl, rfl, rfl, ⟨_, _, rfl, fun q h => by cases h; rfl⟩, by decide +kernel, by decide +kernel⟩⟩
  · intro t h; cases h; rfl
  · intro t h; cases h; decide

/-- FacetTokenRulesFire: each rule's operands; a cut inside the token and one at its end; HDR of 8-bit data. -/
theorem witness_FacetTokenRulesFire :
    AtRule (fctSt (withIn dataTok)) 0 8 0 { fh with ins := 1 } 1 [.deq 0] ctx
    ∧ AtRule (fctSt (withIn dataTok)) 0 8 0 { fh with ins := 1, outs := 1 } 2 [.deq 0, .e 1] ctx
    ∧ (withIn dataTok).tok (.deq 0) = some ⟨dataTok.hdr, dataTok.pay, false⟩ ∧ (withIn dataTok).tok (.e 1) = some ⟨0, 7, false⟩
    ∧ (let F := { fct with e := ⟨0x0880, 7, false⟩ :: fct.e.drop 1 }
       AtRule (fctSt F) 0 8 0 { fh with outs := 1 } 2 [.e 0, .imm] ctx ∧ F.tok (.e 0) = some ⟨0x0880, 7, false⟩
       ∧ (0x0880 : BitVec 16) ≠ emptyMark
       ∧ (1 ≤ splitCount F .imm 1 ∧ splitCount F .imm 1 < hdrLen 0x0880) ∧ ¬ (1 ≤ splitCount F .imm 2 ∧ splitCount F .imm 2 < hdrLen 0x0880))
    ∧ AtRule (fctSt fct) 0 8 0 fh 1 [] ctx ∧ AtRule (fctSt fct) 0 8 0 fh 1 [.e 1] ctx ∧ fct.tok (.e 1) = some ⟨0, 7, false⟩
    ∧ isData ⟨0, 7, false⟩ = true ∧ bankAlign fct (.e 5) (hdrWid 0) = none ∧ hdrWid 0 = 8
    ∧ ((fctSt fct).hall 0).ctlRoom 2 0 0 = true ∧ ((fctSt { fct with ci := [1, 0] }).hall 0).ctlCount 2 0 0 ≠ 0 :=
  ⟨at_rule _ _ _ _ rfl rfl, at_rule _ _ _ _ rfl rfl, rfl, rfl, ⟨at_rule _ _ _ _ rfl rfl, rfl, by decide, by decide +kernel, by decide +kernel⟩,
   at_rule _ _ _ _ rfl rfl, at_rule _ _ _ _ rfl rfl, rfl, rfl, by decide +kernel, by decide +kernel, by decide +kernel, by decide +kernel⟩

/-- FacetBankRulesFire: words that stand full and empty at the end of the bank, where an access wraps. -/
def bankFct : Facet := { fct with a := [0x3FFF, 0, 0, 0] }
theorem witness_FacetBankRulesFire : ctx.mirror.mode = .off ∧ ((fctSt bankFct).hall 0).inLens 8 = false
    ∧ AtRule (fctSt bankFct) 0 8 0 fh 1 [] ctx ∧ bankAlign bankFct (.e 5) 32 = none
    ∧ bankWords ((fctSt bankFct).hall 0) 8 (4 * ((lget bankFct.a 0).toNat % 16384)) 8 = [16383, 0]
    ∧ (let x : Hall := { hall [] with facets := [(8, bankFct)], full := [0, 16383] }
       (∀ q ∈ bankWords x 8 (4 * ((lget bankFct.a 0).toNat % 16384)) 8, q ∈ x.full) ∧ ∀ q, x.full.count q ≤ 1)
    ∧ AtRule (fctSt bankFct) 0 8 0 fh 1 [.e 0] ctx ∧ (∀ t, bankFct.lead [.e 0] = some t → isData t = true)
    ∧ bankFct.streamFault [.e 0] none = none ∧ (bankFct.shape [.e 0] 32).w = 32 ∧ bankAlign bankFct (.e 0) 32 = none
    ∧ (∀ w ∈ bankWords ((fctSt bankFct).hall 0) 8 65532 4, w ∉ ((fctSt bankFct).hall 0).full)
    ∧ srcLensOne bankFct (.e 0) = false ∧ firstAlign bankFct [(.e 5, 32), (.e 0, 32)] = none
    ∧ AtRule (fctSt bankFct) 0 8 0 fh 1 [.e 0, .e 3] ctx
    ∧ (∀ t, bankFct.tok (.e 3) = some t → isData t = true ∧ hdrLen t.hdr = (bankFct.shape [.e 0, .e 3] 32).n ∧ t.hdr ≠ emptyMark) := by
  refine ⟨rfl, rfl, at_rule _ _ _ _ rfl rfl, by decide +kernel, by decide +kernel, ⟨by decide +kernel, ?_⟩, at_rule _ _ _ _ rfl rfl, ?_,
    by decide +kernel, by decide +kernel, by decide +kernel, by decide +kernel, by decide +kernel, by decide +kernel, at_rule _ _ _ _ rfl rfl, ?_⟩
  · intro w; simp only [List.count_cons, List.count_nil, beq_iff_eq]; split <;> split <;> omega
  · intro t h; cases h; rfl
  · intro t h; cases h; decide +kernel

/-- FacetCyclesAndOperandForms: an empty pool, a pool with one rule that is always eligible, a slot whose counter has
reached 1024 and one whose counter has not. -/
def ready (F : Facet) : State := st .env { hall [] with facets := [(8, F)], stores := [(16, [⟨0x0101, false⟩])] }
theorem witness_FacetCyclesAndOperandForms :
    (let F := { fct with installed := true }
     let x := (ready F).hall 0
     x.res = .running ∧ x.held = false ∧ x.hold = false ∧ x.split ≤ 8 ∧ (ready F).firing = [] ∧ x.config (boxOf 2 0) = .ok
     ∧ x.facet 8 = F ∧ (∀ c, c < 4 → ∀ t rest, lget F.ins c = t :: rest → hdrBad t.hdr = false)
     ∧ eligibleSlots 0 8 F.slots (ready F) = ([], [], ready F))
    ∧ (let F := { fct with installed := true, pool := [0x9000000140000000] }
       ∃ a, eligibleSlots 0 8 F.slots (ready F) = ([a], [], ready F)
         ∧ F.chansStand a.r.hdr (outNeed a.i) = true ∧ (∀ u ∈ a.r.units, F.busy u = 0) ∧ a.slot < 16)
    ∧ (let F := { fct with starve := 1024 :: List.replicate 15 0, reached := 1 }
       F.reached.getLsbD 0 = true ∧ F.reached.getLsbD 1 = false ∧ (ready F).ctx? ((ready F).ctxOf 0) = some ctx ∧ ctx.id = (ready F).ctxOf 0)
    ∧ fct.e[0]? = some ⟨0x0800, 7, false⟩ ∧ (lget (withIn dataTok).ins 0).head? = some dataTok ∧ (0 : Nat) < (fct.shape [.e 0] 32).n
    ∧ (0 : Nat) < fct.e.length ∧ (0 : Nat) < fct.outs.length ∧ (0 : Nat) < fct.a.length ∧ hdrKind 0 = 0 ∧ Memory.wf (hall []).scratch = true := by
  refine ⟨⟨rfl, rfl, rfl, by decide, rfl, by decide +kernel, rfl, ?_, rfl⟩,
    ⟨_, rfl, by decide +kernel, by decide +kernel, by decide +kernel⟩,
    ⟨by decide, by decide, rfl, rfl⟩, rfl, rfl, by decide +kernel, by decide, by decide, by decide, rfl, rfl⟩
  intro c hc t rest h
  have : lget (List.replicate 4 ([] : List Token)) c = t :: rest := h
  rcases c with _ | _ | _ | _ | c <;> cases this

/-! ### Prism units, AG tiles and ports -/

/-- 64 elements of 32 bits, one-dimensional, in the scratchpad. -/
def level64 (o : Nat) : Tensor := ⟨BitVec.ofNat 64 (0x80FE000000000000 + o), 0x0001000000000000, 0x3F, 0⟩
def unitSt (px py : Nat) (u : Machine.PUnit) : State := st (.unit 0 px py) { hall [] with units := [(8 * px + py, u)] }
/-- One element of 32 bits. -/
def dat (v : BitVec 256) : Token := ⟨0x0800, v, false, 0x0101, false⟩
def stopTok (l : Nat) : Token := ⟨stopHdr l, 0, false, 0x0101, false⟩
def doneTok : Token := ⟨doneHdr, 0, false, 0x0101, false⟩
def inU (a b c d : List Token) : Machine.PUnit := { PUnit.reset with ins := [a, b, c, d] }
/-- 64 elements of 32 bits in a lens page at VA 0. -/
def lensLevel : Tensor := ⟨0x8000000000000000, 0x0021000000000000, 0x3F, 0⟩
def lensSt (u : Machine.PUnit) : State :=
  { unitSt 7 0 u with
    ctxs := [(1, { pctx with domains := [⟨2, .lens, false, false, 0⟩] })]
    mem := [(0x10002, 2), (0x10007, 0x80), (0x20002, 3), (0x20007, 0x80), (0x30002, 2), (0x30005, 0x20), (0x30007, 0xF0)] }
def entsOf (a b : Option Tensor) : List (Option Tensor) := [a, b] ++ List.replicate 14 none

theorem test_scand : after (exec (.scand 0 0 3 false) (unitSt 7 0 { PUnit.reset with cur := some 2, pos := 1, fib := 4 }))
    (fun t => ((lget (t.unitAt 0 7 0).pack 0).elems, (lget (t.unitAt 0 7 0).pack 1).elems)) = some ([1], [9]) := by decide +kernel
theorem test_isect_drops : after (exec (.isect 0 2 0 2) (unitSt 7 0 (inU [dat 3] [dat 30] [dat 5] [dat 50])))
    (fun t => ((t.unitAt 0 7 0).ins.map (·.length), (lget (t.unitAt 0 7 0).pack 0).elems)) = some ([0, 0, 1, 1], []) := by decide +kernel
theorem test_rdce : after (exec (.rdce 0 0 0 .int32) (unitSt 7 0 { inU [dat 5] [] [] [] with acc := some 0xFFFFFFFE }))
    (fun t => (t.unitAt 0 7 0).acc) = some (some 3) := by decide +kernel

/-- What an element access gives, and that it leaves hall 0 and its scratch as they are. -/
def gives {α : Type} [BEq α] (r : Machine.Res α) (v : α) (s : State) : Bool :=
  match r with | .ok w q => w == v && q.hall 0 == s.hall 0 && q.halls == s.halls | _ => false

/-- ScannersStep: the end of a fibre and its last position but none; positions read from a level in the scratchpad, the
bit set and clear; a reference, the empty one, one whose closure is owed; a stop of the highest level that leaves; a level
in a lens page, and a lens-marked reference. -/
theorem witness_ScannersStep :
    nodeAt 7 0 = .prism
    ∧ (let u : Machine.PUnit := { PUnit.reset with cur := some 0, pos := 3, fib := 4, ents := entsOf (some (level64 0)) none }
       let s := unitSt 7 0 u
       s.cur = .unit 0 7 0 ∧ s.unitAt 0 7 0 = u ∧ u.pos < u.fib ∧ ({ u with pos := 4 }).fib ≤ ({ u with pos := 4 }).pos
       ∧ (lget u.pack 2).elems.length < 7 ∧ (lget u.pack 3).elems.length < 7 ∧ u.pack.length = 4
       ∧ gives (levelRead s 0 (portOf 0) (u.ent 0) 3) 0 s = true
       ∧ gives (levelRead s 0 (portOf 0) (u.ent 0) (0 * ((4 + 31) / 32) + 3 / 32)) 0 s = true
       ∧ nbit 0 3 = false ∧ nbit 8 3 = true)
    ∧ (let u : Machine.PUnit := { inU [dat 4] [] [] [] with ents := entsOf (some (level64 0)) (some (level64 256)) }
       let s := unitSt 7 0 u
       u.cur = none ∧ u.head 0 32 false = .data 4 ∧ u.owed = false ∧ (u.ents.getD 0 none).isSome = true ∧ (u.ents.getD 1 none).isSome = true
       ∧ gives (levelRead s 0 (portOf 0) (u.ent 1) 4) 0 s = true ∧ gives (levelRead s 0 (portOf 0) (u.ent 1) 5) 0 s = true
       ∧ (inU [dat 0xFFFFFFFF] [] [] []).head 0 32 false = .data 0xFFFFFFFF)
    ∧ (let u : Machine.PUnit := { inU [dat 4] [] [] [] with owed := true }
       u.cur = none ∧ u.head 0 32 false = .data 4 ∧ u.owed = true ∧ (lget u.pack 0).elems = [] ∧ (lget u.pack 1).elems = []
       ∧ lget u.outs 0 = [] ∧ lget u.outs 1 = [] ∧ u.outs.length = 4)
    ∧ (let u : Machine.PUnit := { inU [stopTok 6] [] [] [] with ents := entsOf (some (level64 0)) (some (level64 256)) }
       u.cur = none ∧ u.head 0 32 false = .stop 6 ∧ (u.ents.getD 0 none).isSome = true ∧ (u.ents.getD 1 none).isSome = true)
    ∧ (inU [stopTok 0] [] [] []).head 0 32 false = .stop 0
    ∧ (let u : Machine.PUnit := { PUnit.reset with cur := some 0, pos := 3, fib := 4, ents := entsOf (some lensLevel) none }
       let s := lensSt u
       u.cur = some 0 ∧ u.pos < u.fib
       ∧ (match portRead s 0 (portOf 0) (u.ent 0) (level u.pos) with | .ok v _ => v.2 | _ => false) = true)
    ∧ (let u := inU [{ dat 4 with lens := true }] [] [] []
       u.cur = none ∧ ((unitFault (unitSt 7 0 u) 0 7 0 0 0 .lens 0).unitAt 0 7 0).delivered = u.delivered) := by
  refine ⟨by decide, ⟨rfl, rfl, by decide, by decide, by decide, by decide, rfl, by decide +kernel, by decide +kernel, by decide, by decide⟩,
    ⟨rfl, by decide +kernel, rfl, rfl, rfl, by decide +kernel, by decide +kernel, by decide +kernel⟩,
    ⟨rfl, by decide +kernel, rfl, rfl, rfl, rfl, rfl, rfl⟩, ⟨rfl, by decide +kernel, rfl, rfl⟩, by decide +kernel,
    ⟨rfl, by decide, by decide +kernel⟩, rfl, by decide +kernel⟩

/-- FibreWordsStep: three pairs of coordinates in order; a repeat, its eighth element and its first; a sum begun, gone on
and emitted; a coordinate stored at the last place and the end of a pass. -/
theorem witness_FibreWordsStep :
    (∀ ca cb : BitVec 256, (ca, cb) = (3, 5) ∨ (ca, cb) = (5, 3) ∨ (ca, cb) = (4, 4) →
      let u := inU [dat ca] [dat 30] [dat cb] [dat 50]
      u.head 0 32 false = .data ca.toNat ∧ u.head 1 32 false = .data 30 ∧ u.head 2 32 false = .data cb.toNat
      ∧ u.head 3 32 false = .data 50 ∧ u.orderOk 0 ca.toNat = true ∧ u.orderOk 2 cb.toNat = true
      ∧ (lget u.pack 0).elems.length < 3 ∧ (lget u.pack 1).elems.length < 3 ∧ (lget u.pack 2).elems.length < 3 ∧ u.pack.length = 4)
    ∧ (let u : Machine.PUnit := { inU [dat 9] [dat 1] [] [] with cur := some 7 }
       u.head 1 32 false = .data 1 ∧ u.head 0 32 false = .data 9 ∧ u.cur = some 7
       ∧ (let v : Machine.PUnit := { u with pack := [⟨List.replicate 7 7, 32, false⟩] ++ List.replicate 3 ⟨[], 0, false⟩ }
          (lget v.pack 0).elems.length = 7 ∧ v.pack.length = 4 ∧ lget v.outs 0 = [] ∧ v.outs.length = 4))
    ∧ (inU [dat 5] [] [] []).head 0 Fmt.int32.slot true = .data 5 ∧ (inU [dat 5] [] [] []).acc = none
    ∧ (inU [stopTok 2] [] [] []).head 0 Fmt.int32.slot true = .stop 2 ∧ (inU [stopTok 2] [] [] []).owed = false
    ∧ (let u : Machine.PUnit := { inU [dat 5] [] [] [] with pos := 63, inPass := true, ents := entsOf (some (level64 0)) none }
       let s := unitSt 7 0 u
       u.head 0 32 false = .data 5 ∧ (u.ents.getD 0 none).isSome = true ∧ u.orderOk 0 5 = true
       ∧ (match portWrite s 0 (portOf 0) 2 (u.ent 0) (level 63) 0 with | .ok _ q => q.hall 0 == s.hall 0 | _ => false) = true)
    ∧ (inU [doneTok] [] [] []).head 0 32 false = .done := by
  refine ⟨?_, by decide +kernel, by decide +kernel, rfl, by decide +kernel, rfl, ⟨by decide +kernel, rfl, by decide +kernel, by decide +kernel⟩,
    by decide +kernel⟩
  intro ca cb h; rcases h with h | h | h <;> cases h <;> decide +kernel

/-- AddressTilesStep: the start of a pass, a counter below its limit and at it, the outermost and an inner one, the end
of the pass, and a read stream at the last element its counter names. -/
theorem witness_AddressTilesStep :
    nodeAt 0 1 = .ag ∧ (unitSt 0 1 PUnit.reset).cur = .unit 0 0 1 ∧ PUnit.reset.counters.all (fun c => c.1 ≤ 0) = true
    ∧ PUnit.reset.inPass = false ∧ PUnit.reset.startDone = false
    ∧ (let u : Machine.PUnit := { PUnit.reset with inPass := true, pos := 1, ctrs := [3, 0, 0, 0] }
       u.pos = 0 + 1 ∧ lget u.ctrs 0 < (4 : BitVec 16).toNat ∧ (3 : BitVec 16).toNat ≤ lget u.ctrs 0)
    ∧ ({ PUnit.reset with inPass := true, pos := 6 } : Machine.PUnit).pos = 6
    ∧ (let w : Nat := (encode (.agen 0 0 0 1 false 0 1 0 false)).getD 0
       let u : Machine.PUnit := { PUnit.reset with words := [BitVec.ofNat 64 w], inPass := true, pos := 0, ctrs := [63, 0, 0, 0]
                                                   ents := entsOf (some (level64 0)) none }
       let s := unitSt 0 1 u
       u.streams = [⟨0, 0, 0, 1, false, 0, 1, 0, false⟩] ∧ (u.ents.getD 0 none).isSome = true ∧ u.pack.length = 4
       ∧ (lget u.pack 0).elems.length < 3
       ∧ gives (portRead s 0 (agTlb 0 1 0) (u.ent 0) ⟨63, 0, 0, 0⟩) (0, false) s = true) :=
  ⟨rfl, rfl, by decide +kernel, rfl, rfl, by decide, rfl, by decide +kernel, rfl, rfl, by decide, by decide +kernel⟩

/-- MemoryPortsStep: the start of a pass; its last element read and written; its end; an index, the empty one; a value
stored and one skipped; a unit whose next step has no token, and one that stops on a lens-marked index. -/
def stored (r : Machine.Res Unit) (s : State) : Bool := match r with | .ok _ q => q.hall 0 == s.hall 0 | _ => false
theorem witness_MemoryPortsStep :
    nodeAt 0 0 = .mp ∧ (unitSt 0 0 PUnit.reset).cur = .unit 0 0 0 ∧ PUnit.reset.inPass = false ∧ PUnit.reset.startDone = false
    ∧ (let u : Machine.PUnit := { inU [dat 5] [] [] [] with inPass := true, step := 63, ents := entsOf (some (level64 0)) none }
       let s := unitSt 0 0 u
       let e := u.ent 0
       (u.ents.getD 0 none).isSome = true ∧ u.step < e.count ∧ e.sfmt = 0 ∧ (lget u.pack 0).elems.length < 3 ∧ u.pack.length = 4
       ∧ gives (portRead s 0 (.mport 0) e (e.idx u.step)) (0, false) s = true
       ∧ u.head 0 e.fmt.slot false = .data 5 ∧ stored (portWrite s 0 (.mport 0) 1 e (e.idx u.step) 0) s = true
       ∧ e.count ≤ 64)
    ∧ (let u : Machine.PUnit := { inU [dat 63] [dat 5] [] [] with ents := entsOf (some (level64 0)) none }
       let s := unitSt 0 0 u
       u.head 0 32 false = .data 63 ∧ u.head 1 (u.ent 0).fmt.slot false = .data 5 ∧ (u.ents.getD 0 none).isSome = true ∧ u.reqs = []
       ∧ 63 < (u.ent 0).count ∧ (u.ent 0).fmt = .int32
       ∧ (match gathRead 0 0 0 0 (u.ent 0) false 63 (lget u.delivered 0) s with
          | .ok v q => v == (0, false) && decide (q.unitAt 0 0 0 = { u with snaps := (q.unitAt 0 0 0).snaps })
          | _ => false) = true
       ∧ stored (portWrite s 0 (.mport 0) 1 (u.ent 0) ((u.ent 0).idx 63) 0) s = true)
    ∧ (inU [dat 0xFFFFFFFF] [] [] []).head 0 32 false = .data 0xFFFFFFFF
    ∧ (∀ c ∈ [({ dat 1 with lens := true }, none), (⟨0x8000, 0, false, 0x0101, false⟩, some StreamCase.kind)],
       let bad : Token := c.1
       let w : Nat := (encode (.gath 0 0 0 1 false false)).getD 0
       let u : Machine.PUnit := { inU [bad] [] [] [] with words := [BitVec.ofNat 64 w], installed := true
                                                          ents := entsOf (some (level64 0)) none }
       let x : Hall := { hall [] with units := [(0, u)], stores := [(0, [⟨0x0101, false⟩])] }
       let s := st .env x
       unitNext s 0 0 0 = .inl (.gath 0 0 0 1 false false, s) ∧ (s.unitAt 0 0 0).head 0 32 false = .bad c.2
       ∧ (s.hall 0).bind = some bnd ∧ s.ctx? bnd.task.ctx = some ctx ∧ s.task? bnd.task = some task
       ∧ ctx.fpol.getLsbD (if c.2.isSome then Cause.stream else Cause.lens).code = false)
    ∧ unitNext (unitSt 0 0 PUnit.reset) 0 0 0 = .inr (unitSt 0 0 PUnit.reset) := by
  refine ⟨rfl, rfl, rfl, rfl, ⟨rfl, by decide +kernel, by decide +kernel, by decide, rfl, by decide +kernel, by decide +kernel, by decide +kernel,
    by decide +kernel⟩, ⟨by decide +kernel, by decide +kernel, rfl, rfl, by decide +kernel, by decide +kernel, by decide +kernel, by decide +kernel⟩,
    by decide +kernel, ?_, rfl⟩
  intro c hc
  rcases List.mem_cons.1 hc with rfl | hc
  · exact ⟨rfl, by decide +kernel, rfl, rfl, rfl, by decide +kernel⟩
  · rcases List.mem_singleton.1 hc with rfl
    exact ⟨rfl, by decide +kernel, rfl, rfl, rfl, by decide +kernel⟩

/-! ### Sessions and the integrity horizon -/

def ses : Session := { (default : Session) with handle := 3, sid := 9, nrq := 1, rc := 1, skd := pteKD leaf }
def sesCtx : Ctx := { pctx with sessions := [ses] }
def sesHall (l : List Word) (m : Cells) : Hall := { hall l with tlb := [⟨.seq, 0, true, leaf⟩, ⟨.ce, 0, true, leaf⟩], scratch := m }
def sesSt (c : Agent) (l : List Word) (m : Cells) : State :=
  { st c (sesHall l m) with
    ctxs := [(1, sesCtx)]
    mem := tables }

/-- An engine access that ends well, with what it gives as said. -/
def moved {α : Type} (m : Moved α) (p : α → State → Bool) : Bool := match m with | .ok a u => p a u | _ => false

/-- SessionWordsComplete: ranges of one page, the first misaligned address, handles at 255 and past it, an open handle and
one not open, a counter near its end; IWAIT with no check under way, with one of its own hall and one of another, its
horizon fixed or not. -/
theorem witness_SessionWordsComplete :
    (let s := sesSt (.seq 0) [0, 0x1000, 0x2000, 64, 3] []
     AtWord s 0 hd [1, 2, 3, 4, 5] ∧ s.ctx? (s.ctxOf 0) = some sesCtx ∧ sesCtx.id = s.ctxOf 0 ∧ sesCtx.mirror.mode = .off
     ∧ (let ud := checkPages s 0 [(0x1000, 80 + min 64 (2 ^ 24)), (0x2000, 64)]
        sdecCheck ud 0 0x1000 0x2000 64 3 = none ∧ (∃ f, sdecCheck ud 0 0x1000 0x2000 64 255 = some f))
     ∧ (let ue := checkPages s 0 [(0x1000, 64), (0x2000, 80 + min 64 (2 ^ 24))]
        sencCheck ue 0 0x1000 0x2000 64 3 = none ∧ (∃ f, sencCheck ue 0 0x1000 0x2000 64 256 = some f))
     ∧ (∃ f, usesigCheck (checkPages s 0 [(0x1000, 51872), (0x2000, 32)]) 0 4 0x1000 0x2000 = some f) ∧ 0x1001 % 64 ≠ 0
     ∧ (s.hall 0).posted = [] ∧ ({ s.hall 0 with posted := [⟨0x00FE000000000000, 0, false, .add, 1, 0, .dflt, []⟩] } : Hall).posted ≠ []
     ∧ (s.hall 0).horizon = none ∧ s.checks = [] ∧ sesCtx.integ = false
     ∧ (let c (g n : Nat) : Check := ⟨g, 1, g, 5, n, 0⟩
        let t := { s with checks := [c 0 9, c 1 9] }
        c 0 9 ∈ t.checks ∧ (c 0 9).ctx = t.ctxOf 0 ∧ ¬ (c 1 9).epoch < (t.clock (t.ctxOf 0) 0).getD 1 0)
     ∧ (let y : Hall := { s.hall 0 with horizon := some [7] }
        y.horizon = some [7] ∧ (7 : Nat) ∈ [7]))
    ∧ (let s := sesSt (.seq 0) [0, 3, 0x2000, 0x00FE000000004000] []
       let us := checkPages s 0 [(0x2000, 51872), (0x00FE000000004000, 32)]
       usesigCheck us 0 3 0x2000 0x00FE000000004000 = none ∧ us.sigs.length < 16 ∧ sesCtx.session? 3 = some ses
       ∧ moved (engineRead us 0 0x00FE000000004000 32) (fun nonce u => u == { us with recs := u.recs } && nonce != []) = true)
    ∧ (let s := sesSt (.seq 0) [0, 255] []
       (255 < (256 : Word).toNat) ∧ (255 : Word).toNat ≤ 255 ∧ sessionOpen s (s.ctxOf 0) 255 = false ∧ sesCtx.session? 3 = some ses
       ∧ ses.closing = false) := by
  refine ⟨⟨word_at _ _ rfl rfl rfl rfl _, rfl, rfl, rfl, ⟨by decide +kernel, ⟨_, rfl⟩⟩, ⟨by decide +kernel, ⟨_, rfl⟩⟩, ⟨_, rfl⟩, by decide, rfl, by decide, rfl, rfl, rfl,
    by decide +kernel, by decide⟩, ⟨by decide +kernel, by decide, by decide +kernel, by decide +kernel⟩, ?_⟩
  decide +kernel

/-- An envelope header with a form, SID, counter and length, at scratch offset 0x1000. -/
def envelope (magic sid ctr len : Byte) : Cells :=
  (if magic = 0 then [] else [(0x1000, magic)])
    ++ [(0x1001, 0x45), (0x1002, 0x56), (0x1003, 0x4E), (0x1004, 1), (0x1006, 1), (0x1008, sid), (0x1010, ctr)]
    ++ (if len = 0 then [] else [(0x1018, len)])
def req (st : Bool) (d : List Byte) : CryptoJob := ⟨5, 0, 1, 1, 3, 0x00FE000000001000, 0x2000, 64, d, 2, st, false, [], none⟩
/-- A job is the first of its session. -/
def firstOf (l : List CryptoJob) (j : CryptoJob) : Bool := (l.filter fun q => q.ctx == j.ctx && q.handle == j.handle).head? == some j

/-- SessionEnginesAndHorizon, SDEC: a malformed header, a foreign one, one out of order, one of length 0, one whose
payload is read and whose buffer is written, the result's length alone known; a job whose store stops at a line that
waits. -/
theorem witness_SessionEnginesAndHorizon_sdec :
    (∀ m c n l : Byte, (m, c, n, l) = (0x30, 9, 1, 64) ∨ (m, c, n, l) = (0x31, 8, 1, 64) ∨ (m, c, n, l) = (0x31, 9, 2, 64)
        ∨ (m, c, n, l) = (0x31, 9, 1, 0) ∨ (m, c, n, l) = (0x31, 9, 1, 64) →
      let s := { sesSt .env [] (envelope m c n l) with sdecs := [req false []] }
      s.ctx? 1 = some sesCtx ∧ sesCtx.id = 1 ∧ sesCtx.session? 3 = some ses ∧ ses.closing = false ∧ jobBound s (req false []) = true
      ∧ s.sdecs.find? (fun q => q.id == 5) = some (req false []) ∧ firstOf s.sdecs (req false []) = true
      ∧ moved (engineRead s 0 0x00FE000000001000 64) (fun hdr u =>
          let f (off k : Nat) : Nat := leNat ((hdr.drop off).take k)
          u == { s with recs := u.recs } && (f 0 4 == 0x4E564531) == (m == 0x31) && f 4 2 == 1 && f 6 2 == 1 && f 0x1C 36 == 0
          && (f 8 8 == ses.sid.toNat) == (c == 9) && (f 0x10 8 == ses.nrq) == (n == 1) && f 0x18 4 == l.toNat) = true)
    ∧ (let s := { sesSt .env [] (envelope 0x31 9 1 64) with sdecs := [req false []] }
       moved (engineRead s 0 0x00FE000000001040 80) (fun _ v =>
         moved (jobStore v (req false []) (some ses.skd) 0x2000 (List.replicate 64 0)) fun _ w =>
           w.ctx? 1 == some sesCtx && jobBound w (req false []) && w.sdecs == s.sdecs) = true)
    ∧ (let q : StoreWork := ⟨0, List.replicate 64 1, false, 0, 64⟩
       let j := { req true [1] with work := some q }
       let s := { sesSt .env [] [] with sdecs := [j], squeezed := [⟨0, 1, 0, 0x4040, 0, [], [], none, none, 0, 0x2000, 0, false⟩] }
       s.sdecs.find? (fun q => q.id == 5) = some j ∧ firstOf s.sdecs j = true ∧ j.started = true ∧ j.work = some q
       ∧ (match jobStore s j (some ses.skd) (j.dst + q.wrote) q.bytes with | .stops _ _ => true | _ => false) = true) := by
  refine ⟨?_, by decide +kernel, by decide +kernel⟩
  intro m c n l h
  rcases h with h | h | h | h | h <;> cases h <;>
    exact ⟨rfl, rfl, by decide +kernel, rfl, by decide +kernel, by decide +kernel, by decide +kernel, by decide +kernel⟩

/-- SENC and USESIG: lengths 0 and 2^24 + 1, an exhausted counter, a job not yet read, one read, a report without its nonce
and with it. The store of the sealed bytes, whose values are free, is shown for as many bytes. -/
theorem witness_SessionEnginesAndHorizon_senc :
    (let s (j : CryptoJob) : State := { sesSt .env [] [] with sencs := [j] }
     (s (req false [])).sencs.find? (fun q => q.id == 5) = some (req false []) ∧ firstOf (s (req false [])).sencs (req false []) = true
     ∧ ({ req false [] with len := 0 }).len = 0 ∧ 2 ^ 24 < ({ req false [] with len := 2 ^ 24 + 1 }).len ∧ 2 ^ 64 ≤ ({ ses with rc := 2 ^ 64 }).rc
     ∧ moved (engineRead (setJob (s (req false [])) { req false [] with seqno := 1 }) 0 0x00FE000000001000 64) (fun _ _ => true) = true
     ∧ ({ req true [] with seqno := 1 } : CryptoJob).seqno = 1
     ∧ (req true []).checks = [] ∧ (req true []).work = none ∧ sesCtx.integ = false
     ∧ (∃ c ∈ [(⟨7, 1, 0, 5, 0, 0⟩ : Check)], c.id ∈ ({ req true [] with checks := [7] }).checks) ∧ ses.rc < 2 ^ 64
     ∧ moved (jobStore (s (req true [])) (req true []) none 0x2000 (List.replicate 144 0)) (fun _ w => w.ctx? 1 == some sesCtx
         && jobBound w (req true []) && decide (w.sencs = [req true []])) = true)
    ∧ (let s (j : CryptoJob) : State := { sesSt .env [] [] with sigs := [j] }
       (s (req false [])).sigs.find? (fun q => q.id == 5) = some (req false []) ∧ (req false []).data = []
       ∧ (req false (List.replicate 64 0)).data ≠ [] ∧ (req false [0]).checks = [] ∧ (req false [0]).work = none
       ∧ firstBad (s (req false [0])) 0 0x2000 51872 PageAt.unwritable = none
       ∧ moved (jobStore (certify (s (req false [0]))) (req false [0]) none 0x2000 (List.replicate 128 0)) (fun _ w =>
         w.ctx? 1 == some sesCtx && jobBound w (req false [0]) && decide (w.sigs = [req false [0]])) = true) :=
  ⟨⟨rfl, by decide +kernel, rfl, by decide, by decide, by decide +kernel, rfl, rfl, rfl, rfl, by decide, by decide,
    by decide +kernel⟩,
   ⟨rfl, rfl, by decide, rfl, rfl, by decide +kernel, by decide +kernel⟩⟩

/-- The horizon: one egress, without and with a failure pending, of no copy and of one that has not ended; two of one hall
with the later one's checks passed; a check of no egress; a check that fails. -/
theorem witness_SessionEnginesAndHorizon_horizon :
    (let e : Egress := ⟨5, 1, 0, false, none, [7], 0x100, 0x100, [1]⟩
     let s := { at0 [] with egress := [e], checks := [⟨7, 1, 0, 2, 0, 0⟩], ats := [0] }
     s.egress = [e] ∧ e.id = 5 ∧ e.job = none ∧ s.ats.contains (e.host / 65536) = true ∧ ({ e with job := some 3 } : Egress).job = some 3 ∧ (job 0 0).id = 3 ∧ (job 0 0).done < (job 0 0).len ∧ s.ctx? e.ctx = some ctx ∧ ctx.integ = false ∧ ({ ctx with integ := true } : Ctx).integ = true
     ∧ s.egress.find? (fun e => e.id == 7) = none ∧ s.checks.find? (fun c => c.id == 7) = some ⟨7, 1, 0, 2, 0, 0⟩ ∧ s.ctxOf 0 = 1)
    ∧ (let e₁ : Egress := ⟨5, 1, 0, false, none, [7, 8], 0x100, 0x100, [1]⟩
       let e₂ : Egress := ⟨6, 1, 0, false, none, [8], 0x101, 0x101, [2]⟩
       let s := { at0 [] with egress := [e₁, e₂], checks := [⟨7, 1, 0, 2, 0, 0⟩, ⟨8, 1, 0, 3, 0, 0⟩] }
       e₁.hall = e₂.hall ∧ e₁.id ≠ 6 ∧ e₂.id = 6 ∧ e₂.job = none ∧ ∃ c ∈ s.checks, c.id ∈ e₁.checks ∧ c.id ∉ e₂.checks)
    ∧ (at0 []).ContextsKeyed := by
  refine ⟨by decide +kernel, by decide +kernel, ?_⟩
  unfold State.ContextsKeyed Rising; decide +kernel
/-! ### The system context, timers and failures -/

theorem hall_at (s : State) (x : Hall) (hc : s.cur = .seq 0) (hx : s.hall 0 = x) (hp : x.pend = 0) (hf : x.fresh = 0)
    (rs : List Reg) : AtWord s 0 hd rs where
  cur := hc
  mark := rfl
  guards := rfl
  regs := by intro r _ _; rw [hx, hp, hf]; simp

/-- A tenant with context 2 and a task on hall 1, beside the system context on hall 0; its page has a key domain. -/
def tenId : TaskId := ⟨2, 0x1000⟩
def kdTables : Cells := [(0x10002, 2), (0x10007, 0x80), (0x20002, 3), (0x20007, 0x80), (0x30002, 2), (0x30005, 0x10), (0x30007, 0xD0)]
def tenCtx : Ctx := { ctx with id := 2, spillslots := 4, ptroot := 0x10000 }
def tenTask : Task := { task with id := tenId, granted := [1] }
def two (l : List Word) (k : Ctx) (t : Task) (y : Hall) : State :=
  { sys (hall l) with
    halls := [(0, hall l), (1, { y with bind := some { bnd with task := tenId } })]
    ctxs := [(1, sysCtx), (2, k)]
    tasks := [task, t]
    mem := kdTables }

theorem two_keyed (l : List Word) (k : Ctx) (t : Task) (y : Hall) (h : k.id = 2) : (two l k t y).ContextsKeyed := by
  refine ⟨?_, ?_⟩
  · show List.Pairwise _ [1, 2]; decide
  · intro p hp
    have hp' : p ∈ [(1, sysCtx), (2, k)] := hp
    simp only [List.mem_cons, List.not_mem_nil, or_false] at hp'
    rcases hp' with rfl | rfl
    · rfl
    · show k.id.toNat = 2; rw [h]; rfl

/-- SystemContextWordsComplete: another context, one unknown, the system context, one that is ending; a task that is not there, one that was
saved, one with too few slots and with enough; one stopped and not; parked or not; off its halls or on them; a ring that
passes and one whose size is no power of two; TLBI and HALT. -/
theorem witness_SystemContextWordsComplete :
    (AtWord (at0 []) 0 hd [1, 2, 3, 4] ∧ (at0 []).isSystem ((at0 []).ctxOf 0) = false ∧ ((at0 []).hall 0).merges = [])
    ∧ (let s := two [0, 2, 0x1000, 0x400] tenCtx tenTask (hall [])
       AtWord s 0 hd [1, 2, 3, 4] ∧ s.isSystem (s.ctxOf 0) = true ∧ s.ctx? 7 = none ∧ s.ctx? ((s.hall 0).c.reg 2) = some tenCtx
       ∧ tenCtx.id = (s.hall 0).c.reg 2 ∧ tenCtx.vf ≠ 0 ∧ tenCtx.terminating = false ∧ tenCtx.integ = false
       ∧ ({ tenCtx with integ := true } : Ctx).integ = true ∧ tenCtx.parked = false ∧ ({ tenCtx with parked := true } : Ctx).parked = true
       ∧ s.task? ⟨2, 0x40⟩ = none ∧ s.task? ⟨tenCtx.id, ((s.hall 0).c.reg 3).toNat⟩ = some tenTask
       ∧ ({ tenTask with saved := true } : Task).savable s = false ∧ tenTask.savable s = true
       ∧ freeSlots s { tenCtx with spillslots := 0 } < tenTask.onHalls.length ∧ tenTask.onHalls.length ≤ freeSlots s tenCtx
       ∧ tenCtx.mirror.mode = .off ∧ 0 ∉ tenTask.onHalls ∧ tenTask.onHalls ≠ [] ∧ (∀ g ∈ tenTask.onHalls, (s.hall g).l1 = [] ∧ (s.hall g).feq = [])
       ∧ tenTask.stopped = false ∧ tenTask.saving s = false ∧ 0 ∉ hallsOf s tenCtx.id ∧ (∀ t ∈ s.tasks, t.id.ctx = tenCtx.id → t.notify = [])
       ∧ (∀ g ∈ tenTask.onHalls, (s.hall g).atExit = false)
       ∧ (∃ t ∈ s.tasks, t.id.ctx = tenCtx.id ∧ (t.state = .running ∨ t.state = .triggered))
       ∧ s.ctx? 1 = some sysCtx ∧ sysCtx.vf = 0 ∧ s.egress = []
       ∧ ringOk s tenCtx 0 0x400 = true ∧ ringOk s tenCtx 0 0x401 = false
       ∧ (s.hall 0).posted = [] ∧ (s.hall 0).l1 = [] ∧ hostPending s 0 = false)
    ∧ (two [] tenCtx tenTask (hall [])).ContextsKeyed
    ∧ (let t : Task := { tenTask with held := true, state := .frozen, saved := true, granted := [] }
       let s := two [] tenCtx t Hall.reset
       t.stopped = true ∧ t.saving s = false ∧ t.onHalls.length ≤ freeSlots s tenCtx ∧ t.saved = true
       ∧ (∀ t ∈ s.tasks, t.id.ctx = tenCtx.id → t.onHalls = []) ∧ (∀ t ∈ s.tasks, t.id.ctx = tenCtx.id → t.state ≠ .running ∧ t.state ≠ .triggered))
    ∧ (∀ q ∈ [TaskState.running, .dispatched],
       let t : Task := { tenTask with state := q }
       let s := two [] tenCtx t (hall [])
       let mine := s.tasks.filter fun t => decide (t.id.ctx = tenCtx.id ∧ t.onHalls ≠ [])
       let need := ((mine.filter fun t => !t.saving s).map fun t => t.onHalls.length).sum
       tenCtx.parked = false ∧ freeSlots s { tenCtx with spillslots := 0 } < need ∧ need ≤ freeSlots s tenCtx ∧ mine = [t]
       ∧ tenCtx.mirror.mode = .off ∧ (mine.map (·.id)).Nodup ∧ (mine.flatMap (·.onHalls)).Nodup ∧ s.task? t.id = some t
       ∧ 0 ∉ t.onHalls ∧ t.saving s = false ∧ ∀ g ∈ t.onHalls, (s.hall g).feq = [])
    ∧ (let t : Task := { tenTask with held := true, state := .frozen }
       t.stopped = true ∧ t.saving (two [] tenCtx t (hall [])) = false
       ∧ freeSlots (two [] { tenCtx with spillslots := 0 } t (hall [])) { tenCtx with spillslots := 0 } < t.onHalls.length) := by
  refine ⟨⟨at_word _ _ rfl rfl rfl _, rfl, rfl⟩, ⟨hall_at _ _ rfl rfl rfl rfl _, ?_⟩, two_keyed _ _ _ _ rfl, by decide +kernel, by decide +kernel, by decide +kernel⟩
  decide +kernel

/-- TimersAndFailures: a watchdog at its period, before it, and at it again; places of a hall and of a Landing that have waited
to their limit and one tick less, one that holds nothing; the tail; halls of both dies' islands and the first island of no hall; a task with
room to be saved. -/
def replaying (waits : Map (Nat × Nat)) : Ctx := { ctx with mirror := { mir with mode := .replay, size := 16, tail := 2, head := 4, waits := waits } }
theorem witness_TimersAndFailures :
    (let due (n : Word) (f : Bool) : Hall := { hall [] with wdogPeriod := 0x10000, wdogCount := n, wdogFired := f }
     ((due 0x10000 false).watched = true ∧ (due 0x10000 false).wdogPeriod ≤ (due 0x10000 false).wdogCount)
     ∧ ¬ (due 0xFFFF false).wdogPeriod ≤ (due 0xFFFF false).wdogCount ∧ (due 0x10000 true).wdogFired = true
     ∧ (due 0x10000 true).watched = true)
    ∧ (let k := replaying [(0, (5, 0))]
       let s (n : Nat) : State := { at0 [] with ctxs := [(1, k)], tick := n }
       (s 0).ctx? 1 = some k ∧ k.id = 1 ∧ timersRun (s 0) k = true ∧ k.mirror.waits.filter (fun w => w.1 % 65536 == 0) = [(0, 5, 0)]
       ∧ (awaited (s 0) k 0 0).isSome = true ∧ (awaited (s 0) (replaying [(0x6000, (5, 0))]) 0x6000 0).isSome = true ∧ (s (2 ^ 20 + 4)).tick < 5 + 2 ^ 20 ∧ 5 + 2 ^ 20 ≤ (s (2 ^ 20 + 5)).tick
       ∧ (placeUnit 0 0).map (·.1) = some 0 ∧ placeUnit 0x6000 0 = none ∧ k.fpol.getLsbD 8 = false ∧ ((s 0).hall 0).ctx? = some 1 ∧ (∀ w ∈ (replaying []).mirror.waits, w.1 % 65536 = 0 → False)
       ∧ (s (2 ^ 20 - 1)).tick < k.mirror.quiet + 2 ^ 20 ∧ k.mirror.quiet + 2 ^ 20 ≤ (s (2 ^ 20)).tick)
    ∧ Rising (at0 []).halls
    ∧ ((47 : Fin 128).val % 64 < 48 ∧ 48 ≤ (48 : Fin 128).val % 64)
    ∧ (let k : Ctx := { ctx with spillslots := 1 }
       let s : State := { at0 [] with ctxs := [(1, k)] }
       (s.hall 0).bind = some bnd ∧ s.task? bnd.task = some task ∧ s.ctx? bnd.task.ctx = some k ∧ k.fpol.getLsbD 4 = false
       ∧ (s.hall 0).res = .running ∧ 0 ∈ task.onHalls ∧ task.onHalls.length ≤ freeSlots s k ∧ k.mirror.mode = .off
       ∧ ∀ q ∈ task.onHalls, (s.hall q).l1 = [] ∧ (s.hall q).feq = [] ∧ (s.hall q).res = .running) := by
  refine ⟨by decide +kernel, by decide +kernel, ?_, by decide, by decide +kernel⟩
  unfold Rising; decide +kernel

/-! ### The Landing and the fabric -/

/-- A task that is ready, on a die with free halls, its kernel in the cache. -/
def readyTask (halls : Nat) : Task := { task with state := .queued, halls := halls, granted := [], trig := List.replicate halls false, retired := List.replicate halls false }
def imgKern : Kernel := imageKernel img
def landSt (halls : Nat) (m : BitVec 48) (t : Task → Task) : State :=
  { State.reset with
    phase := .running
    ctxs := [(1, { ctx with halls := m, library := [img], quota := [4, 4] })]
    tasks := [t (readyTask halls)]
    caches := [(0, [⟨1, 0, 0x0101, imgKern, false, 0⟩])] }
def landCtx (m : BitVec 48) : Ctx := { ctx with halls := m, library := [img], quota := [4, 4] }

/-- LandingBindsAndPreempts: a package that does not run, one ready task that is placed, one of two halls with one hall to
run on; a reservation at its limit and one tick less, a hold of halls that victims freed; a hall at BINDING; a victim that stops; a task saved on its hall. -/
theorem witness_LandingBindsAndPreempts :
    (let s := landSt 1 0x3F id
     s.ctx? (readyTask 1).id.ctx = some (landCtx 0x3F) ∧ s.task? (readyTask 1).id = some (readyTask 1) ∧ State.reset.phase ≠ .running ∧ s.phase = .running
     ∧ readyTasks s 0 = [readyTask 1] ∧ readyTasks s 1 = [] ∧ (landCtx 0x3F).mirror.mode = .off
     ∧ s.ctxs.all (fun p => p.2.mirror.mode != .replay) = true ∧ (landSt 2 0x6 id).ctxs.all (fun p => p.2.mirror.mode != .replay) = true
     ∧ (match placement s (readyTask 1) [] with
        | some hs => decide hs.Nodup && (match admitKernel s (readyTask 1).id.ctx (galleryOf (hs.headD 0)) (readyTask 1).kidx with
          | .ok (tag, u) => (findConf u (galleryOf (hs.headD 0)) tag).isSome && u.task? (readyTask 1).id == some (readyTask 1)
          | .error _ => false)
        | none => false) = true
     ∧ (∀ r ∈ (readyTask 1).retired, r = false))
    ∧ (let s := landSt 2 0x6 id
       placement s (readyTask 2) [] = none ∧ 2 ≤ (readyTask 2).halls ∧ (readyTask 2).prio = 0 ∧ (readyTask 2).state = .queued ∧ (readyTask 2).lapsed = none
       ∧ kernelInfo (landCtx 0x6) (readyTask 2).kidx = some imgKern
       ∧ (bestOf (rankKey s (landCtx 0x6) (readyTask 2) imgKern) (candidates s (landCtx 0x6) (readyTask 2) imgKern [])).isSome = true)
    ∧ (let t : Task := { readyTask 2 with state := .reserving, resStart := 3 }
       t.state = .reserving ∧ t.resStart + 2 ^ 22 ≤ 3 + 2 ^ 22 ∧ ¬ (t.resStart + 2 ^ 22 ≤ 2 + 2 ^ 22) ∧ t.id.va < 2 ^ 64
       ∧ ({ t with state := .queued, resHalls := [4] } : Task).resHalls ≠ [])
    ∧ (let x : Hall := { hall [] with res := .binding, bound := false }
       let s := st .env x
       s.ctx? task.id.ctx = some ctx ∧ ctx.id = task.id.ctx ∧ s.task? task.id = some task ∧ x.bind = some bnd ∧ bnd.task = task.id
       ∧ task.id.va ≠ dispVA ∧ x.res = .binding ∧ x.bound = false ∧ task.onHalls = [0] ∧ task.saved = false ∧ spillWaits s 0 = false)
    ∧ (let t : Task := { task with preempting := true }
       let k : Ctx := { ctx with spillslots := 1 }
       let s (x : Hall) : State := { st .env x with ctxs := [(1, k)], tasks := [t] }
       (s (hall [])).task? t.id = some t ∧ t.saving (s (hall [])) = false ∧ t.state = .running ∧ t.freezePt = false ∧ t.held = false
       ∧ t.onHalls.length ≤ freeSlots (s (hall [])) k ∧ t.onHalls ≠ [] ∧ t.fencing = none
       ∧ (∀ q ∈ t.onHalls, ((s (hall [])).hall q).l1 = [] ∧ ((s (hall [])).hall q).feq = [])
       ∧ (let x : Hall := { hall [] with res := .saving }
          t.saving (s x) = true ∧ t.onHalls = [0] ∧ enginesPending (s x) 0 = false ∧ t.unit = none ∧ t.notify = [] ∧ x.feq = [] ∧ x.l1 = []
          ∧ ((s x).saves.filter fun v => v.ctx == k.id).length < k.spillslots.toNat)) :=
  ⟨by decide +kernel, by decide +kernel, by decide +kernel, by decide +kernel, by decide +kernel, by decide +kernel, by decide +kernel,
    by decide +kernel, by decide +kernel, by decide +kernel, by decide +kernel, by decide +kernel, by decide +kernel⟩

/-- FabricFetchesAndSwitches: a prism unit with a token asks, an idle one does not; an entry on its way to a switch box and
to a facet; a token with and without a lens mark at a route east, a route off the mesh; a merge that has chosen, that has
no token, one, or both. -/
def east (op : Nat) (mrg : Bool) : Route := ⟨0x3F, 3, 1, 3, 0, op, 2, mrg, 2, 1, 0xE4, 0, false, false⟩
def boxHall (r : Route) (links : Map (List Token)) : Hall :=
  { hall [] with bind := some { bnd with kernel := { kern with routes := [r] } }, stores := [(105, [⟨0x0101, false⟩])], links := links }
theorem witness_FabricFetchesAndSwitches :
    (let x : Hall := { hall [] with units := [(56, inU [dat 1] [] [] [])] }
     x.active = true ∧ x.config 56 = .missing ∧ mfind x.fetch 56 = none ∧ needsConfig x 56 = true ∧ needsConfig (hall []) 56 = false)
    ∧ (let x : Hall := { hall [] with fetch := [(16, (0x0101, 3)), (105, (0x0101, 4))] }
       mfind x.fetch 105 = some (0x0101, 4) ∧ mfind x.fetch 16 = some (0x0101, 3) ∧ (x.fetch.map (·.1)).Pairwise (· < ·) ∧ (mget x.stores 16 []).length < 4 ∧ (mget x.stores 160 []).length < 4
       ∧ 16 = 8 * 2 + 0 ∧ nodeAt 2 0 = .facet 8 ∧ x.active = true ∧ (x.facet 8).installed = false
       ∧ firstIllegal .facet 0 (x.sect [2] 2 0) = none)
    ∧ (∀ l : Bool, let t : Token := { dat 5 with lens := l }
       let x := boxHall (east 1 false) [(512, [t])]
       let s := st .env x
       x.active = true ∧ x.config (80 + 8 * 3 + 1) = .ok ∧ (x.links.map (·.1)).Pairwise (· < ·) ∧ x.queue 3 1 3 0 = [t]
       ∧ x.routesAt 3 1 = [east 1 false] ∧ (∃ b, x.bind = some b ∧ s.ctx? b.task.ctx = some ctx ∧ s.task? b.task = some task)
       ∧ ctx.fpol.getLsbD 6 = false ∧ neighbour 3 1 1 = some (4, 1, 3) ∧ x.queue 4 1 3 2 = []
       ∧ x.destRoom 3 1 1 2 = true)
    ∧ (boxHall { east 0 false with y := 7 } []).destRoom 3 7 0 2 = false
    ∧ (let x (l : Map (List Token)) := boxHall (east 4 true) l
       ((x []).routesAt 3 1).find? (fun r => r.mrg && r.op == 4 && r.otr == 2) = some (east 4 true)
       ∧ (st .env (x [])).ctx? ((st .env (x [])).ctxOf 0) = some ctx ∧ ((x []).merge (east 4 true)).next = none
       ∧ ((x []).merge (east 4 true)).lock = none ∧ (x []).queue 3 1 3 0 = [] ∧ (x []).queue 3 1 2 1 = []
       ∧ (x [(512, [dat 1])]).queue 3 1 3 0 ≠ [] ∧ (x [(512, [dat 1])]).destRoom 3 1 4 2 = true
       ∧ (x [(509, [dat 1])]).queue 3 1 2 1 ≠ [] ∧ (x [(509, [dat 1])]).queue 3 1 3 0 = []
       ∧ ((x []).setMerge (east 4 true) { (x []).merge (east 4 true) with next := some true }).merge (east 4 true) ≠ (x []).merge (east 4 true)) := by
  refine ⟨by decide +kernel, by decide +kernel, ?_, by decide +kernel, by decide +kernel⟩
  intro l; cases l <;> exact ⟨by decide +kernel, by decide +kernel, by decide +kernel, by decide +kernel, by decide +kernel,
    ⟨_, rfl, rfl, rfl⟩, by decide, by decide, by decide +kernel, by decide +kernel⟩

/-! ### The host, links and the RSC -/

/-- The dispatcher of context 1, on hall 0. -/
def dispTask : Task := { task with id := ⟨1, dispVA⟩ }
def dispHall : Hall := { hall [] with bind := some { bnd with task := ⟨1, dispVA⟩ } }
def dispSt (f : Vf) : State := { st .env dispHall with tasks := [dispTask], vfs := [(1, f)] }
def podCtx : Ctx := { ctx with peers := [(5, 9)], present := [(5, 9)] }
def podSt : State := { st .env (hall []) with ctxs := [(1, podCtx)], links := [(2, (5, 77))] }
def msg (kind : Fin 4) : PodMsg := ⟨5, 0, 9, kind, 0, 0x100, if kind.val ≤ 1 then [1, 2, 3, 4] else [], 0x200, 7⟩

/-- HostAndPodWritesArrive: the first mailbox word and the last; a fenced function, one in RUN without the link's
protection, a slot of no context; each kind of message at a hall of the context, from a peer and from none; a request
at the host. -/
theorem witness_HostAndPodWritesArrive :
    (let s := dispSt ⟨0, .unlocked, false⟩
     s.MemoryForm ∧ NoWaiters s 0 ∧ ctx.mirror.mode = .off ∧ s.hall 0 = dispHall ∧ s.arrivals = [] ∧ s.phase = .running ∧ (s.vf 1).fenced = false ∧ (s.vf 1).tdi ≠ .run
     ∧ slotContext s 1 1 = some ctx ∧ s.ctx? ctx.id = some ctx ∧ liveDispatcher s ctx.id = some 0 ∧ 0 < 1023 ∧ 1022 < 1023
     ∧ ([1, 2, 3, 4] : List Byte).length = 4 ∧ (s.hall 0).split ≤ 47 ∧ slotContext s 1 2 = none)
    ∧ ((dispSt ⟨0, .unlocked, true⟩).vf 1).fenced = true ∧ ((dispSt ⟨0, .run, false⟩).vf 1).tdi = .run
    ∧ (∀ q : Fin 4, let m := msg q
       podSt.MemoryForm ∧ NoWaiters podSt 0 ∧ podSt.arrivals = [] ∧ podSt.hall 0 = hall [] ∧ m.hall = 0 ∧ podSt.ctx? (podSt.ctxOf 0) = some podCtx ∧ podSt.phase = .running
       ∧ (m.fromPkg.val, m.fromCtx) ∈ podCtx.present ∧ (∃ l ∈ podSt.links, l.2.1 = m.fromPkg.val)
       ∧ (podSt.hall 0).ctx? = some podCtx.id ∧ (podSt.hall 0).res = .running ∧ (podSt.hall 0).held = false
       ∧ podInside m (podSt.hall 0) = true ∧ (podSt.hall 0).bad = [] ∧ m.doff + m.data.length ≤ m.poff)
    ∧ ((msg 0).fromPkg.val, (msg 0).fromCtx) ∉ ctx.present
    ∧ (hall []).bind.any (fun b => b.task.va == dispVA) = false
    ∧ (let m : PodMsg := ⟨5, 0, 9, 3, 0, 0, [], mailboxOff dispHall 1023, 7⟩
       let s : State := { podSt with halls := [(0, dispHall)], tasks := [dispTask] }
       s.MemoryForm ∧ NoWaiters s 0 ∧ s.arrivals = [] ∧ s.ctx? (s.ctxOf 0) = some podCtx ∧ (m.fromPkg.val, m.fromCtx) ∈ podCtx.present
       ∧ (∃ l ∈ s.links, l.2.1 = m.fromPkg.val) ∧ dispHall.ctx? = some podCtx.id ∧ dispHall.res = .running ∧ dispHall.held = false
       ∧ podInside m dispHall = true ∧ dispHall.bad = [] ∧ dispHall.bind.any (fun b => b.task.va == dispVA) = true)
    ∧ ({ hall [] with pri := some (4, false) } : Hall).pri = some (4, false) ∧ ∀ p, (hall []).pri ≠ some (p, false) := by
  refine ⟨⟨mem_form _ dispHall rfl rfl rfl rfl, no_waiters _ _ rfl rfl rfl rfl, by decide +kernel⟩, by decide +kernel, by decide +kernel, ?_, by decide, by decide,
    ⟨mem_form _ dispHall rfl rfl rfl rfl, no_waiters _ _ rfl rfl rfl rfl, by decide +kernel⟩, rfl, by intro p h; cases h⟩
  intro q
  refine ⟨mem_form _ (hall []) rfl rfl rfl rfl, no_waiters _ _ rfl rfl rfl rfl, ?_⟩
  revert q; decide +kernel

/-- LinksCarrySends: no slot full and the oldest slot's; a bad descriptor, one to an absent package, one to a present
package, a PUT whose source can be read and one whose cannot; a send with its failure to write, one before its horizon, one to a package with and without a link, one on its
link; links that are there and not. -/
def outHall (w : Nat → Nat) : Hall :=
  let x := hall []
  { x with outq := [0], full := [(x.size - 8192) / 4 + 15], scratch := (List.range 16).foldl (fun m i => cwrite m (x.size - 8192 + 4 * i) (leBytes 4 (w i))) [] }
/-- A produce of 7 at the pod offset 4 of hall 0 of package 5. -/
def desc (pkg : Nat) (i : Nat) : Nat := if i = 3 then 3 * 2 ^ 16 + pkg else if i = 5 then 4 else if i = 6 then 7 else if i = 15 then 0x50440000 else 0
def outSt (w : Nat → Nat) : State := { st .env (outHall w) with ctxs := [(1, podCtx)], links := [(2, (5, 77))] }
def send (link : Option Nat) (status : Nat) : LinkSend := ⟨0, (List.range 16).map fun i => BitVec.ofNat 32 (desc 5 i), [], link, status, 1, false, []⟩
/-- A PUT of four bytes at a VA whose high half is given. -/
def putDesc (hi : Nat) (i : Nat) : Nat := if i = 1 then hi else if i = 2 then 4 else if i = 3 then 5 else if i = 15 then 0x50440000 else 0
theorem witness_LinksCarrySends :
    (∀ w, w = desc 5 ∨ w = desc 6 ∨ w = (fun _ => 0) →
       let s := outSt w
       s.MemoryForm ∧ s.ctx? (s.ctxOf 0) = some podCtx ∧ (s.hall 0).bind = some bnd ∧ (s.hall 0).l1 = [] ∧ hostPending s 0 = false
       ∧ (s.hall 0).res = .running ∧ (s.hall 0).posted = [] ∧ podCtx.peers ≠ [] ∧ (s.hall 0).outq.head? = some 0 ∧ (s.sends.filter fun p => p.1 == 0).length < 8
       ∧ (∀ w, (s.hall 0).full.count w ≤ 1))
    ∧ outboxBad ((List.range 16).map (desc 5)) = false ∧ (∃ p ∈ podCtx.present, p.1 = desc 5 3 % 64) ∧ 2 ≤ desc 5 3 / 2 ^ 16 % 16
    ∧ outboxBad ((List.range 16).map (desc 6)) = false ∧ (¬ ∃ p ∈ podCtx.present, p.1 = desc 6 3 % 64) ∧ outboxBad ((List.range 16).map fun _ => 0) = true
    ∧ (∀ hi ∈ [0x00FE0000, 1], let s := outSt (putDesc hi)
       outboxBad ((List.range 16).map (putDesc hi)) = false ∧ putDesc hi 3 / 2 ^ 16 % 16 < 2 ∧ (s.hall 0).posted = []
       ∧ (match release s 0 true with
          | .ok _ r => (match readPieces 0 (4 / 64 + 2) (hi * 2 ^ 32) 4 { r with free := r.free + 1 } with
            | .ok _ _ => hi == 0x00FE0000
            | .trap c _ _ => hi == 1 && c != .integ
            | _ => false)
          | _ => false) = true)
    ∧ ctx.peers = [] ∧ (hall []).outq.head? ≠ some 0
    ∧ (let s (j : LinkSend) : State := { outSt (desc 5) with sends := [(0, j)] }
       NoWaiters (s (send none 1)) 0 ∧ (s (send none 1)).hall 0 = outHall (desc 5) ∧ (s (send none 1)).sends = [(0, send none 1)] ∧ (send none 1).slot = 0 ∧ (send none 1).gone = false ∧ (send none 1).status ≠ 0
       ∧ (send none 1).status < 256 ∧ (send none 0).link = none ∧ (send none 0).checks = [] ∧ integPending (s (send none 0)) 1 = false
       ∧ (∃ q ∈ [(⟨7, 1, 0, 5, 0, 0⟩ : Check)], q.id ∈ ({ send none 0 with checks := [7] }).checks) ∧ (∃ l ∈ (s (send none 0)).links, l.2.1 = (lget (send none 0).words 3).toNat % 64)
       ∧ (send (some 2) 0).link = some 2)
    ∧ mfind podSt.links 1 = none ∧ mfind podSt.links 2 ≠ none ∧ Rising podSt.links := by
  refine ⟨?_, by decide +kernel, by decide +kernel, by decide +kernel, by decide +kernel, by decide +kernel, by decide +kernel, by decide +kernel, rfl,
    by decide +kernel, ⟨no_waiters _ _ rfl rfl rfl rfl, by decide +kernel⟩, rfl, by decide, ?_⟩
  · intro w h
    refine ⟨mem_form _ (outHall w) rfl rfl rfl ?_, rfl, rfl, rfl, rfl, rfl, rfl, by decide, rfl, Nat.zero_lt_succ 7, ?_⟩
    · rcases h with rfl | rfl | rfl <;> decide +kernel
    · intro v
      show List.count v [_] ≤ 1
      simp only [List.count_cons, List.count_nil, beq_iff_eq]; split <;> omega
  · unfold Rising; decide

/-- InterfacesAndResets: the physical function, the first and the last virtual function and one past it; fenced or not;
each TDISP state; an island's level below and at what is asked. -/
theorem witness_InterfacesAndResets :
    (let out (v : Nat) : Prop := v = 0 ∨ 48 < v
     out 0 ∧ ¬ out 1 ∧ ¬ out 48 ∧ out 49)
    ∧ ((dispSt ⟨0, .unlocked, false⟩).vf 1).tdi = .unlocked ∧ ((dispSt ⟨0, .locked, false⟩).vf 1).tdi = .locked
    ∧ ((dispSt ⟨0, .locked, false⟩).vf 1).fenced = false ∧ ((dispSt ⟨0, .error, true⟩).vf 1).fenced = true
    ∧ (at0 []).ContextsKeyed ∧ (5 : Fin 8).val < 6
    ∧ mget (at0 []).islands 3 15 = 15 ∧ ((14 : Fin 16) ≠ 0 ∧ (14 : Fin 16).val < 15) ∧ 15 ≤ (15 : Fin 16).val := by
  refine ⟨by decide, by decide, by decide, by decide, by decide, ?_, by decide, by decide, by decide, by decide⟩
  unfold State.ContextsKeyed Rising; decide +kernel

/-- A request for the system context of halls 0 and 1, with a resident kernel as its dispatcher. -/
def idleImg : LibImage := ⟨[0, 0x200000000, 0x010100], 0⟩
def body (vf : Nat) : CreateBody :=
  { vf := vf, slot := 0, halls := 3, library := [idleImg], dispIdx := 0, quota0 := 4, quota1 := 0, fpol := 0, ptroot := 0, spillBase := 0,
    spillSlots := 0, evSize := 0, peers := [] }
/-- A bundle header with a valid form and one chunk. -/
def bundleHdr : List Byte :=
  leBytes 4 0x42444C31 ++ leBytes 2 1 ++ leBytes 2 0 ++ leBytes 8 0x10000 ++ leBytes 4 1 ++ List.replicate (0x670 - 0x14) 0
    ++ leBytes 2 1 ++ List.replicate 7 0 ++ leBytes 1 1 ++ List.replicate (0xA00 - 0x67A) 0

theorem pages_reached (t : State) (l : List Nat) (h : ∀ i ∈ l, t.ats.contains i = true) :
    l.foldl (fun p i => if p.1 then atsReach p.2 (0 + 65536 * i) else p) (true, t) = (true, t) := by
  induction l with
  | nil => rfl
  | cons i l ih =>
    have e : atsReach t (0 + 65536 * i) = (true, t) := by
      have h1 : t.ats.contains ((0 + 65536 * i) / 65536) = true := by rw [show (0 + 65536 * i) / 65536 = i by omega]; exact h i List.mem_cons_self
      unfold atsReach; rw [if_pos h1]
    rw [List.foldl_cons]
    simp only [if_true, e]
    exact ih fun j hj => h j (List.mem_cons_of_mem _ hj)

/-- A buffer of any length at host address 0 that is reached. -/
theorem buffer_reached (s : State) (n : Nat) : let t := { s with ats := List.range ((n + 65535) / 65536) }; atsSpan t 0 n = (true, t) := by
  intro t
  unfold atsSpan
  rw [show (0 + n + 65535) / 65536 - 0 / 65536 = (n + 65535) / 65536 by omega]
  exact pages_reached t _ fun i hi => List.contains_iff_mem.2 hi

/-- ManagementRequestsAreAnswered: each phase; a context that is there and one that is not; a key's length and one less; a
bundle's header that passes and one of zeros; a function's number at 48 and past it, halls of another's; islands of a
hall and of none, off and on; a session that closes; a report held. What the opaque ciphers answer is free, and either
answer has its clause. -/
theorem witness_ManagementRequestsAreAnswered :
    (State.reset.phase = .boot ∧ requestBusy (at0 []) = false ∧ (at0 []).phase = .running ∧ (at0 []).ctx? 7 = none
      ∧ (7 : Word) ≠ BitVec.allOnes 64 ∧ (at0 []).ctx? 1 = some ctx ∧ ctx.id = 1
      ∧ requestBusy { at0 [] with ctxs := [(1, { ctx with sessions := [{ ses with closer := some (1, 0) }] })] } = true)
    ∧ (at0 []).MemoryForm ∧ (at0 []).rsc.meas.length = 8
    ∧ ((List.replicate 1568 (0 : Byte)).length = 1568 ∧ (List.replicate 1567 (0 : Byte)).length ≠ 1568)
    ∧ (let s : State := { at0 [] with rsc := { (at0 []).rsc with kem := some 5 } }
       s.rsc.kem = some 5 ∧ s.arrivals = [] ∧ lowestFree (ctx.sessions.map (·.handle)) 0 256 = some 0 ∧ 2 ∉ s.domainsInUse)
    ∧ (let k : Ctx := { ctx with sessions := [ses] }
       let s : State := { at0 [] with ctxs := [(1, k)] }
       sessionBySid s 9 = some (k, ses) ∧ sessionBySid s 8 = none ∧ s.ctx? k.id = some k ∧ k.session? ses.handle = some ses ∧ ses.closing = false
       ∧ s.sdecs = [] ∧ s.sencs = [] ∧ s.sigs = [])
    ∧ ((at0 []).rsc.finals = [] ∧ ({ (at0 []).rsc with finals := [default] } : Rsc).finals = default :: [])
    ∧ (bundleOk bundleHdr = true ∧ bundleOk (List.replicate 0xA00 0) = false
      ∧ (let span := (fieldOf bundleHdr 8 8 + 0x1FFFFF) / 0x200000 * 0x200000
         0x200000 + span ≤ ownBase ∧ 0x200000 % 0x200000 = 0 ∧ unmapped (at0 []) ctx 0x200000 span = true)
      ∧ bundleKey (at0 []) bundleHdr = none)
    ∧ (let s : State := { State.reset with phase := .running, vfs := [(0, ⟨3, .unlocked, false⟩), (2, ⟨0x100, .unlocked, false⟩)] }
       createMalformed (body 49) = true ∧ createMalformed (body 0) = false ∧ createAllowed s (body 0) = true ∧ createAllowed s (body 2) = false
       ∧ 1 ∉ s.domainsInUse ∧ hallsAllowed s 48 0x4 = true ∧ hallsAllowed s 48 0x100 = false ∧ 48 < 49
       ∧ (∃ p ∈ s.vfs, p.2.halls.getLsbD 1 = true) ∧ (∀ p ∈ s.vfs, p.2.halls.getLsbD 5 = false) ∧ (s.hall 5).res = .idle)
    ∧ ((47 : Fin 128).val % 64 < 48 ∧ 48 ≤ (48 : Fin 128).val % 64 ∧ mget (at0 []).islands 2 15 ≠ 0 ∧ mget [(2, 0)] 2 15 = 0)
    ∧ (at0 []).ContextsKeyed := by
  refine ⟨by decide +kernel, memory_form _ _ rfl, by decide, by decide, by decide +kernel, by decide +kernel, ⟨rfl, rfl⟩,
    ⟨by decide +kernel, by decide +kernel, by decide +kernel, rfl⟩, by decide +kernel, by decide, ?_⟩
  unfold State.ContextsKeyed Rising; decide +kernel

/-- The name of the first context that a state creates, whose first free value stands at 1. -/
def firstId : Word := (Config.freeWord 1 &&& 0xFFFFFFFF00000000) ||| 1
/-- A package in which no context stands, the new context's dispatcher in its gallery's cache or not. -/
def createSt (cached : Bool) : State :=
  { State.reset with
    phase := .running
    vfs := [(0, ⟨3, .unlocked, false⟩)]
    caches := if cached then [(0, [⟨firstId, 0, 0x0101, kern, false, 0⟩])] else [] }

/-- An admission finds the kernel in the cache. -/
theorem admission_held {s : State} {c : Ctx} {id : Word} {gal kidx : Nat} {j : KConf} (h : s.ctx? id = some c)
    (f : (cacheOf s gal).find? (fun k => k.ctx == id && k.kidx == kidx && !k.released) = some j) :
    (admitKernel s id gal kidx).toBool = true := by simp only [admitKernel, h, f]; rfl

/-- An admission of an image whose header is malformed. -/
theorem admission_refused {s : State} {c : Ctx} {id : Word} {gal kidx : Nat} {img : LibImage} (h : s.ctx? id = some c)
    (f : (cacheOf s gal).find? (fun k => k.ctx == id && k.kidx == kidx && !k.released) = none)
    (l : c.library[kidx]? = some img) (b : headerOk img.words = false) :
    (admitKernel s id gal kidx).toBool = false := by simp only [admitKernel, h, f, l, b]; rfl

/-- ManagementRequestsAreAnswered, CTX_CREATE: a request whose kernel is admitted, and one whose image is malformed. The key
domain and the name are free values, and the clause holds of each. -/
theorem witness_ManagementRequestsAreAnswered_create : ∀ cached : Bool,
    let s := createSt cached
    createMalformed (body 0) = false ∧ createAllowed s (body 0) = true ∧ s.phase = .running ∧ requestBusy s = false
    ∧ ∃ kd s₁ s₂, takeDomain s = some (kd, s₁) ∧ nameContext s₁ = (firstId, s₂) ∧ confirmPeers (body 0).peers s₂ = ([], s₂)
      ∧ (let c := newContext (body 0) firstId kd [] s.tick
         (admitKernel (s₂.setCtx c) firstId (galleryOf c.home) (body 0).dispIdx).toBool = cached) := by
  intro cached
  refine ⟨by decide +kernel, by cases cached <;> decide +kernel, by cases cached <;> rfl, by cases cached <;> rfl, ?_⟩
  obtain ⟨kd, h⟩ : ∃ kd, takeDomain (createSt cached) = some (kd, { createSt cached with free := 1 }) := by
    cases cached <;> exact ⟨_, rfl⟩
  refine ⟨kd, _, _, h, rfl, rfl, ?_⟩
  have gal (c : Ctx) (e : c.halls = 3) : galleryOf c.home = 0 := by unfold Ctx.home; rw [e]; decide
  have own (s : State) (k : Ctx) (e : s.ctxs = []) (i : k.id = firstId) : (s.setCtx k).ctx? firstId = some k := by
    simp [State.setCtx, State.ctx?, e, i, mset, mfind]
  intro c
  rw [gal c rfl]
  cases cached
  · refine admission_refused (own _ _ rfl rfl) ?_ (img := idleImg) rfl (by decide +kernel)
    simp [cacheOf, State.setCtx, createSt, mget]
  · refine admission_held (own _ _ rfl rfl) (j := ⟨firstId, 0, 0x0101, kern, false, 0⟩) ?_
    simp [cacheOf, State.setCtx, createSt, mget, body]

/-! ### Steps and words -/

/-- StepRunsTheWordAtItsPlace: a sequencer at a NOP, at a word of no instruction and at LENGTH; its address unit; a chosen
rule; a node with a word under way and one whose word has come, one with a result word beside its product; a prism unit; an
event. -/
def seqHall (pc : Nat) (w : Word) : Hall :=
  { hall [] with pc := pc, stores := [(71, [⟨0x0101, false⟩])]
                 bind := some { bnd with kernel := { kern with sections := [⟨1, 0x3F, 0, [w]⟩] } } }
def nop : Word := 0x2700000000000000
theorem witness_StepRunsTheWordAtItsPlace :
    (∀ p, p = 0 ∨ p = 8 →
      let x := seqHall p nop
      let s := { st .env x with turns := [.run (.seq 0)] }
      s.phase ≠ .boot ∧ s.firing = [] ∧ x.res = .running ∧ x.held = false ∧ x.exiting = false ∧ x.pc < 4096 ∧ x.config 71 = .ok ∧ x.au.pc % 8 = 0 ∧ x.config (160 + 8192 / 4096) = .missing
      ∧ (p = 0 → x.code[x.pc / 8]? = some nop ∧ (match decode nop.toNat with | .ok i => decide (i.unit = some .seq) | _ => false) = true)
      ∧ (p = 8 → 8 * x.code.length ≤ x.pc) ∧ x.code[x.au.pc / 8]? = some nop
      ∧ (let y := (fillPending s 0).hall 0
         y.res = .running ∧ y.held = false ∧ y.exiting = false ∧ y.config 71 = .ok ∧ y.au.pc % 8 = 0 ∧ y.code[y.au.pc / 8]? = some nop))
    ∧ (match decode (0 : Word).toNat with | .ok _ => false | .error _ => true) = true ∧ (seqHall 0 0).code[0]? = some 0
    ∧ (let w : Word := BitVec.ofNat 64 ((encode (.imad fh (.e 5) (.e 0) (.e 3) (.e 4) 0)).getD 0)
       let F : Facet := { fct with pool := [w], installed := true }
       let s := { fctSt F with firing := [(0, 8, 0)] }
       s.firing = [(0, 8, 0)] ∧ (s.hall 0).active = true ∧ lget ((s.hall 0).facet 8).pool 0 = w
       ∧ decode w.toNat = .ok (.imad fh (.e 5) (.e 0) (.e 3) (.e 4) 0) ∧ (Instr.imad fh (.e 5) (.e 0) (.e 3) (.e 4) 0).unit = some .facet)
    ∧ (let b := busy mma int8Entry 0 0
       let n := mmaNode b 0
       lget n.ins 3 = [] ∧ n.busy = some b ∧ n.ahead = [] ∧ lget n.ins 0 = [] ∧ b.word = mma
       ∧ (let m := { n with tiles := List.replicate 16 intTile, ahead := [{ busy (.mxrd 1 1 0 false) int8Entry 0 0 with index := 1 }] }
          let s := st .env { hall [] with mx := [(1, m)], stores := [(66, [⟨0x0101, false⟩])] }
          (s.hall 0).config (64 + 2 * 1) = .ok ∧ (s.hall 0).active = true ∧ mxAhead s 0 1 = some (.mxrd 1 1 0 false)))
    ∧ (let w : Nat := (encode mma).getD 0
       let t : Token := ⟨0x0C00, BitVec.ofNat 256 w, false, 0x0101, false⟩
       t.lens = false ∧ hdrBad t.hdr = false ∧ hdrKind t.hdr = 0 ∧ hdrWid t.hdr = 64 ∧ hdrLen t.hdr = 1
       ∧ ({ hall [] with stores := [(66, [⟨0x0101, false⟩])] } : Hall).config (64 + 2 * 1) = .ok
       ∧ decode (t.pay.toNat % 2 ^ 64) = .ok mma ∧ mma.unit = some .matrix)
    ∧ (let i : Instr := .scand 0 0 3 false
       let w : Word := BitVec.ofNat 64 ((encode i).getD 0)
       let x : Hall := { hall [] with units := [(56, { PUnit.reset with words := [w], installed := true })], stores := [(56, [⟨0x0101, false⟩])] }
       nodeAt 7 0 = .prism ∧ x.active = true ∧ x.config (8 * 7 + 0) = .ok ∧ (x.unit (8 * 7 + 0)).installed = true ∧ (x.unit (8 * 7 + 0)).words = [w]
       ∧ decode w.toNat = .ok i ∧ i.unit = some .prism)
    ∧ (Instr.landingDecision 0).unit = none ∧ (Instr.nop hd).unit ≠ none := by
  refine ⟨?_, by decide +kernel, by decide +kernel, by decide +kernel, by decide +kernel, by decide +kernel, by decide +kernel, by decide, by decide⟩
  intro p h; rcases h with rfl | rfl <;> decide +kernel

/-- DecodeOfEncode, EncodeOfDecode: a word of each kind with every field at its last value. -/
theorem witness_DecodeOfEncode : (Instr.addi hd 63 63 (-1)).wf = true
    ∧ ((encode (.addi hd 63 63 (-1))).map fun w => decide (w < 2 ^ 64 ∧ decode w = .ok (.addi hd 63 63 (-1)))) = some true := by decide +kernel

/-- StepKeepsMemoryForm, StepKeepsContextsKeyed: the state after reset, from which a step answers a next state. -/
theorem witness_StepKeeps : State.reset.StoredForm ∧ State.reset.ContextsKeyed ∧ ∃ t, step { State.reset with turns := [.tick] } = .next t := by
  refine ⟨⟨⟨rfl, rfl, fun g => rfl⟩, List.forall_mem_nil _⟩, ?_, ?_⟩
  · unfold State.ContextsKeyed Rising; decide
  · exact ⟨_, rfl⟩

end Sys2Proof.Tests
end

