-- ==== Sys2Proof/Proofs/RegisterWords.lean ====
section
/-! SUPPORT. What a turn of the compute unit at a register word or at a control word leaves behind (spec R182, R190, R195,
R197, R200). -/

namespace Sys2Proof.Machine

/-! ## Registers of a view -/

@[simp] theorem View.reg_zero (v : View) : v.reg 0 = 0 := if_pos rfl

theorem View.reg_setReg_ne (v : View) {a r : Reg} (w : Word) (h : r ≠ a) : (v.setReg a w).reg r = v.reg r := by
  unfold View.setReg
  split
  · rfl
  · have : (a : Nat) ≠ r := fun e => h (Fin.ext e.symm)
    simp [View.reg, Vector.getElem_set_ne _ _ this]

@[simp] theorem View.preds_setReg (v : View) (a : Reg) (w : Word) : (v.setReg a w).preds = v.preds := by
  unfold View.setReg
  split <;> rfl

/-! ## The frame of a register word -/

/-- A view after a word that writes register `a` at most. -/
structure View.WroteOnly (a : Reg) (v w : View) : Prop where
  regs : ∀ r, r ≠ a → w.reg r = v.reg r
  preds : w.preds = v.preds

theorem View.WroteOnly.refl (a : Reg) (v : View) : View.WroteOnly a v v := ⟨fun _ _ => rfl, rfl⟩

theorem View.WroteOnly.setReg (a : Reg) (v : View) (w : Word) : View.WroteOnly a v (v.setReg a w) :=
  ⟨fun _ h => v.reg_setReg_ne w h, v.preds_setReg a w⟩

/-- Register s0 reads zero before and after, so a word that writes s0 alone changes no register (R10). -/
theorem View.WroteOnly.reg_of_zero {v w : View} (h : View.WroteOnly 0 v w) (r : Reg) : w.reg r = v.reg r := by
  by_cases e : r = 0
  · rw [e, View.reg_zero, View.reg_zero]
  · exact h.regs r e

theorem SameBesideRegisters.refl (x : Hall) : SameBesideRegisters x x := by constructor <;> simp

/-- A hall after the compute unit's turn at a word that writes register `a`. -/
structure Hall.Computed (a : Reg) (x y : Hall) : Prop where
  c : View.WroteOnly a x.c y.c
  a : View.WroteOnly a x.a y.a
  rest : SameBesideRegisters x y

theorem Hall.Computed.refl (a : Reg) (x : Hall) : Hall.Computed a x x :=
  ⟨.refl a x.c, .refl a x.a, .refl x⟩

theorem SameBesideRegisters.dropAhead (x : Hall) : SameBesideRegisters x x.dropAhead := by
  unfold Hall.dropAhead
  split <;> constructor <;> simp

/-- The state in which a word goes on once it has started: its hall's registers stand, and beside that hall nothing has
changed (R182). -/
structure Started (s : State) (h : Nat) (t : State) : Prop where
  only : ∀ y, t.setHall h y = s.setHall h y
  c : (t.hall h).c = (s.hall h).c
  a : (t.hall h).a = (s.hall h).a
  rest : SameBesideRegisters (s.hall h) (t.hall h)

theorem Started.refl (s : State) (h : Nat) : Started s h s := ⟨fun _ => rfl, rfl, rfl, .refl _⟩

/-- The word waits, or starts in a hall whose marks of a first read and run-ahead alone may have changed (R182, R187). -/
theorem cStart_cases {α : Type} (s : State) (h : Nat) (srcs dst : List Reg) (k : State → Res α) :
    cStart s h srcs dst k = .wait s ∨ ∃ t, Started s h t ∧ cStart s h srcs dst k = k t := by
  simp only [cStart]
  split
  · exact .inl rfl
  · right
    split
    · exact ⟨s, .refl s h, rfl⟩
    · refine ⟨_, ?_, rfl⟩
      split
      · refine ⟨fun y => by simp, by simp, by simp, ?_⟩
        constructor <;> simp
      · refine ⟨fun y => by simp, by simp, by simp, ?_⟩
        obtain ⟨hbind, hloop, hpend, htrap, hmem, hfab, heng⟩ := SameBesideRegisters.dropAhead (s.hall h)
        rw [State.hall_setHall_self]
        exact ⟨hbind, hloop, hpend, htrap, hmem, hfab, heng⟩

/-- A hall that retires a word changes no register, and nothing beside its place, run-ahead and watchdog count. -/
theorem Hall.Computed.retire {a : Reg} {x y : Hall} (hy : Hall.Computed a x y) (n : Nat) (t c z : Bool) :
    Hall.Computed a x (y.retire n t c z) := by
  obtain ⟨hc, ha, hbind, hloop, hpend, htrap, hmem, hfab, heng⟩ := hy
  refine ⟨by simpa using hc, by simpa using ha, ?_⟩
  constructor <;> simpa

/-- The A part and the retirement of a register word, after what its C part has made of the hall (R181, R184). -/
theorem Hall.Computed.settled {a : Reg} {x y : Hall} (hy : Hall.Computed a x y) (ha : y.a = x.a) (hd : SHdr)
    (f : View → Word) (n : Nat) (t c : Bool) :
    Hall.Computed a x (Hall.retire (if hd.mark ≠ .c ∧ holds hd y.a then { y with a := y.a.setReg a (f y.a) } else y) n t c hd.y) := by
  refine .retire ?_ n t c hd.y
  split
  · exact ⟨hy.c, by rw [ha]; exact .setReg a _ _, ⟨hy.rest.binding, hy.rest.loop, hy.rest.pend, hy.rest.trap,
      hy.rest.memory, hy.rest.fabric, hy.rest.engines⟩⟩
  · exact hy

/-- The compute unit's turn at a register word: the word waits, or changes its own hall as `Hall.Computed` says. -/
theorem aluWord_computed {s : State} {h : Nat} (hc : s.cur = .seq h) (hd : SHdr) (a : Reg) (srcs : List Reg) (f : View → Word) :
    aluWord hd a srcs f s = s ∨ ∃ y, Hall.Computed a (s.hall h) y ∧ aluWord hd a srcs f s = s.setHall h y := by
  unfold aluWord plainWord
  rw [hc]
  simp only [computeWord]
  split
  · rcases cStart_cases s h srcs [a] fun t => .ok none (t.wc h a (f (t.hall h).c)) with e | ⟨t, ht, e⟩
    · exact .inl (by rw [e]; rfl)
    · have started : Hall.Computed a (s.hall h) { t.hall h with c := (t.hall h).c.setReg a (f (t.hall h).c) } :=
        ⟨by rw [ht.c]; exact .setReg a _ _, by rw [ht.a]; exact .refl a _, ht.rest.binding, ht.rest.loop, ht.rest.pend,
          ht.rest.trap, ht.rest.memory, ht.rest.fabric, ht.rest.engines⟩
      refine .inr ⟨_, started.settled ht.a hd f ((s.hall h).pc + 8) false false, ?_⟩
      rw [e]
      simp only [settle, State.wc, State.updHall_updHall]
      exact ht.only _
  · exact .inr ⟨_, (Hall.Computed.refl a (s.hall h)).settled rfl hd f ((s.hall h).pc + 8) false false, rfl⟩

/-- Every register word is an `aluWord` of its destination and its sources. -/
theorem exec_of_registerWord {i : Instr} {hd : SHdr} {a : Reg} {srcs : List Reg} (hi : registerWord i = some (hd, a, srcs)) :
    ∃ f, ∀ s, exec i s = .next (aluWord hd a srcs f s) := by
  unfold registerWord at hi
  split at hi <;> cases hi <;> exact ⟨_, fun _ => rfl⟩

/-- What a turn at a register word can do, by `aluWord_computed`. -/
theorem registerWord_cases {s t : State} {h : Nat} {i : Instr} {hd : SHdr} {a : Reg} {srcs : List Reg} (hc : s.cur = .seq h)
    (hi : registerWord i = some (hd, a, srcs)) (ht : exec i s = .next t) :
    t = s ∨ ∃ y, Hall.Computed a (s.hall h) y ∧ t = s.setHall h y := by
  obtain ⟨f, hf⟩ := exec_of_registerWord hi
  rw [hf] at ht
  cases ht
  exact aluWord_computed hc hd a srcs f

/-- A turn at a register word leaves its own hall as `Hall.Computed` says. -/
theorem registerWord_computed {s t : State} {h : Nat} {i : Instr} {hd : SHdr} {a : Reg} {srcs : List Reg} (hc : s.cur = .seq h)
    (hi : registerWord i = some (hd, a, srcs)) (ht : exec i s = .next t) : Hall.Computed a (s.hall h) (t.hall h) := by
  rcases registerWord_cases hc hi ht with rfl | ⟨y, hy, rfl⟩
  · exact .refl a _
  · rwa [State.hall_setHall_self]

/-- A turn at a register word changes its own hall alone. -/
theorem registerWord_onlyHall {s t : State} {h : Nat} {i : Instr} {hd : SHdr} {a : Reg} {srcs : List Reg} (hc : s.cur = .seq h)
    (hi : registerWord i = some (hd, a, srcs)) (ht : exec i s = .next t) : OnlyHall h s t := by
  rcases registerWord_cases hc hi ht with rfl | ⟨y, -, rfl⟩
  · exact ⟨rfl, fun _ _ => rfl⟩
  · exact ⟨rfl, fun _ hg => s.hall_setHall_ne y hg⟩

/-! ## States that differ in one hall -/

theorem OnlyHall.sameMemory {h : Nat} {s t : State} (ho : OnlyHall h s t) : SameMemory s t := by
  rw [ho.rest]
  exact ⟨fun _ => rfl, fun _ => rfl⟩

theorem OnlyHall.sameScratch {h : Nat} {s t : State} (ho : OnlyHall h s t) (hs : (t.hall h).scratch = (s.hall h).scratch)
    (hf : (t.hall h).full = (s.hall h).full) : SameScratch s t := by
  intro g
  by_cases e : g = h
  · subst e
    exact ⟨fun _ => by rw [hs], hf⟩
  · rw [ho.others g e]
    exact ⟨fun _ => rfl, rfl⟩

/-! ## A register word that waits -/

/-- A register that is pending stands in the mask of any list that names it (R182). -/
theorem and_regBits_ne_zero {p : BitVec 64} {srcs dst : List Reg} {r : Reg} (hr : r ∈ dst ∨ r ∈ srcs) (hn : r ≠ 0)
    (hp : p.getLsbD r.val = true) : p &&& (regBits srcs ||| regBits dst) ≠ 0 := by
  have named {l : List Reg} (hl : r ∈ l) : (regBits l).getLsbD r.val = true := by
    rw [getLsbD_regBits, List.any_eq_true]
    exact ⟨r, hl, by simp [hn]⟩
  intro e
  have h0 : (p &&& (regBits srcs ||| regBits dst)).getLsbD r.val = false := by rw [e]; exact BitVec.getLsbD_zero
  rw [BitVec.getLsbD_and, BitVec.getLsbD_or, hp] at h0
  rcases hr with hr | hr <;> rw [named hr] at h0 <;> simp at h0

/-- A register word of the C view that names a pending register stays where it is (R182). -/
theorem registerWord_pending {s : State} {h : Nat} {i : Instr} {hd : SHdr} {a r : Reg} {srcs : List Reg} (hc : s.cur = .seq h)
    (hi : registerWord i = some (hd, a, srcs)) (hm : hd.mark ≠ .a) (hg : holds hd (s.hall h).c = true) (hr : r ∈ a :: srcs)
    (hn : r ≠ 0) (hp : (s.hall h).pend.getLsbD r.val = true) : exec i s = .next s := by
  obtain ⟨f, hf⟩ := exec_of_registerWord hi
  rw [hf]
  unfold aluWord plainWord
  rw [hc]
  simp only [computeWord]
  rw [if_pos ⟨hm, hg⟩, cStart_pending _ (and_regBits_ne_zero (by simpa using hr) hn hp)]
  rfl

/-- Settles O3, by the frame of `aluWord`, which every register word is. -/
theorem registerWordsFrame : Obligations.RegisterWordsFrame := by
  refine ⟨fun s t h i hd a srcs hc hi ht => ?_, fun s t h i hd srcs hc hi ht => ?_,
    fun s h i hd a srcs hc hi hm hg ⟨r, hr, hn, hp⟩ => registerWord_pending hc hi hm hg hr hn hp⟩
  · have ho := registerWord_onlyHall hc hi ht
    obtain ⟨hcv, hav, rest⟩ := registerWord_computed hc hi ht
    obtain ⟨-, hscratch, hfull, -⟩ := rest.memory
    exact ⟨ho.sameMemory, ho.sameScratch hscratch hfull, ho, fun r hr => ⟨hcv.regs r hr, hav.regs r hr⟩, hcv.preds, hav.preds, rest⟩
  · obtain ⟨hcv, hav, -⟩ := registerWord_computed hc hi ht
    exact ⟨fun r => ⟨hcv.reg_of_zero r, hav.reg_of_zero r⟩, View.reg_zero _, View.reg_zero _⟩

end Sys2Proof.Machine
end

