-- ==== Sys2Proof/Proofs/ControlTargets.lean ====
section
/-! SUPPORT. What the compute unit's turn does at a control word whose target R197 forbids, and at one whose guard is
false. -/

namespace Sys2Proof.Machine

/-- A control word whose guards hold and whose registers are settled does what its effect says. -/
theorem controlWord_taken {s : State} {h : Nat} {hd : SHdr} {rs srcs dst : List Reg} {eff : Nat → State → Res (Option Nat)}
    {guess : AddrUnit → Option (Nat × AddrUnit)} (w : AtControl s h hd rs) (hs : srcs ⊆ rs) (hdst : dst ⊆ rs) :
    controlWord hd srcs dst eff guess s = settle h hd true id (s.hall h).pc (eff h s) := by
  unfold controlWord
  rw [w.cur]
  simp only [computeWord]
  rw [if_pos ⟨by rw [w.mark]; decide, w.guards⟩, cStart_settled _ w.regs hs hdst]

/-- A control word whose effect faults traps at itself. -/
theorem controlWord_trap {s t : State} {h : Nat} {hd : SHdr} {rs srcs dst : List Reg} {eff : Nat → State → Res (Option Nat)}
    {guess : AddrUnit → Option (Nat × AddrUnit)} {c : Cause} {i : Word} (w : AtControl s h hd rs) (hs : srcs ⊆ rs)
    (hdst : dst ⊆ rs) (he : eff h s = .trap c i t) : controlWord hd srcs dst eff guess s = raise t h c i (s.hall h).pc := by
  rw [controlWord_taken w hs hdst, he]
  rfl

/-- A control word whose guards fail falls through, whatever its effect would have been (R197). -/
theorem controlWord_skipped {s : State} {h : Nat} {hd : SHdr} {srcs dst : List Reg} {eff : Nat → State → Res (Option Nat)}
    {guess : AddrUnit → Option (Nat × AddrUnit)} (hc : s.cur = .seq h) (hg : holds hd (s.hall h).c = false) :
    controlWord hd srcs dst eff guess s = s.updHall h fun x => Hall.retire x (x.pc + 8) false true hd.y := by
  unfold controlWord
  rw [hc]
  simp only [computeWord, hg, Bool.false_eq_true, and_false, if_false, settle, id, ite_self, State.updHall,
    Option.getD_none, Option.isSome_none]

/-- The cause that a forbidden target raises: ALIGN ahead of ACCESS (R13, R197). -/
def badTarget (t : Int) : Cause := if t % 8 ≠ 0 then .align else .access

theorem jumpTo_bad {s : State} {h : Nat} {t : Int} (k : State → State)
    (ht : t % 8 ≠ 0 ∨ t < 0 ∨ ((s.hall h).length : Int) ≤ t) : jumpTo h t k s = .trap (badTarget t) 0 s := by
  unfold jumpTo badTarget
  split
  · rfl
  · exact if_pos (ht.resolve_left ‹_›)

/-- A control word whose target is forbidden raises `badTarget` at itself. -/
theorem controlWord_badTarget {s : State} {h : Nat} {hd : SHdr} {rs srcs dst : List Reg} {eff : Nat → State → Res (Option Nat)}
    {guess : AddrUnit → Option (Nat × AddrUnit)} {k : State → State} {t : Int} (w : AtControl s h hd rs) (hs : srcs ⊆ rs)
    (hdst : dst ⊆ rs) (he : eff h s = jumpTo h t k s) (ht : t % 8 ≠ 0 ∨ t < 0 ∨ ((s.hall h).length : Int) ≤ t) :
    controlWord hd srcs dst eff guess s
      = if t % 8 ≠ 0 then raise s h .align 0 (s.hall h).pc else raise s h .access 0 (s.hall h).pc := by
  rw [controlWord_trap w hs hdst (he.trans (jumpTo_bad k ht))]
  unfold badTarget
  split <;> rfl

@[simp] theorem Hall.judged_pc (d : Option Word) (x : Hall) : (Hall.judged d x).pc = x.pc := by
  unfold Hall.judged
  repeat' split
  all_goals rfl

@[simp] theorem Hall.judged_c (d : Option Word) (x : Hall) : (Hall.judged d x).c = x.c := by
  unfold Hall.judged
  repeat' split
  all_goals rfl

/-- LOOP's body must end inside the code section (R197, R199). -/
theorem loopEff_access {s : State} {h : Nat} (a : Reg) {off : BitVec 28}
    (hl : (s.hall h).length ≤ (s.hall h).pc + 8 * off.toNat) : loopEff h a off s = .trap .access 0 s :=
  if_pos hl

theorem execLoop_access {s : State} {h : Nat} {hd : SHdr} {a : Reg} {rs : List Reg} {off : BitVec 28} (w : AtControl s h hd rs)
    (ha : [a] ⊆ rs) (hl : (s.hall h).length ≤ (s.hall h).pc + 8 * off.toNat) :
    execLoop hd a off s = .next (raise s h .access 0 (s.hall h).pc) := by
  unfold execLoop
  simp only [w.cur, w.guards, if_true]
  rw [controlWord_trap w ha (List.nil_subset _) (by rw [loopEff_access a hl]; rfl)]

theorem execLoop_skipped {s : State} {h : Nat} {hd : SHdr} (a : Reg) (off : BitVec 28) (hc : s.cur = .seq h)
    (hg : holds hd (s.hall h).c = false) :
    execLoop hd a off s
      = .next (s.updHall h fun x => Hall.retire (Hall.judged none x) (x.pc + 8) false true hd.y) := by
  unfold execLoop
  simp only [hc, hg, Bool.false_eq_true, if_false]
  rw [controlWord_skipped (by simpa using hc) (by simpa using hg), State.updHall_updHall]
  simp only [Hall.judged_pc]

/-- Settles O6: each control word's target goes through `jumpTo`, or `loopEff` for LOOP, only where its guards hold. -/
theorem controlTargetsAreChecked : Obligations.ControlTargetsAreChecked := by
  refine ⟨fun s h hd a b c imm w => ⟨fun ht => ⟨?_, ?_⟩, fun ht => ?_, fun ht => ?_, fun off hl => ?_⟩,
    fun s h hd a b c imm off hc _ hg => ⟨?_, ?_, ?_, ?_, execLoop_skipped a off hc hg⟩⟩
  · exact congrArg Host.Outcome.next (controlWord_badTarget w (by simp) (by simp) rfl ht)
  · exact congrArg Host.Outcome.next (controlWord_badTarget w (by simp) (by simp) rfl ht)
  · exact congrArg Host.Outcome.next (controlWord_badTarget w (by simp) (by simp) rfl ht)
  · exact congrArg Host.Outcome.next (controlWord_badTarget w (by simp) (by simp) rfl ht)
  · exact execLoop_access w (by simp) hl
  all_goals exact congrArg Host.Outcome.next (controlWord_skipped hc hg)

end Sys2Proof.Machine
end

