-- ==== Sys2Proof/Proofs/ScratchAccesses.lean ====
section
/-! SUPPORT. Plain loads and stores of a sequencer in its hall's own scratch window (spec R251, R271, R357). -/

namespace Sys2Proof.Machine

/-! ## Little-endian bytes of a register (R5) -/

theorem getElem_leBytes (n : Nat) : ∀ (x j : Nat) (h : j < (leBytes n x).length), (leBytes n x)[j] = BitVec.ofNat 8 (x / 256 ^ j) := by
  induction n with
  | zero => intro x j h; exact absurd h (by simp [leBytes])
  | succ n ih =>
    intro x j h
    cases j with
    | zero => simp [leBytes]
    | succ j =>
      simp only [leBytes, List.getElem_cons_succ, ih, Nat.div_div_eq_div_mul, Nat.pow_succ']

/-- Byte `j` of the low `n` bytes of a word is byte `j` of the word. -/
theorem ofNat_mod_div_eq_extractLsb' (w : Word) {j n : Nat} (h : j < n) :
    BitVec.ofNat 8 (w.toNat % 2 ^ (8 * n) / 256 ^ j) = w.extractLsb' (8 * j) 8 := by
  apply BitVec.eq_of_toNat_eq
  have hn : 2 ^ (8 * n) = 256 ^ j * 2 ^ (8 * (n - j)) := by
    rw [show 256 = 2 ^ 8 by rfl, ← Nat.pow_mul, ← Nat.pow_add]
    congr 1
    omega
  have hd : 2 ^ 8 ∣ 2 ^ (8 * (n - j)) := Nat.pow_dvd_pow 2 (by omega)
  rw [hn, Nat.mod_mul_right_div_self, BitVec.toNat_ofNat, Nat.mod_mod_of_dvd _ hd, BitVec.extractLsb'_toNat,
    Nat.shiftRight_eq_div_pow, Nat.pow_mul]

theorem cread_eq_map (m : Cells) (a n : Nat) : cread m a n = (List.range n).map fun j => cget m (a + j) := by
  apply List.ext_getElem
  · simp [length_cread]
  · intro i h _
    simp [getElem_cread]

/-- A loaded value's extension to 64 bits (R271). -/
theorem extend_eq (n v : Nat) (hn : 0 < n) (sx : Bool) :
    extend n sx v = if sx then (BitVec.ofNat (8 * n) v).signExtend 64 else BitVec.ofNat 64 v := by
  unfold extend
  split
  · have hp : 2 ^ (8 * n) = 2 * 2 ^ (8 * n - 1) := by rw [← Nat.pow_succ']; congr 1; omega
    have : sextNat v (8 * n) = (BitVec.ofNat (8 * n) v).toInt := by
      simp only [sextNat, BitVec.toInt, BitVec.toNat_ofNat]
      have hm : v % 2 ^ (8 * n) < 2 ^ (8 * n) := Nat.mod_lt _ (Nat.two_pow_pos _)
      have hz : 8 * n ≠ 0 := by omega
      push_cast
      split <;> split <;> omega
    rw [this]
    rfl
  · rfl

/-! ## Where an access of the own window leads -/

/-- A scratch offset lies below the largest scratchpad's end (R18). -/
theorem OwnScratch.lt {s : State} {h o n : Nat} {k : Ctx} (w : OwnScratch s h o n k) (hn : 0 < n) : o < 2 ^ 22 := by
  have := w.inside
  have := w.split
  unfold Hall.size at *
  omega

theorem OwnScratch.resolve {s : State} {h o n : Nat} {k : Ctx} (w : OwnScratch s h o n k) (hn : 0 < n) (ag : TlbAgent) :
    resolve s h ag (ownBase + o) n = .ok (.scratch h o) s := by
  have ho := w.lt hn
  have hl : locate s h ag (ownBase + o) n = .ok (.scratch h o) s := by
    unfold locate
    rw [if_neg (by unfold ownBase; omega), if_neg (by omega), if_pos (by unfold ownBase galBase; omega)]
    simp only [Nat.add_sub_cancel_left]
    exact if_pos (by simp [scratchOk, w.inside, w.lens])
  unfold Machine.resolve
  rw [hl]
  rfl

/-- The effective address of the claim, as a natural number. -/
theorem OwnScratch.toNat_ea {s : State} {h o n : Nat} {k : Ctx} (w : OwnScratch s h o n k) (hn : 0 < n) :
    (BitVec.ofNat 64 (0x00FE000000000000 + o)).toNat = ownBase + o := by
  have ho := w.lt hn
  rw [BitVec.toNat_ofNat]
  unfold ownBase
  omega

theorem OwnScratch.badAt {s : State} {h o n : Nat} {k : Ctx} (w : OwnScratch s h o n k) : (s.hall h).badAt o n = false := by
  simp [Hall.badAt, w.sound]

theorem OwnScratch.postedHits {s : State} {h o n : Nat} {k : Ctx} (w : OwnScratch s h o n k) (p m : Nat) :
    postedHits (s.hall h) p m = false := by
  simp [Machine.postedHits, w.posted]

/-- With race detection off an access changes no more than the access records (R384). -/
theorem raceCheck_off {s : State} {ctx : Word} {k : Ctx} (hk : s.ctx? ctx = some k) (hr : k.racectl.getLsbD 0 = false)
    (h e key va : Nat) (bytes : BitVec 64) (writes : Bool) :
    ∃ r, raceCheck s ctx h e key va bytes writes = .ok () { s with recs := r } := by
  unfold raceCheck
  rw [hk]
  simp only [hr]
  split
  · contradiction
  · exact ⟨_, rfl⟩

theorem Hall.fullAt_iff (x : Hall) {off n : Nat} (hn : 0 < n) : x.fullAt off n = true ↔ FullWords x off n := by
  unfold Hall.fullAt FullWords
  simp only [List.all_eq_true, List.mem_range, List.contains_iff_mem]
  constructor
  · intro h w h1 h2
    have := h (w - off / 4) (by omega)
    rwa [show off / 4 + (w - off / 4) = w by omega] at this
  · intro h i hi
    exact h _ (by omega) (by omega)

/-! ## The accesses themselves -/

theorem OwnScratch.aligned_ea {s : State} {h o n : Nat} {k : Ctx} (w : OwnScratch s h o n k) (hn : n ∣ 8) :
    (ownBase + o) % n = 0 := by
  have hb : n ∣ ownBase := hn.trans (by decide)
  exact Nat.mod_eq_zero_of_dvd ((Nat.dvd_add_right hb).2 (Nat.dvd_of_mod_eq_zero w.aligned))

/-- A load of full words takes the little-endian bytes (R251). -/
theorem OwnScratch.loadAt_full {s : State} {h o n : Nat} {k : Ctx} (w : OwnScratch s h o n k) (hn : n ∣ 8) (hf : FullWords (s.hall h) o n)
    (ch : Hint) : ∃ r, loadAt s h (ownBase + o) n ch = .ok (cval (s.hall h).scratch o n) { s with recs := r } := by
  have h0 : 0 < n := Nat.pos_of_dvd_of_pos hn (by decide)
  obtain ⟨r, hr⟩ := raceCheck_off w.ctx w.races h (s.epoch (s.ctxOf h) h) (recOfScratch h o) (ownBase + o) (spanBytes o n) false
  refine ⟨r, ?_⟩
  unfold loadAt
  rw [if_neg (by simp [w.aligned_ea hn]), w.resolve h0]
  simp only [Res.andThen, w.postedHits, Bool.false_eq_true, if_false, scratchRead, (Hall.fullAt_iff _ h0).2 hf, w.badAt,
    Bool.not_true, hr]
  rfl

/-- A load waits while one of its words is empty (R251, R356). -/
theorem OwnScratch.loadAt_empty {s : State} {h o n : Nat} {k : Ctx} (w : OwnScratch s h o n k) (hn : n ∣ 8)
    (hf : ¬ FullWords (s.hall h) o n) (ch : Hint) : loadAt s h (ownBase + o) n ch = .wait s := by
  have h0 : 0 < n := Nat.pos_of_dvd_of_pos hn (by decide)
  unfold loadAt
  rw [if_neg (by simp [w.aligned_ea hn]), w.resolve h0]
  have he : (s.hall h).fullAt o n = false := by simpa [← Hall.fullAt_iff _ h0] using hf
  simp only [Res.andThen, w.postedHits, Bool.false_eq_true, if_false, scratchRead, he, Bool.not_false, if_true]

/-- A store behind a request that stands to be served waits (R357). -/
theorem OwnScratch.storeAt_busy {s : State} {h o n : Nat} {k : Ctx} (w : OwnScratch s h o n k) (hn : n ∣ 8)
    (ht : ownsT0 s (s.ctxOf h) (ownBase + o) n = false) (hb : portBusy s h o n = true) (v : Nat) (ch : Hint) :
    storeAt s h (ownBase + o) n v ch = .wait s := by
  have h0 : 0 < n := Nat.pos_of_dvd_of_pos hn (by decide)
  unfold storeAt
  rw [if_neg (by simp [w.aligned_ea hn]), if_neg (by simp [ht]), w.resolve h0]
  simp only [Res.andThen, w.postedHits, Bool.false_eq_true, if_false, scratchWrite, hb, if_true]

/-- A store puts its bytes into the hall's scratch, and ends what releases had left at its words (R251, R354). -/
theorem OwnScratch.storeAt_free {s : State} {h o n : Nat} {k : Ctx} (w : OwnScratch s h o n k) (hn : n ∣ 8)
    (ht : ownsT0 s (s.ctxOf h) (ownBase + o) n = false) (hb : portBusy s h o n = false) (v : Nat) (ch : Hint) :
    ∃ r l, storeAt s h (ownBase + o) n v ch
      = .ok () ({ s with recs := r, carries := l }.updHall h fun y => y.put o (leBytes n v)) := by
  have h0 : 0 < n := Nat.pos_of_dvd_of_pos hn (by decide)
  obtain ⟨r, hr⟩ := raceCheck_off w.ctx w.races h (s.epoch (s.ctxOf h) h) (recOfScratch h o) (ownBase + o) (spanBytes o n) true
  refine ⟨r, s.carries.filter (fun c => c.addr + 4 ≤ keyOfScratch h o || keyOfScratch h o + n ≤ c.addr), ?_⟩
  unfold storeAt
  rw [if_neg (by simp [w.aligned_ea hn]), if_neg (by simp [ht]), w.resolve h0]
  simp only [Res.andThen, w.postedHits, Bool.false_eq_true, if_false, scratchWrite, hb, hr]
  rfl

/-! ## The words -/

/-- Discarding run-ahead changes the address unit alone. -/
theorem Hall.discardOverlap_eq (x : Hall) (p n : Nat) : ∃ u, x.discardOverlap p n = { x with au := u } := by
  unfold Hall.discardOverlap
  split
  · unfold Hall.dropAhead
    split
    · exact ⟨_, rfl⟩
    · exact ⟨x.au, rfl⟩
  · exact ⟨x.au, rfl⟩

/-- What a load word of the hall does once its access has ended. -/
theorem loadWord_ok {s t : State} {h : Nat} {hd : SHdr} {a : Reg} {rs srcs : List Reg} {ea : View → Nat} {n v : Nat} {sx : Bool}
    (w : AtWord s h hd rs) (hs : srcs ⊆ rs) (ha : a ∈ rs) (hl : loadAt s h (ea (s.hall h).c) n hd.ch = .ok v t)
    (hh : t.hall h = s.hall h) : loadWord hd a srcs ea n sx s = t.steppedWith h hd a (extend n sx v) := by
  unfold loadWord
  rw [w.cur]
  simp only [w.mark, reduceCtorEq, if_false, computeWord]
  rw [if_pos ⟨by decide, w.guards⟩, cStart_settled _ w.regs hs (by simpa using ha)]
  simp only [loadC, hl, Res.andThen]
  rw [settle_ok h hd w.mark _ _ _ (by simp [State.wc, hh])]
  simp [State.stepped, State.steppedWith, State.wc]

theorem loadWord_wait {s : State} {h : Nat} {hd : SHdr} {a : Reg} {rs srcs : List Reg} {ea : View → Nat} {n : Nat} {sx : Bool}
    (w : AtWord s h hd rs) (hs : srcs ⊆ rs) (ha : a ∈ rs) (hl : loadAt s h (ea (s.hall h).c) n hd.ch = .wait s) :
    loadWord hd a srcs ea n sx s = s := by
  unfold loadWord
  rw [w.cur]
  simp only [w.mark, reduceCtorEq, if_false, computeWord]
  rw [if_pos ⟨by decide, w.guards⟩, cStart_settled _ w.regs hs (by simpa using ha)]
  simp only [loadC, hl, Res.andThen, settle]

/-- A store word of the hall at its own scratch, which no earlier request holds back. -/
theorem cWord_store {s t : State} {h : Nat} {hd : SHdr} {a : Reg} {rs srcs : List Reg} {ea : View → Nat} {n : Nat}
    (w : AtWord s h hd rs) (hs : srcs ⊆ rs) (hpc : (t.hall h).pc = (s.hall h).pc)
    (hl : storeAt s h (ea (s.hall h).c) n (((s.hall h).c.reg a).toNat % 2 ^ (8 * n)) hd.ch = .ok () t) :
    ∃ u, cWord hd srcs [] (fun g s => storeEff g a ea n hd.ch s) s = t.updHall h fun x => Hall.stepped hd { x with au := u } := by
  obtain ⟨u, hu⟩ := (t.hall h).discardOverlap_eq (placeOf s h (ea (s.hall h).c) n) n
  refine ⟨u, ?_⟩
  have he : storeEff h a ea n hd.ch s = .ok () (t.updHall h fun x => x.discardOverlap (placeOf s h (ea (s.hall h).c) n) n) := by
    simp only [storeEff, hl, Res.andThen]
  rw [cWord_ok w hs (List.nil_subset _) he (by simp [hu, hpc])]
  simp only [State.stepped, State.updHall, State.setHall_setHall, State.hall_setHall_self, hu]

/-- R251, R271 for a load: what `Obligations.ScratchLoadsAndStores` says of LD and LDX. -/
theorem loadWord_ownScratch {s : State} {h o n : Nat} {k : Ctx} {hd : SHdr} {a : Reg} {rs srcs : List Reg} {ea : View → Nat}
    (sx : Bool) (w : AtWord s h hd rs) (hs : srcs ⊆ rs) (ha : a ∈ rs) (own : OwnScratch s h o n k) (hn : n ∣ 8)
    (he : ea (s.hall h).c = ownBase + o) :
    (FullWords (s.hall h) o n → ∃ t, loadWord hd a srcs ea n sx s = t ∧ OnlyHall h { s with recs := t.recs } t
      ∧ t.hall h = Hall.stepped hd { s.hall h with c := (s.hall h).c.setReg a (extend n sx (cval (s.hall h).scratch o n)) })
    ∧ (¬ FullWords (s.hall h) o n → loadWord hd a srcs ea n sx s = s) := by
  constructor
  · intro hf
    obtain ⟨r, hr⟩ := own.loadAt_full hn hf hd.ch
    rw [← he] at hr
    refine ⟨_, loadWord_ok w hs ha hr rfl, ⟨rfl, fun g hg => ?_⟩, ?_⟩
    · simp only [State.steppedWith, State.hall_updHall_ne _ _ hg]
      rfl
    · simp only [State.steppedWith, State.hall_updHall_self]
      rfl
  · intro hf
    exact loadWord_wait w hs ha (by rw [he]; exact own.loadAt_empty hn hf hd.ch)

/-- R251, R271, R357 for a store: what `Obligations.ScratchLoadsAndStores` says of ST and STX. -/
theorem cWord_ownScratch {s : State} {h o n : Nat} {k : Ctx} {hd : SHdr} {a : Reg} {rs srcs : List Reg} {ea : View → Nat}
    (w : AtWord s h hd rs) (hs : srcs ⊆ rs) (own : OwnScratch s h o n k) (hn : n ∣ 8) (he : ea (s.hall h).c = ownBase + o)
    (hm : Memory.wf (s.hall h).scratch = true) (ht : ownsT0 s (s.ctxOf h) (ownBase + o) n = false) :
    let word := cWord hd srcs [] (fun g s => storeEff g a ea n hd.ch s) s
    (portBusy s h o n = true → word = s)
    ∧ (portBusy s h o n = false → OnlyHall h { s with recs := word.recs, carries := word.carries } word
        ∧ (word.hall h).full = (s.hall h).full ∧ (word.hall h).c = (s.hall h).c ∧ (word.hall h).a = (s.hall h).a
        ∧ (word.hall h).pc = (Hall.stepped hd (s.hall h)).pc
        ∧ (∀ j, j < n → cget (word.hall h).scratch (o + j) = ((s.hall h).c.reg a).extractLsb' (8 * j) 8)
        ∧ (∀ j, j < o ∨ o + n ≤ j → cget (word.hall h).scratch j = cget (s.hall h).scratch j)) := by
  intro word
  constructor
  · intro hb
    refine cWord_wait w hs (List.nil_subset _) ?_
    simp only [storeEff, he, own.storeAt_busy hn ht hb, Res.andThen]
  · intro hb
    obtain ⟨r, l, hl⟩ := own.storeAt_free hn ht hb (((s.hall h).c.reg a).toNat % 2 ^ (8 * n)) hd.ch
    rw [← he] at hl
    obtain ⟨u, hu⟩ := cWord_store w hs (by rw [State.hall_updHall_self]; rfl) hl
    have hword : word = State.updHall { s with recs := r, carries := l } h fun x => Hall.stepped hd
        { x.put o (leBytes n (((s.hall h).c.reg a).toNat % 2 ^ (8 * n))) with au := u } := hu.trans (State.updHall_updHall _ _ _ _)
    have hhall : word.hall h = Hall.stepped hd
        { (s.hall h).put o (leBytes n (((s.hall h).c.reg a).toNat % 2 ^ (8 * n))) with au := u } := by
      rw [hword, State.hall_updHall_self]
      rfl
    refine ⟨⟨?_, fun g hg => ?_⟩, ?_⟩
    · rw [hword]; rfl
    · rw [hword, State.hall_updHall_ne _ _ hg]; rfl
    · rw [hhall]
      simp only [Hall.stepped, Hall.retire_full, Hall.retire_c, Hall.retire_a, Hall.retire_pc, Hall.retire_scratch, Hall.put,
        true_and]
      refine ⟨fun j hj => ?_, fun j hj => cget_cwrite_outside _ _ _ _ (by rwa [length_leBytes])⟩
      rw [cget_cwrite_inside _ _ _ hm (by rwa [length_leBytes]), getElem_leBytes, ofNat_mod_div_eq_extractLsb' _ hj]

theorem szBytes_dvd_eight (sz : Sz) : szBytes sz ∣ 8 := by cases sz <;> decide

/-- Settles O13, by the load and the store of a hall's own scratch at either form of address. -/
theorem scratchLoadsAndStores : Obligations.ScratchLoadsAndStores := by
  intro s h hd a b c sz sx off sh o k w hm x n v value loads stores
  have hn : n ∣ 8 := szBytes_dvd_eight sz
  have h0 : 0 < n := Nat.pos_of_dvd_of_pos hn (by decide)
  have hv : extend n sx (cval x.scratch o n) = value := by rw [extend_eq n _ h0, cval, cread_eq_map]
  have hload {i : Instr} {srcs : List Reg} {ea : View → Nat} (hi : exec i s = .next (loadWord hd a srcs ea n sx s))
      (hs : srcs ⊆ [a, b, c]) (he : OwnScratch s h o n k → ea x.c = ownBase + o) : loads i := by
    intro own
    obtain ⟨hfull, hempty⟩ := loadWord_ownScratch (a := a) sx w hs (by simp) own hn (he own)
    refine ⟨fun hf => ?_, fun hf => by rw [hi, hempty hf]⟩
    obtain ⟨t, ht, ho, hh⟩ := hfull hf
    exact ⟨t, by rw [hi, ht], ho, by rw [hh, hv]⟩
  have hstore {i : Instr} {srcs : List Reg} {ea : View → Nat}
      (hi : exec i s = .next (cWord hd srcs [] (fun g s => storeEff g a ea n hd.ch s) s)) (hs : srcs ⊆ [a, b, c])
      (he : OwnScratch s h o n k → ea x.c = ownBase + o) : stores i := by
    intro own ht
    obtain ⟨hbusy, hfree⟩ := cWord_ownScratch (a := a) w hs own hn (he own) (hm.2.2 h) ht
    exact ⟨fun hb => by rw [hi, hbusy hb], fun hb => ⟨_, hi, hfree hb⟩⟩
  refine ⟨fun he => ?_, fun he => ?_⟩
  · have ea (own : OwnScratch s h o n k) : eaOff b off x.c = ownBase + o := (congrArg BitVec.toNat he).trans (own.toNat_ea h0)
    exact ⟨hload (srcs := [b]) (ea := eaOff b off) rfl (by simp) ea, hstore (srcs := [a, b]) (ea := eaOff b off) rfl (by simp) ea⟩
  · have ea (own : OwnScratch s h o n k) : eaIdx b c sh.val x.c = ownBase + o := (congrArg BitVec.toNat he).trans (own.toNat_ea h0)
    exact ⟨hload (srcs := [b, c]) (ea := eaIdx b c sh.val) rfl (by simp) ea, hstore (srcs := [a, b, c]) (ea := eaIdx b c sh.val) rfl (by simp) ea⟩

end Sys2Proof.Machine
end

