-- ==== Sys2Proof/Proofs/MemoryForm.lean ====
section
/-! PROOFS. Every step keeps the form of byte memories (O59): it does not, in a table that lists a hall twice. -/

namespace Sys2Proof.Machine

/-- A running hall whose scratch lists a byte of zero, and whose control output waits, so that `flowControl` acts on it. -/
def uncanonicalHall : Hall := { Hall.reset with res := .running, scratch := [(0, 0)], ctlOut := [(0, 0)] }

/-- A state that lists hall 0 twice. `State.hall` reads the first entry, a hall at reset; the second is shadowed. Its one
turn, a die-to-die run that ends, concerns neither. -/
def shadowedState : State :=
  { State.reset with phase := .running, turns := [.upset .dieRun], halls := [(0, Hall.reset), (0, uncanonicalHall)] }

theorem uncanonicalHall_not_wf : Memory.wf uncanonicalHall.scratch = false := rfl

theorem hall_shadowedState (h : Nat) : shadowedState.hall h = Hall.reset := by
  by_cases h0 : 0 = h
  · simp [State.hall, shadowedState, mget, h0]
  · simp [State.hall, shadowedState, mget, Ne.symm h0]

theorem shadowedState_storedForm : shadowedState.StoredForm := by
  refine ⟨⟨rfl, rfl, fun h => ?_⟩, List.forall_mem_nil _⟩
  rw [hall_shadowedState]
  rfl

/-- `flowControl` goes over every entry of the table, and stores the shadowed one in the place of the first. -/
theorem flowControl_shadowedState (ts : List Turn) : flowControl { shadowedState with turns := ts } =
    { shadowedState with turns := ts, halls := [(0, uncanonicalHall), (0, uncanonicalHall)] } := rfl

theorem step_shadowedState : step shadowedState = .next (flowControl { shadowedState with turns := [] }) := rfl

/-- Refutes O59: the form speaks of the entry of each hall that `State.hall` reads, the first, while the end of every turn
(`flowControl`) also takes up a later entry of the same hall and stores it in the first one's place. From `shadowedState`,
whose memories all have the form, a step leaves hall 0 with a scratch that lists a byte of zero. -/
theorem not_stepKeepsMemoryForm : ¬ Obligations.StepKeepsMemoryForm := by
  unfold Obligations.StepKeepsMemoryForm
  intro keeps
  obtain ⟨⟨_, _, hscratch⟩, _⟩ := keeps shadowedState _ shadowedState_storedForm step_shadowedState
  rw [flowControl_shadowedState] at hscratch
  have wf0 : Memory.wf uncanonicalHall.scratch = true := hscratch 0
  rw [uncanonicalHall_not_wf] at wf0
  exact Bool.false_ne_true wf0

end Sys2Proof.Machine
end

