-- ==== Sys2Proof/Proofs/MatrixSteps.lean ====
section
/-! PROOFS. A K-step of a matrix product on INT8 operands (spec R64, R311, R312, R315): its cells take the exact sums of
products. -/

namespace Sys2Proof.Machine

/-! ## Integers of `n` bits -/

theorem sextNat_eq_toInt (x : Nat) {n : Nat} (hn : 0 < n) : sextNat x n = (BitVec.ofNat n x).toInt := by
  have hp : 2 ^ n = 2 * 2 ^ (n - 1) := by rw [← Nat.pow_succ']; congr 1; omega
  simp only [sextNat, BitVec.toInt, BitVec.toNat_ofNat]
  push_cast
  split <;> split <;> omega

/-- An integer that `n` bits can hold is read back from them, wherever those bits are kept. -/
theorem toInt_truncate_wrapInt {v : Int} {n w : Nat} (hnw : n ≤ w) (hn : 0 < n) (lo : -(2 ^ (n - 1)) ≤ v)
    (hi : v < 2 ^ (n - 1)) :
    ((BitVec.ofNat w (wrapInt v n)).truncate n).toInt = v := by
  have hp : (2 : Int) ^ n = 2 * 2 ^ (n - 1) := by rw [← pow_succ']; congr 1; omega
  have hv : ((wrapInt v n : Nat) : Int) = v % 2 ^ n := Int.toNat_of_nonneg (Int.emod_nonneg _ (by positivity))
  rw [BitVec.truncate_eq_setWidth, BitVec.setWidth_ofNat_of_le hnw, BitVec.toInt_ofNat', hv]
  rw [show ((2 : Int) ^ n) = ((2 ^ n : Nat) : Int) by push_cast; rfl, Int.emod_bmod]
  apply Int.bmod_eq_of_le <;> push_cast <;> omega

/-- The low 48 bits of a cell register as an integer (R64). -/
def MxTile.int (y : MxTile) (i j : Nat) : Int := ((mget y.cells (64 * i + j) 0).truncate 48).toInt

/-- The INT8 element at a position of a latch (R311). -/
def MxLatch.int (l : MxLatch) (q : Nat) : Int := ((l.elems.getD q 0).truncate 8).toInt

theorem sextNat_cell (y : MxTile) (i j : Nat) : sextNat (mget y.cells (64 * i + j) 0).toNat 48 = y.int i j :=
  sextNat_eq_toInt _ (by decide)

theorem operandInt_int8 {e : Tensor} (he : e.fmt? = some .int8) (l : MxLatch) (q : Nat) :
    operandInt e false (l.elems.getD q 0) = l.int q := by
  have hbits : e.bits = 8 := by simp [Tensor.bits, Tensor.fmt, he, Fmt.bits]
  rw [operandInt, hbits, sextNat_eq_toInt _ (by decide)]
  simp only [Bool.false_eq_true, if_false, nbits, pow_zero, Nat.div_one]
  exact congrArg BitVec.toInt (BitVec.eq_of_toNat_eq (by simp))

theorem MxLatch.int_mul_bound (la lb : MxLatch) (p q : Nat) :
    -(2 ^ 14) ≤ la.int p * lb.int q ∧ la.int p * lb.int q ≤ 2 ^ 14 := by
  have bound (l : MxLatch) (q : Nat) : |l.int q| ≤ 2 ^ 7 :=
    abs_le.2 ⟨BitVec.le_toInt _, (BitVec.toInt_lt (x := (l.elems.getD q 0).truncate 8)).le⟩
  refine abs_le.1 ?_
  calc |la.int p * lb.int q| = |la.int p| * |lb.int q| := abs_mul _ _
    _ ≤ 2 ^ 7 * 2 ^ 7 := mul_le_mul (bound la p) (bound lb q) (abs_nonneg _) (by decide)
    _ = 2 ^ 14 := by norm_num

/-! ## Sums of chunks -/

theorem sum_range_bound (f : Nat → Int) {B : Int} (hf : ∀ k, -B ≤ f k ∧ f k ≤ B) (n : Nat) :
    -(n * B) ≤ ((List.range n).map f).sum ∧ ((List.range n).map f).sum ≤ n * B := by
  induction n with
  | zero => simp
  | succ n ih =>
    have := hf n
    simp only [List.range_succ, List.map_append, List.sum_append, List.map_singleton, List.sum_singleton, Nat.cast_succ, add_mul]
    omega

/-- The sum over chunks of 8 is the sum over all. -/
theorem sum_chunks (p : Nat → Int) (n : Nat) :
    ((List.range n).map fun c => ((List.range 8).map fun k => p (8 * c + k)).sum).sum = ((List.range (8 * n)).map p).sum := by
  induction n with
  | zero => rfl
  | succ n ih =>
    rw [List.range_succ (n := n), List.map_append, List.sum_append, ih, show 8 * (n + 1) = 8 * n + 8 by omega, List.range_add,
      List.map_append, List.sum_append, List.map_map, List.map_singleton, List.sum_singleton]
    rfl

theorem sat48_of_mem {v : Int} (lo : -(2 ^ 47) ≤ v) (hi : v < 2 ^ 47) : sat48 v = (v, false) := by
  have : clampInt v (-(2 ^ 47)) (2 ^ 47 - 1) = v := by
    unfold clampInt
    rw [if_neg (by omega), if_neg (by omega)]
  simp only [sat48, this, bne_self_eq_false]

/-- Chunks whose partial sums keep within 48 bits are added without saturation (R64). -/
theorem foldl_sat48 (f : Nat → Int) (v : Int) (n : Nat)
    (hf : ∀ m, m ≤ n → -(2 ^ 47) ≤ v + ((List.range m).map f).sum ∧ v + ((List.range m).map f).sum < 2 ^ 47) :
    (List.range n).foldl (fun (acc : Int × Bool) c => ((sat48 (acc.1 + f c)).1, acc.2 || (sat48 (acc.1 + f c)).2)) (v, false)
      = (v + ((List.range n).map f).sum, false) := by
  induction n with
  | zero => simp
  | succ n ih =>
    obtain ⟨lo, hi⟩ := hf (n + 1) le_rfl
    have e : v + ((List.range (n + 1)).map f).sum = v + ((List.range n).map f).sum + f n := by simp [List.range_succ, add_assoc]
    rw [e] at lo hi
    rw [List.range_succ, List.foldl_append, ih fun m hm => hf m (by omega), ← List.range_succ, e]
    simp [sat48_of_mem lo hi]

/-- A cell within ±2^46 takes the exact sum of 64 products of INT8 elements. -/
theorem intCell_exact {a b : Nat → Int} {cell : Nat} (hab : ∀ k, -(2 ^ 14) ≤ a k * b k ∧ a k * b k ≤ 2 ^ 14)
    (hc : -(2 ^ 46) ≤ sextNat cell 48 ∧ sextNat cell 48 ≤ 2 ^ 46) :
    intCell a b cell = (wrapInt (sextNat cell 48 + ((List.range 64).map fun k => a k * b k).sum) 48, false) := by
  have chunk (c : Nat) := sum_range_bound (fun k => a (8 * c + k) * b (8 * c + k)) (fun k => hab (8 * c + k)) 8
  have fold := foldl_sat48 (fun c => ((List.range 8).map fun k => a (8 * c + k) * b (8 * c + k)).sum) (sextNat cell 48) 8
    fun m hm => by
      have := sum_range_bound _ chunk m
      push_cast at this
      omega
  rw [sum_chunks fun k => a k * b k] at fold
  unfold intCell
  simp only [fold]

/-! ## Cells of a tile -/

theorem mget_filterMap (f : Nat → Nat) (l : List Nat) (q : Nat) :
    mget (l.filterMap fun q => if f q = 0 then none else some (q, BitVec.ofNat 64 (f q))) q 0
      = if q ∈ l then BitVec.ofNat 64 (f q) else 0 := by
  induction l with
  | nil => rfl
  | cons k l ih =>
    rw [List.filterMap_cons]
    by_cases hk : q = k
    · subst hk
      by_cases h0 : f q = 0
      · rw [if_pos h0, ih, h0]
        simp
      · rw [if_neg h0, mget, if_pos rfl, if_pos List.mem_cons_self]
    · have hmem : q ∈ k :: l ↔ q ∈ l := by simp [hk]
      by_cases h0 : f k = 0
      · simp only [if_pos h0, ih, hmem]
      · simp only [if_neg h0, mget, if_neg hk, ih, hmem]

theorem mget_cellsOf (f : Nat → Nat) {q : Nat} (hq : q < 4096) : mget (cellsOf f) q 0 = BitVec.ofNat 64 (f q) :=
  (mget_filterMap f _ q).trans (if_pos (List.mem_range.2 hq))

/-! ## The tile a product accumulates in (R315) -/

/-- What the operations on tiles leave of a node: its latches, its SAT flag, the number of its tiles, and no error where there
was none. -/
structure MxNode.OnlyTiles (n m : MxNode) : Prop where
  latA : m.latA = n.latA
  latB : m.latB = n.latB
  sat : m.sat = n.sat
  length : m.tiles.length = n.tiles.length
  sound : n.badElem = [] → m.badElem = []

theorem MxNode.OnlyTiles.refl (n : MxNode) : n.OnlyTiles n := ⟨rfl, rfl, rfl, rfl, id⟩

theorem MxNode.OnlyTiles.trans {n m k : MxNode} (h : n.OnlyTiles m) (g : m.OnlyTiles k) : n.OnlyTiles k :=
  ⟨g.latA.trans h.latA, g.latB.trans h.latB, g.sat.trans h.sat, g.length.trans h.length, g.sound ∘ h.sound⟩

theorem MxNode.onlyTiles_freshTile (n : MxNode) (t : Nat) (x : MxTile) : n.OnlyTiles (n.freshTile t x) :=
  ⟨rfl, rfl, rfl, List.length_set, fun h => by simp [freshTile, h]⟩

theorem MxNode.onlyTiles_clearTile (n : MxNode) (t : Nat) : n.OnlyTiles (n.clearTile t) := by
  dsimp only [clearTile]
  have first := n.onlyTiles_freshTile t MxTile.zero
  split
  · exact first.trans (onlyTiles_freshTile _ _ _)
  · split
    · exact first.trans (onlyTiles_freshTile _ _ _)
    · exact first

theorem MxNode.tile_setTile_self {n : MxNode} {t : Nat} (x : MxTile) (ht : t < n.tiles.length) : (n.setTile t x).tile t = x := by
  simp [tile, setTile, ht]

theorem MxNode.tile_freshTile_self {n : MxNode} {t : Nat} (x : MxTile) (ht : t < n.tiles.length) : (n.freshTile t x).tile t = x :=
  tile_setTile_self x ht

/-- A K-step adds to the cells that stand: a step has gone before, or the word accumulates in an INT tile. -/
def MxNode.GoesOn (n : MxNode) (b : MxBusy) (t : Nat) (accum : Bool) : Prop :=
  b.step ≠ 0 ∨ (accum = true ∧ (n.tile t).kind = .int)

/-- The node whose tile an INT K-step then adds to: the first step of a word prepares the tile. -/
def MxNode.intStart (n : MxNode) (b : MxBusy) (t : Nat) (accum lens : Bool) : MxNode :=
  if b.step ≠ 0 then n
  else if accum ∧ (n.tile t).kind = .int then n.freshTile t { n.tile t with lens := (n.tile t).lens || lens }
  else (n.clearTile t).freshTile t ⟨.int, lens || (accum && (n.tile t).lens), []⟩

theorem MxNode.putTile_eq_freshTile (n : MxNode) (t : Nat) {x : MxTile} (hx : x.kind ≠ .f64) : n.putTile t x = n.freshTile t x :=
  if_neg hx

theorem MxNode.intStart_eq_putTile (n : MxNode) (b : MxBusy) (t : Nat) (accum lens : Bool) :
    n.intStart b t accum lens = if b.step ≠ 0 then n
      else if accum ∧ (n.tile t).kind = .int then n.putTile t { n.tile t with lens := (n.tile t).lens || lens }
      else (n.clearTile t).putTile t ⟨.int, lens || (accum && (n.tile t).lens), []⟩ := by
  unfold intStart
  congr 1
  split
  next hacc => exact (n.putTile_eq_freshTile t (by simp [hacc.2])).symm
  next => exact ((n.clearTile t).putTile_eq_freshTile t (by simp)).symm

theorem MxNode.onlyTiles_intStart (n : MxNode) (b : MxBusy) (t : Nat) (accum lens : Bool) :
    n.OnlyTiles (n.intStart b t accum lens) := by
  unfold intStart
  split
  · exact .refl n
  · split
    · exact onlyTiles_freshTile _ _ _
    · exact (n.onlyTiles_clearTile t).trans (onlyTiles_freshTile _ _ _)

/-- The tile of a step that goes on keeps its cells. -/
theorem MxNode.intStart_goesOn {n : MxNode} {b : MxBusy} {t : Nat} {accum : Bool} (lens : Bool) (ht : t < n.tiles.length)
    (hkind : b.step ≠ 0 → (n.tile t).kind = .int) (hg : n.GoesOn b t accum) :
    ((n.intStart b t accum lens).tile t).kind = .int ∧ ((n.intStart b t accum lens).tile t).cells = (n.tile t).cells := by
  unfold intStart
  split
  next hstep => exact ⟨hkind hstep, rfl⟩
  next hstep =>
    have hacc : accum = true ∧ (n.tile t).kind = .int := hg.resolve_left hstep
    rw [if_pos hacc, tile_freshTile_self _ ht]
    exact ⟨hacc.2, rfl⟩

/-- The tile of a step that begins anew has cells of 0. -/
theorem MxNode.intStart_new {n : MxNode} {b : MxBusy} {t : Nat} {accum : Bool} (lens : Bool) (ht : t < n.tiles.length)
    (hg : ¬ n.GoesOn b t accum) :
    ((n.intStart b t accum lens).tile t).kind = .int ∧ ((n.intStart b t accum lens).tile t).cells = [] := by
  obtain ⟨hstep, hacc⟩ := not_or.1 hg
  unfold intStart
  rw [if_neg hstep, if_neg hacc, tile_freshTile_self _ (by rwa [(n.onlyTiles_clearTile t).length])]
  exact ⟨rfl, rfl⟩

/-! ## The K-step -/

/-- The new value of cell `q` in a node without elements in error, and whether it saturates. -/
def MxNode.intResult (n : MxNode) (b : MxBusy) (t : Nat) (ta tr : Bool) (q : Nat) : Nat × Bool :=
  intCell (fun k => operandInt b.entA false (n.latA.elems.getD (posA ta (q / 64) k) 0))
    (fun k => operandInt b.entB false (n.latB.elems.getD (posB tr k (q % 64)) 0)) (mget (n.tile t).cells q 0).toNat

theorem MxNode.logSide_sound {n : MxNode} (hn : n.badElem = []) (side tid step wix : Nat) (place : Nat → Nat × Nat) :
    n.logSide side tid step wix place = n := by
  simp [logSide, hn]

theorem MxNode.badCells_sound {n : MxNode} (hn : n.badElem = []) (t : Nat) : n.badCells t = [] := by
  simp [badCells, hn]

theorem MxNode.badAt_sound {n : MxNode} (hn : n.badElem = []) (side q : Nat) : n.badAt side q = false := by
  simp [badAt, hn]

/-- What an INT K-step does in a node without elements in error. -/
theorem mxStep_int {n : MxNode} {b : MxBusy} (hk : mxKind b.entA b.entB = some .int) (hn : n.badElem = []) (t : Nat)
    (accum ta tr lens : Bool) (tidA tidB : Nat) :
    mxStep n b t accum ta tr lens tidA tidB =
      let m := n.intStart b t accum lens
      { m.setTile t { m.tile t with cells := cellsOf fun q => (m.intResult b t ta tr q).1 } with
        sat := m.sat || (List.range 4096).any fun q => (m.intResult b t ta tr q).2
        latA := ⟨[], [], m.latA.stream⟩
        latB := ⟨[], [], m.latB.stream⟩
        badElem := []
        busy := some { b with step := b.step + 1, count := 0 } } := by
  have hm := (n.onlyTiles_intStart b t accum lens).sound hn
  unfold mxStep
  simp only [hk, Option.getD_some]
  rw [← MxNode.intStart_eq_putTile]
  generalize n.intStart b t accum lens = m at hm ⊢
  simp only [MxNode.logSide_sound hm, MxNode.badCells_sound hm, mxCell, MxNode.badAt_sound hm, hm, List.foldl_nil, List.filter_nil,
    List.contains_nil, Bool.false_eq_true, if_false]
  rfl

/-- The exact sum of products that a K-step adds to cell (i, j) (R311, R315). -/
def MxNode.dot (n : MxNode) (ta tr : Bool) (i j : Nat) : Int :=
  ((List.range 64).map fun k => n.latA.int (posA ta i k) * n.latB.int (posB tr k j)).sum

theorem MxNode.dot_bound (n : MxNode) (ta tr : Bool) (i j : Nat) : -(2 ^ 20) ≤ n.dot ta tr i j ∧ n.dot ta tr i j ≤ 2 ^ 20 :=
  sum_range_bound _ (fun k => n.latA.int_mul_bound n.latB (posA ta i k) (posB tr k j)) 64

/-- INT8 operands: the formats of both entries. -/
structure MxBusy.Int8 (b : MxBusy) : Prop where
  fmtA : b.entA.fmt? = some .int8
  fmtB : b.entB.fmt? = some .int8

theorem MxBusy.Int8.kind {b : MxBusy} (hb : b.Int8) : mxKind b.entA b.entB = some .int := by
  simp [mxKind, Tensor.fmt, hb.fmtA, hb.fmtB, mxFloat]

/-- A cell within ±2^46 takes its exact sum of products. -/
theorem MxNode.intResult_exact {n : MxNode} {b : MxBusy} (hb : b.Int8) {t : Nat} (ta tr : Bool) {i j : Nat} (hj : j < 64)
    (hc : -(2 ^ 46) ≤ (n.tile t).int i j ∧ (n.tile t).int i j ≤ 2 ^ 46) :
    n.intResult b t ta tr (64 * i + j) = (wrapInt ((n.tile t).int i j + n.dot ta tr i j) 48, false) := by
  have hi : (64 * i + j) / 64 = i := by omega
  have hm : (64 * i + j) % 64 = j := by omega
  rw [← sextNat_cell] at hc ⊢
  unfold intResult
  simp only [operandInt_int8 hb.fmtA, operandInt_int8 hb.fmtB, hi, hm]
  exact intCell_exact (fun k => MxLatch.int_mul_bound _ _ _ _) hc

/-- The tile a K-step adds to has cells within ±2^46, so that no chunk saturates. -/
def MxTile.Small (y : MxTile) : Prop := ∀ i j, i < 64 → j < 64 → -(2 ^ 46) ≤ y.int i j ∧ y.int i j ≤ 2 ^ 46

/-- What a K-step on INT8 operands leaves: each cell the one before plus its sum of products, and empty latches. -/
structure MxNode.Multiplied (n : MxNode) (b : MxBusy) (t : Nat) (ta tr : Bool) (before : MxTile) (m : MxNode) : Prop where
  kind : (m.tile t).kind = .int
  cells : ∀ i j, i < 64 → j < 64 → (m.tile t).int i j = before.int i j + n.dot ta tr i j
  latA : m.latA.elems = []
  latB : m.latB.elems = []
  sat : m.sat = n.sat
  busy : m.busy = some { b with step := b.step + 1, count := 0 }

theorem mxStep_multiplied {n : MxNode} {b : MxBusy} (hb : b.Int8) (hn : n.badElem = []) {t : Nat} (ht : t < n.tiles.length)
    (accum ta tr lens : Bool) (tidA tidB : Nat) (hkind : ((n.intStart b t accum lens).tile t).kind = .int)
    (hs : ((n.intStart b t accum lens).tile t).Small) :
    n.Multiplied b t ta tr ((n.intStart b t accum lens).tile t) (mxStep n b t accum ta tr lens tidA tidB) := by
  rw [mxStep_int hb.kind hn]
  have only := n.onlyTiles_intStart b t accum lens
  have hdot (i j : Nat) : (n.intStart b t accum lens).dot ta tr i j = n.dot ta tr i j := by
    simp only [MxNode.dot, only.latA, only.latB]
  have hsat := only.sat
  have htm : t < (n.intStart b t accum lens).tiles.length := by rwa [only.length]
  generalize n.intStart b t accum lens = m at hkind hs hdot hsat htm ⊢
  have result (i j : Nat) (hi : i < 64) (hj : j < 64) := MxNode.intResult_exact (n := m) hb (t := t) ta tr hj (hs i j hi hj)
  refine ⟨?_, fun i j hi hj => ?_, rfl, rfl, ?_, rfl⟩
  · exact (congrArg MxTile.kind (MxNode.tile_setTile_self _ htm)).trans hkind
  · have := hs i j hi hj
    have := n.dot_bound ta tr i j
    refine (congrArg (MxTile.int · i j) (MxNode.tile_setTile_self _ htm)).trans ?_
    rw [MxTile.int, mget_cellsOf _ (by omega), result i j hi hj, hdot]
    exact toInt_truncate_wrapInt (by decide) (by decide) (by omega) (by omega)
  · have unsaturated : (List.range 4096).any (fun q => (m.intResult b t ta tr q).2) = false := by
      rw [List.any_eq_false]
      intro q hq
      have hq := List.mem_range.1 hq
      have := result (q / 64) (q % 64) (by omega) (by omega)
      rw [show 64 * (q / 64) + q % 64 = q by omega] at this
      simp [this]
    simp only [unsaturated, Bool.or_false, hsat]

/-- Both cases of `mxStep_multiplied`: a step that goes on adds to the tile that stands, another to cells of 0. -/
theorem mxStep_multiplies {n : MxNode} {b : MxBusy} (hb : b.Int8) (hn : n.badElem = []) {t : Nat} (ht : t < n.tiles.length)
    {accum : Bool} (hkind : b.step ≠ 0 → (n.tile t).kind = .int) (hs : n.GoesOn b t accum → (n.tile t).Small)
    (ta tr lens : Bool) (tidA tidB : Nat) :
    ∃ before : MxTile, (n.GoesOn b t accum → before.cells = (n.tile t).cells) ∧ (¬ n.GoesOn b t accum → before.cells = [])
      ∧ n.Multiplied b t ta tr before (mxStep n b t accum ta tr lens tidA tidB) := by
  by_cases hg : n.GoesOn b t accum
  · obtain ⟨hk, hc⟩ := MxNode.intStart_goesOn lens ht hkind hg
    refine ⟨_, fun _ => hc, absurd hg, mxStep_multiplied hb hn ht accum ta tr lens tidA tidB hk ?_⟩
    simpa only [MxTile.Small, MxTile.int, hc] using hs hg
  · obtain ⟨hk, hc⟩ := MxNode.intStart_new lens ht hg
    refine ⟨_, (absurd · hg), fun _ => hc, mxStep_multiplied hb hn ht accum ta tr lens tidA tidB hk fun i j _ _ => ?_⟩
    simp [MxTile.int, hc, mget]

/-! ## The words MMA and MMAG -/

@[simp] theorem Hall.node_setNode_self (x : Hall) (m : Nat) (n : MxNode) : (x.setNode m n).node m = n := mget_mset_self _ _ _ _

theorem State.node_updNode_self (s : State) (h m : Nat) (f : MxNode → MxNode) :
    ((s.updNode h m f).hall h).node m = f ((s.hall h).node m) := by
  simp [updNode]

theorem State.onlyHall_updNode (s : State) (h m : Nat) (f : MxNode → MxNode) : OnlyHall h s (s.updNode h m f) :=
  ⟨rfl, fun _ hg => s.hall_updHall_ne _ hg⟩

/-- A product word that is under way goes on (R309): only a result word may stand beside it. -/
theorem mxWord_product {s : State} {h m : Nat} {i : Instr} {b : MxBusy} (hc : s.cur = .mx h m)
    (hb : ((s.hall h).node m).busy = some b) (hi : resultWord i = none) (ta tb tc : Nat)
    (go : Nat → Nat → MxBusy → State → State) :
    mxWord i ta tb tc go s = go h m b s := by
  simp [mxWord, hc, MxNode.wordOf, hb, hi]

theorem mmaGo_full {s : State} {h m : Nat} {b : MxBusy} {ks : Nat} (hb : b.step ≠ ks)
    (ha : ((s.hall h).node m).latA.elems.length = 4096) (hl : ((s.hall h).node m).latB.elems.length = 4096)
    (t : Nat) (accum ta tr al bl : Bool) (tidA tidB : Nat) (ct : Bool) :
    mmaGo t ks accum ta tr al bl tidA tidB ct h m b s
      = s.updNode h m fun n => mxStep n b t accum ta tr (al && bl) tidA tidB := by
  simp [mmaGo, hb, ha, hl]

theorem mmagGo_full {s : State} {h m : Nat} {b : MxBusy} {ks : Nat} (hb : b.step ≠ ks) (hi : b.idx.length = 64)
    (ha : ((s.hall h).node m).latA.elems.length = 4096) (hl : ((s.hall h).node m).latB.elems.length = 4096)
    (t : Nat) (accum tr bl : Bool) (tidA tidB : Nat) (ct : Bool) :
    mmagGo t ks accum tr bl tidA tidB ct h m b s
      = s.updNode h m fun n => mxStep n b t accum false tr false tidA tidB := by
  simp [mmagGo, hb, hi, ha, hl]

/-- Settles O33: a K-step with full latches is `mxStep`, which multiplies by `mxStep_multiplies`. -/
theorem matrixStepMultiplies : Obligations.MatrixStepMultiplies := by
  intro s h m acc accum tr al bl ta ct ida idb ks b hc n hbusy hstep hfa hfb hla hlb hbad htiles hkind tile goesOn cell
    elemA elemB steps
  have ht : acc.val < n.tiles.length := by rw [htiles]; exact acc.isLt
  have run {i : Instr} {ta lens : Bool} {tidA tidB : Nat}
      (hi : exec i s = .next (s.updNode h m fun n => mxStep n b acc.val accum ta tr lens tidA tidB)) : steps i ta := by
    intro hs
    obtain ⟨before, hold, hnew, hm⟩ := mxStep_multiplies ⟨hfa, hfb⟩ hbad ht hkind hs ta tr lens tidA tidB
    refine ⟨_, hi, s.onlyHall_updNode h m _, ?_⟩
    rw [State.node_updNode_self]
    refine ⟨hm.kind, fun i j hi hj => ⟨fun hg => ?_, fun hg => ?_⟩, hm.latA, hm.latB, hm.sat, hm.busy⟩
    · exact (hm.cells i j hi hj).trans (by rw [MxTile.int, hold hg]; rfl)
    · exact (hm.cells i j hi hj).trans (by rw [MxTile.int, hnew hg]; exact Int.zero_add _)
  exact ⟨run (congrArg Host.Outcome.next
      ((mxWord_product hc hbusy rfl _ _ _ _).trans (mmaGo_full hstep hla hlb _ _ _ _ _ _ _ _ _))),
    fun hidx => run (congrArg Host.Outcome.next
      ((mxWord_product hc hbusy rfl _ _ _ _).trans (mmagGo_full hstep hidx hla hlb _ _ _ _ _ _ _)))⟩

end Sys2Proof.Machine
end

