-- ==== Sys2Proof/Proofs/FacetFirings.lean ====
section
/-! SUPPORT. A rule that fires without a fault (spec R13, R215, R217, R221): its effect on the hall, its predicate and its
dequeues, said once for every plan and then for every element instruction. -/

namespace Sys2Proof.Machine

/-! ## What a firing changes beside its hall -/

/-- A result that succeeds, and changes no more of `s` than the access records. -/
def OnlyRecords (s : State) (r : Res Unit) : Prop := ∃ l, r = .ok () { s with recs := l }

theorem OnlyRecords.andThen {s : State} {r : Res Unit} {k : Unit → State → Res Unit} (hr : OnlyRecords s r)
    (hk : ∀ l, OnlyRecords s (k () { s with recs := l })) : OnlyRecords s (r.andThen k) := by
  obtain ⟨l, rfl⟩ := hr
  exact hk l

/-- With race detection off the plain events of a firing change no more than the access records (R384). -/
theorem raceRanges_off {s : State} {k : Ctx} {h : Nat} (hk : s.ctx? (s.ctxOf h) = some k) (hr : k.racectl.getLsbD 0 = false)
    (n : Nat) (ps : List (Nat × Nat × Bool)) : ∀ l, OnlyRecords s (raceRanges { s with recs := l } h n ps) := by
  induction ps with
  | nil => exact fun l => ⟨l, rfl⟩
  | cons p ps ih =>
    intro l
    have one (l : List AccRec) (e key va : Nat) (bytes : BitVec 64) (w : Bool) :
        OnlyRecords s (raceCheck { s with recs := l } (s.ctxOf h) h e key va bytes w) :=
      raceCheck_off (s := { s with recs := l }) hk hr h e key va bytes w
    refine OnlyRecords.andThen (one l _ _ _ _ _) fun l => OnlyRecords.andThen ?_ ih
    split
    · exact ⟨l, rfl⟩
    · exact one l _ _ _ _ _

/-- The writes of a firing end no more than what releases had left at words (R354). -/
theorem foldl_endCarry (key : Nat × Nat → Nat) (rs : List (Nat × Nat)) :
    ∀ s : State, ∃ l, (∀ c ∈ l, c ∈ s.carries) ∧
      rs.foldl (fun s r => endCarry s (key r) r.2) s = { s with carries := l } := by
  induction rs with
  | nil => exact fun s => ⟨s.carries, fun _ h => h, rfl⟩
  | cons r rs ih =>
    intro s
    obtain ⟨l, hl, he⟩ := ih (endCarry s (key r) r.2)
    exact ⟨l, fun c hc => List.mem_of_mem_filter (hl c hc), he⟩

theorem badRead_sound {x : Hall} (hx : x.bad = []) (n : Nat) (rs : List (Nat × Nat)) : badRead x n rs = none := by
  simp [badRead, hx]

/-! ## Firing -/

/-- A plan that meets no fault, acquires nothing and logs nothing, whose effect is `put` on its hall. -/
structure Plan.Sound (p : Plan) (h : Nat) (put : Hall → Hall) : Prop where
  ready : p.ready = true
  align : p.align = none
  lens : p.lens = false
  joins : p.joins = []
  stream : p.stream = none
  event : p.event = none
  apply : p.apply = fun s => s.updHall h put

/-- A rule whose plan is sound fires. -/
theorem fire_sound {s : State} {h n slot need : Nat} {f : FHdr} {srcs : List Opnd} {k : Ctx} {put : Hall → Hall}
    {plan : Hall → Nat → Nat → Nat → Plan} (w : AtRule s h n slot f need srcs k)
    (hp : (plan (s.hall h) h n slot).Sound h put) :
    s.Fired h n slot f srcs (plan (s.hall h) h n slot).c put (fire f need srcs plan s) := by
  let x := s.hall h
  let p := plan x h n slot
  obtain ⟨r, hr⟩ : OnlyRecords s (raceRanges s h n p.plain) := raceRanges_off w.ctx w.races n p.plain s.recs
  let place (q : Nat × Nat) : Nat := keyOfScratch h (bankOff x n q.1)
  obtain ⟨l, hl, he⟩ := foldl_endCarry place p.writes { s with recs := r }
  have fired : fire f need srcs plan s = finishFiring f srcs h n slot p.c (x.firingHeld n slot)
      ((p.writes.foldl (fun s q => endCarry s (place q) q.2) { s with recs := r }).updHall h put) := by
    unfold fire
    simp only [w.cur, w.chans, w.present, w.heads, hp.ready, hp.align, hp.lens, hp.joins, hp.stream, hp.event, hp.apply,
      badRead_sound w.sound, joinWords, List.foldl_nil, hr, Bool.not_true, Bool.or_self, Bool.false_eq_true, if_false,
      Option.map_none, Option.or_none, p, x, place]
  refine ⟨r, l, hl, fired.trans ?_⟩
  rw [he]

/-! ## Element instructions -/

/-- Where no control token leads, an element instruction works on elements. -/
theorem elemPlan_data {f : FHdr} {r : ElemRule} {x : Hall} {n : Nat}
    (hd : ∀ t, (x.facet n).lead r.srcs = some t → isData t = true) (h slot : Nat) :
    elemPlan f r x h n slot = elemPlan.go f r x h n (x.facet n) := by
  dsimp only [elemPlan]
  split
  next t ht => rw [if_pos (hd t ht)]
  next => rfl

/-- A control token that leads passes through instead (R215). -/
theorem elemPlan_pass {f : FHdr} {r : ElemRule} {x : Hall} {n : Nat} {t : EReg} (ht : (x.facet n).lead r.srcs = some t)
    (hd : isData t = false) (h slot : Nat) : elemPlan f r x h n slot = passPlan r.d r.srcs t x h n r.fw := by
  unfold elemPlan
  simp only [ht, hd, Bool.false_eq_true, if_false]

/-- The elements that an element instruction computes from its sources. -/
def ElemRule.result (r : ElemRule) (x : Hall) (n : Nat) : List Nat :=
  let sh := (x.facet n).shape r.srcs r.w0
  r.f sh (r.srcs.map (srcElems x n (x.facet n) r.imm sh))

/-- The condition of a firing with these result elements (R222). -/
def ElemRule.holds (r : ElemRule) (es : List Nat) : Bool :=
  match r.cond with
  | some c => c es
  | none => true

/-- An element instruction on clean sources writes its result. -/
theorem fireElem_data {s : State} {h n slot : Nat} {f : FHdr} {r : ElemRule} {k : Ctx} (w : AtRule s h n slot f 1 r.srcs k)
    (hc : CleanElements (s.hall h) n r.d r.srcs r.fw (((s.hall h).facet n).shape r.srcs r.w0)
      (r.out (((s.hall h).facet n).shape r.srcs r.w0)).w) :
    let o := r.out (((s.hall h).facet n).shape r.srcs r.w0)
    let es := r.result (s.hall h) n
    s.Fired h n slot f r.srcs (r.holds es) (fun X => X.putDest n r.d (dataHdr o) (packElems o.w es) false) (fireElem f r s) := by
  intro o es
  have hp := elemPlan_data (f := f) hc.data h slot
  have hf := fire_sound (plan := elemPlan f r) w (put := fun X => X.putDest n r.d (dataHdr o) (packElems o.w es) false)
    (by
      rw [hp]
      exact ⟨rfl, hc.aligned, by simp [elemPlan.go, hc.lens], rfl, hc.stream, rfl, by simp only [elemPlan.go, hc.lens]; rfl⟩)
  rwa [hp] at hf

/-- A control token that leads passes through an element instruction (R215). -/
theorem fireElem_pass {s : State} {h n slot : Nat} {f : FHdr} {r : ElemRule} {k : Ctx} {t : EReg}
    (w : AtRule s h n slot f 1 r.srcs k)
    (ht : ((s.hall h).facet n).lead r.srcs = some t) (hd : isData t = false)
    (hs : ((s.hall h).facet n).streamFault r.srcs r.fw = none) :
    s.Fired h n slot f r.srcs false (fun X => X.putDest n r.d t.hdr t.pay.toNat t.lens) (fireElem f r s) := by
  have hp := elemPlan_pass (f := f) ht hd h slot
  have hf := fire_sound (plan := elemPlan f r) w (put := fun X => X.putDest n r.d t.hdr t.pay.toNat t.lens)
    (by rw [hp]; exact ⟨rfl, rfl, rfl, rfl, hs, rfl, rfl⟩)
  rwa [hp] at hf

end Sys2Proof.Machine
end

