-- ==== Sys2Proof/Proofs/FacetFloats.lean ====
section
/-! PROOFS. Floating-point rules of facets (spec R225 to R231, R235, R236). -/

namespace Sys2Proof.Machine

/-- What is claimed of a rule that writes the elements `fn` of its sources in the shape `out`, with condition `c`: of clean
sources, and of a control token that leads (R215). -/
def RuleFires (s : State) (h n slot : Nat) (f : FHdr) (k : Ctx) (d : Opnd) (i : Instr) (srcs : List Opnd) (w0 : Nat)
    (fw : Option Nat) (out : Shape → Shape) (c : List Nat → Bool) (fn : Shape → List (List Nat) → List Nat) : Prop :=
  AtRule s h n slot f 1 srcs k →
  let X := s.hall h
  let F := X.facet n
  let sh := F.shape srcs w0
  let es := fn sh (srcs.map (srcElems X n F 0 sh))
  (CleanElements X n d srcs fw sh (out sh).w → ∃ t, exec i s = .next t
    ∧ s.Fired h n slot f srcs (c es) (fun X => X.putDest n d (dataHdr (out sh)) (packElems (out sh).w es) false) t)
  ∧ (∀ t, F.lead srcs = some t → isData t = false → F.streamFault srcs fw = none → ∃ u, exec i s = .next u
    ∧ s.Fired h n slot f srcs false (fun X => X.putDest n d t.hdr t.pay.toNat t.lens) u)

/-- An element instruction fires as its rule says. -/
theorem ruleFires_of_fireElem {s : State} {h n slot : Nat} {f : FHdr} {k : Ctx} {i : Instr} {r : ElemRule} (himm : r.imm = 0)
    (hi : exec i s = .next (fireElem f r s)) :
    RuleFires s h n slot f k r.d i r.srcs r.w0 r.fw r.out r.holds r.f := by
  intro w X F sh es
  refine ⟨fun hc => ⟨_, hi, ?_⟩, fun t ht hd hs => ⟨_, hi, fireElem_pass w ht hd hs⟩⟩
  have hes : es = r.result X n := by simp only [es, ElemRule.result, himm]; rfl
  rw [hes]
  exact fireElem_data w hc

/-- `ruleFires_of_fireElem` for a statement that writes the result or the condition in other words. -/
theorem ruleFires_congr {s : State} {h n slot : Nat} {f : FHdr} {k : Ctx} {d : Opnd} {i : Instr} {srcs : List Opnd} {w0 : Nat}
    {fw : Option Nat} {out : Shape → Shape} {c c' : List Nat → Bool} {fn fn' : Shape → List (List Nat) → List Nat}
    (hr : RuleFires s h n slot f k d i srcs w0 fw out c fn) (hc : ∀ es, c es = c' es)
    (hf : ∀ xs, fn (((s.hall h).facet n).shape srcs w0) xs = fn' (((s.hall h).facet n).shape srcs w0) xs) :
    RuleFires s h n slot f k d i srcs w0 fw out c' fn' := by
  unfold RuleFires at hr ⊢
  simpa only [hc, hf] using hr

/-! ## Widths and signs -/

theorem ffmt_bits_pos (g : FFmt) : 0 < g.fmt.bits := by cases g <;> decide

theorem eight_dvd_ffmt_bits (g : FFmt) : 8 ∣ g.fmt.bits := by cases g <;> decide

/-- Elements are whole bytes where those of the default shape are (R210, R213). -/
theorem Facet.eight_dvd_shape_w (F : Facet) (srcs : List Opnd) {w0 : Nat} (h : 8 ∣ w0) : 8 ∣ (F.shape srcs w0).w := by
  unfold Facet.shape
  split
  · exact Nat.dvd_mul_right _ _
  · exact h

theorem nbit_top (x : Nat) {w : Nat} (hw : 0 < w) : nbit x (w - 1) = decide (2 ^ (w - 1) ≤ x % 2 ^ w) := by
  obtain ⟨v, rfl⟩ : ∃ v, w = v + 1 := ⟨w - 1, by omega⟩
  have hp := Nat.two_pow_pos v
  have hmod : x % 2 ^ v < 2 ^ v := Nat.mod_lt _ hp
  rw [nbit, Nat.add_sub_cancel, Nat.pow_succ, Nat.mod_mul, Bool.eq_iff_iff, beq_iff_eq, decide_eq_true_eq]
  rcases Nat.mod_two_eq_zero_or_one (x / 2 ^ v) with e | e <;> rw [e] <;> omega

/-- The greater of two elements of whole bytes (R236). -/
theorem minmaxN_max (u : Bool) {w : Nat} (hw : 8 ∣ w) (a b : Nat) : minmaxN true u (w / 8) a b =
    if (if u then decide (a < b) else decide (sextNat a w < sextNat b w)) then b else a := by
  rw [minmaxN, Nat.mul_div_cancel' hw]
  cases (if u then decide (a < b) else decide (sextNat a w < sextNat b w)) <;> rfl

/-- The lesser of two elements of whole bytes (R236). -/
theorem minmaxN_min (u : Bool) {w : Nat} (hw : 8 ∣ w) (a b : Nat) : minmaxN false u (w / 8) a b =
    if (if u then decide (a < b) else decide (sextNat a w < sextNat b w)) then a else b := by
  rw [minmaxN, Nat.mul_div_cancel' hw]
  cases (if u then decide (a < b) else decide (sextNat a w < sextNat b w)) <;> rfl

/-- FSGN on two operands: the magnitude of the first under a sign made of both (R228). -/
theorem signElem_eq (op : SgnOp) {w : Nat} (hw : 0 < w) (a b : Nat) :
    let sign (a : Nat) : Bool := decide (2 ^ (w - 1) ≤ a % 2 ^ w)
    signElem op w a b = a % 2 ^ (w - 1)
      + if (match op with | .cpy => sign b | .neg => !sign b | .xor => sign a != sign b | .abs => false) then 2 ^ (w - 1)
        else 0 := by
  cases op <;> simp only [signElem, nbit_top _ hw, b2n, ite_mul, one_mul, zero_mul]

theorem signElem_abs (w a : Nat) : signElem .abs w a 0 = a % 2 ^ (w - 1) := by simp [signElem, b2n]

theorem maskCond_eq (all : Bool) (es : List Nat) : maskCond all es = if all then es.all (· ≠ 0) else es.any (· ≠ 0) := by
  simp only [maskCond, bne, ne_eq, decide_not]
  rfl

theorem execFsgn_two {op : SgnOp} (hop : op ≠ .abs) (f : FHdr) (d x y : Opnd) (fmt : FFmt) (s : State) :
    execFsgn f d x y op fmt s = .next (fireElem f (fpRule d [x, y] fmt (map2 (signElem op fmt.fmt.bits))) s) := by
  simp only [execFsgn, if_neg hop]

/-- A comparison writes all ones where it holds, and its condition is over every element or any (R229). -/
theorem ruleFires_fcmp {s : State} {h n slot : Nat} {f : FHdr} {k : Ctx} {d x y : Opnd} {fmt : FFmt} (cond : FCond) (all : Bool) :
    RuleFires s h n slot f k d (.fcmp f d x y cond all fmt) [x, y] fmt.fmt.bits (some fmt.fmt.bits) id
      (fun es => if all then es.all (· ≠ 0) else es.any (· ≠ 0))
      (fun _ => map2 fun a b => maskElem fmt.fmt.bits (cond.holds (fmt.fmt.decode a) (fmt.fmt.decode b))) := by
  have hr := ruleFires_of_fireElem (s := s) (h := h) (n := n) (slot := slot) (f := f) (k := k) (i := .fcmp f d x y cond all fmt)
    (r := { fpRule d [x, y] fmt _ with cond := some (maskCond all) }) rfl rfl
  exact ruleFires_congr hr (maskCond_eq all) fun _ => rfl

/-- A reduction of one token to one element, in the tree of R67 (R236). -/
theorem ruleFires_treeRule {s : State} {h n slot : Nat} {f : FHdr} {k : Ctx} {d x : Opnd} {i : Instr} {fmt : FFmt} {int : Bool}
    (o o' : Nat → Nat → Nat → Nat) (hi : exec i s = .next (fireElem f (treeRule d x fmt int o) s))
    (ho : ∀ w a b, 8 ∣ w → o w a b = o' w a b) :
    RuleFires s h n slot f k d i [x] fmt.fmt.bits (if int then none else some fmt.fmt.bits) (fun sh => { sh with n := 1 })
      (fun _ => true) (fun sh xs => [treeReduce (o' sh.w) (lget xs 0)]) := by
  have w8 := Facet.eight_dvd_shape_w ((s.hall h).facet n) [x] (eight_dvd_ffmt_bits fmt)
  refine ruleFires_congr (ruleFires_of_fireElem (r := treeRule d x fmt int o) rfl hi) (fun _ => rfl) fun xs => ?_
  exact congrArg (fun o => [treeReduce o (lget xs 0)]) (funext₂ fun a b => ho _ a b w8)

/-- Settles O35: each rule is an element instruction, whose operation is the rounding of the exact result. -/
theorem facetFloatRulesFire : Obligations.FacetFloatRulesFire := by
  intro s h n slot f d x y z fmt int u all cond op g k X F fires e rn v w yes on1 on2 sign
  have one (i : Instr) (o : Nat → Nat) (hi : exec i s = .next (fireElem f (fpRule d [x] fmt (map1 o)) s)) : on1 i o :=
    ruleFires_of_fireElem (r := fpRule d [x] fmt (map1 o)) rfl hi
  have two (i : Instr) (o : Nat → Nat → Nat) (hi : exec i s = .next (fireElem f (fpRule d [x, y] fmt (map2 o)) s)) : on2 i yes o :=
    ruleFires_of_fireElem (r := fpRule d [x, y] fmt (map2 o)) rfl hi
  refine ⟨two _ _ rfl, two _ _ rfl, two _ _ rfl, ?ffma, two _ _ rfl, two _ _ rfl, fun hop => ?sgn, ?abs, ?cmp, one _ _ rfl,
    one _ _ rfl, one _ _ rfl, one _ _ rfl, one _ _ rfl, one _ _ rfl, one _ _ rfl, ?scl, ?trees⟩
  case ffma => exact ruleFires_of_fireElem (r := fpRule d [x, y, z] fmt (map3 (ffma fmt.fmt))) rfl rfl
  case sgn =>
    have := two (.fsgn f d x y op fmt) _ (execFsgn_two hop f d x y fmt s)
    rwa [show signElem op w = _ from funext₂ (signElem_eq op (ffmt_bits_pos fmt))] at this
  case abs =>
    have := one (.fsgn f d x y .abs fmt) (fun a => signElem .abs w a 0) rfl
    simpa only [signElem_abs] using this
  case cmp => exact ruleFires_fcmp cond all
  case scl =>
    exact ruleFires_of_fireElem
      (r := ⟨d, [x], 0, 32, some 32, fun sh => { sh with w := 8 }, fun _ => map1 (sclElem g), none⟩) rfl rfl
  case trees =>
    intro tree lt
    refine ⟨ruleFires_treeRule (i := .tsum f d x fmt int) (fun w => if int then addW w else fop2 e FVal.add)
        (fun w a b => if int then (a + b) % 2 ^ w else rn ((v a).add (v b))) rfl fun sw a b _ => ?_,
      ruleFires_treeRule (i := .tmax f d x fmt int u) (fun w => if int then minmaxN true u (w / 8) else fminmax e true)
        (fun w a b => if int then (if lt w a b then b else a) else fminmax e true a b) rfl fun sw a b hw => ?_,
      ruleFires_treeRule (i := .tmin f d x fmt int u) (fun w => if int then minmaxN false u (w / 8) else fminmax e false)
        (fun w a b => if int then (if lt w a b then a else b) else fminmax e false a b) rfl fun sw a b hw => ?_⟩
    · cases int <;> rfl
    · cases int
      exacts [rfl, minmaxN_max u hw a b]
    · cases int
      exacts [rfl, minmaxN_min u hw a b]

end Sys2Proof.Machine
end
